-- ==== Sys2Proof/Word.lean ====
section
/-! DEFINITION. The byte, the only word the block's own text handles: frames are byte strings (R195). Every other
quantity of the spec is an exact integer in a stated range, and is a Nat or an Int. -/

namespace Sys2Proof

/-- One byte of a frame. -/
abbrev Byte := BitVec 8

end Sys2Proof
end

