-- ==== Sys2Proof/Syntax.lean ====
section
/-! DEFINITION. The commands: one constructor of `Instr` per row of spec/opcode_table.json, with the operands the event
carries. Rows that make a block take its next piece of work carry none: their data stands in State (R26, R183). -/

namespace Sys2Proof

/-- The two ports of the part (00_scope.md, section 2). -/
inductive Port where
  | shop
  | office
  deriving DecidableEq, Repr

/-- A frame on the wire: the two Ethernet addresses, the 16-bit type field and the bytes after it (R195, R197). -/
structure Frame where
  ethDst : BitVec 48
  ethSrc : BitVec 48
  etherType : BitVec 16
  payload : List Byte
  deriving DecidableEq, Repr

/-- The commands of the block, in the order of the table. -/
inductive Instr where
  /-- SHOP_FRAME_ARRIVAL (R170): a frame arrives on the shop port. -/
  | shopFrameArrival (frame : Frame)
  /-- OFFICE_FRAME_ARRIVAL (R173): a frame arrives on the office port. -/
  | officeFrameArrival (frame : Frame)
  /-- FRAME_EGRESS (R176): a port is free to send. -/
  | frameEgress (port : Port)
  /-- LINK_DOWN (R169). -/
  | linkDown (port : Port)
  /-- LINK_UP (R169). -/
  | linkUp (port : Port)
  /-- PIN_RESET (R179). -/
  | pinReset
  /-- RESTART_RESET (R182). -/
  | restartReset
  /-- START_UP (R180). -/
  | startUp
  /-- INITIALISATION_COMPLETE (R181). -/
  | initialisationComplete
  /-- ISSUE (R39): the Posting Unit takes an ISSUE from the Ingress File. -/
  | issue
  /-- TOPUP (R41). -/
  | topup
  /-- SPEND (R43). -/
  | spend
  /-- ASK (R46). -/
  | ask
  /-- TRY (R48). -/
  | tryReq
  /-- RESERVE (R61). -/
  | reserve
  /-- CLAIM (R66). -/
  | claim
  /-- FREE (R69). -/
  | free
  /-- RETURN (R79). -/
  | returnReq
  /-- CANCEL (R85). -/
  | cancel
  /-- CONDITIONAL_POST (R117): the Position Table takes the post of the request in hand. -/
  | conditionalPost
  /-- CONDITIONAL_REVERSAL (R119): the Position Table takes the reversal of the CANCEL in hand. -/
  | conditionalReversal
  /-- CARD_SLOT_PLACEMENT (R17). -/
  | cardSlotPlacement
  /-- READ_CARD (R18). -/
  | readCard
  /-- SUSPEND_CARD (R19). -/
  | suspendCard
  /-- RESUME_CARD (R19). -/
  | resumeCard
  /-- RETIRE_CARD (R20). -/
  | retireCard
  /-- PURGE_CARD (R21). -/
  | purgeCard
  /-- EXTEND_CARD (R22). -/
  | extendCard
  /-- MOVE_BALANCE (R23). -/
  | moveBalance
  /-- SET_STATIONS (R186). -/
  | setStations
  /-- SET_TIMING (R187). -/
  | setTiming
  /-- SET_CLOCK (R188). -/
  | setClock
  /-- SET_MODE (R190). -/
  | setMode
  /-- READ_STATUS (R191). -/
  | readStatus
  /-- RESTART (R182). -/
  | restart
  /-- STORE_CLEAR (R192). -/
  | storeClear
  /-- LOCK_PRIVACY (R185). -/
  | lockPrivacy
  /-- WRITE_PROGRAM (R3). -/
  | writeProgram
  /-- READ_PROGRAM (R5). -/
  | readProgram
  /-- READ_JOURNAL (R77). -/
  | readJournal
  /-- WRITE_TERMS (R96). -/
  | writeTerms
  /-- READ_TERMS (R107). -/
  | readTerms
  /-- CLEAR_PAGE (R101). -/
  | clearPage
  /-- FIX_PAGE (R104). -/
  | fixPage
  /-- CLEAR_DIRECTORY (R105). -/
  | clearDirectory
  /-- WRITE_LANE (R110). -/
  | writeLane
  /-- READ_LANE (R112). -/
  | readLane
  /-- CLOSE_CYCLE (R121). -/
  | closeCycle
  /-- ADJUST_CARRY (R123). -/
  | adjustCarry
  /-- READ_POSITION (R124). -/
  | readPosition
  /-- READ_BATCH (R144). -/
  | readBatch
  /-- RELEASE_BATCH (R149). -/
  | releaseBatch
  /-- ADD_BUDGET (R150). -/
  | addBudget
  /-- RESOLVE (R163). -/
  | resolve
  /-- ABANDON (R164). -/
  | abandon
  /-- UNKNOWN_REQUEST (R184). -/
  | unknownRequest
  /-- CONFIRM (R160). -/
  | confirm
  /-- REJECT (R161). -/
  | reject
  /-- STRAY (R203). -/
  | stray
  /-- TIMER_EXPIRY (R158) of the timer of a window slot. -/
  | timerExpiry (slot : Nat)
  /-- PAGE_CLEAR_COMPLETION (R102). -/
  | pageClearCompletion
  /-- DIRECTORY_CLEAR_COMPLETION (R106). -/
  | directoryClearCompletion
  /-- STORE_CLEAR_COMPLETION (R193). -/
  | storeClearCompletion
  /-- CALCULATOR_STEP (R128). -/
  | calculatorStep
  /-- COMPUTATION_COMPLETION (R140). -/
  | computationCompletion
  /-- CLOCK_SECOND (R189). -/
  | clockSecond
  /-- HOLD_END (R189). -/
  | holdEnd
  /-- CLOCK_LOSS (R189). -/
  | clockLoss
  deriving DecidableEq, Repr

end Sys2Proof
end

