-- ==== Sys2Proof/WellFormed.lean ====
section
/-! DEFINITION. Which commands are well formed. The only operand with a range of its own is the window slot of a timer
expiry (R156: slots 0 to 15); a frame may hold any bytes, and judging them is the part's work (R170, R173, R197). -/

namespace Sys2Proof

/-- The command's operands lie in the ranges the spec gives them. -/
def Instr.wellFormed : Instr → Bool
  | .shopFrameArrival _ => true
  | .officeFrameArrival _ => true
  | .frameEgress _ => true
  | .linkDown _ => true
  | .linkUp _ => true
  | .pinReset => true
  | .restartReset => true
  | .startUp => true
  | .initialisationComplete => true
  | .issue => true
  | .topup => true
  | .spend => true
  | .ask => true
  | .tryReq => true
  | .reserve => true
  | .claim => true
  | .free => true
  | .returnReq => true
  | .cancel => true
  | .conditionalPost => true
  | .conditionalReversal => true
  | .cardSlotPlacement => true
  | .readCard => true
  | .suspendCard => true
  | .resumeCard => true
  | .retireCard => true
  | .purgeCard => true
  | .extendCard => true
  | .moveBalance => true
  | .setStations => true
  | .setTiming => true
  | .setClock => true
  | .setMode => true
  | .readStatus => true
  | .restart => true
  | .storeClear => true
  | .lockPrivacy => true
  | .writeProgram => true
  | .readProgram => true
  | .readJournal => true
  | .writeTerms => true
  | .readTerms => true
  | .clearPage => true
  | .fixPage => true
  | .clearDirectory => true
  | .writeLane => true
  | .readLane => true
  | .closeCycle => true
  | .adjustCarry => true
  | .readPosition => true
  | .readBatch => true
  | .releaseBatch => true
  | .addBudget => true
  | .resolve => true
  | .abandon => true
  | .unknownRequest => true
  | .confirm => true
  | .reject => true
  | .stray => true
  | .timerExpiry slot => decide (slot < 16)
  | .pageClearCompletion => true
  | .directoryClearCompletion => true
  | .storeClearCompletion => true
  | .calculatorStep => true
  | .computationCompletion => true
  | .clockSecond => true
  | .holdEnd => true
  | .clockLoss => true

end Sys2Proof
end

