-- ==== Sys2Proof/Decode.lean ====
section
/-! DEFINITION. What command a word spells. spec/opcode_table.json gives no row any bits (its "fields" are empty and it has
no fixed bits): the rows are events and steps, not encodings. So no word spells a command. -/

namespace Sys2Proof

/-- The command that the `nbits` bits of `w` spell: none, for every word. -/
def decodeTableWord (_nbits _w : Nat) : Option Instr := none

end Sys2Proof
end

