-- ==== Sys2Proof/Config.lean ====
section
/-! DEFINITION. The sizes the spec fixes (00_scope.md section 6 and the rules named), and the values it leaves open, which
are constants with no body: no proof can see what they are. -/

namespace Sys2Proof.Config

/-- Card slots (R10). -/
def cardSlots : Nat := 131072
/-- The divisor of the home slot (R10). -/
def homeDivisor : Nat := 131071
/-- Slots of a probe window (R10). -/
def probeLength : Nat := 16
/-- Program entries (R1). -/
def programCount : Nat := 16
/-- Merchants, and so terms entries and positions (R93, R113). -/
def merchantCount : Nat := 512
/-- Lanes of a merchant (R109). -/
def lanesPerMerchant : Nat := 8
/-- Directory pages (R93). -/
def pageCount : Nat := 16
/-- Terms entries of a page (R93). -/
def pageSize : Nat := 32
/-- Journal blocks and the entries of a block (R71). -/
def journalBlocks : Nat := 2048
def journalEntries : Nat := 32
/-- Laps of the journal (R71). -/
def journalLaps : Nat := 256
/-- Capacity of a forwarding queue (R174). -/
def forwardCapacity : Nat := 64
/-- Capacity of the shop engine egress queue, reserved places counted (R175). -/
def shopCapacity : Nat := 16
/-- Capacity of the office engine egress queue (R175). -/
def officeCapacity : Nat := 32
/-- Capacity of the Ingress File (R172). -/
def ingressCapacity : Nat := 8
/-- Capacity of the Responder's input queue (R183). -/
def inputCapacity : Nat := 16
/-- Window slots (R156). -/
def windowSlots : Nat := 16
/-- Largest value of a counter or a count of a bank (00_scope.md section 6). -/
def maxCount : Nat := 2 ^ 32 - 1
/-- Largest accumulator of a bank, and largest budget (00_scope.md section 6). -/
def maxAccumulator : Nat := 2 ^ 48 - 1
/-- Largest T, hold expiry time and day-spend (R8, R9, R188). -/
def maxTime : Nat := 2 ^ 40 - 1
/-- Range of carry and net amounts (00_scope.md section 6). -/
def minCarry : Int := -(2 ^ 62)
def maxCarry : Int := 2 ^ 62 - 1
/-- Largest amount of a transaction request (R31, step 1). -/
def maxAmount : Nat := 9999999
/-- Largest program ceiling (R1). -/
def maxCeiling : Nat := 10000000
/-- Seconds of a business day (00_scope.md section 6). -/
def daySeconds : Nat := 86400

/-- FREE VALUE (log 7): at its `n`-th use, whether the `i`-th choice of R180's order takes the Directory's notice first. -/
opaque startOrder : (n i : Nat) → Bool

/-- FREE VALUE (log 8): the 8 bytes shown for a value that does not fit the 8-byte signed field of R201. -/
opaque unfittingField : Int → BitVec 64

end Sys2Proof.Config
end

