-- ==== Sys2Proof/Machine/State.lean ====
section
/-! DEFINITION. The state of the WS-416 as plain data, and the state right after reset. INVENTORY.md lists every field
with the rule that names it. -/

namespace Sys2Proof.Machine

/-- A store of records by number: numbers strictly rising, and no entry equal to what an unlisted number reads as
(`Table.wf` in Machine/Store.lean). -/
abbrev Table (α : Type) := List (Nat × α)

/-- A journal reference, and the journal's write position (R71, R76). -/
structure JournalRef where
  lap : Nat
  block : Nat
  entry : Nat
  deriving DecidableEq, Repr

/-! ### Requests and answers of the tills -/

/-- Kinds of transaction request, in the order of R198's codes. -/
inductive RequestKind where
  | issue | topup | spend | reserve | claim | free | returnReq | cancel | ask | tryReq
  deriving DecidableEq, Repr

/-- Decline reasons, in the order of R198's codes 1 to 26. -/
inductive DeclineReason where
  | amount | checkDigit | noCard | cardState | expired | funds | ceiling | dayCap | holdLimit | noRef | aged | overHold
  | returnExcess | returnWindow | cancelMismatch | cancelBlocked | cancelWindow | exposure | merchant | program | tableFull
  | outOfService | noClock | format | terminal | late
  deriving DecidableEq, Repr

/-- The outcome of a transaction response (R56). -/
inductive TillOutcome where
  | approved
  | partially
  | declined (reason : DeclineReason)
  deriving DecidableEq, Repr

/-- The condition set of a response (R38). -/
structure Conditions where
  z : Bool := false
  s : Bool := false
  x : Bool := false
  d : Bool := false
  l : Bool := false
  deriving DecidableEq, Repr

/-- An admitted till request as the Ingress File keeps it (R172): fields the kind does not use read 0 (R199). -/
structure TillRequest where
  kind : RequestKind
  mayCut : Bool
  sequence : Nat
  card : Nat
  amount : Nat
  reference : JournalRef
  cancelSequence : Nat
  source : Nat
  merchant : Nat
  lane : Nat
  deriving DecidableEq, Repr

/-! ### Card programs and cards -/

/-- States of a program entry (R1). -/
inductive ProgramState where
  | empty | opened | closed
  deriving DecidableEq, Repr

/-- A program entry (R1) with its live-card count (R6). -/
structure Program where
  state : ProgramState
  prefixLow : Nat
  prefixHigh : Nat
  ceiling : Nat
  issueMinimum : Nat
  expiryDays : Nat
  renewOnTopup : Bool
  dailyCap : Nat
  lowThreshold : Nat
  holdLimit : Nat
  holdHours : Nat
  topupPermitted : Bool
  live : Nat
  deriving DecidableEq, Repr

/-- Card states (R7). -/
inductive CardState where
  | active | suspended | retired
  deriving DecidableEq, Repr

/-- A hold entry (R9). -/
structure Hold where
  reference : JournalRef
  merchant : Nat
  lane : Nat
  amount : Nat
  expiry : Nat
  deriving DecidableEq, Repr

/-- A card record (R8). -/
structure CardRecord where
  number : Nat
  program : Nat
  state : CardState
  balance : Nat
  holds : List Hold
  daySpend : Nat
  spendDay : Nat
  issueDay : Nat
  expiryDay : Nat
  issuer : Nat
  lastDay : Nat
  deriving DecidableEq, Repr

/-- What a management card request asks (R18 to R23). -/
inductive CardOp where
  | read | suspend | resume | retire | purge
  | extend (day : Nat)
  | move (destination : Nat)
  deriving DecidableEq, Repr

/-- A management card request (R17), with the tag its reply echoes (R183). -/
structure CardRequest where
  op : CardOp
  card : Nat
  tag : Nat
  deriving DecidableEq, Repr

/-! ### Journal and lanes -/

/-- Kinds of journal entry, in the order of R73. -/
inductive JournalKind where
  | issue | topup | spend | reserve | claim | free | returnReq | cancel | move | adjust
  deriving DecidableEq, Repr

/-- A journal entry (R73): a field its kind does not have is `none`. -/
structure JournalEntry where
  lap : Nat
  kind : JournalKind
  card : Option Nat
  merchant : Option Nat
  lane : Option Nat
  amount : Int
  day : Nat
  cycle : Nat
  remaining : Option Nat
  cancelled : Bool
  link : Option JournalRef
  secondCard : Option Nat
  deriving DecidableEq, Repr

/-- A lane's last cancellable posting (R78). -/
structure LastRecord where
  reference : JournalRef
  sequence : Nat
  day : Nat
  cycle : Nat
  deriving DecidableEq, Repr

/-- A lane record (R109). -/
structure Lane where
  station : Nat
  enabled : Bool
  last : Option LastRecord
  deriving DecidableEq, Repr

/-! ### Merchant Directory -/

/-- States of a terms entry, in the order of R93. -/
inductive TermsState where
  | unenrolled | enrolled | suspended | withdrawn
  deriving DecidableEq, Repr

/-- A terms entry (R93). -/
structure Terms where
  state : TermsState
  maySell : Bool
  mayRefund : Bool
  discount : Nat
  commission : Nat
  charge : Nat
  minPayout : Nat
  debitLimit : Nat
  returnWindow : Nat
  tolerance : Nat
  tier : Nat
  payee : Nat
  deriving DecidableEq, Repr

/-- Page states, in the order of R95. -/
inductive PageState where
  | opened | clearing | torn | fixed
  deriving DecidableEq, Repr

/-- The clear in flight at the Directory (R101, R106). -/
inductive ClearOp where
  | none
  | page (page : Nat)
  | directory
  deriving DecidableEq, Repr

/-! ### Position Table -/

/-- The six fields of a bank (R113): R, F, S and their counts. -/
structure Bank where
  redeemed : Nat
  refunded : Nat
  sold : Nat
  nRedeemed : Nat
  nRefunded : Nat
  nSold : Nat
  deriving DecidableEq, Repr

/-- A position record (R113). -/
structure Position where
  current : Bank
  saturated : Bool
  closing : Bank
  carryIn : Int
  computed : Bool
  closingSaturated : Bool
  carry : Int
  carryClamp : Bool
  deriving DecidableEq, Repr

/-- The bank field a posting moves (R49): S, F or R. -/
inductive BankField where
  | sold | refunded | redeemed
  deriving DecidableEq, Repr

/-! ### The batch and its release -/

/-- Batch states (R127). -/
inductive BatchState where
  | empty | computing | computed | releasing | settled
  deriving DecidableEq, Repr

/-- Dispositions (R134). -/
inductive Disposition where
  | pay | carry | debt | held
  deriving DecidableEq, Repr

/-- Release states (R146). -/
inductive ReleaseState where
  | pending | waiting | sent | paid | returned | unconfirmed | abandoned
  deriving DecidableEq, Repr

/-- Release modes (R148). -/
inductive ReleaseMode where
  | strict | fill
  deriving DecidableEq, Repr

/-- A batch record (R136). -/
structure BatchRecord where
  index : Nat
  merchant : Nat
  cycle : Nat
  bank : Bank
  carryIn : Int
  fee : Int
  commission : Int
  charges : Int
  net : Int
  termsState : TermsState
  disposition : Disposition
  payout : Nat
  carryOut : Int
  saturated : Bool
  clamped : Bool
  tier : Nat
  release : Option ReleaseState
  deriving DecidableEq, Repr

/-- Control totals (R139). -/
structure Totals where
  count : Nat
  payout : Nat
  net : Int
  redeemed : Nat
  refunded : Nat
  sold : Nat
  hash : Nat
  deriving DecidableEq, Repr

/-- The Batch Store (R127) with the release fields (R148). The record count of the header is `totals.count`. -/
structure Batch where
  state : BatchState
  cycle : Nat
  cursor : Nat
  records : List BatchRecord
  totals : Totals
  trailer : Option Totals
  mode : ReleaseMode
  granted : Nat
  remaining : Nat
  deriving DecidableEq, Repr

/-- A window slot (R156): an occupied slot names the merchant of its record (one record a merchant, R136). A TIMING slot
keeps the length its timer was started with (R158). -/
inductive WindowSlot where
  | free
  | awaiting (merchant : Nat) (instruction : Frame)
  | timing (merchant : Nat) (length : Nat)
  deriving DecidableEq, Repr

/-! ### The Posting Unit -/

/-- What the Posting Unit sends to the Position Table (R49, R88). -/
inductive Movement where
  | post (field : BankField) (gated : Bool) (debitLimit : Nat)
  | reversal (field : BankField) (cycle : Nat)
  deriving DecidableEq, Repr

/-- What a response shows of a card (R38). -/
structure CardView where
  balance : Nat
  free : Nat
  expiry : Nat
  deriving DecidableEq, Repr

/-- What the joint write does to a program's live-card count (R6). -/
inductive LiveChange where
  | same | rise | fall
  deriving DecidableEq, Repr

/-- The till request in hand while the Position Table's answer is awaited (R25), with its writes as R50 prepares them:
the card slot as the write leaves it, the journal entry, the reference it links to, the reference whose refundable
remaining a cancelled RETURN restores, the direction of the liability counter, and the response for either answer. -/
structure Hand where
  request : TillRequest
  today : Nat
  movement : Movement
  amount : Nat
  slot : Nat
  cardAfter : Option CardRecord
  program : Nat
  liveChange : LiveChange
  entryKind : JournalKind
  entryRemaining : Option Nat
  link : Option JournalRef
  restore : Option JournalRef
  liabilityRises : Bool
  outcome : TillOutcome
  conditions : Conditions
  after : CardView
  refusedConditions : Conditions
  refused : CardView
  deriving DecidableEq, Repr

/-- The Posting Unit (R25). -/
inductive PostingUnit where
  | idle
  | till (hand : Hand)
  | card (request : CardRequest)
  deriving DecidableEq, Repr

/-! ### Ports, management and clock -/

/-- A port's link (R169). -/
inductive Link where
  | up | down
  deriving DecidableEq, Repr

/-- Where a frame of an engine egress queue comes from (R175); the RESTART reply is told apart by R182. -/
inductive Origin where
  | response | answer | reply | restartReply | instruction | notice
  deriving DecidableEq, Repr

/-- A frame of an engine egress queue. -/
structure OutFrame where
  frame : Frame
  origin : Origin
  deriving DecidableEq, Repr

/-- The counters of the part (R30, R168, R177, R183). `declines` is by reason code. -/
structure Counters where
  approvals : Nat
  partials : Nat
  declines : Table Nat
  forwardedToOffice : Nat
  forwardedToShop : Nat
  droppedToOffice : Nat
  droppedToShop : Nat
  headerDrops : Nat
  foreignDrops : Nat
  shopFullDrops : Nat
  officeFullDrops : Nat
  shopLinkDrops : Nat
  officeLinkDrops : Nat
  mgmtOverflow : Nat
  strays : Nat
  lateConfirms : Nat
  deriving DecidableEq, Repr

/-- The persistent configuration (R185). -/
structure Settings where
  engineStation : Nat
  controllerStation : Nat
  gatewayStation : Nat
  serviceType : Nat
  confirmationTimeout : Nat
  rollOffset : Nat
  privacyLock : Bool
  deriving DecidableEq, Repr

/-- Engine modes (R190). -/
inductive Mode where
  | maintenance | service
  deriving DecidableEq, Repr

/-- The mall clock (R188): T and the held amount exist only in the states that have them. -/
inductive Clock where
  | unset
  | running (t : Nat)
  | holding (t held : Nat)
  deriving DecidableEq, Repr

/-- The self-timed erasure in flight: a STORE_CLEAR accepted in this run (R192), one made again after a reset (R193), or
the initialisation of a first start (R181). -/
inductive ClearRun where
  | none | accepted | repeated | initialising
  deriving DecidableEq, Repr

/-! ### What an untouched place of a store reads as -/

/-- An EMPTY program entry (R1). -/
def Program.blank : Program :=
  { state := .empty, prefixLow := 0, prefixHigh := 0, ceiling := 0, issueMinimum := 0, expiryDays := 0, renewOnTopup := false,
    dailyCap := 0, lowThreshold := 0, holdLimit := 0, holdHours := 0, topupPermitted := false, live := 0 }

/-- An unassigned lane (R109). -/
def Lane.unassigned : Lane := { station := 0, enabled := false, last := none }

/-- An UNENROLLED terms entry (R93). -/
def Terms.unenrolled : Terms :=
  { state := .unenrolled, maySell := false, mayRefund := false, discount := 0, commission := 0, charge := 0, minPayout := 0,
    debitLimit := 0, returnWindow := 0, tolerance := 0, tier := 0, payee := 0 }

/-- A bank of zeros. -/
def Bank.zero : Bank := { redeemed := 0, refunded := 0, sold := 0, nRedeemed := 0, nRefunded := 0, nSold := 0 }

/-- A position as STORE_CLEAR and first start leave it (R126): zero, marks clear, the closing bank COMPUTED. -/
def Position.zero : Position :=
  { current := Bank.zero, saturated := false, closing := Bank.zero, carryIn := 0, computed := true, closingSaturated := false,
    carry := 0, carryClamp := false }

/-- Control totals of a batch without records (R139). -/
def Totals.zero : Totals := { count := 0, payout := 0, net := 0, redeemed := 0, refunded := 0, sold := 0, hash := 0 }

/-- The EMPTY batch (R127, R148). -/
def Batch.none : Batch :=
  { state := .empty, cycle := 0, cursor := 0, records := [], totals := Totals.zero, trailer := Option.none, mode := .strict,
    granted := 0, remaining := 0 }

/-- Counters after a reset (R179). -/
def Counters.zero : Counters :=
  { approvals := 0, partials := 0, declines := [], forwardedToOffice := 0, forwardedToShop := 0, droppedToOffice := 0,
    droppedToShop := 0, headerDrops := 0, foreignDrops := 0, shopFullDrops := 0, officeFullDrops := 0, shopLinkDrops := 0,
    officeLinkDrops := 0, mgmtOverflow := 0, strays := 0, lateConfirms := 0 }

/-- The default configuration (R181). -/
def Settings.default : Settings :=
  { engineStation := 1, controllerStation := 2, gatewayStation := 3, serviceType := 0x88B5, confirmationTimeout := 120,
    rollOffset := 0, privacyLock := false }

/-- The write position 0/0000/00 (R75). -/
def JournalRef.origin : JournalRef := { lap := 0, block := 0, entry := 0 }

/-! ### The state -/

/-- The state of the part. -/
structure State where
  /-- Held in reset: between a reset and its start-up (R179). -/
  inReset : Bool
  /-- Record memory holds a configuration written by the part (R181). -/
  configured : Bool
  settings : Settings
  /-- The STORE_CLEAR mark in record memory (R192). -/
  storeClearMark : Bool
  clearRun : ClearRun
  restartPending : Bool
  mode : Mode
  clock : Clock
  noticeNumber : Nat
  shopLink : Link
  officeLink : Link
  /-- Forwarding queue towards the office port (R174). -/
  toOffice : List Frame
  /-- Forwarding queue towards the shop port (R174). -/
  toShop : List Frame
  /-- Shop engine egress queue (R175); the Posting Unit's reserved place is `posting` being TILL (R27). -/
  shopOut : List OutFrame
  /-- Office engine egress queue (R175). -/
  officeOut : List OutFrame
  ingress : List TillRequest
  /-- The Responder's input queue (R183). -/
  mgmtIn : List Frame
  /-- Frames handed to the Release Unit and not yet taken (R159, R173; log 13). -/
  gatewayIn : List Frame
  counters : Counters
  posting : PostingUnit
  cardSlot : Option CardRequest
  liability : Nat
  programs : Table Program
  cards : Table (Option CardRecord)
  /-- Journal positions, numbered block × 32 + entry (R71). -/
  journal : Table (Option JournalEntry)
  writePos : JournalRef
  /-- Lane records, numbered merchant × 8 + lane (R109). -/
  lanes : Table Lane
  terms : Table Terms
  pages : Table PageState
  clearOp : ClearOp
  positions : Table Position
  /-- The current cycle number (R115). -/
  cycle : Nat
  openingLiability : Nat
  batch : Batch
  window : Table WindowSlot
  /-- Slots AWAITING EGRESS, in the order their records were sent (R157). -/
  awaiting : List Nat
  /-- The model's own record of the frames that have left the part (log 14). -/
  out : List (Port × Frame)
  /-- The model's own counter of free choices (log 7). -/
  freeCount : Nat
  /-- The commands that wait, first in first out (log 2). -/
  pending : List Instr
  deriving DecidableEq, Repr

/-- Why the machine stops: it never does. Every bad request, frame or state has an answer, a counter or no effect in the
spec, so this type has no constructor (safe: nothing is hidden behind a stop). -/
inductive Fault where
  deriving DecidableEq, Repr

/-- Refusals of the model. -/
inductive Refusal where
  /-- Raised by `exec`'s arm of a command that has no meaning yet (safe). No arm raises it now. -/
  | notModelled (mnemonic : String)
  deriving DecidableEq, Repr

/-- The machine right after reset: a part at its first start (R181), volatile state as R179 states, the default
configuration in force, its initialisation running and its stores as the "At first start" columns give them (log 3). The
links are UP (log 4). -/
def State.reset : State :=
  { inReset := false, configured := false, settings := Settings.default, storeClearMark := false, clearRun := .initialising,
    restartPending := false, mode := .maintenance, clock := .unset, noticeNumber := 0, shopLink := .up, officeLink := .up,
    toOffice := [], toShop := [], shopOut := [], officeOut := [], ingress := [], mgmtIn := [], gatewayIn := [],
    counters := Counters.zero, posting := .idle, cardSlot := none, liability := 0, programs := [], cards := [], journal := [],
    writePos := JournalRef.origin, lanes := [], terms := [], pages := [], clearOp := .none, positions := [], cycle := 0,
    openingLiability := 0, batch := Batch.none, window := [], awaiting := [], out := [], freeCount := 0, pending := [] }

end Sys2Proof.Machine
end

