-- ==== Sys2Proof/Machine/Store.lean ====
section
/-! DEFINITION. The stores: reading and writing a record by its number, in one canonical form, and the small list helpers
the blocks share. -/

namespace Sys2Proof.Machine

/-- The record at number `k`: `d` where none is listed. -/
def Table.read {α : Type} (d : α) : Table α → Nat → α
  | [], _ => d
  | (j, v) :: rest, k => if j = k then v else Table.read d rest k

/-- The store without the entry at `k`. -/
def Table.erase {α : Type} (t : Table α) (k : Nat) : Table α := t.filter fun e => e.1 != k

/-- The store with `(k, v)` put in the place its number gives. -/
def Table.insert {α : Type} (k : Nat) (v : α) : Table α → Table α
  | [] => [(k, v)]
  | e :: rest => if k < e.1 then (k, v) :: e :: rest else e :: Table.insert k v rest

/-- Write `v` at number `k`; a value that an unlisted number reads as leaves no entry. -/
def Table.write {α : Type} [DecidableEq α] (d : α) (t : Table α) (k : Nat) (v : α) : Table α :=
  if v = d then t.erase k else (t.erase k).insert k v

/-- The numbers rise strictly from above `low`, and no entry holds the value `d`. -/
def Table.wfFrom {α : Type} [DecidableEq α] (d : α) : Option Nat → Table α → Bool
  | _, [] => true
  | low, (k, v) :: rest => (match low with | none => true | some l => decide (l < k)) && decide (v ≠ d) && Table.wfFrom d (some k) rest

/-- The canonical form of a store. -/
def Table.wf {α : Type} [DecidableEq α] (d : α) (t : Table α) : Bool := Table.wfFrom d none t

/-- Every number below `n` given a record by `f`, in canonical form. -/
def Table.build {α : Type} [DecidableEq α] (d : α) (n : Nat) (f : Nat → α) : Table α :=
  ((List.range n).map fun k => (k, f k)).filter fun e => decide (e.2 ≠ d)

/-- The store without the entries whose number satisfies `p`. -/
def Table.dropWhere {α : Type} (t : Table α) (p : Nat → Bool) : Table α := t.filter fun e => !p e.1

/-- The list with its element at `i` changed. -/
def modifyAt {α : Type} (f : α → α) : List α → Nat → List α
  | [], _ => []
  | a :: rest, 0 => f a :: rest
  | a :: rest, i + 1 => a :: modifyAt f rest i

/-- A counter or count after one more event: it stays at 2^32 - 1 (R30, R168, R177, R183). -/
def bump (n : Nat) : Nat := if n < Config.maxCount then n + 1 else Config.maxCount

/-- A counter after `k` more events. -/
def bumpBy : (k n : Nat) → Nat
  | 0, n => n
  | k + 1, n => bumpBy k (bump n)

/-- One test of a check table with the reason its failure gives. -/
abbrev Check (ρ : Type) := Bool × ρ

/-- The reason of the first test that fails: "the first failure decides" (R3, R31, R96 and the other check tables). -/
def firstFailure {ρ : Type} : List (Check ρ) → Option ρ
  | [] => none
  | (ok, reason) :: rest => if ok then firstFailure rest else some reason

end Sys2Proof.Machine
end

