-- ==== Sys2Proof/Machine/Layout.lean ====
section
/-! DEFINITION. Byte layouts of chapter 11: how numbers, card numbers and references stand in a frame (R195, R201), the
header and padding of the part's own frames (R196, R197), and the codes of the named values. -/

namespace Sys2Proof.Machine

/-- The number that `bs` holds, most significant byte first (R195). -/
def beNat (bs : List Byte) : Nat := bs.foldl (fun n b => n * 256 + b.toNat) 0

/-- `n` in `w` bytes, most significant byte first (R195). -/
def beBytes : (w n : Nat) → List Byte
  | 0, _ => []
  | w + 1, n => BitVec.ofNat 8 (n / 256 ^ w) :: beBytes w n

/-- The number in the `len` bytes at `off`. -/
def fieldAt (bs : List Byte) (off len : Nat) : Nat := beNat ((bs.drop off).take len)

/-- A signed number in `w` bytes, two's complement (R195). -/
def signedBytes (w : Nat) (v : Int) : List Byte := beBytes w (v % (256 ^ w : Nat)).toNat

/-- The signed number that `len` bytes at `off` hold (R195). -/
def signedAt (bs : List Byte) (off len : Nat) : Int :=
  let n := fieldAt bs off len
  if n < 256 ^ len / 2 then (n : Int) else (n : Int) - (256 ^ len : Nat)

/-- A money quantity in a reply: 8 bytes, signed (R201). What the field shows for a value that does not fit it is not
stated: a free value (log 8). -/
def moneyBytes (v : Int) : List Byte :=
  if -(2 ^ 63) ≤ v ∧ v < 2 ^ 63 then signedBytes 8 v else beBytes 8 (Config.unfittingField v).toNat

/-- Yes and no in one byte, 1 and 0 (R200). A mark is sent alike, set as 1 and clear as 0, which R200 does not say (log 10). -/
def flagByte (b : Bool) : List Byte := beBytes 1 (if b then 1 else 0)

/-- A card number of 16 digits as 8 bytes, two digits a byte (R195). -/
def cardBytes (card : Nat) : List Byte :=
  (List.range 8).map fun i => let d := card / 100 ^ (7 - i) % 100; BitVec.ofNat 8 (d / 10 * 16 + d % 10)

/-- The 16 digits that 8 bytes hold, high half first (R195). -/
def digitsOf (bs : List Byte) : List Nat := bs.flatMap fun b => [b.toNat / 16, b.toNat % 16]

/-- The card number that 8 bytes hold: 16 decimal digits, the first not 0 (R170 step 4, R201). -/
def cardOf (bs : List Byte) : Option Nat :=
  let ds := digitsOf bs
  if ds.length = 16 ∧ ds.all (fun d => decide (d < 10)) = true ∧ ds.head? ≠ some 0
  then some (ds.foldl (fun n d => n * 10 + d) 0) else none

/-- A journal reference in 4 bytes: lap, block, entry (R195). -/
def refBytes (r : JournalRef) : List Byte := beBytes 1 r.lap ++ beBytes 2 r.block ++ beBytes 1 r.entry

/-- A reference or an absent one, four bytes of 0xFF (R195). -/
def optRefBytes : Option JournalRef → List Byte
  | some r => refBytes r
  | none => beBytes 4 0xFFFFFFFF

/-- The reference in the 4 bytes at `off` (R195). -/
def refAt (bs : List Byte) (off : Nat) : JournalRef :=
  { lap := fieldAt bs off 1, block := fieldAt bs (off + 1) 2, entry := fieldAt bs (off + 3) 1 }

/-- A field a rule names as possibly absent: a presence mark, then the field or zeros (R201). -/
def optBytes (size : Nat) : Option (List Byte) → List Byte
  | some bs => beBytes 1 1 ++ bs
  | none => beBytes 1 0 ++ beBytes size 0

/-! ### Named values: their place in the list of the rule that defines them (R200) -/

def ProgramState.code : ProgramState → Nat
  | .empty => 0 | .opened => 1 | .closed => 2

def ProgramState.ofCode : Nat → Option ProgramState
  | 0 => some .empty | 1 => some .opened | 2 => some .closed | _ => none

def CardState.code : CardState → Nat
  | .active => 0 | .suspended => 1 | .retired => 2

def TermsState.code : TermsState → Nat
  | .unenrolled => 0 | .enrolled => 1 | .suspended => 2 | .withdrawn => 3

def TermsState.ofCode : Nat → Option TermsState
  | 0 => some .unenrolled | 1 => some .enrolled | 2 => some .suspended | 3 => some .withdrawn | _ => none

def PageState.code : PageState → Nat
  | .opened => 0 | .clearing => 1 | .torn => 2 | .fixed => 3

def JournalKind.code : JournalKind → Nat
  | .issue => 0 | .topup => 1 | .spend => 2 | .reserve => 3 | .claim => 4 | .free => 5 | .returnReq => 6 | .cancel => 7
  | .move => 8 | .adjust => 9

def BatchState.code : BatchState → Nat
  | .empty => 0 | .computing => 1 | .computed => 2 | .releasing => 3 | .settled => 4

def Disposition.code : Disposition → Nat
  | .pay => 0 | .carry => 1 | .debt => 2 | .held => 3

/-- Release states in the order R146's table first names them (DEDUCED, log 11). -/
def ReleaseState.code : ReleaseState → Nat
  | .pending => 0 | .waiting => 1 | .sent => 2 | .paid => 3 | .returned => 4 | .unconfirmed => 5 | .abandoned => 6

def ReleaseMode.code : ReleaseMode → Nat
  | .strict => 0 | .fill => 1

def ReleaseMode.ofCode : Nat → Option ReleaseMode
  | 0 => some .strict | 1 => some .fill | _ => none

def Mode.code : Mode → Nat
  | .maintenance => 0 | .service => 1

def Mode.ofCode : Nat → Option Mode
  | 0 => some .maintenance | 1 => some .service | _ => none

def Link.code : Link → Nat
  | .up => 0 | .down => 1

def Clock.code : Clock → Nat
  | .unset => 0 | .running _ => 1 | .holding _ _ => 2

/-- Request kinds (R198). -/
def RequestKind.code : RequestKind → Nat
  | .issue => 1 | .topup => 2 | .spend => 3 | .reserve => 4 | .claim => 5 | .free => 6 | .returnReq => 7 | .cancel => 8
  | .ask => 9 | .tryReq => 10

def RequestKind.ofCode : Nat → Option RequestKind
  | 1 => some .issue | 2 => some .topup | 3 => some .spend | 4 => some .reserve | 5 => some .claim | 6 => some .free
  | 7 => some .returnReq | 8 => some .cancel | 9 => some .ask | 10 => some .tryReq | _ => none

/-- Decline reasons (R198). -/
def DeclineReason.code : DeclineReason → Nat
  | .amount => 1 | .checkDigit => 2 | .noCard => 3 | .cardState => 4 | .expired => 5 | .funds => 6 | .ceiling => 7
  | .dayCap => 8 | .holdLimit => 9 | .noRef => 10 | .aged => 11 | .overHold => 12 | .returnExcess => 13 | .returnWindow => 14
  | .cancelMismatch => 15 | .cancelBlocked => 16 | .cancelWindow => 17 | .exposure => 18 | .merchant => 19 | .program => 20
  | .tableFull => 21 | .outOfService => 22 | .noClock => 23 | .format => 24 | .terminal => 25 | .late => 26

/-- Outcome and reason bytes of a RESPONSE (R198). -/
def TillOutcome.code : TillOutcome → Nat
  | .approved => 0 | .partially => 1 | .declined _ => 2

def TillOutcome.reasonCode : TillOutcome → Nat
  | .declined r => r.code
  | _ => 0

/-- Condition byte of a RESPONSE (R198). -/
def Conditions.code (c : Conditions) : Nat :=
  (if c.z then 1 else 0) + (if c.s then 2 else 0) + (if c.x then 4 else 0) + (if c.d then 8 else 0) + (if c.l then 16 else 0)

/-- Reasons of a management reply, in the order of R200's codes; `accepted` is NONE. -/
inductive ReplyReason where
  | accepted | busy | state | range | loosening | fixed | torn | notFound | conflict | ceiling | format | unknown
  deriving DecidableEq, Repr

def ReplyReason.code : ReplyReason → Nat
  | .accepted => 0 | .busy => 1 | .state => 2 | .range => 3 | .loosening => 4 | .fixed => 5 | .torn => 6 | .notFound => 7
  | .conflict => 8 | .ceiling => 9 | .format => 10 | .unknown => 11

/-- Notices with their subjects (R194). -/
inductive Notice where
  | payoutTimeout (merchant cycle : Nat)
  | saturated (merchant cycle : Nat)
  | carryClamp (merchant : Nat)
  | batchComputed (cycle : Nat)
  | batchSettled (cycle : Nat)
  | pageCleared (page : Nat)
  | tornPage (page : Nat)
  deriving DecidableEq, Repr

/-- Kind, merchant, cycle and page of a notice; a subject the kind does not carry is all ones (R202). -/
def Notice.fields : Notice → Nat × Nat × Nat × Nat
  | .payoutTimeout m c => (0, m, c, 0xFF)
  | .saturated m c => (1, m, c, 0xFF)
  | .carryClamp m => (2, m, 0xFFFF, 0xFF)
  | .batchComputed c => (3, 0xFFFF, c, 0xFF)
  | .batchSettled c => (4, 0xFFFF, c, 0xFF)
  | .pageCleared p => (5, 0xFFFF, 0xFFFF, p)
  | .tornPage p => (6, 0xFFFF, 0xFFFF, p)

/-- NOTICE body (R202). -/
def Notice.body (number : Nat) (n : Notice) : List Byte :=
  let (kind, merchant, cycle, page) := n.fields
  beBytes 2 number ++ beBytes 1 kind ++ beBytes 1 0 ++ beBytes 2 merchant ++ beBytes 2 cycle ++ beBytes 1 page ++ beBytes 3 0

/-! ### The part's own frames -/

/-- Message kinds (R196). -/
def kindTransaction : Nat := 1
def kindResponse : Nat := 2
def kindManagement : Nat := 3
def kindReply : Nat := 4
def kindNotice : Nat := 5
def kindPayout : Nat := 6
def kindConfirm : Nat := 7
def kindReject : Nat := 8

/-- Bytes of a frame before its payload: two addresses of 6 bytes and the type field of 2 (R197). -/
def bytesBeforePayload : Nat := 14

/-- A frame of the part: header, body and zero padding to at least 60 bytes, from the engine station (R196, R197). -/
def partFrame (cfg : Settings) (kind destination : Nat) (body : List Byte) : Frame :=
  let bytes := beBytes 2 destination ++ beBytes 2 cfg.engineStation ++ beBytes 1 kind ++ beBytes 1 0 ++ beBytes 2 body.length ++ body
  { ethDst := 0xFFFFFFFFFFFF, ethSrc := BitVec.ofNat 48 (0x020000000000 + cfg.engineStation),
    etherType := BitVec.ofNat 16 cfg.serviceType,
    payload := bytes ++ List.replicate (60 - bytesBeforePayload - bytes.length) 0 }

/-- RESPONSE body (R198): kind byte, outcome, conditions, sequence, the 8 bytes of the card, grant, what the response shows
of the card, and the reference. -/
def responseBody (kind : Nat) (outcome : TillOutcome) (c : Conditions) (sequence : Nat) (card : List Byte) (grant : Nat)
    (view : CardView) (ref : Option JournalRef) : List Byte :=
  beBytes 1 kind ++ beBytes 1 outcome.code ++ beBytes 1 outcome.reasonCode ++ beBytes 1 c.code ++ beBytes 4 sequence ++ card ++
    beBytes 4 grant ++ beBytes 4 view.balance ++ beBytes 4 view.free ++ optRefBytes ref ++ beBytes 4 view.expiry ++ beBytes 4 0

/-- REPLY body (R200). -/
def replyBody (code tag : Nat) (reason : ReplyReason) (block : List Byte) : List Byte :=
  beBytes 2 code ++ beBytes 2 tag ++ beBytes 1 (if reason = .accepted then 0 else 1) ++ beBytes 1 reason.code ++ beBytes 2 0 ++ block

/-- PAYOUT body (R202). -/
def payoutBody (merchant slot cycle payee amount : Nat) : List Byte :=
  beBytes 2 merchant ++ beBytes 1 slot ++ beBytes 1 0 ++ beBytes 2 cycle ++ beBytes 2 0 ++ beBytes 4 payee ++ beBytes 8 amount

end Sys2Proof.Machine
end

