-- ==== Sys2Proof/Machine/Operands.lean ====
section
/-! DEFINITION. Reading what arrives: the common header (R196, R197), the TRANSACTION body (R198, R199), the MANAGEMENT body
and its parameter blocks (R200, R201), and the gateway's replies (R202, R203). -/

namespace Sys2Proof.Machine

/-! ### The common header -/

/-- The frame holds the 8 bytes of the common header (R197). -/
def hasHeader (f : Frame) : Bool := decide (8 ≤ f.payload.length)

def headerDestination (f : Frame) : Nat := fieldAt f.payload 0 2
def headerSource (f : Frame) : Nat := fieldAt f.payload 2 2
def headerKind (f : Frame) : Nat := fieldAt f.payload 4 1
def headerReserved (f : Frame) : Nat := fieldAt f.payload 5 1
def headerLength (f : Frame) : Nat := fieldAt f.payload 6 2

/-- The body: the bytes after the header, up to the body length or the end of the frame, whichever comes first (R199). -/
def bodyOf (f : Frame) : List Byte := (f.payload.drop 8).take (headerLength f)

/-- The body length lies within the frame (R197). -/
def bodyFits (f : Frame) : Bool := decide (8 + headerLength f ≤ f.payload.length)

/-! ### TRANSACTION requests -/

/-- The kinds that carry an amount (R198). -/
def RequestKind.carriesAmount : RequestKind → Bool
  | .issue | .topup | .spend | .reserve | .claim | .returnReq | .tryReq => true
  | .free | .cancel | .ask => false

/-- The kinds that carry a journal reference (R198). -/
def RequestKind.carriesReference : RequestKind → Bool
  | .claim | .free | .returnReq => true
  | .issue | .topup | .spend | .reserve | .cancel | .ask | .tryReq => false

/-- The card number of a transaction body; none where step 4 of R170 fails (R199). -/
def transactionCard (body : List Byte) : Option Nat :=
  if 14 ≤ body.length then cardOf ((body.drop 6).take 8) else none

/-- The reference fields lie in their ranges (R76, R199). -/
def refInRange (r : JournalRef) : Bool :=
  decide (r.lap < Config.journalLaps) && decide (r.block < Config.journalBlocks) && decide (r.entry < Config.journalEntries)

/-- The request kind of a transaction frame that passes the structural checks of step 7 (R170, R199). -/
def transactionKind (f : Frame) : Option RequestKind :=
  let body := bodyOf f
  match RequestKind.ofCode (fieldAt body 0 1) with
  | none => none
  | some kind =>
    if headerLength f = 32 ∧ bodyFits f = true ∧ headerReserved f = 0 ∧ fieldAt body 1 1 < 2 ∧ fieldAt body 26 6 = 0 ∧
        (kind.carriesReference = true → refInRange (refAt body 18) = true)
    then some kind else none

/-- The admitted request (R172); a field its kind does not use is not read (R199). -/
def transactionRequest (f : Frame) (kind : RequestKind) (card merchant lane : Nat) : TillRequest :=
  let body := bodyOf f
  { kind := kind, mayCut := decide (fieldAt body 1 1 % 2 = 1), sequence := fieldAt body 2 4, card := card,
    amount := if kind.carriesAmount then fieldAt body 14 4 else 0,
    reference := if kind.carriesReference then refAt body 18 else JournalRef.origin,
    cancelSequence := if kind = .cancel then fieldAt body 22 4 else 0,
    source := headerSource f, merchant := merchant, lane := lane }

/-! ### Card numbers -/

/-- The program prefix of a card number: its first 8 digits (R2). -/
def cardPrefix (card : Nat) : Nat := card / 100000000

/-- A card number of 16 digits with a first digit other than 0 (R17). -/
def sixteenDigits (card : Nat) : Bool := decide (10 ^ 15 ≤ card) && decide (card < 10 ^ 16)

/-- A digit as the check of R32 counts it: in even positions from the right doubled, less 9 above 9. -/
def checkWeight (card i : Nat) : Nat :=
  let d := card / 10 ^ i % 10
  if i % 2 = 1 then (if 2 * d > 9 then 2 * d - 9 else 2 * d) else d

/-- The check digit test (R32). -/
def passesCheck (card : Nat) : Bool :=
  decide (((List.range 16).map (checkWeight card)).sum % 10 = 0)

/-- The home slot (R10). -/
def homeSlot (card : Nat) : Nat := card % Config.homeDivisor

/-- The probe window: 16 slots from the home slot upward, wrapping (R10). -/
def probeWindow (card : Nat) : List Nat :=
  (List.range Config.probeLength).map fun i => (homeSlot card + i) % Config.cardSlots

/-- The first 12 digits shown as zeros while the privacy lock is set (R16). -/
def maskCard (lock : Bool) (card : Nat) : Nat := if lock then card % 10000 else card

/-! ### MANAGEMENT requests -/

/-- The parameters of WRITE_PROGRAM, as numbers (R200). -/
structure ProgramWrite where
  index : Nat
  state : Nat
  renew : Nat
  topup : Nat
  holdLimit : Nat
  holdHours : Nat
  prefixLow : Nat
  prefixHigh : Nat
  ceiling : Nat
  issueMinimum : Nat
  expiryDays : Nat
  dailyCap : Nat
  lowThreshold : Nat
  deriving DecidableEq, Repr

/-- The parameters of WRITE_TERMS, as numbers (R200). -/
structure TermsWrite where
  merchant : Nat
  state : Nat
  maySell : Bool
  mayRefund : Bool
  discount : Nat
  commission : Nat
  charge : Nat
  tolerance : Nat
  tier : Nat
  returnWindow : Nat
  minPayout : Nat
  debitLimit : Nat
  payee : Nat
  deriving DecidableEq, Repr

/-- A management request that passes checks 1 and 2 of R184. -/
inductive Request where
  | setStations (engine controller gateway serviceType : Nat)
  | setTiming (timeout rollOffset : Nat)
  | setClock (value : Nat)
  | setMode (mode : Nat)
  | readStatus
  | restart
  | storeClear
  | lockPrivacy
  | writeProgram (w : ProgramWrite)
  | readProgram (index : Nat)
  | card (op : CardOp) (number : Nat)
  | readJournal (ref : JournalRef)
  | writeTerms (w : TermsWrite)
  | readTerms (merchant : Nat)
  | clearPage (page : Nat)
  | fixPage (page : Nat)
  | clearDirectory
  | writeLane (merchant lane enabled station : Nat)
  | readLane (merchant lane : Nat)
  | closeCycle
  | adjustCarry (merchant : Nat) (amount : Int)
  | readPosition (merchant : Nat)
  | readBatch (selector : Nat)
  | releaseBatch (mode budget : Nat)
  | addBudget (amount : Nat)
  | resolve (merchant outcome : Nat)
  | abandon
  deriving DecidableEq, Repr

/-- Code of a management card request (R200). -/
def CardOp.code : CardOp → Nat
  | .read => 0x20 | .suspend => 0x21 | .resume => 0x22 | .retire => 0x23 | .purge => 0x24 | .extend _ => 0x25 | .move _ => 0x26

/-- Code of a request (R200). -/
def Request.code : Request → Nat
  | .setStations _ _ _ _ => 0x01 | .setTiming _ _ => 0x02 | .setClock _ => 0x03 | .setMode _ => 0x04 | .readStatus => 0x05
  | .restart => 0x06 | .storeClear => 0x07 | .lockPrivacy => 0x08 | .writeProgram _ => 0x10 | .readProgram _ => 0x11
  | .card op _ => op.code | .readJournal _ => 0x27 | .writeTerms _ => 0x30 | .readTerms _ => 0x31 | .clearPage _ => 0x32
  | .fixPage _ => 0x33 | .clearDirectory => 0x34 | .writeLane _ _ _ _ => 0x35 | .readLane _ _ => 0x36 | .closeCycle => 0x40
  | .adjustCarry _ _ => 0x41 | .readPosition _ => 0x42 | .readBatch _ => 0x43 | .releaseBatch _ _ => 0x50
  | .addBudget _ => 0x51 | .resolve _ _ => 0x52 | .abandon => 0x53

/-- Parameter bytes of a known code (R200). -/
def parameterBytes : Nat → Option Nat
  | 0x01 => some 8 | 0x02 => some 6 | 0x03 => some 8 | 0x04 => some 2 | 0x05 => some 0 | 0x06 => some 0 | 0x07 => some 0
  | 0x08 => some 0 | 0x10 => some 36 | 0x11 => some 2 | 0x20 => some 8 | 0x21 => some 8 | 0x22 => some 8 | 0x23 => some 8
  | 0x24 => some 8 | 0x25 => some 12 | 0x26 => some 16 | 0x27 => some 4 | 0x30 => some 28 | 0x31 => some 2 | 0x32 => some 2
  | 0x33 => some 2 | 0x34 => some 0 | 0x35 => some 6 | 0x36 => some 4 | 0x40 => some 0 | 0x41 => some 12 | 0x42 => some 2
  | 0x43 => some 2 | 0x50 => some 10 | 0x51 => some 8 | 0x52 => some 4 | 0x53 => some 0
  | _ => none

/-- The reserved bytes and bits of the parameter block are 0 (R200, R201). -/
def reservedClear (code : Nat) (ps : List Byte) : Bool :=
  match code with
  | 0x04 | 0x11 | 0x32 | 0x33 | 0x50 => decide (fieldAt ps 1 1 = 0)
  | 0x10 => decide (fieldAt ps 5 1 = 0) && decide (fieldAt ps 26 2 = 0)
  | 0x30 => decide (fieldAt ps 3 1 < 4) && decide (fieldAt ps 14 2 = 0)
  | 0x36 | 0x52 => decide (fieldAt ps 3 1 = 0)
  | 0x41 => decide (fieldAt ps 2 2 = 0)
  | _ => true

/-- A card request on the card number at offset 0 of its parameters. -/
def cardRequestOf (op : CardOp) (ps : List Byte) : Option Request := (cardOf (ps.take 8)).map (Request.card op)

/-- The parameter block of a known code read as a request; none for a card number that is not 16 digits (R201). -/
def readParameters (code : Nat) (ps : List Byte) : Option Request :=
  match code with
  | 0x01 => some (.setStations (fieldAt ps 0 2) (fieldAt ps 2 2) (fieldAt ps 4 2) (fieldAt ps 6 2))
  | 0x02 => some (.setTiming (fieldAt ps 0 2) (fieldAt ps 2 4))
  | 0x03 => some (.setClock (fieldAt ps 0 8))
  | 0x04 => some (.setMode (fieldAt ps 0 1))
  | 0x05 => some .readStatus
  | 0x06 => some .restart
  | 0x07 => some .storeClear
  | 0x08 => some .lockPrivacy
  | 0x10 => some (.writeProgram
      { index := fieldAt ps 0 1, state := fieldAt ps 1 1, renew := fieldAt ps 2 1, topup := fieldAt ps 3 1,
        holdLimit := fieldAt ps 4 1, holdHours := fieldAt ps 6 2, prefixLow := fieldAt ps 8 4, prefixHigh := fieldAt ps 12 4,
        ceiling := fieldAt ps 16 4, issueMinimum := fieldAt ps 20 4, expiryDays := fieldAt ps 24 2, dailyCap := fieldAt ps 28 4,
        lowThreshold := fieldAt ps 32 4 })
  | 0x11 => some (.readProgram (fieldAt ps 0 1))
  | 0x20 => cardRequestOf .read ps
  | 0x21 => cardRequestOf .suspend ps
  | 0x22 => cardRequestOf .resume ps
  | 0x23 => cardRequestOf .retire ps
  | 0x24 => cardRequestOf .purge ps
  | 0x25 => cardRequestOf (.extend (fieldAt ps 8 4)) ps
  | 0x26 => (cardOf (ps.drop 8)).bind fun destination => cardRequestOf (.move destination) ps
  | 0x27 => some (.readJournal (refAt ps 0))
  | 0x30 => some (.writeTerms
      { merchant := fieldAt ps 0 2, state := fieldAt ps 2 1, maySell := decide (fieldAt ps 3 1 % 2 = 1),
        mayRefund := decide (fieldAt ps 3 1 / 2 % 2 = 1), discount := fieldAt ps 4 2, commission := fieldAt ps 6 2,
        charge := fieldAt ps 8 2, tolerance := fieldAt ps 10 1, tier := fieldAt ps 11 1, returnWindow := fieldAt ps 12 2,
        minPayout := fieldAt ps 16 4, debitLimit := fieldAt ps 20 4, payee := fieldAt ps 24 4 })
  | 0x31 => some (.readTerms (fieldAt ps 0 2))
  | 0x32 => some (.clearPage (fieldAt ps 0 1))
  | 0x33 => some (.fixPage (fieldAt ps 0 1))
  | 0x34 => some .clearDirectory
  | 0x35 => some (.writeLane (fieldAt ps 0 2) (fieldAt ps 2 1) (fieldAt ps 3 1) (fieldAt ps 4 2))
  | 0x36 => some (.readLane (fieldAt ps 0 2) (fieldAt ps 2 1))
  | 0x40 => some .closeCycle
  | 0x41 => some (.adjustCarry (fieldAt ps 0 2) (signedAt ps 4 8))
  | 0x42 => some (.readPosition (fieldAt ps 0 2))
  | 0x43 => some (.readBatch (fieldAt ps 0 2))
  | 0x50 => some (.releaseBatch (fieldAt ps 0 1) (fieldAt ps 2 8))
  | 0x51 => some (.addBudget (fieldAt ps 0 8))
  | 0x52 => some (.resolve (fieldAt ps 0 2) (fieldAt ps 2 1))
  | 0x53 => some .abandon
  | _ => none

/-- What checks 1 and 2 of R184 find. -/
inductive Parsed where
  | malformed
  | unknown
  | good (r : Request)
  deriving DecidableEq, Repr

/-- The request code a reply echoes: from the body where it holds it, 0 otherwise (R201). -/
def echoedCode (f : Frame) : Nat := if 2 ≤ (bodyOf f).length then fieldAt (bodyOf f) 0 2 else 0

/-- The tag a reply echoes (R184, R201). -/
def echoedTag (f : Frame) : Nat := if 4 ≤ (bodyOf f).length then fieldAt (bodyOf f) 2 2 else 0

/-- Checks 1 and 2 of R184 on a frame handed to the Responder (R201). -/
def parseManagement (f : Frame) : Parsed :=
  if headerKind f = kindManagement ∧ headerReserved f = 0 ∧ bodyFits f = true ∧ 4 ≤ headerLength f then
    match parameterBytes (echoedCode f) with
    | none => .unknown
    | some n =>
      let ps := (bodyOf f).drop 4
      if headerLength f = 4 + n ∧ reservedClear (echoedCode f) ps = true then
        match readParameters (echoedCode f) ps with
        | some r => .good r
        | none => .malformed
      else .malformed
  else .malformed

/-! ### Gateway replies -/

/-- A gateway reply (R159). -/
structure GatewayReply where
  confirms : Bool
  merchant : Nat
  cycle : Nat
  deriving DecidableEq, Repr

/-- The reply a frame of the gateway holds; none where R203 makes it a stray. The slot and the reserved bytes are not read. -/
def gatewayReply (f : Frame) : Option GatewayReply :=
  if (headerKind f = kindConfirm ∨ headerKind f = kindReject) ∧ bodyFits f = true ∧ 8 ≤ headerLength f then
    some { confirms := decide (headerKind f = kindConfirm), merchant := fieldAt (bodyOf f) 0 2, cycle := fieldAt (bodyOf f) 4 2 }
  else none

end Sys2Proof.Machine
end

