-- ==== Sys2Proof/Machine/Flags.lean ====
section
/-! DEFINITION. The condition set of a transaction response (R38, R47, R67, R82, R91) and the grant a request receives
(R37). -/

namespace Sys2Proof.Machine

/-- L marks the crossing of the low threshold (R38). -/
def crossesLow (threshold before after : Nat) : Bool := decide (threshold ≤ before) && decide (after < threshold)

/-- Conditions of a served posting (R38): `cutByCeiling` and `cutByCap` say which limit set the grant. -/
def servedConditions (threshold before after amount grant : Nat) (cutByCeiling cutByCap : Bool) : Conditions :=
  { z := decide (after = 0), s := decide (grant < amount), x := cutByCeiling, d := cutByCap, l := crossesLow threshold before after }

/-- Conditions of a declined request (R38); `balance` is that of the card where one was judged. -/
def declinedConditions (kind : RequestKind) (reason : DeclineReason) (balance : Option Nat) : Conditions :=
  { z := decide (balance = some 0), s := kind.carriesAmount, x := decide (reason = .ceiling), d := decide (reason = .dayCap), l := false }

/-- Conditions of an ASK: a report of level (R47). -/
def askConditions (threshold balance : Nat) : Conditions :=
  { z := decide (balance = 0), s := false, x := false, d := false, l := decide (balance < threshold) }

/-- Conditions of an admission answer (R171); the kind byte may name no kind. -/
def answerConditions (kind : Option RequestKind) : Conditions :=
  { s := match kind with | some k => k.carriesAmount | none => false }

/-- The grant of R37 over the limits of a kind, in the kind's order: the whole amount or the reason of the first limit it
exceeds; with the partial flag the largest amount within every limit, or the reason of the first limit that stands at 0. -/
def decideGrant (amount : Nat) (mayCut : Bool) (limits : List (DeclineReason × Nat)) : Except DeclineReason Nat :=
  if mayCut then
    let grant := limits.foldl (fun g l => min g l.2) amount
    if 1 ≤ grant then .ok grant
    else match limits.find? fun l => decide (l.2 = 0) with
      | some l => .error l.1
      | none => .error .amount
  else match limits.find? fun l => decide (l.2 < amount) with
    | some l => .error l.1
    | none => .ok amount

/-- APPROVED where the grant is the whole amount, PARTIAL where it is below (R37). -/
def servedOutcome (amount grant : Nat) : TillOutcome := if grant = amount then .approved else .partially

/-- The ceiling set the grant: room below the amount and not above the other limit (R38, R82). -/
def cutBy (limit amount other : Nat) : Bool := decide (limit < amount) && decide (limit ≤ other)

end Sys2Proof.Machine
end

