-- ==== Sys2Proof/Machine/Ops.lean ====
section
/-! DEFINITION. The named operations the blocks share: offering frames to the queues, notices and replies, the clock, the
stores of cards, journal, lanes, terms and positions. Each operation that changes the state is one record update, so what
it leaves alone is plain. -/

namespace Sys2Proof.Machine

/-! ### Counters -/

/-- The declines counter of a reason rises (R30, R171). -/
def countDecline (reason : DeclineReason) (c : Counters) : Counters :=
  { c with declines := c.declines.write 0 reason.code (bump (c.declines.read 0 reason.code)) }

/-- The counter of a response's outcome rises (R30). -/
def countOutcome (outcome : TillOutcome) (c : Counters) : Counters :=
  match outcome with
  | .approved => { c with approvals := bump c.approvals }
  | .partially => { c with partials := bump c.partials }
  | .declined reason => countDecline reason c

/-! ### Queues and egress -/

/-- Places taken in the shop engine egress queue: its frames and the place reserved while a till request is in hand
(R27, R175). -/
def shopPlaces (s : State) : Nat :=
  s.shopOut.length + (match s.posting with | .till _ => 1 | .idle => 0 | .card _ => 0)

/-- The office queue takes another frame: the port is UP and a place is free (R169, R175). -/
def officeTakes (s : State) : Bool := decide (s.officeLink = .up) && decide (s.officeOut.length < Config.officeCapacity)

/-- A reply or notice offered to the office engine egress queue: placed, or dropped and counted (R169, R175). -/
def offerOffice (origin : Origin) (f : Frame) (s : State) : State :=
  { s with
    officeOut := if officeTakes s then s.officeOut ++ [{ frame := f, origin := origin }] else s.officeOut
    counters :=
      if officeTakes s then s.counters
      else if s.officeLink = .down then { s.counters with officeLinkDrops := bump s.counters.officeLinkDrops }
      else { s.counters with officeFullDrops := bump s.counters.officeFullDrops } }

/-- The number the next notice takes (R194). -/
def nextNotice (s : State) : Nat := (s.noticeNumber + 1) % 65536

/-- A notice handed to the Responder: it takes the next number and is offered to the office queue (R194). -/
def handNotice (n : Notice) (s : State) : State :=
  offerOffice .notice (partFrame s.settings kindNotice s.settings.controllerStation (n.body (nextNotice s)))
    { s with noticeNumber := nextNotice s }

/-- Notices handed in order. -/
def handNotices (ns : List Notice) (s : State) : State := ns.foldl (fun t n => handNotice n t) s

/-- The frame of a reply formed under a configuration (R183, R200). -/
def replyFrame (cfg : Settings) (code tag : Nat) (reason : ReplyReason) (block : List Byte) : Frame :=
  partFrame cfg kindReply cfg.controllerStation (replyBody code tag reason block)

/-- A management reply offered to the office queue (R183). -/
def sendReply (code tag : Nat) (reason : ReplyReason) (block : List Byte) (s : State) : State :=
  offerOffice .reply (replyFrame s.settings code tag reason block) s

/-- A frame passed through towards the office port: appended, dropped at the tail, or dropped on a DOWN port (R169, R174). -/
def forwardToOffice (f : Frame) (s : State) : State :=
  { s with
    toOffice := if s.officeLink = .up ∧ s.toOffice.length < Config.forwardCapacity then s.toOffice ++ [f] else s.toOffice
    counters :=
      if s.officeLink = .down then { s.counters with officeLinkDrops := bump s.counters.officeLinkDrops }
      else if s.toOffice.length < Config.forwardCapacity then
        { s.counters with forwardedToOffice := bump s.counters.forwardedToOffice }
      else { s.counters with droppedToOffice := bump s.counters.droppedToOffice } }

/-- A frame passed through towards the shop port (R169, R174). -/
def forwardToShop (f : Frame) (s : State) : State :=
  { s with
    toShop := if s.shopLink = .up ∧ s.toShop.length < Config.forwardCapacity then s.toShop ++ [f] else s.toShop
    counters :=
      if s.shopLink = .down then { s.counters with shopLinkDrops := bump s.counters.shopLinkDrops }
      else if s.toShop.length < Config.forwardCapacity then
        { s.counters with forwardedToShop := bump s.counters.forwardedToShop }
      else { s.counters with droppedToShop := bump s.counters.droppedToShop } }

/-- The Posting Unit's response: the frame (R56, R198). -/
def responseFrame (cfg : Settings) (r : TillRequest) (outcome : TillOutcome) (c : Conditions) (grant : Nat) (view : CardView)
    (ref : Option JournalRef) : Frame :=
  partFrame cfg kindResponse r.source
    (responseBody r.kind.code outcome c r.sequence (cardBytes r.card) grant view ref)

/-- The Posting Unit places a response at the place it reserved, counts it by its outcome and is IDLE; on a DOWN port the
response is dropped and counted (R25, R27, R30, R169). -/
def placeResponse (r : TillRequest) (outcome : TillOutcome) (c : Conditions) (grant : Nat) (view : CardView)
    (ref : Option JournalRef) (s : State) : State :=
  { s with
    posting := .idle
    shopOut := if s.shopLink = .up then
        s.shopOut ++ [{ frame := responseFrame s.settings r outcome c grant view ref, origin := .response }] else s.shopOut
    counters :=
      let counted := countOutcome outcome s.counters
      if s.shopLink = .up then counted else { counted with shopLinkDrops := bump counted.shopLinkDrops } }

/-! ### The clock -/

/-- T, where the clock has one (R188, R189). -/
def timeOf : Clock → Option Nat
  | .unset => none
  | .running t => some t
  | .holding t _ => some t

/-- The business day of T under a roll offset: 0 while T is below the offset (R189). -/
def dayOf (rollOffset t : Nat) : Nat := (t - rollOffset) / Config.daySeconds

/-- Today; 0 while the clock is UNSET, where no rule judges a day (R15, R191). -/
def today (s : State) : Nat :=
  match timeOf s.clock with
  | some t => dayOf s.settings.rollOffset t
  | none => 0

/-! ### Holds and card judgments -/

/-- A hold whose expiry time is at or before T is expired; none is while the clock is UNSET (R13, R15). -/
def holdExpired (now : Option Nat) (h : Hold) : Bool :=
  match now with
  | some t => decide (h.expiry ≤ t)
  | none => false

/-- The unexpired holds, in list order (R13). -/
def liveHolds (now : Option Nat) (holds : List Hold) : List Hold := holds.filter fun h => !holdExpired now h

/-- The sum of hold amounts. -/
def heldSum (holds : List Hold) : Nat := (holds.map Hold.amount).sum

/-- The free amount: the balance less the unexpired holds (R9). -/
def freeAmount (now : Option Nat) (c : CardRecord) : Nat := c.balance - heldSum (liveHolds now c.holds)

/-- The card without its expired holds: what every write of the record does (R13). -/
def pruneHolds (now : Option Nat) (c : CardRecord) : CardRecord := { c with holds := liveHolds now c.holds }

/-- The card is expired: never while the clock is UNSET (R12, R15). -/
def cardExpired (now : Option Nat) (day : Nat) (c : CardRecord) : Bool :=
  now.isSome && decide (c.expiryDay ≠ 0) && decide (c.expiryDay < day)

/-- Day-spend as read: 0 when the spend-day is not today, as stored while the clock is UNSET (R14, R15). -/
def daySpendRead (now : Option Nat) (day : Nat) (c : CardRecord) : Nat :=
  if now = none ∨ c.spendDay = day then c.daySpend else 0

/-- Day `a` is earlier than expiry day `b`, 0 counting as later than every nonzero day (R8). -/
def earlierExpiry (a b : Nat) : Bool := decide (a ≠ 0) && (decide (b = 0) || decide (a < b))

/-- Day-spend and spend-day after a debit, held at 2^40 - 1 (R8, R14). -/
def debited (day grant : Nat) (c : CardRecord) : CardRecord :=
  { c with
    balance := c.balance - grant
    daySpend := min ((if c.spendDay = day then c.daySpend else 0) + grant) Config.maxTime
    spendDay := day }

/-- What a response shows of a card (R38). -/
def viewOf (now : Option Nat) (c : CardRecord) : CardView :=
  { balance := c.balance, free := freeAmount now c, expiry := c.expiryDay }

/-- A response that shows no card (R38). -/
def noView : CardView := { balance := 0, free := 0, expiry := 0 }

/-! ### Program Table and Card Store -/

def programAt (s : State) (i : Nat) : Program := s.programs.read Program.blank i

/-- The program entry is not EMPTY and its range holds the prefix (R2). -/
def Program.claims (p : Program) (pre : Nat) : Bool :=
  decide (p.state ≠ .empty) && decide (p.prefixLow ≤ pre) && decide (pre ≤ p.prefixHigh)

/-- The index of the program a card number belongs to (R2). -/
def matchProgram (programs : Table Program) (card : Nat) : Option Nat :=
  (List.range Config.programCount).find? fun i => (programs.read Program.blank i).claims (cardPrefix card)

def cardAt (s : State) (slot : Nat) : Option CardRecord := s.cards.read none slot

/-- The lookup of R10 over the whole probe window: the slot and record that carry the number. -/
def lookupCard (s : State) (card : Nat) : Option (Nat × CardRecord) :=
  (probeWindow card).findSome? fun k =>
    match cardAt s k with
    | some c => if c.number = card then some (k, c) else none
    | none => none

/-- The EMPTY slot of lowest offset in the window (R11). -/
def firstEmpty (s : State) (card : Nat) : Option Nat := (probeWindow card).find? fun k => decide (cardAt s k = none)

/-- The live-card count after a change (R6). -/
def changeLive (change : LiveChange) (p : Program) : Program :=
  match change with
  | .same => p
  | .rise => { p with live := p.live + 1 }
  | .fall => { p with live := p.live - 1 }

/-- The Program Table with the live-card count of entry `i` changed (R6). -/
def changeLiveAt (change : LiveChange) (i : Nat) (t : Table Program) : Table Program :=
  match change with
  | .same => t
  | .rise => t.write Program.blank i (changeLive .rise (t.read Program.blank i))
  | .fall => t.write Program.blank i (changeLive .fall (t.read Program.blank i))

/-- The balance that counts to the liability: that of an ACTIVE or SUSPENDED card (R53). -/
def liveBalance : Option CardRecord → Nat
  | some c => if c.state = .retired then 0 else c.balance
  | none => 0

/-! ### Journal -/

/-- The position a reference names (R71). -/
def positionOf (r : JournalRef) : Nat := r.block * Config.journalEntries + r.entry

/-- The write position advanced by one entry, carrying into block and lap (R71). -/
def advance (r : JournalRef) : JournalRef :=
  if r.entry + 1 < Config.journalEntries then { r with entry := r.entry + 1 }
  else if r.block + 1 < Config.journalBlocks then { r with block := r.block + 1, entry := 0 }
  else { lap := (r.lap + 1) % Config.journalLaps, block := 0, entry := 0 }

def entryAt (s : State) (r : JournalRef) : Option JournalEntry := s.journal.read none (positionOf r)

/-- Resolution of a reference: NO_REF at an empty position, AGED where the position carries another lap (R76). -/
def resolveRef (s : State) (r : JournalRef) : Except DeclineReason JournalEntry :=
  match entryAt s r with
  | none => .error .noRef
  | some e => if e.lap = r.lap then .ok e else .error .aged

/-- A change to the entry a reference names, made only where the position still carries the reference's lap (R74). -/
def editEntry (r : JournalRef) (f : JournalEntry → JournalEntry) (j : Table (Option JournalEntry)) : Table (Option JournalEntry) :=
  match j.read none (positionOf r) with
  | some e => if e.lap = r.lap then j.write none (positionOf r) (some (f e)) else j
  | none => j

/-- The change of R74 through a reference that may be absent. -/
def editLinked (r : Option JournalRef) (f : JournalEntry → JournalEntry) (j : Table (Option JournalEntry)) :
    Table (Option JournalEntry) :=
  match r with
  | some ref => editEntry ref f j
  | none => j

/-- The entry put at the write position, stamped with its lap (R71, R72). -/
def appendAt (w : JournalRef) (e : JournalEntry) (j : Table (Option JournalEntry)) : Table (Option JournalEntry) :=
  j.write none (positionOf w) (some { e with lap := w.lap })

/-- The hold's RESERVE entry linked to the entry that finishes it (R68, R69). -/
def linkReserve (finisher : JournalRef) (e : JournalEntry) : JournalEntry :=
  if e.kind = .reserve then { e with link := some finisher } else e

/-- A journal entry of a card kind, not yet stamped with lap (R73). -/
def cardEntry (kind : JournalKind) (r : TillRequest) (amount day cycle : Nat) (remaining : Option Nat) (link : Option JournalRef) :
    JournalEntry :=
  { lap := 0, kind := kind, card := some r.card, merchant := some r.merchant, lane := some r.lane, amount := amount, day := day,
    cycle := cycle, remaining := remaining, cancelled := false, link := link, secondCard := none }

/-! ### Lanes, terms and positions -/

/-- The number of a lane record. -/
def laneNumber (merchant lane : Nat) : Nat := merchant * Config.lanesPerMerchant + lane

def laneAt (s : State) (merchant lane : Nat) : Lane := s.lanes.read Lane.unassigned (laneNumber merchant lane)

/-- The enabled lane whose station is the source station: merchant and lane (R109). -/
def laneOfStation (lanes : Table Lane) (station : Nat) : Option (Nat × Nat) :=
  match lanes.find? fun e => decide (e.2.station = station) && decide (station ≠ 0) with
  | some (n, l) => if l.enabled then some (n / Config.lanesPerMerchant, n % Config.lanesPerMerchant) else none
  | none => none

/-- The page of a merchant (R93). -/
def pageOf (merchant : Nat) : Nat := merchant / Config.pageSize

def pageAt (s : State) (page : Nat) : PageState := s.pages.read .opened page

/-- A terms entry as every reader reads it: as stored on an OPEN or FIXED page, UNENROLLED on a CLEARING or TORN one
(R94). -/
def termsOf (s : State) (merchant : Nat) : Terms :=
  match pageAt s (pageOf merchant) with
  | .opened => s.terms.read Terms.unenrolled merchant
  | .fixed => s.terms.read Terms.unenrolled merchant
  | .clearing => Terms.unenrolled
  | .torn => Terms.unenrolled

def positionAt (s : State) (merchant : Nat) : Position := s.positions.read Position.zero merchant

/-- S + F - R of a bank (R116). -/
def Bank.outstanding (b : Bank) : Int := (b.sold : Int) + b.refunded - b.redeemed

/-- The exposure of a position, exact (R116). -/
def exposure (p : Position) : Int :=
  if p.computed then p.current.outstanding - p.carry
  else p.current.outstanding + p.closing.outstanding - p.carryIn - p.carry

/-- A sum held within the range of a carry or net amount (R122, R133). -/
def clampCarry (v : Int) : Int := if v < Config.minCarry then Config.minCarry else if Config.maxCarry < v then Config.maxCarry else v

/-- The sum passes the range (R122, R133). -/
def outsideCarry (v : Int) : Bool := decide (v < Config.minCarry) || decide (Config.maxCarry < v)

/-- A whole signed addition to the carry, under the clamp and its mark (R122). -/
def addCarry (amount : Int) (p : Position) : Position :=
  { p with carry := clampCarry (p.carry + amount), carryClamp := p.carryClamp || outsideCarry (p.carry + amount) }

/-- The notice of a CARRY_CLAMP mark that goes from clear to set (R122). -/
def clampNotices (merchant : Nat) (before after : Position) : List Notice :=
  if before.carryClamp = false ∧ after.carryClamp = true then [.carryClamp merchant] else []

/-- A carry addition to a merchant's record, with its notice (R122). -/
def carryAddition (merchant : Nat) (amount : Int) (s : State) : State :=
  handNotices (clampNotices merchant (positionAt s merchant) (addCarry amount (positionAt s merchant)))
    { s with positions := s.positions.write Position.zero merchant (addCarry amount (positionAt s merchant)) }

/-! ### Work in hand -/

/-- A STORE_CLEAR or the first-start initialisation is in flight (R181, R192). -/
def clearing (s : State) : Bool := decide (s.clearRun ≠ .none)

/-- The program entries Request Admission reads: all EMPTY during an erasure made again after a reset and during the
first-start initialisation (R181, R193). -/
def admissionPrograms (s : State) : Table Program :=
  match s.clearRun with
  | .none => s.programs
  | .accepted => s.programs
  | .repeated => []
  | .initialising => []

/-- A step whose block has work: what it does outside a reset; in a reset the part does nothing (R179, log 1). -/
def outOfReset (f : State → State) (s : State) : State := if s.inReset then s else f s

/-- The oldest request of the Responder's input queue, read, and the state without it (R183). -/
def takeManagement (s : State) : Option (Nat × Nat × Parsed × State) :=
  match s.mgmtIn with
  | [] => none
  | f :: rest => some (echoedCode f, echoedTag f, parseManagement f, { s with mgmtIn := rest })

/-- The Responder takes a request that is this step's own: check 3 and check 4 of R184 refuse it BUSY, otherwise `serve`
executes it with its tag. `mine` says which requests the step serves. This BUSY carries no block, not even for WRITE_TERMS and
WRITE_LANE: R100 and R110 name one for their own checks (R201, log 10). -/
def serveManagement {α : Type} (mine : Request → Option α) (serve : α → Nat → State → State) (s : State) : State :=
  outOfReset (fun s =>
    match takeManagement s with
    | some (code, tag, .good r, t) =>
      match mine r with
      | some a => if clearing s || s.restartPending then sendReply code tag .busy [] t else serve a tag t
      | none => s
    | some (_, _, .malformed, _) => s
    | some (_, _, .unknown, _) => s
    | none => s) s

end Sys2Proof.Machine
end

