-- ==== Sys2Proof/Machine/Calculator.lean ====
section
/-! DEFINITION. The Settlement Calculator (chapter 7): the step of the walk with its arithmetic, disposition and write-back,
the completion, and READ_BATCH. -/

namespace Sys2Proof.Machine

/-! ### The arithmetic (section 7.2) -/

/-- `n / 10,000` rounded to nearest, ties away from zero (R131). -/
def roundTenThousandth (n : Int) : Int :=
  if 0 ≤ n then (((n.toNat * 2 + 10000) / 20000 : Nat) : Int) else -((((-n).toNat * 2 + 10000) / 20000 : Nat) : Int)

/-- Stage 1, the base (R131). -/
def settlementBase (b : Bank) : Int := (b.redeemed : Int) - b.refunded

/-- Stage 2, the discount fee (R131). -/
def discountFee (b : Bank) (t : Terms) : Int := roundTenThousandth (settlementBase b * t.discount)

/-- Stage 3, the commission (R132). -/
def commissionOf (b : Bank) (t : Terms) : Nat := b.sold * t.commission / 10000

/-- Stage 4, the charges (R132). -/
def chargesOf (b : Bank) (t : Terms) : Nat := b.nRedeemed * t.charge

/-- Stage 5, the exact net before the clamp (R133). -/
def exactNet (b : Bank) (carryIn : Int) (t : Terms) : Int :=
  (b.redeemed : Int) - b.refunded - b.sold - discountFee b t + commissionOf b t - chargesOf b t + carryIn

/-- The disposition of a closing bank that is not saturated (R134). -/
def dispositionOf (t : Terms) (net : Int) : Disposition :=
  match t.state with
  | .enrolled => if net < 0 then .debt else if 1 ≤ net ∧ (t.minPayout : Int) ≤ net then .pay else .carry
  | .withdrawn => if net < 0 then .debt else if 1 ≤ net then .pay else .carry
  | .suspended => .held
  | .unenrolled => .held

/-- The record of a merchant whose closing bank is not idle, its CLAMPED mark not yet joined with the carry's clamp
(R133 to R136). -/
def settlementRecord (index merchant cycle : Nat) (p : Position) (t : Terms) : BatchRecord :=
  let exact := exactNet p.closing p.carryIn t
  let net := clampCarry exact
  let disposition := if p.closingSaturated then .held else dispositionOf t net
  { index := index, merchant := merchant, cycle := cycle, bank := p.closing, carryIn := p.carryIn, fee := discountFee p.closing t,
    commission := commissionOf p.closing t, charges := chargesOf p.closing t, net := net, termsState := t.state,
    disposition := disposition, payout := if disposition = .pay then net.toNat else 0,
    carryOut := if p.closingSaturated = true ∨ disposition = .pay then 0 else net, saturated := p.closingSaturated,
    clamped := outsideCarry exact, tier := t.tier, release := if disposition = .pay then some .pending else none }

/-- The closing bank is idle (R130). -/
def Position.idle (p : Position) : Bool :=
  decide (p.closing = Bank.zero) && decide (p.carryIn = 0) && !p.closingSaturated

/-! ### The write-back (R137) -/

/-- The position after the write-back: the carry-out added under the clamp, the CARRY_CLAMP mark also where N was clamped,
except for a SATURATED record, and the computed mark (R137). -/
def writtenBack (r : BatchRecord) (p : Position) : Position :=
  let q := addCarry r.carryOut p
  { q with carryClamp := q.carryClamp || (r.clamped && !r.saturated), computed := true }

/-- The record with its CLAMPED mark: N was clamped, or the addition to the carry clamped (R137). -/
def markClamped (r : BatchRecord) (p : Position) : BatchRecord := { r with clamped := r.clamped || outsideCarry (p.carry + r.carryOut) }

/-- The running totals with one more record (R139). -/
def Totals.add (r : BatchRecord) (t : Totals) : Totals :=
  { count := t.count + 1, payout := t.payout + r.payout, net := t.net + r.net, redeemed := t.redeemed + r.bank.redeemed,
    refunded := t.refunded + r.bank.refunded, sold := t.sold + r.bank.sold, hash := t.hash + r.merchant }

/-- The step of the walk for the merchant at the cursor (R128 to R137). -/
def walkStep (s : State) : State :=
  let m := s.batch.cursor
  let p := positionAt s m
  if p.idle then
    { s with
      positions := s.positions.write Position.zero m { p with computed := true }
      batch := { s.batch with cursor := m + 1 } }
  else
    let r := settlementRecord s.batch.totals.count m s.batch.cycle p (termsOf s m)
    handNotices (clampNotices m p (writtenBack r p))
      { s with
        positions := s.positions.write Position.zero m (writtenBack r p)
        batch := { s.batch with
          cursor := m + 1, records := s.batch.records ++ [markClamped r p], totals := s.batch.totals.add r } }

/-- The walk runs: the batch is COMPUTING and no erasure is in flight (R128, R143). -/
def walkRuns (s : State) : Bool := decide (s.batch.state = .computing) && !clearing s

def calculatorStepState (s : State) : State :=
  outOfReset (fun s => if walkRuns s = true ∧ s.batch.cursor < Config.merchantCount then walkStep s else s) s

/-- CALCULATOR_STEP (R128). -/
def execCalculatorStep (s : State) : Host.Outcome State Fault Refusal := .next (calculatorStepState s)

/-- The one write of the completion (R140). -/
def completionWrite (s : State) : State :=
  { s with batch := { s.batch with state := .computed, trailer := some s.batch.totals } }

/-- The walk stands at its end and the completion was not written (R140, R142). -/
def completionDue (s : State) : Bool := decide (s.batch.state = .computing) && decide (Config.merchantCount ≤ s.batch.cursor)

def computationCompletionState (s : State) : State :=
  outOfReset (fun s =>
    if walkRuns s = true ∧ completionDue s = true then handNotice (.batchComputed s.batch.cycle) (completionWrite s) else s) s

/-- COMPUTATION_COMPLETION (R140). -/
def execComputationCompletion (s : State) : Host.Outcome State Fault Refusal := .next (computationCompletionState s)

/-! ### READ_BATCH (R144) -/

/-- The release state as a field that may be absent (R136, R201). -/
def releaseBytes (r : Option ReleaseState) : List Byte := optBytes 1 (r.map fun x => beBytes 1 x.code)

/-- A batch record in a reply, the fields of R136 in their order (R144, R201). -/
def recordBlock (r : BatchRecord) : List Byte :=
  beBytes 2 r.index ++ beBytes 2 r.merchant ++ beBytes 2 r.cycle ++ moneyBytes r.bank.redeemed ++ moneyBytes r.bank.refunded ++
    moneyBytes r.bank.sold ++ beBytes 4 r.bank.nRedeemed ++ beBytes 4 r.bank.nRefunded ++ beBytes 4 r.bank.nSold ++
    moneyBytes r.carryIn ++ moneyBytes r.fee ++ moneyBytes r.commission ++ moneyBytes r.charges ++ moneyBytes r.net ++
    beBytes 1 r.termsState.code ++ beBytes 1 r.disposition.code ++ moneyBytes r.payout ++ moneyBytes r.carryOut ++
    flagByte r.saturated ++ flagByte r.clamped ++ beBytes 1 r.tier ++ releaseBytes r.release

/-- The trailer in a reply: the totals of R139 in their order, then the batch cycle (R139, R144, R201). -/
def trailerBlock (t : Totals) (cycle : Nat) : List Byte :=
  beBytes 4 t.count ++ signedBytes 16 t.payout ++ signedBytes 16 t.net ++ moneyBytes t.redeemed ++ moneyBytes t.refunded ++
    moneyBytes t.sold ++ beBytes 4 t.hash ++ beBytes 2 cycle

/-- The header fields of a READ_BATCH reply (R144). -/
def batchHeader (b : Batch) : List Byte := beBytes 1 b.state.code ++ beBytes 2 b.cycle ++ beBytes 2 b.cursor ++ beBytes 4 b.totals.count

/-- Checks 2 to 5 of READ_BATCH and what they find (R144); the selector 0xFFFF names the trailer (R200). -/
def batchRead (b : Batch) (selector : Nat) : Except ReplyReason (List Byte) :=
  if selector = 0xFFFF then
    if b.state = .empty ∨ b.state = .computing then .error .state
    else .ok (batchHeader b ++ trailerBlock (b.trailer.getD Totals.zero) b.cycle)
  else if selector < Config.merchantCount then
    if b.state = .empty then .error .state
    else match b.records[selector]? with
      | some r => .ok (batchHeader b ++ recordBlock r)
      | none => .error .notFound
  else .error .range

def serveReadBatch (selector tag : Nat) (s : State) : State :=
  match batchRead s.batch selector with
  | .ok block => sendReply 0x43 tag .accepted block s
  | .error reason => sendReply 0x43 tag reason [] s

/-- READ_BATCH (R144). -/
def execReadBatch (s : State) : Host.Outcome State Fault Refusal :=
  .next (serveManagement (fun r => match r with | .readBatch sel => some sel | _ => none) serveReadBatch s)

end Sys2Proof.Machine
end

