-- ==== Sys2Proof/Machine/Cards.lean ====
section
/-! DEFINITION. The management card requests (section 1.6): their place in the management card slot, and their execution by
the Posting Unit. -/

namespace Sys2Proof.Machine

/-! ### The slot (R17) -/

def serveCardSlotPlacement (q : CardOp × Nat) (tag : Nat) (s : State) : State :=
  if s.cardSlot.isSome then sendReply q.1.code tag .busy [] s
  else { s with cardSlot := some { op := q.1, card := q.2, tag := tag } }

/-- CARD_SLOT_PLACEMENT (R17). -/
def execCardSlotPlacement (s : State) : Host.Outcome State Fault Refusal :=
  .next (serveManagement (fun r => match r with | .card op n => some (op, n) | _ => none) serveCardSlotPlacement s)

/-- The card request is complete: the slot is empty, the Posting Unit IDLE and the reply handed over (R17, R25, R27). -/
def finishCard (q : CardRequest) (reason : ReplyReason) (block : List Byte) (s : State) : State :=
  sendReply q.op.code q.tag reason block { s with posting := .idle, cardSlot := none }

/-- The Posting Unit takes the slot's request, before any till request: it is IDLE and the request is this step's own. It is
CARD while it executes it; during an erasure the request is refused BUSY, and the erasure's completion waits for that (R17,
R25, R26, R33, log 30). -/
def takeCard {α : Type} (mine : CardOp → Option α) (serve : α → CardRequest → State → State) (s : State) : State :=
  outOfReset (fun s =>
    match s.posting, s.cardSlot with
    | .idle, some q =>
      match mine q.op with
      | some a => if clearing s then finishCard q .busy [] s else serve a q { s with posting := .card q }
      | none => s
    | _, _ => s) s

/-! ### Finding and showing a card -/

/-- The common tests of R17 on a card number, then the lookup of R10. -/
def requestedCard (s : State) (number : Nat) : Except ReplyReason (Nat × CardRecord) :=
  if sixteenDigits number then
    if passesCheck number then
      match lookupCard s number with
      | some found => .ok found
      | none => .error .notFound
    else .error .range
  else .error .format

/-- A hold as READ_CARD shows it (R9, R18). -/
def holdBytes (h : Hold) : List Byte :=
  refBytes h.reference ++ beBytes 2 h.merchant ++ beBytes 1 h.lane ++ moneyBytes h.amount ++ beBytes 8 h.expiry

/-- The result block of READ_CARD (R18, R201). -/
def cardBlock (s : State) (slot : Nat) (c : CardRecord) : List Byte :=
  let now := timeOf s.clock
  cardBytes (maskCard s.settings.privacyLock c.number) ++ beBytes 4 slot ++ beBytes 2 c.program ++ beBytes 1 c.state.code ++
    moneyBytes c.balance ++ moneyBytes (freeAmount now c) ++ beBytes 1 (liveHolds now c.holds).length ++
    (liveHolds now c.holds).flatMap holdBytes ++ moneyBytes (daySpendRead now (today s) c) ++ beBytes 4 c.spendDay ++
    beBytes 4 c.issueDay ++ beBytes 4 c.expiryDay ++ flagByte (cardExpired now (today s) c) ++ beBytes 2 c.issuer ++
    beBytes 4 c.lastDay ++ beBytes 1 s.clock.code

/-- A card request that changes one card: refused, or written with its expired holds removed and shown as it stands after
the change (R13, R17). `change` gives the refusal or the changed record. -/
def changeCard (q : CardRequest) (change : CardRecord → Except ReplyReason CardRecord) (live : LiveChange) (s : State) : State :=
  match requestedCard s q.card with
  | .error reason => finishCard q reason [] s
  | .ok (slot, c) =>
    match change c with
    | .error reason => finishCard q reason [] s
    | .ok c' =>
      finishCard q .accepted (cardBlock s slot (pruneHolds (timeOf s.clock) c'))
        { s with
          cards := s.cards.write none slot (some (pruneHolds (timeOf s.clock) c'))
          programs := changeLiveAt live c.program s.programs }

/-! ### The requests -/

def serveReadCard (q : CardRequest) (s : State) : State :=
  match requestedCard s q.card with
  | .error reason => finishCard q reason [] s
  | .ok (slot, c) => finishCard q .accepted (cardBlock s slot c) s

/-- READ_CARD (R18). -/
def execReadCard (s : State) : Host.Outcome State Fault Refusal :=
  .next (takeCard (fun op => match op with | .read => some () | _ => none) (fun _ => serveReadCard) s)

/-- SUSPEND_CARD on an ACTIVE card (R19). -/
def suspended (c : CardRecord) : Except ReplyReason CardRecord :=
  if c.state = .active then .ok { c with state := .suspended } else .error .state

/-- SUSPEND_CARD (R19). -/
def execSuspendCard (s : State) : Host.Outcome State Fault Refusal :=
  .next (takeCard (fun op => match op with | .suspend => some () | _ => none) (fun _ q => changeCard q suspended .same) s)

/-- RESUME_CARD on a SUSPENDED card (R19). -/
def resumed (c : CardRecord) : Except ReplyReason CardRecord :=
  if c.state = .suspended then .ok { c with state := .active } else .error .state

/-- RESUME_CARD (R19). -/
def execResumeCard (s : State) : Host.Outcome State Fault Refusal :=
  .next (takeCard (fun op => match op with | .resume => some () | _ => none) (fun _ q => changeCard q resumed .same) s)

/-- RETIRE_CARD on a live card with balance 0 and no unexpired hold (R20). -/
def retired (now : Option Nat) (c : CardRecord) : Except ReplyReason CardRecord :=
  if c.state = .retired then .error .state
  else if c.balance = 0 ∧ (liveHolds now c.holds).isEmpty = true then .ok { c with state := .retired } else .error .conflict

/-- RETIRE_CARD (R20). -/
def execRetireCard (s : State) : Host.Outcome State Fault Refusal :=
  .next (takeCard (fun op => match op with | .retire => some () | _ => none)
    (fun _ q t => changeCard q (retired (timeOf t.clock)) .fall t) s)

def servePurgeCard (q : CardRequest) (s : State) : State :=
  match requestedCard s q.card with
  | .error reason => finishCard q reason [] s
  | .ok (slot, c) =>
    if c.state = .retired then finishCard q .accepted [] { s with cards := s.cards.write none slot none }
    else finishCard q .state [] s

/-- PURGE_CARD (R21). -/
def execPurgeCard (s : State) : Host.Outcome State Fault Refusal :=
  .next (takeCard (fun op => match op with | .purge => some () | _ => none) (fun _ => servePurgeCard) s)

/-- EXTEND_CARD on a live card, to a day not earlier than the stored one (R22). -/
def extended (day : Nat) (c : CardRecord) : Except ReplyReason CardRecord :=
  if c.state = .retired then .error .state
  else if day ≤ 16777215 ∧ earlierExpiry day c.expiryDay = false then .ok { c with expiryDay := day } else .error .range

/-- EXTEND_CARD (R22). -/
def execExtendCard (s : State) : Host.Outcome State Fault Refusal :=
  .next (takeCard (fun op => match op with | .extend day => some day | _ => none)
    (fun day q => changeCard q (extended day) .same) s)

/-! ### MOVE_BALANCE (R23) -/

/-- Checks 6 to 8 of MOVE_BALANCE, once both cards are found (R23). -/
def moveTests (s : State) (source destination : CardRecord) : List (Check ReplyReason) :=
  let amount := freeAmount (timeOf s.clock) source
  [ (decide (destination.state = .active) && !cardExpired (timeOf s.clock) (today s) destination, .state),
    (decide (1 ≤ amount), .range),
    (decide (destination.balance + amount ≤ (programAt s destination.program).ceiling), .ceiling) ]

/-- The MOVE entry, not yet stamped with lap (R23, R73). -/
def moveEntry (s : State) (source destination : CardRecord) (amount : Nat) : JournalEntry :=
  { lap := 0, kind := .move, card := some source.number, merchant := none, lane := none, amount := amount, day := today s,
    cycle := s.cycle, remaining := none, cancelled := false, link := none, secondCard := some destination.number }

/-- A card of a MOVE_BALANCE with its new balance: expired holds removed, last-activity day today (R23). -/
def moved (s : State) (balance : Nat) (c : CardRecord) : CardRecord :=
  { pruneHolds (timeOf s.clock) c with balance := balance, lastDay := today s }

/-- The accepted MOVE_BALANCE: one write of both records and the journal entry, then the reply, in which the source stands
before the destination (R23; that order of the two records is the model's, log 10). -/
def moveWrite (q : CardRequest) (sourceSlot : Nat) (source : CardRecord) (slot : Nat) (destination : CardRecord) (s : State) : State :=
  let amount := freeAmount (timeOf s.clock) source
  let source' := moved s (source.balance - amount) source
  let destination' := moved s (destination.balance + amount) destination
  finishCard q .accepted
    (moneyBytes amount ++ cardBlock s sourceSlot source' ++ cardBlock s slot destination' ++ refBytes s.writePos)
    { s with
      cards := (s.cards.write none sourceSlot (some source')).write none slot (some destination')
      journal := appendAt s.writePos (moveEntry s source destination amount) s.journal
      writePos := advance s.writePos }

def serveMoveBalance (number : Nat) (q : CardRequest) (s : State) : State :=
  if (timeOf s.clock).isNone then finishCard q .state [] s
  else if q.card = number then finishCard q .conflict [] s
  else match requestedCard s q.card with
    | .error reason => finishCard q reason [] s
    | .ok (sourceSlot, source) =>
      if source.state = .suspended then
        match requestedCard s number with
        | .error reason => finishCard q reason [] s
        | .ok (slot, destination) =>
          match firstFailure (moveTests s source destination) with
          | some reason => finishCard q reason [] s
          | none => moveWrite q sourceSlot source slot destination s
      else finishCard q .state [] s

/-- MOVE_BALANCE (R23). -/
def execMoveBalance (s : State) : Host.Outcome State Fault Refusal :=
  .next (takeCard (fun op => match op with | .move number => some number | _ => none) serveMoveBalance s)

end Sys2Proof.Machine
end

