-- ==== Sys2Proof/Machine/Clock.lean ====
section
/-! DEFINITION. The mall clock (R188, R189): what a second, the end of a hold and a clock loss do to it. -/

namespace Sys2Proof.Machine

/-- T one second later; it stays at 2^40 - 1 (R189). -/
def riseTime (t : Nat) : Nat := min (t + 1) Config.maxTime

/-- The clock one second later. A hold of 0 has ended already, so T rises (R189, log 6). -/
def Clock.second : Clock → Clock
  | .unset => .unset
  | .running t => .running (riseTime t)
  | .holding t held => if held = 0 then .running (riseTime t) else .holding t (held - 1)

/-- The end of a hold whose held amount has reached 0 (R189). -/
def Clock.endHold : Clock → Clock
  | .unset => .unset
  | .running t => .running t
  | .holding t held => if held = 0 then .running t else .holding t held

/-- CLOCK_SECOND (R189). -/
def execClockSecond (s : State) : Host.Outcome State Fault Refusal :=
  .next (outOfReset (fun s => { s with clock := s.clock.second }) s)

/-- HOLD_END (R189). -/
def execHoldEnd (s : State) : Host.Outcome State Fault Refusal :=
  .next (outOfReset (fun s => { s with clock := s.clock.endHold }) s)

/-- CLOCK_LOSS (R189): the clock is UNSET, the held amount 0, the mode as it was. -/
def execClockLoss (s : State) : Host.Outcome State Fault Refusal :=
  .next (outOfReset (fun s => { s with clock := .unset }) s)

end Sys2Proof.Machine
end

