-- ==== Sys2Proof/Machine/Directory.lean ====
section
/-! DEFINITION. The Merchant Directory and the Lane Table (chapter 5): terms writes, page clears and fixes, the directory
clear, and the lane records. -/

namespace Sys2Proof.Machine

/-! ### WRITE_TERMS (R96 to R100) -/

/-- Every written field lies within the range of R93, and the state written is not UNENROLLED (R96, check 4). -/
def termsInRange (w : TermsWrite) : Bool :=
  decide (1 ≤ w.state) && decide (w.state ≤ 3) && decide (w.discount ≤ 1500) && decide (w.commission ≤ 1000) &&
    decide (w.charge ≤ 500) && decide (w.minPayout ≤ 1000000) && decide (w.debitLimit ≤ 100000000) &&
    decide (w.returnWindow ≤ 365) && decide (w.tolerance ≤ 30) && decide (w.tier ≤ 3)

/-- The entry a write gives. -/
def writtenTerms (w : TermsWrite) : Terms :=
  { state := (TermsState.ofCode w.state).getD .unenrolled, maySell := w.maySell, mayRefund := w.mayRefund, discount := w.discount,
    commission := w.commission, charge := w.charge, minPayout := w.minPayout, debitLimit := w.debitLimit,
    returnWindow := w.returnWindow, tolerance := w.tolerance, tier := w.tier, payee := w.payee }

/-- The written state is the stored state or one forward of it along ENROLLED, SUSPENDED, WITHDRAWN (R98). -/
def stateForward (stored written : TermsState) : Bool := decide (stored ≠ .unenrolled) && decide (stored.code ≤ written.code)

/-- No field of the write moves against its tightening direction, and those without a direction are equal (R98). -/
def tightens (stored written : Terms) : Bool :=
  stateForward stored.state written.state && (stored.maySell || !written.maySell) && (stored.mayRefund || !written.mayRefund) &&
    decide (written.debitLimit ≤ stored.debitLimit) && decide (written.returnWindow ≤ stored.returnWindow) &&
    decide (written.tolerance ≤ stored.tolerance) && decide (stored.minPayout ≤ written.minPayout) &&
    decide (written.discount = stored.discount) && decide (written.commission = stored.commission) &&
    decide (written.charge = stored.charge) && decide (written.tier = stored.tier) && decide (written.payee = stored.payee)

/-- On a FIXED page only a forward state may differ (R99). -/
def fixedAgrees (stored written : Terms) : Bool :=
  decide ({ written with state := stored.state } = stored) && stateForward stored.state written.state

/-- The checks of WRITE_TERMS in their order (R96). -/
def termsTests (s : State) (w : TermsWrite) : List (Check ReplyReason) :=
  let page := pageAt s (pageOf w.merchant)
  let stored := termsOf s w.merchant
  [ (decide (w.merchant < Config.merchantCount), .range),
    (decide (page ≠ .clearing), .busy),
    (decide (page ≠ .torn), .torn),
    (termsInRange w, .range),
    (decide (page ≠ .fixed) || fixedAgrees stored (writtenTerms w), .fixed),
    (decide (page ≠ .opened) || decide (stored.state = .unenrolled) || tightens stored (writtenTerms w), .loosening) ]

/-- A terms entry in a reply, the fields of R93 in their order (R100, R107, R201). -/
def termsBytes (t : Terms) : List Byte :=
  beBytes 1 t.state.code ++ flagByte t.maySell ++ flagByte t.mayRefund ++ beBytes 2 t.discount ++ beBytes 2 t.commission ++
    beBytes 2 t.charge ++ moneyBytes t.minPayout ++ moneyBytes t.debitLimit ++ beBytes 2 t.returnWindow ++ beBytes 1 t.tolerance ++
    beBytes 1 t.tier ++ beBytes 4 t.payee

/-- The result block of WRITE_TERMS: the entry and its page state, accepted or refused; none for a merchant that does not
exist (R100). -/
def termsBlock (s : State) (merchant : Nat) : List Byte :=
  if merchant < Config.merchantCount then termsBytes (termsOf s merchant) ++ beBytes 1 (pageAt s (pageOf merchant)).code else []

def serveWriteTerms (w : TermsWrite) (tag : Nat) (s : State) : State :=
  match firstFailure (termsTests s w) with
  | some reason => sendReply 0x30 tag reason (termsBlock s w.merchant) s
  | none =>
    let t : State := { s with terms := s.terms.write Terms.unenrolled w.merchant (writtenTerms w) }
    sendReply 0x30 tag .accepted (termsBlock t w.merchant) t

/-- WRITE_TERMS (R96). -/
def execWriteTerms (s : State) : Host.Outcome State Fault Refusal :=
  .next (serveManagement (fun r => match r with | .writeTerms w => some w | _ => none) serveWriteTerms s)

def serveReadTerms (merchant tag : Nat) (s : State) : State :=
  if merchant < Config.merchantCount then
    sendReply 0x31 tag .accepted
      (termsBytes (termsOf s merchant) ++ beBytes 1 (pageOf merchant) ++ beBytes 1 (pageAt s (pageOf merchant)).code) s
  else sendReply 0x31 tag .range [] s

/-- READ_TERMS (R107). -/
def execReadTerms (s : State) : Host.Outcome State Fault Refusal :=
  .next (serveManagement (fun r => match r with | .readTerms m => some m | _ => none) serveReadTerms s)

/-! ### Clearing and fixing pages (R101 to R106) -/

/-- The checks of CLEAR_PAGE in their order (R101). -/
def clearPageTests (s : State) (page : Nat) : List (Check ReplyReason) :=
  [ (decide (page < Config.pageCount), .range),
    (decide (s.clearOp = .none), .busy),
    (decide (pageAt s page ≠ .fixed), .fixed),
    (decide (s.batch.state ≠ .computing), .busy) ]

def serveClearPage (page tag : Nat) (s : State) : State :=
  match firstFailure (clearPageTests s page) with
  | some reason => sendReply 0x32 tag reason [] s
  | none =>
    sendReply 0x32 tag .accepted (beBytes 1 PageState.clearing.code)
      { s with pages := s.pages.write .opened page .clearing, clearOp := .page page }

/-- CLEAR_PAGE (R101, R102). -/
def execClearPage (s : State) : Host.Outcome State Fault Refusal :=
  .next (serveManagement (fun r => match r with | .clearPage p => some p | _ => none) serveClearPage s)

/-- The completion of a page clear (R102); none is made while an erasure is in flight (R192). -/
def pageClearStep (s : State) : State :=
  outOfReset (fun s =>
    match s.clearOp with
    | .page page =>
      if clearing s then s
      else handNotice (.pageCleared page)
        { s with
          terms := s.terms.dropWhere fun m => decide (pageOf m = page)
          pages := s.pages.write .opened page .opened
          clearOp := .none }
    | .none => s
    | .directory => s) s

/-- PAGE_CLEAR_COMPLETION (R102). -/
def execPageClearCompletion (s : State) : Host.Outcome State Fault Refusal := .next (pageClearStep s)

/-- The refusal of FIX_PAGE by the page's state (R104). -/
def fixRefusal : PageState → Option ReplyReason
  | .opened => none
  | .clearing => some .busy
  | .torn => some .torn
  | .fixed => some .fixed

def serveFixPage (page tag : Nat) (s : State) : State :=
  if page < Config.pageCount then
    match fixRefusal (pageAt s page) with
    | some reason => sendReply 0x33 tag reason [] s
    | none => sendReply 0x33 tag .accepted (beBytes 1 PageState.fixed.code) { s with pages := s.pages.write .opened page .fixed }
  else sendReply 0x33 tag .range [] s

/-- FIX_PAGE (R104). -/
def execFixPage (s : State) : Host.Outcome State Fault Refusal :=
  .next (serveManagement (fun r => match r with | .fixPage p => some p | _ => none) serveFixPage s)

/-- The checks of CLEAR_DIRECTORY in their order (R105). -/
def clearDirectoryTests (s : State) : List (Check ReplyReason) :=
  [ (decide (s.clearOp = .none), .busy),
    (decide (s.mode = .maintenance), .conflict),
    (decide (s.batch.state = .empty) || decide (s.batch.state = .settled), .conflict),
    (s.positions.all fun e => decide (e.2.current = Bank.zero), .conflict),
    (s.positions.all fun e => decide (e.2.carry = 0), .conflict) ]

def serveClearDirectory (tag : Nat) (s : State) : State :=
  match firstFailure (clearDirectoryTests s) with
  | some reason => sendReply 0x34 tag reason [] s
  | none =>
    sendReply 0x34 tag .accepted []
      { s with pages := Table.build .opened Config.pageCount fun _ => .clearing, clearOp := .directory }

/-- CLEAR_DIRECTORY (R105, R106). -/
def execClearDirectory (s : State) : Host.Outcome State Fault Refusal :=
  .next (serveManagement (fun r => match r with | .clearDirectory => some () | _ => none) (fun _ => serveClearDirectory) s)

/-- The completion of a directory clear (R106). -/
def directoryClearStep (s : State) : State :=
  outOfReset (fun s =>
    match s.clearOp with
    | .directory =>
      if clearing s then s
      else handNotices ((List.range Config.pageCount).map .pageCleared) { s with terms := [], pages := [], clearOp := .none }
    | .none => s
    | .page _ => s) s

/-- DIRECTORY_CLEAR_COMPLETION (R106). -/
def execDirectoryClearCompletion (s : State) : Host.Outcome State Fault Refusal := .next (directoryClearStep s)

/-! ### The Lane Table (R109 to R112) -/

/-- A last record in a reply (R78, R201). -/
def lastBytes (l : LastRecord) : List Byte := refBytes l.reference ++ beBytes 4 l.sequence ++ beBytes 4 l.day ++ beBytes 2 l.cycle

/-- A lane record in a reply; an absent last record is a presence mark of 0 and fourteen bytes of 0 (R110, R112, R201, log 10). -/
def laneBlock (l : Lane) : List Byte := beBytes 2 l.station ++ flagByte l.enabled ++ optBytes 14 (l.last.map lastBytes)

/-- The merchant and the lane exist. -/
def laneExists (merchant lane : Nat) : Bool := decide (merchant < Config.merchantCount) && decide (lane < Config.lanesPerMerchant)

/-- Another lane record carries the station (R110, check 3). -/
def stationTaken (lanes : Table Lane) (own station : Nat) : Bool :=
  lanes.any fun e => decide (e.1 ≠ own) && decide (e.2.station = station)

/-- The checks of WRITE_LANE in their order; a yes-or-no byte other than 0 or 1 is RANGE (R110, R201). -/
def laneTests (s : State) (merchant lane enabled station : Nat) : List (Check ReplyReason) :=
  [ (laneExists merchant lane && decide (enabled ≤ 1), .range),
    (decide (station ≠ 0) || decide (enabled ≠ 1), .range),
    (decide (station = 0) || !stationTaken s.lanes (laneNumber merchant lane) station, .conflict) ]

def serveWriteLane (w : Nat × Nat × Nat × Nat) (tag : Nat) (s : State) : State :=
  let (merchant, lane, enabled, station) := w
  match firstFailure (laneTests s merchant lane enabled station) with
  | some reason =>
    sendReply 0x35 tag reason (if laneExists merchant lane then laneBlock (laneAt s merchant lane) else []) s
  | none =>
    let record : Lane := { station := station, enabled := decide (enabled = 1), last := none }
    sendReply 0x35 tag .accepted (laneBlock record)
      { s with lanes := s.lanes.write Lane.unassigned (laneNumber merchant lane) record }

/-- WRITE_LANE (R110). -/
def execWriteLane (s : State) : Host.Outcome State Fault Refusal :=
  .next (serveManagement (fun r => match r with | .writeLane m l e st => some (m, l, e, st) | _ => none) serveWriteLane s)

def serveReadLane (w : Nat × Nat) (tag : Nat) (s : State) : State :=
  if laneExists w.1 w.2 then sendReply 0x36 tag .accepted (laneBlock (laneAt s w.1 w.2)) s else sendReply 0x36 tag .range [] s

/-- READ_LANE (R112). -/
def execReadLane (s : State) : Host.Outcome State Fault Refusal :=
  .next (serveManagement (fun r => match r with | .readLane m l => some (m, l) | _ => none) serveReadLane s)

end Sys2Proof.Machine
end

