-- ==== Sys2Proof/Machine/Release.lean ====
section
/-! DEFINITION. The Release Unit (chapter 8): the release order and walk, the window and its egress, the gateway's replies,
timer expiry, and the controller's release requests. -/

namespace Sys2Proof.Machine

/-! ### Records of the batch -/

/-- A PAY record (R134). -/
def BatchRecord.isPay (r : BatchRecord) : Bool := decide (r.disposition = .pay)

/-- PAID, RETURNED or ABANDONED (R146). -/
def BatchRecord.isFinal (r : BatchRecord) : Bool :=
  decide (r.release = some .paid) || decide (r.release = some .returned) || decide (r.release = some .abandoned)

/-- PENDING or WAITING: the record awaits sending (R151). -/
def BatchRecord.awaitsSending (r : BatchRecord) : Bool :=
  r.isPay && (decide (r.release = some .pending) || decide (r.release = some .waiting))

/-- Every PAY record is final (R165). -/
def allFinal (records : List BatchRecord) : Bool := records.all fun r => !r.isPay || r.isFinal

/-- Where the PAY record of a merchant stands (R159, R163). -/
def findPay (records : List BatchRecord) (merchant : Nat) : Option Nat :=
  records.findIdx? fun r => r.isPay && decide (r.merchant = merchant)

/-- The record at a place with its release state changed (R138). -/
def setRelease (i : Nat) (x : ReleaseState) (records : List BatchRecord) : List BatchRecord :=
  modifyAt (fun r => { r with release := some x }) records i

/-- Records in SENT (R149). -/
def sentCount (records : List BatchRecord) : Nat := records.countP fun r => decide (r.release = some .sent)

/-! ### Release order (R147) -/

/-- Tier, then merchant. -/
def orderKey (r : BatchRecord) : Nat := r.tier * Config.merchantCount + r.merchant

/-- A (key, place) pair put where its key gives, after equal keys. -/
def insertKey (k : Nat × Nat) : List (Nat × Nat) → List (Nat × Nat)
  | [] => [k]
  | e :: rest => if k.1 < e.1 then k :: e :: rest else e :: insertKey k rest

/-- The places of the PAY records in release order (R147). -/
def releaseOrder (records : List BatchRecord) : List Nat :=
  (((records.zipIdx.filter fun e => e.1.isPay).map fun e => (orderKey e.1, e.2)).foldl (fun l k => insertKey k l) []).map Prod.snd

/-! ### The window (R156, R157) -/

/-- The merchant whose record a slot holds. -/
def slotMerchant : WindowSlot → Option Nat
  | .free => none
  | .awaiting m _ => some m
  | .timing m _ => some m

/-- The lowest-numbered free slot (R155). -/
def freeSlot (w : Table WindowSlot) : Option Nat := (List.range Config.windowSlots).find? fun k => decide (w.read .free k = .free)

/-- Occupied slots (R156). -/
def occupiedSlots (w : Table WindowSlot) : Nat := (List.range Config.windowSlots).countP fun k => decide (w.read .free k ≠ .free)

/-- Instructions awaiting egress placed oldest first while places are free; on a DOWN port each is dropped and counted, and
its slot is TIMING all the same (R157, R169). Gives the slots still waiting, the window, the queue and the frames dropped. -/
def drainGo (link : Link) (timeout : Nat) :
    List Nat → Table WindowSlot → List OutFrame → Nat → List Nat × Table WindowSlot × List OutFrame × Nat
  | [], w, q, dropped => ([], w, q, dropped)
  | k :: ks, w, q, dropped =>
    match w.read .free k with
    | .awaiting m f =>
      if link = .down then drainGo link timeout ks (w.write .free k (.timing m timeout)) q (dropped + 1)
      else if q.length < Config.officeCapacity then
        drainGo link timeout ks (w.write .free k (.timing m timeout)) (q ++ [{ frame := f, origin := .instruction }]) dropped
      else (k :: ks, w, q, dropped)
    | .free => drainGo link timeout ks w q dropped
    | .timing _ _ => drainGo link timeout ks w q dropped

/-- The oldest instructions awaiting egress take the free places of the office queue (R157, R175). `waiting` is the part of
them that is offered. -/
def placeSome (offered rest : List Nat) (s : State) : State :=
  let d := drainGo s.officeLink s.settings.confirmationTimeout offered s.window s.officeOut 0
  { s with
    awaiting := d.1 ++ rest
    window := d.2.1
    officeOut := d.2.2.1
    counters := { s.counters with officeLinkDrops := bumpBy d.2.2.2 s.counters.officeLinkDrops } }

/-- Every instruction awaiting egress is offered (R157). -/
def placeInstructions (s : State) : State := placeSome s.awaiting [] s

/-- The slot of a merchant's record becomes FREE, its timer stops and an instruction awaiting egress is discarded (R156,
R160, R161). -/
def vacate (merchant : Nat) (s : State) : State :=
  { s with
    window := s.window.filter fun e => decide (slotMerchant e.2 ≠ some merchant)
    awaiting := s.awaiting.filter fun k => decide (slotMerchant (s.window.read .free k) ≠ some merchant) }

/-! ### The walk (R151 to R155) -/

/-- What the walk reads and changes. -/
structure WalkState where
  records : List BatchRecord
  remaining : Nat
  window : Table WindowSlot
  awaiting : List Nat
  deriving DecidableEq, Repr

/-- The payout instruction of a record (R155, R202). -/
def instructionFrame (s : State) (r : BatchRecord) (slot : Nat) : Frame :=
  partFrame s.settings kindPayout s.settings.gatewayStation
    (payoutBody r.merchant slot s.batch.cycle (termsOf s r.merchant).payee r.payout)

/-- The send of R155: the record becomes SENT, the budget falls by the payout, the slot holds the instruction. -/
def sendRecord (s : State) (i : Nat) (r : BatchRecord) (slot : Nat) (w : WalkState) : WalkState :=
  { records := setRelease i .sent w.records
    remaining := w.remaining - r.payout
    window := w.window.write .free slot (.awaiting r.merchant (instructionFrame s r slot))
    awaiting := w.awaiting ++ [slot] }

/-- The walk along the places of the release order, STRICT (R152) or FILL (R153). The terms, mode, cycle and addresses are
those of `s`, which the walk does not change. -/
def walkGo (s : State) : List Nat → WalkState → WalkState
  | [], w => w
  | i :: rest, w =>
    match w.records[i]? with
    | none => walkGo s rest w
    | some r =>
      if r.awaitsSending then
        match freeSlot w.window with
        | none => w
        | some slot =>
          if (termsOf s r.merchant).state = .unenrolled then
            match s.batch.mode with
            | .strict => w
            | .fill => walkGo s rest w
          else if r.payout ≤ w.remaining then walkGo s rest (sendRecord s i r slot w)
          else match s.batch.mode with
            | .strict => { w with records := setRelease i .waiting w.records }
            | .fill => walkGo s rest { w with records := setRelease i .waiting w.records }
      else if r.release = some .unconfirmed ∧ s.batch.mode = .strict then w
      else walkGo s rest w

/-- The walk from the first record of the release order to its stop; the instructions sent await egress (R151). -/
def walkRecords (s : State) : State :=
  let w := walkGo s (releaseOrder s.batch.records)
    { records := s.batch.records, remaining := s.batch.remaining, window := s.window, awaiting := s.awaiting }
  { s with
    batch := { s.batch with records := w.records, remaining := w.remaining }
    window := w.window
    awaiting := w.awaiting }

/-- A walk that an event starts: only while the batch is RELEASING and no erasure is in flight (R151, R167). Its instructions
are offered to the office queue at once (R155). -/
def releaseWalk (s : State) : State :=
  if s.batch.state = .releasing ∧ clearing s = false then placeInstructions (walkRecords s) else s

/-- After a change of release state: the batch is SETTLED with its notice where every PAY record is final, and otherwise a
walk runs (R151, R165). A CARRY_CLAMP notice of the change itself has been handed before (log 12). -/
def afterChange (s : State) : State :=
  if allFinal s.batch.records then
    handNotice (.batchSettled s.batch.cycle) { s with batch := { s.batch with state := .settled } }
  else releaseWalk s

/-! ### Gateway replies (R159 to R161, R203) -/

/-- The record a frame of the gateway matches: the reply, the place of the record and the record (R159, R192). -/
def matchReply (s : State) (f : Frame) : Option (GatewayReply × Nat × BatchRecord) :=
  match gatewayReply f with
  | none => none
  | some g =>
    if s.batch.state = .releasing ∧ clearing s = false ∧ g.cycle = s.batch.cycle then
      match findPay s.batch.records g.merchant with
      | none => none
      | some i =>
        match s.batch.records[i]? with
        | none => none
        | some r => if r.release = some .sent ∨ r.release = some .unconfirmed then some (g, i, r) else none
    else none

/-- The record becomes PAID: the effect of a CONFIRM and of RESOLVE PAID on the batch (R160, R163). -/
def recordPaid (i : Nat) (s : State) : State := { s with batch := { s.batch with records := setRelease i .paid s.batch.records } }

/-- The record becomes RETURNED: the payout returns to the budget and to the merchant's carry (R161, R163). -/
def recordReturned (i : Nat) (r : BatchRecord) (s : State) : State :=
  carryAddition r.merchant r.payout
    { s with
      batch := { s.batch with
        records := setRelease i .returned s.batch.records, remaining := s.batch.remaining + r.payout } }

/-- The slot of a SENT record is freed; an UNCONFIRMED record has none (R160, R161). -/
def releaseSlot (r : BatchRecord) (s : State) : State := if r.release = some .sent then vacate r.merchant s else s

/-- A late confirmation is counted (R160, R168). -/
def countLate (r : BatchRecord) (s : State) : State :=
  if r.release = some .unconfirmed then
    { s with counters := { s.counters with lateConfirms := bump s.counters.lateConfirms } } else s

/-- The oldest frame handed to the Release Unit is taken by the step that it calls for. -/
def takeGateway (serve : Frame → State → State) (s : State) : State :=
  outOfReset (fun s =>
    match s.gatewayIn with
    | [] => s
    | f :: rest => serve f { s with gatewayIn := rest }) s

/-- The oldest frame handed to the Release Unit matches a record, with this kind of reply. -/
def replyDue (confirms : Bool) (s : State) : Bool :=
  match s.gatewayIn with
  | [] => false
  | f :: _ => match matchReply s f with
    | some (g, _, _) => g.confirms == confirms
    | none => false

def takeConfirm (f : Frame) (s : State) : State :=
  match matchReply s f with
  | some (_, i, r) => afterChange (countLate r (recordPaid i (releaseSlot r s)))
  | none => s

/-- CONFIRM (R160). -/
def execConfirm (s : State) : Host.Outcome State Fault Refusal :=
  .next (if replyDue true s then takeGateway takeConfirm s else s)

/-- A matching REJECT: the return, with its CARRY_CLAMP notice, before the settling, with its BATCH_SETTLED notice (R161; that
order of the two notices is the model's, log 12). -/
def takeReject (f : Frame) (s : State) : State :=
  match matchReply s f with
  | some (_, i, r) => afterChange (recordReturned i r (releaseSlot r s))
  | none => s

/-- REJECT (R161). -/
def execReject (s : State) : Host.Outcome State Fault Refusal :=
  .next (if replyDue false s then takeGateway takeReject s else s)

def takeStray (_f : Frame) (s : State) : State := { s with counters := { s.counters with strays := bump s.counters.strays } }

/-- STRAY (R159, R203): the oldest frame handed to the Release Unit matches no record. -/
def execStray (s : State) : Host.Outcome State Fault Refusal :=
  .next (if replyDue true s || replyDue false s then s else takeGateway takeStray s)

/-! ### Timer expiry (R158) -/

/-- The expiry of the timer of a TIMING slot whose record is SENT: the record becomes UNCONFIRMED, the slot FREE, a
PAYOUT_TIMEOUT notice is handed over and a walk runs. Timers do not expire during an erasure (R192). -/
def timerExpiryStep (slot : Nat) (s : State) : State :=
  outOfReset (fun s =>
    match s.window.read .free slot with
    | .timing merchant _ =>
      if clearing s then s
      else match findPay s.batch.records merchant with
        | none => s
        | some i =>
          if (s.batch.records[i]?.bind BatchRecord.release) = some .sent then
            releaseWalk (handNotice (.payoutTimeout merchant s.batch.cycle)
              { s with
                batch := { s.batch with records := setRelease i .unconfirmed s.batch.records }
                window := s.window.write .free slot .free })
          else s
    | .free => s
    | .awaiting _ _ => s) s

/-- TIMER_EXPIRY (R158). -/
def execTimerExpiry (slot : Nat) (s : State) : Host.Outcome State Fault Refusal := .next (timerExpiryStep slot s)

/-! ### Controller requests (R149, R150, R163, R164) -/

/-- The result block of RELEASE_BATCH and ADD_BUDGET (R149, R150). -/
def releaseBlock (b : Batch) : List Byte :=
  beBytes 1 b.state.code ++ beBytes 1 b.mode.code ++ moneyBytes b.granted ++ moneyBytes b.remaining ++ beBytes 4 (sentCount b.records)

/-- The checks of RELEASE_BATCH after the common ones (R149). -/
def releaseTests (s : State) (mode budget : Nat) : List (Check ReplyReason) :=
  [ (decide (budget ≤ Config.maxAccumulator) && (ReleaseMode.ofCode mode).isSome, .range),
    (decide (s.batch.state = .computed), .state) ]

/-- The one write of an accepted RELEASE_BATCH before its settling or its walk (R149). -/
def grantWrite (mode budget : Nat) (s : State) : State :=
  { s with
    batch := { s.batch with
      state := .releasing, mode := (ReleaseMode.ofCode mode).getD .strict, granted := budget, remaining := budget } }

def serveReleaseBatch (a : Nat × Nat) (tag : Nat) (s : State) : State :=
  match firstFailure (releaseTests s a.1 a.2) with
  | some reason => sendReply 0x50 tag reason [] s
  | none =>
    let t := afterChange (grantWrite a.1 a.2 s)
    sendReply 0x50 tag .accepted (releaseBlock t.batch) t

/-- RELEASE_BATCH (R149): a batch without PAY records has every PAY record final, and is SETTLED at once. -/
def execReleaseBatch (s : State) : Host.Outcome State Fault Refusal :=
  .next (serveManagement (fun r => match r with | .releaseBatch m g => some (m, g) | _ => none) serveReleaseBatch s)

/-- The checks of ADD_BUDGET after the common ones (R150). -/
def budgetTests (s : State) (amount : Nat) : List (Check ReplyReason) :=
  [ (decide (amount ≤ Config.maxAccumulator), .range),
    (decide (s.batch.state = .releasing), .state),
    (decide (s.batch.granted + amount ≤ Config.maxAccumulator), .range) ]

/-- The one write of an accepted ADD_BUDGET (R150). -/
def budgetWrite (amount : Nat) (s : State) : State :=
  { s with batch := { s.batch with granted := s.batch.granted + amount, remaining := s.batch.remaining + amount } }

def serveAddBudget (amount tag : Nat) (s : State) : State :=
  match firstFailure (budgetTests s amount) with
  | some reason => sendReply 0x51 tag reason [] s
  | none =>
    let t := releaseWalk (budgetWrite amount s)
    sendReply 0x51 tag .accepted (releaseBlock t.batch) t

/-- ADD_BUDGET (R150). -/
def execAddBudget (s : State) : Host.Outcome State Fault Refusal :=
  .next (serveManagement (fun r => match r with | .addBudget g => some g | _ => none) serveAddBudget s)

/-- Checks 2 to 5 of RESOLVE: the place of the UNCONFIRMED record and the record (R163). -/
def resolvable (s : State) (merchant outcome : Nat) : Except ReplyReason (Nat × BatchRecord) :=
  if merchant < Config.merchantCount ∧ outcome ≤ 1 then
    if s.batch.state = .releasing then
      match findPay s.batch.records merchant with
      | none => .error .notFound
      | some i =>
        match s.batch.records[i]? with
        | none => .error .notFound
        | some r => if r.release = some .unconfirmed then .ok (i, r) else .error .state
    else .error .state
  else .error .range

/-- The result block of RESOLVE (R163). -/
def resolveBlock (x : ReleaseState) (b : Batch) : List Byte := beBytes 1 x.code ++ moneyBytes b.remaining ++ beBytes 1 b.state.code

/-- RESOLVE RETURNED hands a CARRY_CLAMP notice before BATCH_SETTLED, as a REJECT does (R163, log 12). -/
def serveResolve (a : Nat × Nat) (tag : Nat) (s : State) : State :=
  match resolvable s a.1 a.2 with
  | .error reason => sendReply 0x52 tag reason [] s
  | .ok (i, r) =>
    let t := afterChange (if a.2 = 0 then recordPaid i s else recordReturned i r s)
    sendReply 0x52 tag .accepted (resolveBlock (if a.2 = 0 then .paid else .returned) t.batch) t

/-- RESOLVE (R163). -/
def execResolve (s : State) : Host.Outcome State Fault Refusal :=
  .next (serveManagement (fun r => match r with | .resolve m o => some (m, o) | _ => none) serveResolve s)

/-- A record awaiting sending becomes ABANDONED (R164). -/
def abandonRecord (r : BatchRecord) : BatchRecord := if r.awaitsSending then { r with release := some .abandoned } else r

/-- The carry additions of the abandoned records, in record order (R122, R164). -/
def abandonCarries (records : List BatchRecord) (s : State) : State :=
  (records.filter BatchRecord.awaitsSending).foldl (fun t r => carryAddition r.merchant r.payout t) s

/-- The batch after ABANDON's write: SETTLED where no record is left in SENT or UNCONFIRMED (R164). -/
def abandonWrite (s : State) : State :=
  abandonCarries s.batch.records { s with batch := { s.batch with records := s.batch.records.map abandonRecord } }

def settleIfFinal (s : State) : State :=
  if allFinal s.batch.records then
    handNotice (.batchSettled s.batch.cycle) { s with batch := { s.batch with state := .settled } }
  else s

/-- The result block of ABANDON: the number of abandoned records, the sum of their payouts and the batch state, as R164 lists
them. R148 says in passing that the reply to every release request shows the remaining budget; the model follows R164's list
(R201, log 29). -/
def abandonBlock (before : List BatchRecord) (b : Batch) : List Byte :=
  let gone := before.filter BatchRecord.awaitsSending
  beBytes 4 gone.length ++ moneyBytes ((gone.map BatchRecord.payout).sum : Nat) ++ beBytes 1 b.state.code

def serveAbandon (tag : Nat) (s : State) : State :=
  if s.batch.state = .releasing then
    let t := settleIfFinal (abandonWrite s)
    sendReply 0x53 tag .accepted (abandonBlock s.batch.records t.batch) t
  else sendReply 0x53 tag .state [] s

/-- ABANDON (R164). -/
def execAbandon (s : State) : Host.Outcome State Fault Refusal :=
  .next (serveManagement (fun r => match r with | .abandon => some () | _ => none) (fun _ => serveAbandon) s)

end Sys2Proof.Machine
end

