-- ==== Sys2Proof/Machine/Manage.lean ====
section
/-! DEFINITION. The Management Responder's own requests (chapter 10): configuration, clock, mode, status, RESTART,
STORE_CLEAR, the privacy lock, and the answer to a frame that is no request. -/

namespace Sys2Proof.Machine

/-! ### Configuration (R185 to R187) -/

/-- The checks of SET_STATIONS (R186). -/
def stationTests (engine controller gateway serviceType : Nat) : List (Check ReplyReason) :=
  [ (decide (1 ≤ engine) && decide (engine ≤ 65535) && decide (1 ≤ controller) && decide (controller ≤ 65535) &&
      decide (1 ≤ gateway) && decide (gateway ≤ 65535) && decide (0x0600 ≤ serviceType) && decide (serviceType ≤ 0xFFFF), .range),
    (decide (engine ≠ controller) && decide (engine ≠ gateway), .conflict) ]

/-- The one write of an accepted SET_STATIONS (R186). -/
def writeStations (engine controller gateway serviceType : Nat) (cfg : Settings) : Settings :=
  { cfg with engineStation := engine, controllerStation := controller, gatewayStation := gateway, serviceType := serviceType }

/-- The reply is addressed under the numbers as they stood when the request was taken (R186). It carries the old service type and
the Ethernet source of the old engine station too, which R186 does not name (log 31). -/
def serveSetStations (a : Nat × Nat × Nat × Nat) (tag : Nat) (s : State) : State :=
  match firstFailure (stationTests a.1 a.2.1 a.2.2.1 a.2.2.2) with
  | some reason => sendReply 0x01 tag reason [] s
  | none =>
    offerOffice .reply (replyFrame s.settings 0x01 tag .accepted [])
      { s with settings := writeStations a.1 a.2.1 a.2.2.1 a.2.2.2 s.settings }

/-- SET_STATIONS (R186). -/
def execSetStations (s : State) : Host.Outcome State Fault Refusal :=
  .next (serveManagement (fun r => match r with | .setStations e c g t => some (e, c, g, t) | _ => none) serveSetStations s)

/-- The business day under a new roll offset is not earlier than today; nothing is asked while the clock is UNSET (R187,
check 3). -/
def keepsToday (cfg : Settings) (rollOffset : Nat) (clock : Clock) : Bool :=
  match timeOf clock with
  | some t => decide (dayOf cfg.rollOffset t ≤ dayOf rollOffset t)
  | none => true

/-- The checks of SET_TIMING (R187). -/
def timingTests (timeout rollOffset : Nat) (s : State) : List (Check ReplyReason) :=
  let same := decide (rollOffset = s.settings.rollOffset)
  [ (decide (5 ≤ timeout) && decide (timeout ≤ 3600) && decide (rollOffset ≤ 86399), .range),
    (same || decide (s.mode = .maintenance), .state),
    (same || keepsToday s.settings rollOffset s.clock, .range) ]

def serveSetTiming (a : Nat × Nat) (tag : Nat) (s : State) : State :=
  match firstFailure (timingTests a.1 a.2 s) with
  | some reason => sendReply 0x02 tag reason [] s
  | none =>
    sendReply 0x02 tag .accepted []
      { s with settings := { s.settings with confirmationTimeout := a.1, rollOffset := a.2 } }

/-- SET_TIMING (R187). -/
def execSetTiming (s : State) : Host.Outcome State Fault Refusal :=
  .next (serveManagement (fun r => match r with | .setTiming t o => some (t, o) | _ => none) serveSetTiming s)

/-- LOCK_PRIVACY: the lock is set in one write (R185). -/
def serveLockPrivacy (tag : Nat) (s : State) : State :=
  sendReply 0x08 tag .accepted [] { s with settings := { s.settings with privacyLock := true } }

/-- LOCK_PRIVACY (R185). -/
def execLockPrivacy (s : State) : Host.Outcome State Fault Refusal :=
  .next (serveManagement (fun r => match r with | .lockPrivacy => some () | _ => none) (fun _ => serveLockPrivacy) s)

/-! ### Clock and mode (R188, R190) -/

/-- The clock an accepted SET_CLOCK leaves, or none where it is refused RANGE (R188). -/
def Clock.set (v : Nat) (c : Clock) : Option Clock :=
  if v ≤ Config.maxTime then
    match timeOf c with
    | none => some (.running v)
    | some t => if t ≤ v then some (.running v) else if t ≤ v + 300 then some (.holding t (t - v)) else none
  else none

/-- The held amount, 0 but in HOLDING (R188, R189). -/
def heldAmount : Clock → Nat
  | .unset => 0
  | .running _ => 0
  | .holding _ held => held

/-- The result block of SET_CLOCK: T, the clock state and the held amount (R188). -/
def clockBlock (c : Clock) : List Byte := beBytes 8 ((timeOf c).getD 0) ++ beBytes 1 c.code ++ beBytes 4 (heldAmount c)

def serveSetClock (v tag : Nat) (s : State) : State :=
  match s.clock.set v with
  | none => sendReply 0x03 tag .range [] s
  | some c => sendReply 0x03 tag .accepted (clockBlock c) { s with clock := c }

/-- SET_CLOCK (R188). -/
def execSetClock (s : State) : Host.Outcome State Fault Refusal :=
  .next (serveManagement (fun r => match r with | .setClock v => some v | _ => none) serveSetClock s)

/-- SET_MODE: SERVICE needs a clock; a mode beyond the list is RANGE (R190, R201). SERVICE asked for while it is in force and the
clock has been lost meets two sentences of R190, the refusal STATE while the clock is UNSET and the acceptance of a request for
the mode already in force; that the refusal stands is the model's reading (log 32). -/
def serveSetMode (mode tag : Nat) (s : State) : State :=
  match Mode.ofCode mode with
  | none => sendReply 0x04 tag .range [] s
  | some m =>
    if m = .service ∧ (timeOf s.clock).isNone then sendReply 0x04 tag .state [] s
    else sendReply 0x04 tag .accepted (beBytes 1 m.code) { s with mode := m }

/-- SET_MODE (R190). -/
def execSetMode (s : State) : Host.Outcome State Fault Refusal :=
  .next (serveManagement (fun r => match r with | .setMode m => some m | _ => none) serveSetMode s)

/-! ### READ_STATUS (R191) -/

/-- The configuration as READ_STATUS shows it, the fields of R185 in their order (R191, R201). -/
def settingsBlock (c : Settings) : List Byte :=
  beBytes 2 c.engineStation ++ beBytes 2 c.controllerStation ++ beBytes 2 c.gatewayStation ++ beBytes 2 c.serviceType ++
    beBytes 2 c.confirmationTimeout ++ beBytes 4 c.rollOffset ++ flagByte c.privacyLock

/-- The counters as READ_STATUS shows them: outcomes, declines from AMOUNT to LATE, the counters of R177 in the order of its
table, the overflow counter, strays and late confirmations (R191, R201). -/
def countersBlock (c : Counters) : List Byte :=
  beBytes 4 c.approvals ++ beBytes 4 c.partials ++ (List.range 26).flatMap (fun i => beBytes 4 (c.declines.read 0 (i + 1))) ++
    beBytes 4 c.forwardedToOffice ++ beBytes 4 c.forwardedToShop ++ beBytes 4 c.droppedToOffice ++ beBytes 4 c.droppedToShop ++
    beBytes 4 c.headerDrops ++ beBytes 4 c.foreignDrops ++ beBytes 4 c.shopFullDrops ++ beBytes 4 c.officeFullDrops ++
    beBytes 4 c.shopLinkDrops ++ beBytes 4 c.officeLinkDrops ++ beBytes 4 c.mgmtOverflow ++ beBytes 4 c.strays ++
    beBytes 4 c.lateConfirms

/-- The result block of READ_STATUS (R191, R201). That the shop port's state stands before the office port's is the model's
order (log 10). -/
def statusBlock (s : State) : List Byte :=
  beBytes 1 s.mode.code ++ flagByte (clearing s) ++ flagByte s.restartPending ++
    beBytes 1 s.clock.code ++ beBytes 8 ((timeOf s.clock).getD 0) ++ beBytes 4 (heldAmount s.clock) ++ beBytes 4 (today s) ++
    settingsBlock s.settings ++ refBytes s.writePos ++ beBytes 2 s.cycle ++ moneyBytes s.openingLiability ++
    moneyBytes s.liability ++ beBytes 1 s.batch.state.code ++ beBytes 2 s.batch.cycle ++ beBytes 2 s.batch.cursor ++
    beBytes 4 s.batch.totals.count ++ beBytes 1 s.batch.mode.code ++ moneyBytes s.batch.granted ++ moneyBytes s.batch.remaining ++
    beBytes 4 (occupiedSlots s.window) ++ (List.range Config.pageCount).flatMap (fun p => beBytes 1 (pageAt s p).code) ++
    beBytes 4 s.ingress.length ++ beBytes 1 s.shopLink.code ++ beBytes 1 s.officeLink.code ++ countersBlock s.counters ++
    beBytes 2 s.noticeNumber

/-- READ_STATUS is served during an erasure and while a RESTART is pending (R184, R191). -/
def readStatusStep (s : State) : State :=
  outOfReset (fun s =>
    match takeManagement s with
    | some (code, tag, .good .readStatus, t) => sendReply code tag .accepted (statusBlock t) t
    | _ => s) s

/-- READ_STATUS (R191). -/
def execReadStatus (s : State) : Host.Outcome State Fault Refusal := .next (readStatusStep s)

/-! ### RESTART and STORE_CLEAR (R182, R192) -/

/-- RESTART: the pending flag is set and the reply offered; `Origin.restartReply` marks the frame the reset waits for
(R182). -/
def serveRestart (tag : Nat) (s : State) : State :=
  offerOffice .restartReply (replyFrame s.settings 0x06 tag .accepted []) { s with restartPending := true }

/-- RESTART (R182). -/
def execRestart (s : State) : Host.Outcome State Fault Refusal :=
  .next (serveManagement (fun r => match r with | .restart => some () | _ => none) (fun _ => serveRestart) s)

/-- The acceptance of STORE_CLEAR: the mark is set, the erasure runs, instructions awaiting egress are discarded (R167,
R192). -/
def beginClear (s : State) : State := { s with storeClearMark := true, clearRun := .accepted, awaiting := [] }

def serveStoreClear (tag : Nat) (s : State) : State :=
  if s.mode = .service then sendReply 0x07 tag .state [] s else sendReply 0x07 tag .accepted [] (beginClear s)

/-- STORE_CLEAR (R192). -/
def execStoreClear (s : State) : Host.Outcome State Fault Refusal :=
  .next (serveManagement (fun r => match r with | .storeClear => some () | _ => none) (fun _ => serveStoreClear) s)

/-! ### A frame that is no request (R184, R201) -/

def unknownRequestStep (s : State) : State :=
  outOfReset (fun s =>
    match takeManagement s with
    | some (code, tag, .malformed, t) => sendReply code tag .format [] t
    | some (code, tag, .unknown, t) => sendReply code tag .unknown [] t
    | some (_, _, .good _, _) => s
    | none => s) s

/-- UNKNOWN_REQUEST (R184, checks 1 and 2). -/
def execUnknownRequest (s : State) : Host.Outcome State Fault Refusal := .next (unknownRequestStep s)

end Sys2Proof.Machine
end

