-- ==== Sys2Proof/Machine/Ports.lean ====
section
/-! DEFINITION. The Spine Port Unit (chapter 9): classification of arrivals with the admission answers, egress and the link
events. -/

namespace Sys2Proof.Machine

/-- A frame arrives on a port: the part is out of reset and the port is UP. What reaches a DOWN port is lost (R169, R179,
log 15). -/
def arriving (link : Link) (s : State) : Bool := decide (link = .up) && !s.inReset

/-- A service-type frame too short for the common header (R197). -/
def dropHeader (s : State) : State := { s with counters := { s.counters with headerDrops := bump s.counters.headerDrops } }

/-! ### Arrivals from the shops (R170 to R172) -/

/-- The first `len` bytes at `off` of a body that holds them, and zeros of a body that does not (R199). -/
def heldBytes (body : List Byte) (off len : Nat) : List Byte :=
  if off + len ≤ body.length then (body.drop off).take len else List.replicate len 0

/-- The kind byte an admission answer echoes (R199). -/
def answerKind (f : Frame) : Nat := beNat (heldBytes (bodyOf f) 0 1)

/-- The answer of Request Admission (R171, R199). -/
def answerFrame (cfg : Settings) (f : Frame) (reason : DeclineReason) : Frame :=
  partFrame cfg kindResponse (headerSource f)
    (responseBody (answerKind f) (.declined reason) (answerConditions (RequestKind.ofCode (answerKind f)))
      (beNat (heldBytes (bodyOf f) 2 4)) (heldBytes (bodyOf f) 6 8) 0 noView none)

/-- The answer offered to the shop engine egress queue, a reserved place not being free; the declines counter of its reason
rises either way (R171, R175). -/
def answer (reason : DeclineReason) (f : Frame) (s : State) : State :=
  { s with
    shopOut := if shopPlaces s < Config.shopCapacity then
        s.shopOut ++ [{ frame := answerFrame s.settings f reason, origin := .answer }] else s.shopOut
    counters :=
      if shopPlaces s < Config.shopCapacity then countDecline reason s.counters
      else { countDecline reason s.counters with shopFullDrops := bump s.counters.shopFullDrops } }

/-- What R170 makes of a frame from the shop port. -/
inductive ShopFate where
  | forward
  | header
  | answered (reason : DeclineReason)
  | taken (request : TillRequest)
  deriving DecidableEq, Repr

/-- Steps 1 to 9 of R170 in order. -/
def shopFate (s : State) (f : Frame) : ShopFate :=
  if f.etherType ≠ BitVec.ofNat 16 s.settings.serviceType then .forward
  else if hasHeader f = false then .header
  else if headerKind f ≠ kindTransaction then .forward
  else match transactionCard (bodyOf f) with
    | none => .answered .format
    | some card =>
      match matchProgram (admissionPrograms s) card with
      | none => .forward
      | some _ =>
        match laneOfStation s.lanes (headerSource f) with
        | none => .answered .terminal
        | some (merchant, lane) =>
          match transactionKind f with
          | none => .answered .format
          | some kind =>
            if s.ingress.length < Config.ingressCapacity then .taken (transactionRequest f kind card merchant lane)
            else .answered .late

def shopArrival (f : Frame) (s : State) : State :=
  if arriving s.shopLink s then
    match shopFate s f with
    | .forward => forwardToOffice f s
    | .header => dropHeader s
    | .answered reason => answer reason f s
    | .taken request => { s with ingress := s.ingress ++ [request] }
  else s

/-- SHOP_FRAME_ARRIVAL (R170). -/
def execShopFrameArrival (f : Frame) (s : State) : Host.Outcome State Fault Refusal := .next (shopArrival f s)

/-! ### Arrivals from the office (R173) -/

/-- What R173 makes of a frame from the office port. -/
inductive OfficeFate where
  | forward
  | header
  | management
  | gateway
  | foreign
  deriving DecidableEq, Repr

/-- The table of R173; a controller that is also the gateway sends management requests. -/
def officeFate (cfg : Settings) (f : Frame) : OfficeFate :=
  if f.etherType ≠ BitVec.ofNat 16 cfg.serviceType then .forward
  else if hasHeader f = false then .header
  else if headerDestination f ≠ cfg.engineStation then .forward
  else if headerSource f = cfg.controllerStation then .management
  else if headerSource f = cfg.gatewayStation then .gateway
  else .foreign

/-- A frame handed to the Responder waits in its input queue, or is dropped and counted (R183). -/
def handManagement (f : Frame) (s : State) : State :=
  { s with
    mgmtIn := if s.mgmtIn.length < Config.inputCapacity then s.mgmtIn ++ [f] else s.mgmtIn
    counters := if s.mgmtIn.length < Config.inputCapacity then s.counters
      else { s.counters with mgmtOverflow := bump s.counters.mgmtOverflow } }

def officeArrival (f : Frame) (s : State) : State :=
  if arriving s.officeLink s then
    match officeFate s.settings f with
    | .forward => forwardToShop f s
    | .header => dropHeader s
    | .management => handManagement f s
    | .gateway => { s with gatewayIn := s.gatewayIn ++ [f] }
    | .foreign => { s with counters := { s.counters with foreignDrops := bump s.counters.foreignDrops } }
  else s

/-- OFFICE_FRAME_ARRIVAL (R173). -/
def execOfficeFrameArrival (f : Frame) (s : State) : Host.Outcome State Fault Refusal := .next (officeArrival f s)

/-! ### Egress (R176) -/

/-- The shop port sends: an engine frame first (R176). -/
def shopEgress (s : State) : State :=
  match s.shopOut with
  | e :: rest => { s with shopOut := rest, out := s.out ++ [(.shop, e.frame)] }
  | [] =>
    match s.toShop with
    | f :: rest => { s with toShop := rest, out := s.out ++ [(.shop, f)] }
    | [] => s

/-- The office port sends: an engine frame first, and the place it frees goes to the oldest instruction awaiting egress
(R157, R175, R176). -/
def officeEgress (s : State) : State :=
  match s.officeOut with
  | e :: rest => placeInstructions { s with officeOut := rest, out := s.out ++ [(.office, e.frame)] }
  | [] =>
    match s.toOffice with
    | f :: rest => { s with toOffice := rest, out := s.out ++ [(.office, f)] }
    | [] => s

def frameEgressStep (port : Port) (s : State) : State :=
  match port with
  | .shop => if arriving s.shopLink s then shopEgress s else s
  | .office => if arriving s.officeLink s then officeEgress s else s

/-- FRAME_EGRESS (R176). -/
def execFrameEgress (port : Port) (s : State) : Host.Outcome State Fault Refusal := .next (frameEgressStep port s)

/-! ### Links (R169) -/

/-- The flush of the shop port's queues: each frame discarded is counted; a reserved place stays (R169). -/
def flushShop (s : State) : State :=
  { s with
    shopLink := .down, toShop := [], shopOut := []
    counters := { s.counters with
      shopLinkDrops := bumpBy (s.toShop.length + s.shopOut.length) s.counters.shopLinkDrops } }

/-- The flush of the office port's queues (R169). -/
def flushOffice (s : State) : State :=
  { s with
    officeLink := .down, toOffice := [], officeOut := []
    counters := { s.counters with
      officeLinkDrops := bumpBy (s.toOffice.length + s.officeOut.length) s.counters.officeLinkDrops } }

/-- A port goes from UP to DOWN. The places freed at the office port are offered to the instructions awaiting egress, which
a DOWN port drops, their slots TIMING (R157, R169). -/
def linkDownStep (port : Port) (s : State) : State :=
  match port with
  | .shop => if s.shopLink = .up then flushShop s else s
  | .office => if s.officeLink = .up then placeInstructions (flushOffice s) else s

/-- LINK_DOWN (R169). -/
def execLinkDown (port : Port) (s : State) : Host.Outcome State Fault Refusal := .next (linkDownStep port s)

/-- A port returns to UP with egress queues that hold no frame (R169). -/
def linkUpStep (port : Port) (s : State) : State :=
  match port with
  | .shop => if s.shopLink = .down then { s with shopLink := .up, toShop := [], shopOut := [] } else s
  | .office => if s.officeLink = .down then { s with officeLink := .up, toOffice := [], officeOut := [] } else s

/-- LINK_UP (R169). -/
def execLinkUp (port : Port) (s : State) : Host.Outcome State Fault Refusal := .next (linkUpStep port s)

end Sys2Proof.Machine
end

