-- ==== Sys2Proof/Machine/Position.lean ====
section
/-! DEFINITION. The Position Table (chapter 6): conditional posts and reversals with the joint write of the Posting Unit
(R50, R89), CLOSE_CYCLE, ADJUST_CARRY and READ_POSITION. -/

namespace Sys2Proof.Machine

/-! ### Banks -/

/-- The bank after an addition of one posting, each field held at its largest value (R118). -/
def Bank.add (field : BankField) (amount : Nat) (b : Bank) : Bank :=
  match field with
  | .sold => { b with sold := min (b.sold + amount) Config.maxAccumulator, nSold := min (b.nSold + 1) Config.maxCount }
  | .refunded =>
    { b with refunded := min (b.refunded + amount) Config.maxAccumulator, nRefunded := min (b.nRefunded + 1) Config.maxCount }
  | .redeemed =>
    { b with redeemed := min (b.redeemed + amount) Config.maxAccumulator, nRedeemed := min (b.nRedeemed + 1) Config.maxCount }

/-- The addition passes the range of a field or count (R118). -/
def Bank.saturates (field : BankField) (amount : Nat) (b : Bank) : Bool :=
  match field with
  | .sold => decide (Config.maxAccumulator < b.sold + amount) || decide (Config.maxCount < b.nSold + 1)
  | .refunded => decide (Config.maxAccumulator < b.refunded + amount) || decide (Config.maxCount < b.nRefunded + 1)
  | .redeemed => decide (Config.maxAccumulator < b.redeemed + amount) || decide (Config.maxCount < b.nRedeemed + 1)

/-- The bank after a reversal (R119). -/
def Bank.subtract (field : BankField) (amount : Nat) (b : Bank) : Bank :=
  match field with
  | .sold => { b with sold := b.sold - amount, nSold := b.nSold - 1 }
  | .refunded => { b with refunded := b.refunded - amount, nRefunded := b.nRefunded - 1 }
  | .redeemed => { b with redeemed := b.redeemed - amount, nRedeemed := b.nRedeemed - 1 }

/-- The position after an accepted post (R117, R118). -/
def Position.post (field : BankField) (amount : Nat) (p : Position) : Position :=
  { p with current := p.current.add field amount, saturated := p.saturated || p.current.saturates field amount }

/-- The position after an accepted reversal; the SATURATED mark stays (R119). -/
def Position.reverse (field : BankField) (amount : Nat) (p : Position) : Position :=
  { p with current := p.current.subtract field amount }

/-- The notice of a SATURATED mark that goes from clear to set (R118). -/
def saturationNotices (merchant cycle : Nat) (before after : Position) : List Notice :=
  if before.saturated = false ∧ after.saturated = true then [.saturated merchant cycle] else []

/-! ### The joint write (R50, R89) -/

/-- The changes that the joint write makes to entries already in the journal (R68, R74, R83, R90). -/
def journalEdits (h : Hand) (written : JournalRef) (j : Table (Option JournalEntry)) : Table (Option JournalEntry) :=
  match h.entryKind with
  | .claim => editLinked h.link (linkReserve written) j
  | .returnReq => editLinked h.link (fun e => { e with remaining := e.remaining.map (· - h.amount) }) j
  | .cancel =>
    editLinked h.restore (fun e => { e with remaining := e.remaining.map (· + h.amount) })
      (editLinked h.link (fun e => { e with cancelled := true }) j)
  | .issue | .topup | .spend | .reserve | .free | .move | .adjust => j

/-- The last record a posting leaves, or none after a CANCEL (R50, R78, R90). -/
def lastAfter (h : Hand) (written : JournalRef) (cycle : Nat) : Option LastRecord :=
  match h.movement with
  | .post _ _ _ => some { reference := written, sequence := h.request.sequence, day := h.today, cycle := cycle }
  | .reversal _ _ => none

/-- The liability counter after the posting (R53). -/
def liabilityAfter (h : Hand) (liability : Nat) : Nat := if h.liabilityRises then liability + h.amount else liability - h.amount

/-- The lane record with its last record as the write leaves it. -/
def laneAfter (h : Hand) (s : State) : Lane :=
  { laneAt s h.request.merchant h.request.lane with last := lastAfter h s.writePos s.cycle }

/-- The joint write: the merchant's bank, the card slot, the live-card count, the journal entry at the write position
stamped with the accepted cycle, the write position, the lane's last record and the liability counter (R50, R89). -/
def jointWrite (h : Hand) (position : Position) (s : State) : State :=
  { s with
    positions := s.positions.write Position.zero h.request.merchant position
    cards := s.cards.write none h.slot h.cardAfter
    programs := changeLiveAt h.liveChange h.program s.programs
    journal := appendAt s.writePos
      (cardEntry h.entryKind h.request h.amount h.today s.cycle h.entryRemaining h.link) (journalEdits h s.writePos s.journal)
    writePos := advance s.writePos
    lanes := s.lanes.write Lane.unassigned (laneNumber h.request.merchant h.request.lane) (laneAfter h s)
    liability := liabilityAfter h s.liability }

/-- The accepted movement: the joint write, its notice, then the response (R50, R52, R118). -/
def acceptMovement (h : Hand) (position : Position) (s : State) : State :=
  placeResponse h.request h.outcome h.conditions h.amount h.after (some s.writePos)
    (handNotices (saturationNotices h.request.merchant s.cycle (positionAt s h.request.merchant) position) (jointWrite h position s))

/-- The refused movement: nothing is written and the request is declined (R49, R88, R117, R119). -/
def refuseMovement (h : Hand) (reason : DeclineReason) (s : State) : State :=
  placeResponse h.request (.declined reason) h.refusedConditions 0 h.refused none s

/-- The table accepts the post: every ungated one, and a gated one within the debit limit it carries (R117). -/
def acceptsPost (gated : Bool) (debitLimit amount : Nat) (p : Position) : Bool :=
  !gated || decide (exposure p + (amount : Int) ≤ (debitLimit : Int))

def conditionalPostStep (s : State) : State :=
  outOfReset (fun s =>
    match s.posting with
    | .till h =>
      match h.movement with
      | .post field gated limit =>
        if acceptsPost gated limit h.amount (positionAt s h.request.merchant) then
          acceptMovement h ((positionAt s h.request.merchant).post field h.amount) s
        else refuseMovement h .exposure s
      | .reversal _ _ => s
    | _ => s) s

/-- CONDITIONAL_POST (R117). -/
def execConditionalPost (s : State) : Host.Outcome State Fault Refusal := .next (conditionalPostStep s)

def conditionalReversalStep (s : State) : State :=
  outOfReset (fun s =>
    match s.posting with
    | .till h =>
      match h.movement with
      | .reversal field cycle =>
        if cycle = s.cycle then acceptMovement h ((positionAt s h.request.merchant).reverse field h.amount) s
        else refuseMovement h .cancelWindow s
      | .post _ _ _ => s
    | _ => s) s

/-- CONDITIONAL_REVERSAL (R119). -/
def execConditionalReversal (s : State) : Host.Outcome State Fault Refusal := .next (conditionalReversalStep s)

/-! ### CLOSE_CYCLE (R120, R121) -/

/-- A merchant's position at the close (R121). -/
def Position.close (p : Position) : Position :=
  { current := Bank.zero, saturated := false, closing := p.current, carryIn := p.carry, computed := false,
    closingSaturated := p.saturated, carry := 0, carryClamp := p.carryClamp }

/-- The batch the close begins (R121, R127, R148). -/
def Batch.begun (cycle : Nat) : Batch := { Batch.none with state := .computing, cycle := cycle }

/-- The one write of an accepted CLOSE_CYCLE (R121). -/
def closeWrite (s : State) : State :=
  { s with
    positions := Table.build Position.zero Config.merchantCount fun m => (positionAt s m).close
    cycle := (s.cycle + 1) % 65536
    openingLiability := s.liability
    batch := Batch.begun s.cycle }

def serveCloseCycle (tag : Nat) (s : State) : State :=
  if s.batch.state = .empty ∨ s.batch.state = .settled then
    sendReply 0x40 tag .accepted (beBytes 2 (closeWrite s).cycle ++ moneyBytes s.liability) (closeWrite s)
  else sendReply 0x40 tag .busy [] s

/-- CLOSE_CYCLE (R120, R121). -/
def execCloseCycle (s : State) : Host.Outcome State Fault Refusal :=
  .next (serveManagement (fun r => match r with | .closeCycle => some () | _ => none) (fun _ => serveCloseCycle) s)

/-! ### ADJUST_CARRY (R123) -/

/-- Checks 2 to 4 of ADJUST_CARRY (R123). -/
def adjustTests (merchant : Nat) (amount : Int) (s : State) : List (Check ReplyReason) :=
  [ (decide (merchant < Config.merchantCount), .range),
    (decide (amount ≠ 0) && !outsideCarry amount, .range),
    ((timeOf s.clock).isSome, .state) ]

/-- The ADJUST entry, not yet stamped with lap (R73, R123). -/
def adjustEntry (merchant : Nat) (amount : Int) (s : State) : JournalEntry :=
  { lap := 0, kind := .adjust, card := none, merchant := some merchant, lane := none, amount := amount, day := today s,
    cycle := s.cycle, remaining := none, cancelled := false, link := none, secondCard := none }

/-- The position after an ADJUST_CARRY: the mark is cleared, then the amount added under the clamp (R123). -/
def adjusted (amount : Int) (p : Position) : Position := addCarry amount { p with carryClamp := false }

/-- The one write of an accepted ADJUST_CARRY (R123). -/
def adjustWrite (merchant : Nat) (amount : Int) (s : State) : State :=
  { s with
    positions := s.positions.write Position.zero merchant (adjusted amount (positionAt s merchant))
    journal := appendAt s.writePos (adjustEntry merchant amount s) s.journal
    writePos := advance s.writePos }

def serveAdjustCarry (merchant : Nat) (amount : Int) (tag : Nat) (s : State) : State :=
  match firstFailure (adjustTests merchant amount s) with
  | some reason => sendReply 0x41 tag reason [] s
  | none =>
    sendReply 0x41 tag .accepted
      (moneyBytes (adjusted amount (positionAt s merchant)).carry ++ flagByte (adjusted amount (positionAt s merchant)).carryClamp ++
        refBytes s.writePos)
      (handNotices (if (adjusted amount (positionAt s merchant)).carryClamp then [.carryClamp merchant] else [])
        (adjustWrite merchant amount s))

/-- ADJUST_CARRY (R123). -/
def execAdjustCarry (s : State) : Host.Outcome State Fault Refusal :=
  .next (serveManagement (fun r => match r with | .adjustCarry m a => some (m, a) | _ => none) (fun a => serveAdjustCarry a.1 a.2) s)

/-! ### READ_POSITION (R124) -/

/-- The six fields of a bank in a reply (R113, R201). -/
def bankBytes (b : Bank) : List Byte :=
  moneyBytes b.redeemed ++ moneyBytes b.refunded ++ moneyBytes b.sold ++ beBytes 4 b.nRedeemed ++ beBytes 4 b.nRefunded ++
    beBytes 4 b.nSold

/-- The result block of READ_POSITION: the record of R113, the closing bank's state (UNCOMPUTED 0, COMPUTED 1), the
exposure and the current cycle number (R124). -/
def positionBlock (p : Position) (cycle : Nat) : List Byte :=
  bankBytes p.current ++ flagByte p.saturated ++ bankBytes p.closing ++ moneyBytes p.carryIn ++ flagByte p.computed ++
    flagByte p.closingSaturated ++ moneyBytes p.carry ++ flagByte p.carryClamp ++ flagByte p.computed ++ moneyBytes (exposure p) ++
    beBytes 2 cycle

def serveReadPosition (merchant tag : Nat) (s : State) : State :=
  if merchant < Config.merchantCount then sendReply 0x42 tag .accepted (positionBlock (positionAt s merchant) s.cycle) s
  else sendReply 0x42 tag .range [] s

/-- READ_POSITION (R124). -/
def execReadPosition (s : State) : Host.Outcome State Fault Refusal :=
  .next (serveManagement (fun r => match r with | .readPosition m => some m | _ => none) serveReadPosition s)

end Sys2Proof.Machine
end

