-- ==== Sys2Proof/Machine/Start.lean ====
section
/-! DEFINITION. Reset, start-up, first start and the completion of STORE_CLEAR (sections 9 and 10 of the spec: R178 to
R182, R193). -/

namespace Sys2Proof.Machine

/-! ### Reset (R178, R179) -/

/-- The volatile state after a reset; the stores, the configuration, the STORE_CLEAR mark and the links stay (R178, R179). -/
def resetState (s : State) : State :=
  { s with
    inReset := true, clearRun := .none, restartPending := false, mode := .maintenance, clock := .unset, noticeNumber := 0,
    toOffice := [], toShop := [], shopOut := [], officeOut := [], ingress := [], mgmtIn := [], gatewayIn := [],
    counters := Counters.zero, posting := .idle, cardSlot := none, clearOp := .none, window := [], awaiting := [] }

/-- PIN_RESET (R179). -/
def execPinReset (s : State) : Host.Outcome State Fault Refusal := .next (resetState s)

/-- The reset of an accepted RESTART is due: its reply has left the office queue, or never entered it (R182). -/
def restartDue (s : State) : Bool := s.restartPending && s.officeOut.all fun e => decide (e.origin ≠ .restartReply)

/-- RESTART_RESET (R182). -/
def execRestartReset (s : State) : Host.Outcome State Fault Refusal :=
  .next (outOfReset (fun s => if restartDue s then resetState s else s) s)

/-! ### Start-up (R180, R181) -/

/-- What a block offers to the office queue at start-up. -/
inductive StartItem where
  | notice (n : Notice)
  | instruction
  deriving DecidableEq, Repr

/-- One order of the items of two blocks that keeps each block's own order; `pick i` says whose item comes at the `i`-th
choice (R180, log 7). -/
def startOrder (pick : Nat → Bool) : (fuel i : Nat) → List StartItem → List StartItem → List StartItem
  | 0, _, a, b => a ++ b
  | _ + 1, _, [], b => b
  | _ + 1, _, a :: as, [] => a :: as
  | fuel + 1, i, a :: as, b :: bs =>
    if pick i then a :: startOrder pick fuel (i + 1) as (b :: bs) else b :: startOrder pick fuel (i + 1) (a :: as) bs

/-- One item reaches the Responder or the office queue (R157, R194). -/
def offerItem (i : StartItem) (s : State) : State :=
  match i with
  | .notice n => handNotice n s
  | .instruction =>
    match s.awaiting with
    | [] => s
    | k :: ks => placeSome [k] ks s

/-- Every CLEARING page becomes TORN (R103, R180). -/
def tearPages (pages : Table PageState) : Table PageState :=
  pages.map fun e => (e.1, if e.2 = .clearing then .torn else e.2)

/-- The TORN_PAGE notices of the Directory, in ascending page order (R180). -/
def tornNotices (pages : Table PageState) : List StartItem :=
  ((List.range Config.pageCount).filter fun p => decide (pages.read .opened p = .torn)).map fun p => .notice (.tornPage p)

/-- Every SENT record becomes UNCONFIRMED (R166, R180). -/
def doubtSent (records : List BatchRecord) : List BatchRecord :=
  records.map fun r => if r.release = some .sent then { r with release := some .unconfirmed } else r

/-- What the Calculator and the Release Unit do at start-up, before anything of theirs reaches the office queue: the
completion that was not written, or the release recovery and its walk (R142, R166, R180). -/
def recoverBatch (s : State) : State :=
  if completionDue s then completionWrite s
  else if s.batch.state = .releasing then walkRecords { s with batch := { s.batch with records := doubtSent s.batch.records } }
  else s

/-- What they then offer: the BATCH_COMPUTED notice, or the instructions of the walk (R180). -/
def recoveryItems (before after : State) : List StartItem :=
  if completionDue before then [.notice (.batchComputed before.batch.cycle)] else after.awaiting.map fun _ => .instruction

/-- The work left over that each block takes up (R180). -/
def recover (s : State) : State :=
  let torn := tearPages s.pages
  let t := recoverBatch { s with pages := torn }
  let mine := tornNotices torn
  let others := recoveryItems s t
  (startOrder (Config.startOrder s.freeCount) (mine.length + others.length) 0 mine others).foldl (fun u i => offerItem i u)
    { t with freeCount := s.freeCount + 1 }

/-- The start-up at the end of a reset: a first start where record memory holds no configuration (R181), the erasure again
where the STORE_CLEAR mark is set (R193), otherwise the work left over (R180). -/
def startUpStep (s : State) : State :=
  if s.inReset then
    if s.configured = false then { s with inReset := false, settings := Settings.default, clearRun := .initialising }
    else if s.storeClearMark then { s with inReset := false, clearRun := .repeated }
    else recover { s with inReset := false }
  else s

/-- START_UP (R180). -/
def execStartUp (s : State) : Host.Outcome State Fault Refusal := .next (startUpStep s)

/-! ### The completion of an erasure (R181, R193) -/

/-- The values that the completion of a STORE_CLEAR leaves (R168, R193). -/
def clearStores (s : State) : State :=
  { s with
    settings := { s.settings with privacyLock := false }
    storeClearMark := false, clearRun := .none
    counters := { s.counters with strays := 0, lateConfirms := 0 }
    liability := 0, programs := [], cards := [], journal := [], writePos := JournalRef.origin, lanes := [], terms := [], pages := [],
    clearOp := .none, positions := [], cycle := 0, openingLiability := 0, batch := Batch.none, window := [], awaiting := [] }

/-- The Posting Unit holds no request taken before the acceptance (R192), and none waits in its card slot: one that does is
refused BUSY before the completion (R33), which leaves the slot empty (R24, log 30). -/
def postingDone (s : State) : Bool := decide (s.posting = .idle) && decide (s.cardSlot = none)

/-- INITIALISATION_COMPLETE (R181): the stores as a completed STORE_CLEAR leaves them, and the default configuration written
in the last write. -/
def execInitialisationComplete (s : State) : Host.Outcome State Fault Refusal :=
  .next (outOfReset (fun s =>
    if s.clearRun = .initialising ∧ postingDone s = true then
      { clearStores s with settings := Settings.default, configured := true }
    else s) s)

/-- STORE_CLEAR_COMPLETION (R193). -/
def execStoreClearCompletion (s : State) : Host.Outcome State Fault Refusal :=
  .next (outOfReset (fun s =>
    if (s.clearRun = .accepted ∨ s.clearRun = .repeated) ∧ postingDone s = true then clearStores s else s) s)

end Sys2Proof.Machine
end

