-- ==== Sys2Proof/Machine/Stores.lean ====
section
/-! DEFINITION. WRITE_PROGRAM and READ_PROGRAM (chapter 1) and READ_JOURNAL (chapter 4). -/

namespace Sys2Proof.Machine

/-! ### Program Table (R1 to R6) -/

/-- Every field of a written program entry other than EMPTY lies within the range of R1 (R3, check 3). -/
def programInRange (w : ProgramWrite) : Bool :=
  decide (w.state ≤ 2) && decide (w.renew ≤ 1) && decide (w.topup ≤ 1) &&
    decide (10000000 ≤ w.prefixLow) && decide (w.prefixLow ≤ w.prefixHigh) && decide (w.prefixHigh ≤ 99999999) &&
    decide (1 ≤ w.ceiling) && decide (w.ceiling ≤ Config.maxCeiling) &&
    decide (1 ≤ w.issueMinimum) && decide (w.issueMinimum ≤ w.ceiling) && decide (w.expiryDays ≤ 3650) &&
    decide (w.dailyCap ≤ w.ceiling) && decide (w.lowThreshold ≤ w.ceiling) &&
    decide (1 ≤ w.holdLimit) && decide (w.holdLimit ≤ 4) && decide (1 ≤ w.holdHours) && decide (w.holdHours ≤ 720)

/-- The written range overlaps that of another entry that is not EMPTY (R3, check 4). -/
def overlapsOther (programs : Table Program) (w : ProgramWrite) : Bool :=
  (List.range Config.programCount).any fun i =>
    let p := programs.read Program.blank i
    decide (i ≠ w.index) && decide (p.state ≠ .empty) && decide (w.prefixLow ≤ p.prefixHigh) && decide (p.prefixLow ≤ w.prefixHigh)

/-- Live cards of an entry as checks 5 to 7 count them: an ISSUE in hand on the entry counts (R3). -/
def liveCounted (s : State) (i : Nat) : Nat :=
  (programAt s i).live +
    (match s.posting with
     | .till h => if h.liveChange = .rise ∧ h.program = i then 1 else 0
     | .idle => 0
     | .card _ => 0)

/-- The checks of WRITE_PROGRAM in their order (R3). -/
def programTests (s : State) (w : ProgramWrite) : List (Check ReplyReason) :=
  let stored := programAt s w.index
  let writesEmpty := decide (w.state = 0)
  let free := decide (liveCounted s w.index = 0)
  [ (decide (s.mode = .maintenance), .state),
    (decide (w.index < Config.programCount), .range),
    (writesEmpty || programInRange w, .range),
    (writesEmpty || !overlapsOther s.programs w, .conflict),
    (free || !writesEmpty, .conflict),
    (free || (decide (w.prefixLow = stored.prefixLow) && decide (w.prefixHigh = stored.prefixHigh)), .conflict),
    (free || decide (stored.ceiling ≤ w.ceiling), .conflict) ]

/-- The entry an accepted WRITE_PROGRAM leaves; the live-card count is kept (R4). -/
def writtenProgram (live : Nat) (w : ProgramWrite) : Program :=
  match ProgramState.ofCode w.state with
  | some .empty => { Program.blank with live := live }
  | none => { Program.blank with live := live }
  | some state =>
    { state := state, prefixLow := w.prefixLow, prefixHigh := w.prefixHigh, ceiling := w.ceiling, issueMinimum := w.issueMinimum,
      expiryDays := w.expiryDays, renewOnTopup := decide (w.renew = 1), dailyCap := w.dailyCap, lowThreshold := w.lowThreshold,
      holdLimit := w.holdLimit, holdHours := w.holdHours, topupPermitted := decide (w.topup = 1), live := live }

/-- A program entry in a reply: the fields of R1 in their order, then the live-card count (R4, R5, R201). -/
def programBlock (p : Program) : List Byte :=
  beBytes 1 p.state.code ++ beBytes 4 p.prefixLow ++ beBytes 4 p.prefixHigh ++ moneyBytes p.ceiling ++ moneyBytes p.issueMinimum ++
    beBytes 2 p.expiryDays ++ flagByte p.renewOnTopup ++ moneyBytes p.dailyCap ++ moneyBytes p.lowThreshold ++
    beBytes 4 p.holdLimit ++ beBytes 2 p.holdHours ++ flagByte p.topupPermitted ++ beBytes 4 p.live

def serveWriteProgram (w : ProgramWrite) (tag : Nat) (s : State) : State :=
  match firstFailure (programTests s w) with
  | some reason => sendReply 0x10 tag reason [] s
  | none =>
    let entry := writtenProgram (programAt s w.index).live w
    sendReply 0x10 tag .accepted (programBlock entry) { s with programs := s.programs.write Program.blank w.index entry }

/-- WRITE_PROGRAM (R3, R4). -/
def execWriteProgram (s : State) : Host.Outcome State Fault Refusal :=
  .next (serveManagement (fun r => match r with | .writeProgram w => some w | _ => none) serveWriteProgram s)

def serveReadProgram (index tag : Nat) (s : State) : State :=
  if index < Config.programCount then sendReply 0x11 tag .accepted (programBlock (programAt s index)) s
  else sendReply 0x11 tag .range [] s

/-- READ_PROGRAM (R5). -/
def execReadProgram (s : State) : Host.Outcome State Fault Refusal :=
  .next (serveManagement (fun r => match r with | .readProgram i => some i | _ => none) serveReadProgram s)

/-! ### READ_JOURNAL (R77) -/

/-- A field that an entry's kind has, and nothing where it has none (R73, R77). -/
def presentBytes {α : Type} (f : α → List Byte) : Option α → List Byte
  | some a => f a
  | none => []

/-- The fields of an entry present for its kind, in the order of R73; card numbers are masked as R16 requires (R77). The model's
choice (log 10): the link is a field possibly absent, so where the entry has none its presence mark is 0 and the four bytes after
it are 0 as R201 has an absent field; R195 would send an absent reference as four bytes of 0xFF. -/
def entryBlock (lock : Bool) (e : JournalEntry) : List Byte :=
  beBytes 1 e.lap ++ beBytes 1 e.kind.code ++ presentBytes (fun c => cardBytes (maskCard lock c)) e.card ++
    presentBytes (beBytes 2) e.merchant ++ presentBytes (beBytes 1) e.lane ++ moneyBytes e.amount ++ beBytes 4 e.day ++
    beBytes 2 e.cycle ++ presentBytes (fun n => moneyBytes (n : Int)) e.remaining ++ flagByte e.cancelled ++
    optBytes 4 (e.link.map refBytes) ++ presentBytes (fun c => cardBytes (maskCard lock c)) e.secondCard

def serveReadJournal (r : JournalRef) (tag : Nat) (s : State) : State :=
  if refInRange r then
    match resolveRef s r with
    | .ok e => sendReply 0x27 tag .accepted (entryBlock s.settings.privacyLock e) s
    | .error _ => sendReply 0x27 tag .notFound [] s
  else sendReply 0x27 tag .range [] s

/-- READ_JOURNAL (R77). -/
def execReadJournal (s : State) : Host.Outcome State Fault Refusal :=
  .next (serveManagement (fun r => match r with | .readJournal j => some j | _ => none) serveReadJournal s)

end Sys2Proof.Machine
end

