-- ==== Sys2Proof/Machine/Till.lean ====
section
/-! DEFINITION. The till requests as the Posting Unit executes them (chapters 2, 3 and 4): the common head of the check order
(R31), then each kind's own tests. A kind that moves money leaves its prepared writes in hand for the Position Table
(R49, R50); the others answer at once. -/

namespace Sys2Proof.Machine

/-! ### Taking a request -/

/-- The Posting Unit takes the oldest request of the Ingress File: it is IDLE, the management card slot is empty, the
request is of this kind, and the shop egress queue has a free place, which is then reserved (R26, R27). Otherwise the
step is not due and the file stands. -/
def takeTill (kind : RequestKind) (serve : TillRequest → State → State) (s : State) : State :=
  outOfReset (fun s =>
    match s.posting, s.cardSlot, s.ingress with
    | .idle, none, r :: rest =>
      if r.kind = kind ∧ shopPlaces s < Config.shopCapacity then serve r { s with ingress := rest } else s
    | _, _, _ => s) s

/-- A declined request writes nothing; its response shows the card where one was judged (R36, R38). -/
def decline (r : TillRequest) (reason : DeclineReason) (card : Option CardRecord) (s : State) : State :=
  placeResponse r (.declined reason) (declinedConditions r.kind reason (card.map CardRecord.balance)) 0
    (match card with | some c => viewOf (timeOf s.clock) c | none => noView) none s

/-! ### The common head of the check order (R31) -/

/-- Step 4: what the engine mode, a STORE_CLEAR in flight and the clock admit (R33). -/
def modeAdmits (s : State) (kind : RequestKind) : Bool :=
  if clearing s then false
  else match s.mode with
    | .service => true
    | .maintenance => decide (kind = .ask) && (timeOf s.clock).isSome

/-- Steps 1 to 5 (R31): step 1 only for a kind that carries an amount. -/
def entryTests (s : State) (r : TillRequest) : List (Check DeclineReason) :=
  [ (!r.kind.carriesAmount || (decide (1 ≤ r.amount) && decide (r.amount ≤ Config.maxAmount)), .amount),
    (passesCheck r.card, .checkDigit),
    ((matchProgram s.programs r.card).isSome, .noCard),
    (modeAdmits s r.kind, .outOfService),
    ((timeOf s.clock).isSome, .noClock) ]

/-- Step 6: the card the lookup finds, unless it is RETIRED (R34). -/
def liveCard (s : State) (card : Nat) : Option (Nat × CardRecord) :=
  match lookupCard s card with
  | some (slot, c) => if c.state = .retired then none else some (slot, c)
  | none => none

/-- Step 7: the card states a kind admits (R34, R59, R79, R85). -/
def stateAdmits (kind : RequestKind) (state : CardState) : Bool :=
  match state with
  | .active => true
  | .suspended => match kind with
    | .ask | .claim | .free => true
    | .issue | .topup | .spend | .reserve | .returnReq | .cancel | .tryReq => false
  | .retired => false

/-- Step 8 is used by the kind (R31, R34, R59, R79, R85). -/
def testsExpiry : RequestKind → Bool
  | .topup | .spend | .reserve | .returnReq | .tryReq => true
  | .issue | .claim | .free | .cancel | .ask => false

/-- Step 9: the terms states a kind admits (R35, R59). -/
def termsAdmit (kind : RequestKind) (state : TermsState) : Bool :=
  match state with
  | .enrolled => true
  | .suspended | .withdrawn => match kind with
    | .ask | .free => true
    | .issue | .topup | .spend | .reserve | .claim | .returnReq | .cancel | .tryReq => false
  | .unenrolled => false

/-- Step 10: may-sell for ISSUE and TOPUP, may-refund for RETURN (R35, R79). -/
def flagAdmits (kind : RequestKind) (t : Terms) : Bool :=
  match kind with
  | .issue | .topup => t.maySell
  | .returnReq => t.mayRefund
  | .spend | .reserve | .claim | .free | .cancel | .ask | .tryReq => true

/-- Steps 7 to 10 (R31). -/
def cardTests (s : State) (r : TillRequest) (c : CardRecord) : List (Check DeclineReason) :=
  [ (stateAdmits r.kind c.state, .cardState),
    (!(testsExpiry r.kind && cardExpired (timeOf s.clock) (today s) c), .expired),
    (termsAdmit r.kind (termsOf s r.merchant).state, .merchant),
    (flagAdmits r.kind (termsOf s r.merchant), .merchant) ]

/-- The head of every kind but ISSUE: steps 1 to 10, then the kind's own tests on the card found. -/
def serveOnCard (own : TillRequest → Nat → CardRecord → State → State) (r : TillRequest) (s : State) : State :=
  match firstFailure (entryTests s r) with
  | some reason => decline r reason none s
  | none =>
    match liveCard s r.card with
    | none => decline r .noCard none s
    | some (slot, c) =>
      match firstFailure (cardTests s r c) with
      | some reason => decline r reason (some c) s
      | none => own r slot c s

/-! ### Grants and prepared writes -/

/-- The cap remaining of a card, where its program has a cap (R14). -/
def capRemaining (s : State) (p : Program) (c : CardRecord) : Option Nat :=
  if p.dailyCap = 0 then none else some (p.dailyCap - daySpendRead (timeOf s.clock) (today s) c)

/-- The cap as a limit of R37. -/
def capLimit : Option Nat → List (DeclineReason × Nat)
  | some cap => [(.dayCap, cap)]
  | none => []

/-- The grant was cut by the daily cap (R38, R44, R67). -/
def cutByCap (cap : Option Nat) (amount other : Nat) : Bool :=
  match cap with
  | some l => cutBy l amount other
  | none => false

/-- The card after a write of today: expired holds removed, last-activity day today (R13, R42, R45, R68, R83, R89). -/
def touched (s : State) (c : CardRecord) : CardRecord := { pruneHolds (timeOf s.clock) c with lastDay := today s }

/-- The request stays in hand while the Position Table's answer is awaited (R25, R49). -/
def awaitTable (h : Hand) (s : State) : State := { s with posting := .till h }

/-- A request in hand whose card record `c` becomes `after` (R50). -/
def handFor (s : State) (r : TillRequest) (movement : Movement) (refusal : DeclineReason) (amount slot : Nat) (c after : CardRecord)
    (entryKind : JournalKind) (remaining : Option Nat) (link : Option JournalRef) (rises : Bool) (outcome : TillOutcome)
    (conditions : Conditions) : Hand :=
  { request := r, today := today s, movement := movement, amount := amount, slot := slot, cardAfter := some after,
    program := c.program, liveChange := .same, entryKind := entryKind, entryRemaining := remaining, link := link, restore := none,
    liabilityRises := rises, outcome := outcome, conditions := conditions, after := viewOf (timeOf s.clock) after,
    refusedConditions := declinedConditions r.kind refusal (some c.balance), refused := viewOf (timeOf s.clock) c }

/-! ### ISSUE (R39, R40) -/

/-- The card record an ISSUE places (R11). -/
def issuedCard (s : State) (r : TillRequest) (index : Nat) (p : Program) : CardRecord :=
  { number := r.card, program := index, state := .active, balance := r.amount, holds := [], daySpend := 0, spendDay := today s,
    issueDay := today s, expiryDay := if p.expiryDays = 0 then 0 else today s + p.expiryDays, issuer := r.merchant,
    lastDay := today s }

/-- Steps 9 to 11e of ISSUE (R39), after the program was matched. -/
def issueTests (s : State) (r : TillRequest) (p : Program) : List (Check DeclineReason) :=
  [ (termsAdmit .issue (termsOf s r.merchant).state, .merchant),
    (flagAdmits .issue (termsOf s r.merchant), .merchant),
    (decide (p.state = .opened), .program),
    (decide (p.issueMinimum ≤ r.amount), .amount),
    (decide (r.amount ≤ p.ceiling), .ceiling),
    ((lookupCard s r.card).isNone, .cardState) ]

/-- The ISSUE in hand (R40). -/
def issueHand (s : State) (r : TillRequest) (index : Nat) (p : Program) (slot : Nat) : Hand :=
  { request := r, today := today s, movement := .post .sold true (termsOf s r.merchant).debitLimit, amount := r.amount, slot := slot,
    cardAfter := some (issuedCard s r index p), program := index, liveChange := .rise, entryKind := .issue, entryRemaining := none,
    link := none, restore := none, liabilityRises := true, outcome := .approved,
    conditions := servedConditions p.lowThreshold 0 r.amount r.amount r.amount false false,
    after := viewOf (timeOf s.clock) (issuedCard s r index p),
    refusedConditions := declinedConditions r.kind .exposure none, refused := noView }

def serveIssue (r : TillRequest) (s : State) : State :=
  match firstFailure (entryTests s r) with
  | some reason => decline r reason none s
  | none =>
    match matchProgram s.programs r.card with
    | none => decline r .noCard none s
    | some index =>
      match firstFailure (issueTests s r (programAt s index)) with
      | some reason => decline r reason none s
      | none =>
        match firstEmpty s r.card with
        | none => decline r .tableFull none s
        | some slot => awaitTable (issueHand s r index (programAt s index) slot) s

/-- ISSUE (R39). -/
def execIssue (s : State) : Host.Outcome State Fault Refusal := .next (takeTill .issue serveIssue s)

/-! ### TOPUP (R41, R42) -/

/-- The expiry day a TOPUP leaves (R12, R42). -/
def renewedExpiry (s : State) (p : Program) (c : CardRecord) : Nat :=
  if p.renewOnTopup = true ∧ p.expiryDays ≠ 0 ∧ earlierExpiry c.expiryDay (today s + p.expiryDays) = true
  then today s + p.expiryDays else c.expiryDay

/-- The card after a TOPUP of `grant` (R42). -/
def toppedUp (s : State) (p : Program) (grant : Nat) (c : CardRecord) : CardRecord :=
  { touched s c with balance := c.balance + grant, expiryDay := renewedExpiry s p c }

def topupOwn (r : TillRequest) (slot : Nat) (c : CardRecord) (s : State) : State :=
  let p := programAt s c.program
  if p.topupPermitted then
    match decideGrant r.amount r.mayCut [(.ceiling, p.ceiling - c.balance)] with
    | .error reason => decline r reason (some c) s
    | .ok grant =>
      awaitTable (handFor s r (.post .sold true (termsOf s r.merchant).debitLimit) .exposure grant slot c (toppedUp s p grant c)
        .topup none none true (servedOutcome r.amount grant)
        (servedConditions p.lowThreshold c.balance (c.balance + grant) r.amount grant
          (cutBy (p.ceiling - c.balance) r.amount (p.ceiling - c.balance)) false)) s
  else decline r .program (some c) s

/-- TOPUP (R41). -/
def execTopup (s : State) : Host.Outcome State Fault Refusal := .next (takeTill .topup (serveOnCard topupOwn) s)

/-! ### SPEND and TRY (R43 to R45, R48) -/

/-- The limits of SPEND in their order: free, then the cap remaining (R43). -/
def spendLimits (s : State) (p : Program) (c : CardRecord) : List (DeclineReason × Nat) :=
  (.funds, freeAmount (timeOf s.clock) c) :: capLimit (capRemaining s p c)

/-- The card after a debit of `grant` (R45). -/
def afterDebit (s : State) (grant : Nat) (c : CardRecord) : CardRecord := touched s (debited (today s) grant c)

/-- The conditions of a served SPEND (R38, R44). -/
def spendConditions (s : State) (r : TillRequest) (p : Program) (c : CardRecord) (grant : Nat) : Conditions :=
  servedConditions p.lowThreshold c.balance (c.balance - grant) r.amount grant false
    (cutByCap (capRemaining s p c) r.amount (freeAmount (timeOf s.clock) c))

def spendOwn (r : TillRequest) (slot : Nat) (c : CardRecord) (s : State) : State :=
  let p := programAt s c.program
  match decideGrant r.amount r.mayCut (spendLimits s p c) with
  | .error reason => decline r reason (some c) s
  | .ok grant =>
    awaitTable (handFor s r (.post .redeemed false 0) .exposure grant slot c (afterDebit s grant c) .spend (some grant) none false
      (servedOutcome r.amount grant) (spendConditions s r p c grant)) s

/-- SPEND (R43). -/
def execSpend (s : State) : Host.Outcome State Fault Refusal := .next (takeTill .spend (serveOnCard spendOwn) s)

/-- TRY: the answer a SPEND would receive, without a reference and without a write (R48). -/
def tryOwn (r : TillRequest) (_slot : Nat) (c : CardRecord) (s : State) : State :=
  let p := programAt s c.program
  match decideGrant r.amount r.mayCut (spendLimits s p c) with
  | .error reason => decline r reason (some c) s
  | .ok grant =>
    placeResponse r (servedOutcome r.amount grant) (spendConditions s r p c grant) grant
      (viewOf (timeOf s.clock) (afterDebit s grant c)) none s

/-- TRY (R48). -/
def execTryReq (s : State) : Host.Outcome State Fault Refusal := .next (takeTill .tryReq (serveOnCard tryOwn) s)

/-! ### ASK (R46, R47) -/

def askOwn (r : TillRequest) (_slot : Nat) (c : CardRecord) (s : State) : State :=
  placeResponse r .approved (askConditions (programAt s c.program).lowThreshold c.balance) 0 (viewOf (timeOf s.clock) c) none s

/-- ASK (R46). -/
def execAsk (s : State) : Host.Outcome State Fault Refusal := .next (takeTill .ask (serveOnCard askOwn) s)

/-! ### RESERVE (R61 to R64) -/

/-- The expiry time of a hold placed at T (R64). -/
def holdExpiry (s : State) (p : Program) : Nat :=
  match timeOf s.clock with
  | some t => min (t + p.holdHours * 3600) Config.maxTime
  | none => 0

/-- The card with a new hold, named by the write position (R64). -/
def withHold (s : State) (r : TillRequest) (p : Program) (grant : Nat) (c : CardRecord) : CardRecord :=
  let t := touched s c
  { t with holds := t.holds ++
      [{ reference := s.writePos, merchant := r.merchant, lane := r.lane, amount := grant, expiry := holdExpiry s p }] }

/-- The write of a served RESERVE or FREE: the card record, the journal and the write position (R60). -/
def holdWrite (slot : Nat) (c : CardRecord) (j : Table (Option JournalEntry)) (s : State) : State :=
  { s with cards := s.cards.write none slot (some c), journal := j, writePos := advance s.writePos }

def reserveOwn (r : TillRequest) (slot : Nat) (c : CardRecord) (s : State) : State :=
  let p := programAt s c.program
  let now := timeOf s.clock
  if (liveHolds now c.holds).length < p.holdLimit then
    match decideGrant r.amount r.mayCut [(.funds, freeAmount now c)] with
    | .error reason => decline r reason (some c) s
    | .ok grant =>
      placeResponse r (servedOutcome r.amount grant)
        (servedConditions p.lowThreshold c.balance c.balance r.amount grant false false) grant
        (viewOf now (withHold s r p grant c)) (some s.writePos)
        (holdWrite slot (withHold s r p grant c)
          (appendAt s.writePos (cardEntry .reserve r grant (today s) s.cycle none none) s.journal) s)
  else decline r .holdLimit (some c) s

/-- RESERVE (R61). -/
def execReserve (s : State) : Host.Outcome State Fault Refusal := .next (takeTill .reserve (serveOnCard reserveOwn) s)

/-! ### CLAIM (R65 to R68) -/

/-- The hold a reference names, or the reason of the case that fits first (R65). -/
def resolveHold (s : State) (r : TillRequest) (c : CardRecord) : Except DeclineReason Hold :=
  match c.holds.find? fun h => decide (h.reference = r.reference) with
  | some h =>
    if h.merchant = r.merchant then (if holdExpired (timeOf s.clock) h then .error .expired else .ok h) else .error .noRef
  | none =>
    match resolveRef s r.reference with
    | .error reason => .error reason
    | .ok e =>
      if e.kind = .reserve ∧ e.card = some r.card ∧ e.merchant = some r.merchant ∧ e.link = none then .error .expired
      else .error .noRef

/-- The allowed maximum of a claim (R67). -/
def claimMaximum (s : State) (r : TillRequest) (c : CardRecord) (h : Hold) : Nat :=
  if c.state = .active then h.amount + h.amount * (termsOf s r.merchant).tolerance / 100 else h.amount

/-- The card without the hold a reference names. -/
def withoutHold (ref : JournalRef) (c : CardRecord) : CardRecord :=
  { c with holds := c.holds.filter fun h => decide (h.reference ≠ ref) }

/-- Free without this hold (R67). -/
def freeWithout (s : State) (c : CardRecord) (h : Hold) : Nat := freeAmount (timeOf s.clock) c + h.amount

/-- The limits of CLAIM in their order (R66, R67). -/
def claimLimits (s : State) (r : TillRequest) (p : Program) (c : CardRecord) (h : Hold) : List (DeclineReason × Nat) :=
  (.overHold, claimMaximum s r c h) :: (.funds, freeWithout s c h) :: capLimit (capRemaining s p c)

def claimOwn (r : TillRequest) (slot : Nat) (c : CardRecord) (s : State) : State :=
  let p := programAt s c.program
  match resolveHold s r c with
  | .error reason => decline r reason (some c) s
  | .ok h =>
    match decideGrant r.amount r.mayCut (claimLimits s r p c h) with
    | .error reason => decline r reason (some c) s
    | .ok grant =>
      awaitTable (handFor s r (.post .redeemed false 0) .exposure grant slot c
        (afterDebit s grant (withoutHold r.reference c)) .claim (some grant) (some r.reference) false (servedOutcome r.amount grant)
        (servedConditions p.lowThreshold c.balance (c.balance - grant) r.amount grant false
          (cutByCap (capRemaining s p c) r.amount (min (claimMaximum s r c h) (freeWithout s c h))))) s

/-- CLAIM (R66). -/
def execClaim (s : State) : Host.Outcome State Fault Refusal := .next (takeTill .claim (serveOnCard claimOwn) s)

/-! ### FREE (R69) -/

/-- The present hold of the merchant that the reference names (R69). -/
def presentHold (s : State) (r : TillRequest) (c : CardRecord) : Option Hold :=
  c.holds.find? fun h => decide (h.reference = r.reference) && decide (h.merchant = r.merchant) && !holdExpired (timeOf s.clock) h

def freeOwn (r : TillRequest) (slot : Nat) (c : CardRecord) (s : State) : State :=
  match presentHold s r c with
  | none => decline r .noRef (some c) s
  | some h =>
    placeResponse r .approved {} h.amount (viewOf (timeOf s.clock) (touched s (withoutHold r.reference c))) (some s.writePos)
      (holdWrite slot (touched s (withoutHold r.reference c))
        (appendAt s.writePos (cardEntry .free r h.amount (today s) s.cycle none (some r.reference))
          (editEntry r.reference (linkReserve s.writePos) s.journal)) s)

/-- FREE (R69). -/
def execFree (s : State) : Host.Outcome State Fault Refusal := .next (takeTill .free (serveOnCard freeOwn) s)

/-! ### RETURN (R79 to R83) -/

/-- The entry the original reference names, where it is returnable (R80). -/
def returnable (s : State) (r : TillRequest) (c : CardRecord) : Except DeclineReason JournalEntry :=
  match resolveRef s r.reference with
  | .error reason => .error reason
  | .ok e =>
    if (e.kind = .spend ∨ e.kind = .claim) ∧ e.card = some r.card ∧ e.merchant = some r.merchant ∧ e.cancelled = false ∧
        c.issueDay ≤ e.day
    then .ok e else .error .noRef

/-- The original is within the return window; a window of 0 declines every return (R81). -/
def withinWindow (s : State) (window : Nat) (e : JournalEntry) : Bool :=
  decide (window ≠ 0) && decide ((today s : Int) - e.day ≤ window)

/-- The refundable remaining of an entry. -/
def remainingOf (e : JournalEntry) : Nat := e.remaining.getD 0

def returnOwn (r : TillRequest) (slot : Nat) (c : CardRecord) (s : State) : State :=
  let p := programAt s c.program
  match returnable s r c with
  | .error reason => decline r reason (some c) s
  | .ok e =>
    if withinWindow s (termsOf s r.merchant).returnWindow e then
      match decideGrant r.amount r.mayCut [(.returnExcess, remainingOf e), (.ceiling, p.ceiling - c.balance)] with
      | .error reason => decline r reason (some c) s
      | .ok grant =>
        awaitTable (handFor s r (.post .refunded true (termsOf s r.merchant).debitLimit) .exposure grant slot c
          { touched s c with balance := c.balance + grant } .returnReq none (some r.reference) true (servedOutcome r.amount grant)
          (servedConditions p.lowThreshold c.balance (c.balance + grant) r.amount grant
            (cutBy (p.ceiling - c.balance) r.amount (remainingOf e)) false)) s
    else decline r .returnWindow (some c) s

/-- RETURN (R79). -/
def execReturnReq (s : State) : Host.Outcome State Fault Refusal := .next (takeTill .returnReq (serveOnCard returnOwn) s)

/-! ### CANCEL (R85 to R91) -/

/-- Steps 11a to 11d: the entry that the lane's last record names, matched to the request (R86). -/
def cancelMatch (s : State) (r : TillRequest) : Except DeclineReason (LastRecord × JournalEntry) :=
  match (laneAt s r.merchant r.lane).last with
  | none => .error .cancelMismatch
  | some l =>
    if l.sequence = r.cancelSequence then
      match resolveRef s l.reference with
      | .error _ => .error .aged
      | .ok e =>
        if e.card = some r.card then (if l.day = today s then .ok (l, e) else .error .cancelWindow) else .error .cancelMismatch
    else .error .cancelMismatch

/-- The condition of the cancelled kind (R87). -/
def cancelCondition (s : State) (c : CardRecord) (e : JournalEntry) : Bool :=
  let now := timeOf s.clock
  match e.kind with
  | .issue => decide (c.balance = e.amount.toNat) && (liveHolds now c.holds).isEmpty
  | .topup => decide (e.amount.toNat ≤ freeAmount now c)
  | .spend | .claim =>
    decide (remainingOf e = e.amount.toNat) && decide (c.balance + e.amount.toNat ≤ (programAt s c.program).ceiling)
  | .returnReq => decide (e.amount.toNat ≤ freeAmount now c)
  | .reserve | .free | .cancel | .move | .adjust => false

/-- The bank field of the cancelled kind (R88). -/
def cancelField : JournalKind → BankField
  | .issue | .topup => .sold
  | .returnReq => .refunded
  | .spend | .claim | .reserve | .free | .cancel | .move | .adjust => .redeemed

/-- The card side of the cancel of a kind other than ISSUE (R89). -/
def cancelledCard (s : State) (e : JournalEntry) (c : CardRecord) : CardRecord :=
  match e.kind with
  | .spend | .claim => { touched s c with balance := c.balance + e.amount.toNat, daySpend := c.daySpend - e.amount.toNat }
  | .topup | .returnReq => { touched s c with balance := c.balance - e.amount.toNat }
  | .issue | .reserve | .free | .cancel | .move | .adjust => touched s c

/-- The CANCEL of a posting other than an ISSUE in hand (R88 to R91). -/
def cancelHand (s : State) (r : TillRequest) (slot : Nat) (c : CardRecord) (l : LastRecord) (e : JournalEntry) : Hand :=
  let after := cancelledCard s e c
  { handFor s r (.reversal (cancelField e.kind) e.cycle) .cancelWindow e.amount.toNat slot c after .cancel none (some l.reference)
      (decide (e.kind = .spend) || decide (e.kind = .claim)) .approved
      (servedConditions (programAt s c.program).lowThreshold c.balance after.balance e.amount.toNat e.amount.toNat false false) with
    restore := if e.kind = .returnReq then e.link else none }

/-- The CANCEL of an ISSUE in hand: the slot becomes EMPTY and the response shows no card (R89, R91). -/
def cancelIssueHand (s : State) (r : TillRequest) (slot : Nat) (c : CardRecord) (l : LastRecord) (e : JournalEntry) : Hand :=
  { handFor s r (.reversal (cancelField e.kind) e.cycle) .cancelWindow e.amount.toNat slot c c .cancel none (some l.reference)
      false .approved
      (servedConditions (programAt s c.program).lowThreshold c.balance 0 e.amount.toNat e.amount.toNat false false) with
    cardAfter := none, liveChange := .fall, after := noView }

def cancelOwn (r : TillRequest) (slot : Nat) (c : CardRecord) (s : State) : State :=
  match cancelMatch s r with
  | .error reason => decline r reason (some c) s
  | .ok (l, e) =>
    if cancelCondition s c e then
      awaitTable (if e.kind = .issue then cancelIssueHand s r slot c l e else cancelHand s r slot c l e) s
    else decline r .cancelBlocked (some c) s

/-- CANCEL (R85). -/
def execCancel (s : State) : Host.Outcome State Fault Refusal := .next (takeTill .cancel (serveOnCard cancelOwn) s)

end Sys2Proof.Machine
end

