-- ==== Sys2Proof/Machine/Dispatch.lean ====
section
/-! DEFINITION. The effect of each command: one arm a command. -/

namespace Sys2Proof.Machine

def exec (i : Instr) (s : State) : Host.Outcome State Fault Refusal :=
  match i with
  | .shopFrameArrival frame => Sys2Proof.Machine.execShopFrameArrival frame s
  | .officeFrameArrival frame => Sys2Proof.Machine.execOfficeFrameArrival frame s
  | .frameEgress port => Sys2Proof.Machine.execFrameEgress port s
  | .linkDown port => Sys2Proof.Machine.execLinkDown port s
  | .linkUp port => Sys2Proof.Machine.execLinkUp port s
  | .pinReset => Sys2Proof.Machine.execPinReset s
  | .restartReset => Sys2Proof.Machine.execRestartReset s
  | .startUp => Sys2Proof.Machine.execStartUp s
  | .initialisationComplete => Sys2Proof.Machine.execInitialisationComplete s
  | .issue => Sys2Proof.Machine.execIssue s
  | .topup => Sys2Proof.Machine.execTopup s
  | .spend => Sys2Proof.Machine.execSpend s
  | .ask => Sys2Proof.Machine.execAsk s
  | .tryReq => Sys2Proof.Machine.execTryReq s
  | .reserve => Sys2Proof.Machine.execReserve s
  | .claim => Sys2Proof.Machine.execClaim s
  | .free => Sys2Proof.Machine.execFree s
  | .returnReq => Sys2Proof.Machine.execReturnReq s
  | .cancel => Sys2Proof.Machine.execCancel s
  | .conditionalPost => Sys2Proof.Machine.execConditionalPost s
  | .conditionalReversal => Sys2Proof.Machine.execConditionalReversal s
  | .cardSlotPlacement => Sys2Proof.Machine.execCardSlotPlacement s
  | .readCard => Sys2Proof.Machine.execReadCard s
  | .suspendCard => Sys2Proof.Machine.execSuspendCard s
  | .resumeCard => Sys2Proof.Machine.execResumeCard s
  | .retireCard => Sys2Proof.Machine.execRetireCard s
  | .purgeCard => Sys2Proof.Machine.execPurgeCard s
  | .extendCard => Sys2Proof.Machine.execExtendCard s
  | .moveBalance => Sys2Proof.Machine.execMoveBalance s
  | .setStations => Sys2Proof.Machine.execSetStations s
  | .setTiming => Sys2Proof.Machine.execSetTiming s
  | .setClock => Sys2Proof.Machine.execSetClock s
  | .setMode => Sys2Proof.Machine.execSetMode s
  | .readStatus => Sys2Proof.Machine.execReadStatus s
  | .restart => Sys2Proof.Machine.execRestart s
  | .storeClear => Sys2Proof.Machine.execStoreClear s
  | .lockPrivacy => Sys2Proof.Machine.execLockPrivacy s
  | .writeProgram => Sys2Proof.Machine.execWriteProgram s
  | .readProgram => Sys2Proof.Machine.execReadProgram s
  | .readJournal => Sys2Proof.Machine.execReadJournal s
  | .writeTerms => Sys2Proof.Machine.execWriteTerms s
  | .readTerms => Sys2Proof.Machine.execReadTerms s
  | .clearPage => Sys2Proof.Machine.execClearPage s
  | .fixPage => Sys2Proof.Machine.execFixPage s
  | .clearDirectory => Sys2Proof.Machine.execClearDirectory s
  | .writeLane => Sys2Proof.Machine.execWriteLane s
  | .readLane => Sys2Proof.Machine.execReadLane s
  | .closeCycle => Sys2Proof.Machine.execCloseCycle s
  | .adjustCarry => Sys2Proof.Machine.execAdjustCarry s
  | .readPosition => Sys2Proof.Machine.execReadPosition s
  | .readBatch => Sys2Proof.Machine.execReadBatch s
  | .releaseBatch => Sys2Proof.Machine.execReleaseBatch s
  | .addBudget => Sys2Proof.Machine.execAddBudget s
  | .resolve => Sys2Proof.Machine.execResolve s
  | .abandon => Sys2Proof.Machine.execAbandon s
  | .unknownRequest => Sys2Proof.Machine.execUnknownRequest s
  | .confirm => Sys2Proof.Machine.execConfirm s
  | .reject => Sys2Proof.Machine.execReject s
  | .stray => Sys2Proof.Machine.execStray s
  | .timerExpiry slot => Sys2Proof.Machine.execTimerExpiry slot s
  | .pageClearCompletion => Sys2Proof.Machine.execPageClearCompletion s
  | .directoryClearCompletion => Sys2Proof.Machine.execDirectoryClearCompletion s
  | .storeClearCompletion => Sys2Proof.Machine.execStoreClearCompletion s
  | .calculatorStep => Sys2Proof.Machine.execCalculatorStep s
  | .computationCompletion => Sys2Proof.Machine.execComputationCompletion s
  | .clockSecond => Sys2Proof.Machine.execClockSecond s
  | .holdEnd => Sys2Proof.Machine.execHoldEnd s
  | .clockLoss => Sys2Proof.Machine.execClockLoss s

end Sys2Proof.Machine
end

