-- ==== Sys2Proof/Safety.lean ====
section
/-! DEFINITION. The vocabulary of the statements: when a block's work is due, the command that takes each piece of work, and
what counts as a sound state of the part. -/

namespace Sys2Proof.Machine

/-! ### Which command takes a piece of work -/

/-- The command by which the Posting Unit takes a till request of a kind. -/
def RequestKind.command : RequestKind → Instr
  | .issue => .issue | .topup => .topup | .spend => .spend | .reserve => .reserve | .claim => .claim | .free => .free
  | .returnReq => .returnReq | .cancel => .cancel | .ask => .ask | .tryReq => .tryReq

/-- The command by which the Posting Unit takes a management card request. -/
def CardOp.command : CardOp → Instr
  | .read => .readCard | .suspend => .suspendCard | .resume => .resumeCard | .retire => .retireCard | .purge => .purgeCard
  | .extend _ => .extendCard | .move _ => .moveBalance

/-- The command by which the Responder takes a management request. -/
def Request.command : Request → Instr
  | .setStations _ _ _ _ => .setStations | .setTiming _ _ => .setTiming | .setClock _ => .setClock | .setMode _ => .setMode
  | .readStatus => .readStatus | .restart => .restart | .storeClear => .storeClear | .lockPrivacy => .lockPrivacy
  | .writeProgram _ => .writeProgram | .readProgram _ => .readProgram | .card _ _ => .cardSlotPlacement
  | .readJournal _ => .readJournal | .writeTerms _ => .writeTerms | .readTerms _ => .readTerms | .clearPage _ => .clearPage
  | .fixPage _ => .fixPage | .clearDirectory => .clearDirectory | .writeLane _ _ _ _ => .writeLane | .readLane _ _ => .readLane
  | .closeCycle => .closeCycle | .adjustCarry _ _ => .adjustCarry | .readPosition _ => .readPosition
  | .readBatch _ => .readBatch | .releaseBatch _ _ => .releaseBatch | .addBudget _ => .addBudget | .resolve _ _ => .resolve
  | .abandon => .abandon

/-! ### Work that is due -/

/-- The Responder takes the request `r` with this tag, and `t` is the state once the request has left the input queue: the
frame at its head is well formed and the part is out of reset (R183, R184). -/
def RequestTaken (s : State) (r : Request) (tag : Nat) (t : State) : Prop :=
  s.inReset = false ∧ ∃ f rest, s.mgmtIn = f :: rest ∧ parseManagement f = .good r ∧ echoedTag f = tag ∧ t = { s with mgmtIn := rest }

/-- A request taken that the common checks do not refuse (R184, checks 3 and 4). -/
def RequestDue (s : State) (r : Request) (tag : Nat) (t : State) : Prop :=
  RequestTaken s r tag t ∧ clearing s = false ∧ s.restartPending = false

/-- The Posting Unit takes the till request `r`: it is IDLE, the card slot is empty, a place of the shop queue is free; `t` is
the state once the request has left the Ingress File (R26, R27). -/
def TillDue (s : State) (r : TillRequest) (t : State) : Prop :=
  s.inReset = false ∧ s.posting = .idle ∧ s.cardSlot = none ∧ shopPlaces s < Config.shopCapacity ∧
    ∃ rest, s.ingress = r :: rest ∧ t = { s with ingress := rest }

/-- A till request other than an ISSUE passes the common head of the check order and finds the card `c` in `slot` (R31). -/
def PassesHead (s : State) (r : TillRequest) (slot : Nat) (c : CardRecord) : Prop :=
  firstFailure (entryTests s r) = none ∧ liveCard s r.card = some (slot, c) ∧ firstFailure (cardTests s r c) = none

/-- The Posting Unit takes the management card request `q` (R17, R26), no erasure being in flight. -/
def CardDue (s : State) (q : CardRequest) : Prop :=
  s.inReset = false ∧ clearing s = false ∧ s.posting = .idle ∧ s.cardSlot = some q

/-- The request of a card request is answered and the Posting Unit IDLE: nothing else of the state differs (R17). -/
def cardAnswer (q : CardRequest) (reason : ReplyReason) (block : List Byte) (s : State) : State :=
  sendReply q.op.code q.tag reason block { s with posting := .idle, cardSlot := none }

/-- The response prepared in hand for either answer of the table: the conditions of the served posting with the card `d` as it
leaves it, and for a refusal the card `c` as it was read, with Z by its balance and S for a kind that carries an amount (R38,
R56). -/
def preparesAnswers (h : Hand) (now : Option Nat) (c d : CardRecord) (served : Conditions) : Prop :=
  h.conditions = served ∧ h.after = { balance := d.balance, free := freeAmount now d, expiry := d.expiryDay } ∧
    h.refusedConditions = { z := decide (c.balance = 0), s := h.request.kind.carriesAmount, x := false, d := false, l := false } ∧
    h.refused = { balance := c.balance, free := freeAmount now c, expiry := c.expiryDay }

/-! ### Sound states -/

/-- No queue is above its capacity, a reserved place of the shop queue counted (R172, R174, R175, R183). -/
def withinCapacities (s : State) : Bool :=
  decide (s.toOffice.length ≤ 64) && decide (s.toShop.length ≤ 64) && decide (shopPlaces s ≤ 16) && decide (s.officeOut.length ≤ 32) &&
    decide (s.ingress.length ≤ 8) && decide (s.mgmtIn.length ≤ 16)

/-- Every store holds its canonical form. -/
def storesCanonical (s : State) : Bool :=
  s.programs.wf Program.blank && s.cards.wf none && s.journal.wf none && s.lanes.wf Lane.unassigned && s.terms.wf Terms.unenrolled &&
    s.pages.wf .opened && s.positions.wf Position.zero && s.window.wf .free && s.counters.declines.wf 0

/-- T lies in 0..2^40 - 1 and the held amount in 0..300 (R188). -/
def clockInRange (s : State) : Bool :=
  match s.clock with
  | .unset => true
  | .running t => decide (t < 2 ^ 40)
  | .holding t held => decide (t < 2 ^ 40) && decide (held ≤ 300)

/-- Every counter lies in 0..2^32 - 1 (R30, R168, R177, R183). -/
def countersInRange (s : State) : Bool :=
  let c := s.counters
  let top := 2 ^ 32 - 1
  decide (c.approvals ≤ top) && decide (c.partials ≤ top) && c.declines.all (fun e => decide (e.2 ≤ top)) &&
    decide (c.forwardedToOffice ≤ top) && decide (c.forwardedToShop ≤ top) && decide (c.droppedToOffice ≤ top) &&
    decide (c.droppedToShop ≤ top) && decide (c.headerDrops ≤ top) && decide (c.foreignDrops ≤ top) &&
    decide (c.shopFullDrops ≤ top) && decide (c.officeFullDrops ≤ top) && decide (c.shopLinkDrops ≤ top) &&
    decide (c.officeLinkDrops ≤ top) && decide (c.mgmtOverflow ≤ top) && decide (c.strays ≤ top) && decide (c.lateConfirms ≤ top)

/-- The sum of the balances of the cards that are ACTIVE or SUSPENDED (R53). -/
def liveTotal (cards : Table (Option CardRecord)) : Nat := (cards.map fun e => liveBalance e.2).sum

/-- The holds of a card are covered by its balance (R9). -/
def holdsCovered (c : Option CardRecord) : Bool :=
  match c with
  | some c => decide (heldSum c.holds ≤ c.balance)
  | none => true

/-- The card write of a request in hand moves the live balance of its slot by the amount in hand, in the direction of its
change of the liability counter (R50, R53, R89). -/
def handBalances (s : State) : Bool :=
  match s.posting with
  | .till h =>
    holdsCovered h.cardAfter &&
      (if h.liabilityRises then decide (liveBalance h.cardAfter = liveBalance (cardAt s h.slot) + h.amount)
       else decide (liveBalance h.cardAfter + h.amount = liveBalance (cardAt s h.slot)))
  | .idle => true
  | .card _ => false

/-- The liability counter equals the sum of the balances of all ACTIVE and SUSPENDED cards, the Card Store is in canonical
form, every card covers its holds and a request in hand is prepared to keep all of it (R9, R53). -/
def moneyOnCards (s : State) : Bool :=
  decide (s.liability = liveTotal s.cards) && s.cards.wf none && s.cards.all (fun e => holdsCovered e.2) && handBalances s

/-- The payouts of the records in SENT, PAID and UNCONFIRMED (R148). -/
def committedPayouts (records : List BatchRecord) : Nat :=
  ((records.filter fun r => decide (r.release = some .sent) || decide (r.release = some .paid) ||
    decide (r.release = some .unconfirmed)).map BatchRecord.payout).sum

/-- The remaining budget equals the granted budget less the payouts committed, and before a release nothing is granted and no
record has moved on from PENDING (R146, R148). -/
def budgetAccounts (s : State) : Bool :=
  decide (s.batch.remaining + committedPayouts s.batch.records = s.batch.granted) &&
    (decide (s.batch.state = .releasing) || decide (s.batch.state = .settled) ||
      (decide (s.batch.granted = 0) && s.batch.records.all fun r => decide (r.release = none) || decide (r.release = some .pending)))

/-- The computed marks follow the cursor: while the batch is COMPUTING, the closing banks below the cursor are COMPUTED and the
others UNCOMPUTED; otherwise all are COMPUTED (R114, R128). -/
def marksFollowCursor (s : State) : Bool :=
  (List.range Config.merchantCount).all fun m =>
    (positionAt s m).computed == (decide (s.batch.state ≠ .computing) || decide (m < s.batch.cursor))

/-- The journal's write position names a position (R71). -/
def writePositionInRange (s : State) : Bool := refInRange s.writePos

/-- No card holds more than four holds or more than the largest ceiling, no program admits more, and a request in hand keeps
both (R1, R8, R9). -/
def cardWithinLimits (c : Option CardRecord) : Bool :=
  match c with
  | some c => decide (c.holds.length ≤ 4) && decide (c.balance ≤ 10000000)
  | none => true

def cardsWithinLimits (s : State) : Bool :=
  s.programs.all (fun e => decide (e.2.holdLimit ≤ 4) && decide (e.2.ceiling ≤ 10000000)) &&
    s.cards.all (fun e => cardWithinLimits e.2) &&
    (match s.posting with
     | .till h => cardWithinLimits h.cardAfter
     | .idle => true
     | .card _ => true)

/-- A card belongs to one of the sixteen programs, its balance lies within the ceiling of that entry, and it is 0 once the card is
RETIRED (R8, R20). -/
def balanceWithinCeiling (programs : Table Program) : Option CardRecord → Bool
  | some c =>
    decide (c.program < Config.programCount) && decide (c.balance ≤ (programs.read Program.blank c.program).ceiling) &&
      (decide (c.state ≠ .retired) || decide (c.balance = 0))
  | none => true

/-- Every card, and the card that a request in hand prepares, lies within the ceiling of its own program (R8). -/
def balancesWithinCeilings (s : State) : Bool :=
  s.cards.all (fun e => balanceWithinCeiling s.programs e.2) &&
    (match s.posting with
     | .till h => balanceWithinCeiling s.programs h.cardAfter
     | .idle => true
     | .card _ => true)

/-- No two program entries claim one prefix and no two lanes carry one station (R2, R3, R109, R110). -/
def tablesUnambiguous (s : State) : Prop :=
  (∀ i j pre, i < 16 → j < 16 → i ≠ j → (programAt s i).claims pre = true → (programAt s j).claims pre = false) ∧
    ∀ i j, i ≠ j → (s.lanes.read Lane.unassigned i).station ≠ 0 →
      (s.lanes.read Lane.unassigned i).station ≠ (s.lanes.read Lane.unassigned j).station

/-- A clear in flight stands on pages that are CLEARING, and none is in flight while the part is held in reset (R101, R106,
R178). -/
def clearsStandOnClearingPages (s : State) : Prop :=
  match s.clearOp with
  | .none => True
  | .page p => s.inReset = false ∧ pageAt s p = .clearing
  | .directory => s.inReset = false ∧ ∀ p, p < 16 → pageAt s p = .clearing

/-- One for a live card of program `i` (R6). -/
def liveIn (i : Nat) : Option CardRecord → Nat
  | some c => if c.program = i ∧ c.state ≠ .retired then 1 else 0
  | none => 0

/-- The card records of program `i` that are ACTIVE or SUSPENDED (R6). -/
def liveCards (i : Nat) (cards : Table (Option CardRecord)) : Nat := (cards.map fun e => liveIn i e.2).sum

/-- Each live-card count is the number of live cards of its program, the Card Store is in canonical form, and a request in hand
moves the count with the card (R6). -/
def liveCountsMatch (s : State) : Bool :=
  s.cards.wf none &&
    (List.range Config.programCount).all fun i =>
      decide ((programAt s i).live = liveCards i s.cards) &&
        (match s.posting with
         | .till h =>
           decide (liveIn i h.cardAfter + (if h.liveChange = .fall ∧ h.program = i then 1 else 0) =
             liveIn i (cardAt s h.slot) + (if h.liveChange = .rise ∧ h.program = i then 1 else 0))
         | .idle => true
         | .card _ => true)

/-- No card slot but `slot` holds a record with this number. -/
def standsOnlyIn (cards : Table (Option CardRecord)) (slot number : Nat) : Bool :=
  cards.all fun e => decide (e.1 = slot) || decide (e.2.map CardRecord.number ≠ some number)

/-- Every card stands in the probe window of its number and its number stands in no other slot; so does the card that a request
in hand prepares (R10, R11). -/
def numbersStandOnce (s : State) : Bool :=
  let placed := fun (slot : Nat) (card : Option CardRecord) =>
    match card with
    | some c => decide (slot ∈ probeWindow c.number) && standsOnlyIn s.cards slot c.number
    | none => true
  s.cards.wf none && s.cards.all (fun e => placed e.1 e.2) &&
    (match s.posting with
     | .till h => placed h.slot h.cardAfter
     | .idle => true
     | .card _ => true)

/-- A batch that is not EMPTY settles the cycle before the current one, modulo 65,536 (R127). -/
def batchNamesClosedCycle (s : State) : Bool :=
  decide (s.cycle < 65536) && (decide (s.batch.state = .empty) || decide (s.batch.cycle = (s.cycle + 65535) % 65536))

/-- No current bank is marked SATURATED (R115, R118). -/
def nothingSaturated (s : State) : Bool := s.positions.all fun e => !e.2.saturated

/-- The sum of S + F - R of the current banks of all merchants (R115). -/
def currentOutstanding (s : State) : Int := (s.positions.map fun e => e.2.current.outstanding).sum

/-- The liability counter moves with the bank field of a request in hand: up with S and F, down with R, and a reversal the other
way (R49, R53, R88). -/
def handDirection (s : State) : Bool :=
  match s.posting with
  | .till h =>
    match h.movement with
    | .post field _ _ => h.liabilityRises == decide (field ≠ .redeemed)
    | .reversal field _ => h.liabilityRises == decide (field = .redeemed)
  | .idle => true
  | .card _ => true

/-- While no current bank is SATURATED, the liability counter is the opening liability plus S + F - R of all current banks; the
cards account for the counter, the Position Table is in canonical form and a request in hand moves both sides alike (R115). -/
def cycleBalances (s : State) : Bool :=
  moneyOnCards s && s.positions.wf Position.zero && handDirection s &&
    (!nothingSaturated s || decide ((s.liability : Int) = s.openingLiability + currentOutstanding s))

/-- The amount of a bank's field (R113). -/
def Bank.amountOf (b : Bank) : BankField → Nat
  | .sold => b.sold
  | .refunded => b.refunded
  | .redeemed => b.redeemed

/-- A reversal in hand of the current cycle takes no more from its bank than the bank holds (R119: a bank that is not saturated
always holds at least the amount). -/
def reversalCovered (s : State) : Prop :=
  ∀ h field, s.posting = .till h → h.movement = .reversal field s.cycle →
    h.amount ≤ (positionAt s h.request.merchant).current.amountOf field

/-- The merchants whose records the window holds. -/
def windowMerchants (w : Table WindowSlot) : List Nat := w.filterMap fun e => slotMerchant e.2

/-- The merchants of the records in SENT. -/
def sentMerchants (records : List BatchRecord) : List Nat :=
  (records.filter fun r => decide (r.release = some .sent)).map BatchRecord.merchant

/-- The window is in canonical form over slots 0 to 15, the slots that await egress do so once each, and it is empty in a reset;
merchants rise along the batch, and below the cursor while it computes; only PAY records are SENT, and only in a release; and
but for an erasure after a reset the merchants of the window are those of the SENT records, each as often (R136, R151, R156,
R157, R166). -/
def windowHoldsSent (s : State) : Bool :=
  s.window.wf .free && s.window.all (fun e => decide (e.1 < Config.windowSlots)) && decide s.awaiting.Nodup &&
    s.awaiting.all (fun k => match s.window.read .free k with
      | .awaiting _ _ => true
      | .free => false
      | .timing _ _ => false) &&
    (!s.inReset || decide (s.window = [])) &&
    decide ((s.batch.records.map BatchRecord.merchant).Pairwise (· < ·)) &&
    (decide (s.batch.state ≠ .computing) || s.batch.records.all fun r => decide (r.merchant < s.batch.cursor)) &&
    s.batch.records.all (fun r => decide (r.release ≠ some .sent) || (r.isPay && decide (s.batch.state = .releasing))) &&
    (s.inReset || decide (s.clearRun = .repeated) || decide (s.clearRun = .initialising) ||
      (windowMerchants s.window).isPerm (sentMerchants s.batch.records))

/-- No field of an entry of a FIXED page but its state differs, and the state is the same or one forward of it (R95, R99). -/
def heldFixed (before after : Terms) : Prop := after = before ∨ fixedAgrees before after = true

end Sys2Proof.Machine
end

