-- ==== Sys2Proof/Certificates/Slice0/Obligations.lean ====
section
/-! DEFINITION. The statements for the provers. OBLIGATIONS.json lists them with their titles and the rules they rest on. -/

open Sys2Proof Sys2Proof.Machine

/-! ### The machine -/

/-- A step takes the command at the front of the queue and runs it on the state with the queue's
rest. The queue is the model's own (log 2). -/
def Obligations.StepRunsTheFrontCommand : Prop :=
  ∀ (c : Instr) (rest : List Instr) (s : State),
    step { s with pending := c :: rest } = exec c { s with pending := rest }

/-- Every command of the table answers a next state, from every state, and leaves the queue as it was. The model's reading: a
command whose event cannot occur changes nothing (log 1), commands wait in the model's own queue (log 2), and nothing stops the
part (log 28). -/
def Obligations.EveryCommandCompletesAndKeepsTheQueue : Prop :=
  ∀ (c : Instr) (s : State), ∃ t, exec c s = .next t ∧ t.pending = s.pending

/-! ### Reset, start-up and erasure -/

/-- The state right after reset is that of a first start: the default configuration (R181), the volatile state of R179, and
the stores as their "At first start" columns give them (R24, R54, R75, R108, R112, R126, R127, R148). That the
initialisation runs and that both links are UP there is the model's choice (log 3, log 4), and so is the list of frames for the
Release Unit, which is empty (log 13). -/
def Obligations.ResetIsAFirstStart : Prop :=
  State.reset.settings = {
    engineStation := 1, controllerStation := 2, gatewayStation := 3, serviceType := 0x88B5, confirmationTimeout := 120,
    rollOffset := 0, privacyLock := false } ∧
  Settings.default = State.reset.settings ∧
  State.reset.inReset = false ∧ State.reset.configured = false ∧ State.reset.clearRun = .initialising ∧
  State.reset.storeClearMark = false ∧ State.reset.shopLink = .up ∧ State.reset.officeLink = .up ∧
  State.reset.clearOp = .none ∧ State.reset.gatewayIn = [] ∧ State.reset.awaiting = [] ∧
  State.reset.mode = .maintenance ∧ State.reset.clock = .unset ∧ State.reset.restartPending = false ∧
  State.reset.noticeNumber = 0 ∧ State.reset.counters = Counters.zero ∧ State.reset.posting = .idle ∧
  State.reset.cardSlot = none ∧ State.reset.ingress = [] ∧ State.reset.mgmtIn = [] ∧ State.reset.toOffice = [] ∧
  State.reset.toShop = [] ∧ State.reset.shopOut = [] ∧ State.reset.officeOut = [] ∧
  (∀ i, programAt State.reset i = Program.blank) ∧ (∀ k, cardAt State.reset k = none) ∧
  (∀ r, entryAt State.reset r = none) ∧ State.reset.writePos = ⟨0, 0, 0⟩ ∧
  (∀ m l, laneAt State.reset m l = ⟨0, false, none⟩) ∧ (∀ m, termsOf State.reset m = Terms.unenrolled) ∧
  (∀ p, pageAt State.reset p = .opened) ∧ (∀ m, positionAt State.reset m = Position.zero) ∧ State.reset.cycle = 0 ∧
  State.reset.openingLiability = 0 ∧ State.reset.liability = 0 ∧ State.reset.batch = Batch.none ∧
  (∀ k, State.reset.window.read .free k = .free)

/-- R178 and R179: what PIN_RESET leaves; and RESTART_RESET leaves the same once the RESTART reply is no longer in the office
queue, and nothing changes before (R182). R179: between a reset and its start-up the part takes no arrival, sends no frame and
makes no write: only the reset, the start-up and a change of a link have an effect. R181 and R193: a start without
configuration is a first start, under the default configuration; a start with the STORE_CLEAR mark makes the erasure again and
takes up nothing else. The model's reading: RESTART_RESET is a command of its own (log 24), a reset empties the list of frames
for the Release Unit (log 13), and it ends a clear at once while the pages stay CLEARING until the start-up (log 20); a link
changes in a reset too (log 25). -/
def Obligations.ResetsEmptyTheVolatileStateAndErasuresBegin : Prop :=
  (∀ s : State,
    exec .pinReset s = .next { s with
      inReset := true, clearRun := .none, restartPending := false, mode := .maintenance, clock := .unset, noticeNumber := 0,
      toOffice := [], toShop := [], shopOut := [], officeOut := [], ingress := [], mgmtIn := [], gatewayIn := [],
      counters := Counters.zero, posting := .idle, cardSlot := none, clearOp := .none, window := [], awaiting := [] } ∧
    (s.inReset = false → s.restartPending = true →
      ((∀ e ∈ s.officeOut, e.origin ≠ .restartReply) → exec .restartReset s = exec .pinReset s) ∧
      ((∃ e ∈ s.officeOut, e.origin = .restartReply) → exec .restartReset s = .next s))) ∧
  (∀ (c : Instr) (s : State), s.inReset = true → c ≠ .pinReset → c ≠ .startUp → (∀ p, c ≠ .linkDown p ∧ c ≠ .linkUp p) →
    exec c s = .next s) ∧
  (∀ s : State, s.inReset = true →
    (s.configured = false → exec .startUp s = .next { s with
      inReset := false, clearRun := .initialising,
      settings := Settings.default }) ∧
    (s.configured = true → s.storeClearMark = true → exec .startUp s = .next { s with inReset := false, clearRun := .repeated }))

/-- R103, R142, R166, R180: at a start-up with work left over, CLEARING pages are TORN, a completion that was not written is
made, SENT records are UNCONFIRMED with the granted budget kept, each notice takes a number, and the stores of cards,
programs, journal, lanes, terms and positions stand. A batch in release is walked once: records, budgets and window are those
that the walk of R151 to R155 leaves, but that an instruction which reached the office queue, or was dropped at a DOWN port, has
its slot TIMING (R157). From the empty queue and window that a reset leaves (R179), every slot the walk filled is TIMING and no
instruction awaits egress: on an UP port each stands in the office queue, in the order in which its record was sent, beside the
notices, and nothing is dropped; on a DOWN port each is dropped (R169). -/
def Obligations.StartUpTakesUpTheWorkLeftOver : Prop :=
  ∀ s : State, s.inReset = true → s.configured = true → s.storeClearMark = false → s.noticeNumber = 0 →
    ∃ t, exec .startUp s = .next t ∧ t.inReset = false ∧
      (∀ p, pageAt t p = if pageAt s p = .clearing then .torn else pageAt s p) ∧
      (s.batch.state = .computing → s.batch.cursor = 512 →
        t.batch = { s.batch with state := .computed, trailer := some s.batch.totals }) ∧
      (s.batch.state = .computing → s.batch.cursor < 512 → t.batch = s.batch) ∧
      (s.batch.state = .releasing →
        let walked := walkRecords { s with
          inReset := false, pages := t.pages
          batch := { s.batch with
            records := s.batch.records.map fun r =>
              if r.release = some ReleaseState.sent then { r with release := some .unconfirmed } else r } }
        t.batch = walked.batch ∧ t.batch.granted = s.batch.granted ∧ t.batch.mode = s.batch.mode ∧
        (∀ k, t.window.read .free k = walked.window.read .free k ∨
          ∃ m f, walked.window.read .free k = .awaiting m f ∧
            t.window.read .free k = .timing m s.settings.confirmationTimeout) ∧
        ∀ (i : Nat) (r : BatchRecord), s.batch.records[i]? = some r → r.release = some .sent →
          t.batch.records[i]? = some { r with release := some .unconfirmed }) ∧
      (s.batch.state = .releasing → s.officeOut = [] → s.awaiting = [] → s.window = [] →
        let walked := walkRecords { s with
          inReset := false, pages := t.pages
          batch := { s.batch with
            records := s.batch.records.map fun r =>
              if r.release = some ReleaseState.sent then { r with release := some .unconfirmed } else r } }
        t.awaiting = [] ∧
        (∀ k, t.window.read .free k = match walked.window.read .free k with
          | .awaiting m _ => .timing m s.settings.confirmationTimeout
          | .free => .free
          | .timing m len => .timing m len) ∧
        (s.officeLink = .up → t.counters = s.counters ∧ t.officeOut.length = t.noticeNumber + walked.awaiting.length ∧
          t.officeOut.filter (fun e => decide (e.origin = .instruction)) = walked.awaiting.filterMap fun k =>
            match walked.window.read .free k with
            | .awaiting _ f => some { frame := f, origin := .instruction }
            | .free => none
            | .timing _ _ => none) ∧
        (s.officeLink = .down → t.officeOut = [] ∧ t.counters = { s.counters with
          officeLinkDrops := bumpBy (t.noticeNumber + walked.awaiting.length) s.counters.officeLinkDrops })) ∧
      (s.batch.state ≠ .computing → s.batch.state ≠ .releasing → t.batch = s.batch) ∧
      (s.batch.state ≠ .releasing → s.awaiting = [] → t.window = s.window ∧ t.awaiting = []) ∧
      t.noticeNumber = ((List.range 16).filter fun p => decide (pageAt t p = .torn)).length +
        (if s.batch.state = .computing ∧ 512 ≤ s.batch.cursor then 1 else 0) ∧
      t = { s with
        inReset := false, pages := t.pages, batch := t.batch, window := t.window, awaiting := t.awaiting,
        noticeNumber := t.noticeNumber, officeOut := t.officeOut, counters := t.counters, freeCount := t.freeCount }

/-- R193 and R181: what the completion of a STORE_CLEAR and of the first-start initialisation leave; neither is made while
the Posting Unit holds a request (R192), or one waits in its card slot: it is refused BUSY first (R33), so the slot is empty
after the completion, as R24 says; that the completion waits for it is the model's reading (log 30). -/
def Obligations.ErasureLeavesTheClearedStores : Prop :=
  ∀ s : State, s.inReset = false →
    (s.posting ≠ .idle ∨ s.cardSlot ≠ none → exec .storeClearCompletion s = .next s ∧ exec .initialisationComplete s = .next s) ∧
    (s.posting = .idle → s.cardSlot = none → s.clearRun = .accepted ∨ s.clearRun = .repeated →
      exec .storeClearCompletion s = .next { s with
      settings := { s.settings with privacyLock := false }
      storeClearMark := false, clearRun := .none
      counters := { s.counters with strays := 0, lateConfirms := 0 }
      liability := 0, programs := [], cards := [], journal := [], writePos := ⟨0, 0, 0⟩, lanes := [], terms := [], pages := [],
      clearOp := .none, positions := [], cycle := 0, openingLiability := 0, batch := Batch.none, window := [], awaiting := [] }) ∧
    (s.posting = .idle → s.cardSlot = none → s.clearRun = .initialising → exec .initialisationComplete s = .next { s with
      settings := Settings.default
      configured := true, storeClearMark := false, clearRun := .none
      counters := { s.counters with strays := 0, lateConfirms := 0 }
      liability := 0, programs := [], cards := [], journal := [], writePos := ⟨0, 0, 0⟩, lanes := [], terms := [], pages := [],
      clearOp := .none, positions := [], cycle := 0, openingLiability := 0, batch := Batch.none, window := [], awaiting := [] })

/-! ### Ports and admission -/

/-- R170: the fate of a frame from the shop port, step by step, from a part out of reset on an UP port. R173 and R183: the fate
of a frame from the office port; that a frame of the gateway waits in a list of its own, without a bound, is the model's choice
(log 13). -/
def Obligations.FramesAreClassifiedInOrder : Prop :=
  (∀ (s : State) (f : Frame), s.inReset = false → s.shopLink = .up →
    (f.etherType ≠ BitVec.ofNat 16 s.settings.serviceType → exec (.shopFrameArrival f) s = .next (forwardToOffice f s)) ∧
    (f.etherType = BitVec.ofNat 16 s.settings.serviceType →
      (f.payload.length < 8 → exec (.shopFrameArrival f) s =
        .next { s with counters := { s.counters with headerDrops := bump s.counters.headerDrops } }) ∧
      (8 ≤ f.payload.length →
        (headerKind f ≠ 1 → exec (.shopFrameArrival f) s = .next (forwardToOffice f s)) ∧
        (headerKind f = 1 →
          (transactionCard (bodyOf f) = none → exec (.shopFrameArrival f) s = .next (answer .format f s)) ∧
          ∀ card, transactionCard (bodyOf f) = some card →
            (matchProgram (admissionPrograms s) card = none → exec (.shopFrameArrival f) s = .next (forwardToOffice f s)) ∧
            ∀ i, matchProgram (admissionPrograms s) card = some i →
              (laneOfStation s.lanes (headerSource f) = none →
                exec (.shopFrameArrival f) s = .next (answer .terminal f s)) ∧
              ∀ m l, laneOfStation s.lanes (headerSource f) = some (m, l) →
                (transactionKind f = none → exec (.shopFrameArrival f) s = .next (answer .format f s)) ∧
                ∀ kind, transactionKind f = some kind →
                  (8 ≤ s.ingress.length → exec (.shopFrameArrival f) s = .next (answer .late f s)) ∧
                  (s.ingress.length < 8 → exec (.shopFrameArrival f) s =
                    .next { s with ingress := s.ingress ++ [transactionRequest f kind card m l] }))))) ∧
  (∀ (s : State) (f : Frame), s.inReset = false → s.officeLink = .up →
    (f.etherType ≠ BitVec.ofNat 16 s.settings.serviceType → exec (.officeFrameArrival f) s = .next (forwardToShop f s)) ∧
    (f.etherType = BitVec.ofNat 16 s.settings.serviceType →
      (f.payload.length < 8 → exec (.officeFrameArrival f) s =
        .next { s with counters := { s.counters with headerDrops := bump s.counters.headerDrops } }) ∧
      (8 ≤ f.payload.length →
        (headerDestination f ≠ s.settings.engineStation → exec (.officeFrameArrival f) s = .next (forwardToShop f s)) ∧
        (headerDestination f = s.settings.engineStation →
          (headerSource f = s.settings.controllerStation → s.mgmtIn.length < 16 →
            exec (.officeFrameArrival f) s = .next { s with mgmtIn := s.mgmtIn ++ [f] }) ∧
          (headerSource f = s.settings.controllerStation → 16 ≤ s.mgmtIn.length →
            exec (.officeFrameArrival f) s =
              .next { s with counters := { s.counters with mgmtOverflow := bump s.counters.mgmtOverflow } }) ∧
          (headerSource f ≠ s.settings.controllerStation →
            (headerSource f = s.settings.gatewayStation →
              exec (.officeFrameArrival f) s = .next { s with gatewayIn := s.gatewayIn ++ [f] }) ∧
            (headerSource f ≠ s.settings.gatewayStation →
              exec (.officeFrameArrival f) s =
                .next { s with counters := { s.counters with foreignDrops := bump s.counters.foreignDrops } }))))))

/-- R171 and R174, R169: an admission answer takes a free place of the shop queue, a reserved place not being free, or is
dropped and counted, and the declines counter of its reason rises either way (an answer is formed for an arrival, so its port
is UP); a frame passed through takes a place of the forwarding queue, or is dropped at the tail, or dropped on a DOWN port.
R30 and R27: the Posting Unit's response takes the place reserved for it and raises the approvals counter, the partials counter
or the declines counter of its reason; on a DOWN port it is dropped, the same counter rises and the port's link-loss counter
(R169); either way the Posting Unit is IDLE. A counter goes up by 1 and is held at 2^32 - 1. Nothing else changes. -/
def Obligations.AnswersAndForwardedFramesAreQueuedOrCounted : Prop :=
  (∀ n : Nat, n ≤ 2 ^ 32 - 1 → bump n = min (n + 1) (2 ^ 32 - 1)) ∧
  (∀ (r : TillRequest) (outcome : TillOutcome) (c : Conditions) (grant : Nat) (view : CardView) (ref : Option JournalRef)
      (s : State),
    let counted := match outcome with
      | .approved => { s.counters with approvals := bump s.counters.approvals }
      | .partially => { s.counters with partials := bump s.counters.partials }
      | .declined reason => { s.counters with
          declines := s.counters.declines.write 0 reason.code (bump (s.counters.declines.read 0 reason.code)) }
    (s.shopLink = .up → placeResponse r outcome c grant view ref s = { s with
      posting := .idle
      shopOut := s.shopOut ++ [{
        frame := partFrame s.settings 2 r.source
          (responseBody r.kind.code outcome c r.sequence (cardBytes r.card) grant view ref), origin := .response }]
      counters := counted }) ∧
    (s.shopLink = .down → placeResponse r outcome c grant view ref s = { s with
      posting := .idle
      counters := { counted with shopLinkDrops := bump s.counters.shopLinkDrops } })) ∧
  (∀ (reason : DeclineReason) (f : Frame) (s : State),
    let counted := { s.counters with
      declines := s.counters.declines.write 0 reason.code (bump (s.counters.declines.read 0 reason.code)) }
    (s.shopLink = .up → shopPlaces s < 16 → answer reason f s = { s with
      shopOut := s.shopOut ++ [{ frame := answerFrame s.settings f reason, origin := .answer }]
      counters := counted }) ∧
    (s.shopLink = .up → 16 ≤ shopPlaces s → answer reason f s = { s with
      counters := { counted with shopFullDrops := bump s.counters.shopFullDrops } })) ∧
  (∀ (f : Frame) (s : State),
    (s.officeLink = .up → s.toOffice.length < 64 → forwardToOffice f s = { s with
      toOffice := s.toOffice ++ [f]
      counters := { s.counters with forwardedToOffice := bump s.counters.forwardedToOffice } }) ∧
    (s.officeLink = .up → 64 ≤ s.toOffice.length → forwardToOffice f s = { s with
      counters := { s.counters with droppedToOffice := bump s.counters.droppedToOffice } }) ∧
    (s.officeLink = .down → forwardToOffice f s = { s with
      counters := { s.counters with officeLinkDrops := bump s.counters.officeLinkDrops } }) ∧
    (s.shopLink = .up → s.toShop.length < 64 → forwardToShop f s = { s with
      toShop := s.toShop ++ [f]
      counters := { s.counters with forwardedToShop := bump s.counters.forwardedToShop } }) ∧
    (s.shopLink = .up → 64 ≤ s.toShop.length → forwardToShop f s = { s with
      counters := { s.counters with droppedToShop := bump s.counters.droppedToShop } }) ∧
    (s.shopLink = .down → forwardToShop f s = { s with
      counters := { s.counters with shopLinkDrops := bump s.counters.shopLinkDrops } }))

/-- R176: a port that is free to send sends the head of its engine egress queue, and the head of its forwarding queue only
where no engine frame waits. R157 and R175: the place that a departure frees in a full office queue goes to the oldest
instruction awaiting egress; its slot becomes TIMING with the confirmation timeout in force, and the others go on waiting. -/
def Obligations.EgressSendsEngineFramesAndPlacesInstructions : Prop :=
  (∀ s : State, s.inReset = false →
    (s.shopLink = .up →
      (∀ e rest, s.shopOut = e :: rest →
        exec (.frameEgress .shop) s = .next { s with shopOut := rest, out := s.out ++ [(.shop, e.frame)] }) ∧
      (∀ f rest, s.shopOut = [] → s.toShop = f :: rest →
        exec (.frameEgress .shop) s = .next { s with toShop := rest, out := s.out ++ [(.shop, f)] })) ∧
    (s.officeLink = .up →
      (∀ e rest, s.officeOut = e :: rest → s.awaiting = [] → exec (.frameEgress .office) s =
        .next { s with officeOut := rest, out := s.out ++ [(.office, e.frame)] }) ∧
      (∀ f rest, s.officeOut = [] → s.toOffice = f :: rest →
        exec (.frameEgress .office) s = .next { s with toOffice := rest, out := s.out ++ [(.office, f)] }))) ∧
  (∀ (s : State) (e : OutFrame) (rest : List OutFrame) (k : Nat) (ks : List Nat) (m : Nat) (f : Frame),
    s.inReset = false → s.officeLink = .up → s.officeOut = e :: rest → rest.length = 31 → s.awaiting = k :: ks →
    s.window.read .free k = .awaiting m f → k ∉ ks → (∀ j ∈ ks, ∃ m' f', s.window.read .free j = .awaiting m' f') →
    ∃ t, exec (.frameEgress .office) s = .next t ∧ t.out = s.out ++ [(.office, e.frame)] ∧
      t.officeOut = rest ++ [{ frame := f, origin := .instruction }] ∧ t.awaiting = ks ∧
      t.window.read .free k = .timing m s.settings.confirmationTimeout ∧
      (∀ j, j ≠ k → t.window.read .free j = s.window.read .free j) ∧
      t = { s with out := t.out, officeOut := t.officeOut, awaiting := ks, window := t.window })

/-- R169: a port that goes DOWN flushes both its queues, counting each frame; the place reserved by the Posting Unit stays;
the instructions awaiting egress are dropped and counted, their slots TIMING (R157), and every other slot stays. A port that
returns to UP starts with queues that hold no frame. That a change is seen in a reset too is the model's reading (log 25). -/
def Obligations.LinkChangesFlushTheQueues : Prop :=
  ∀ s : State,
    (s.shopLink = .up → exec (.linkDown .shop) s = .next { s with
      shopLink := .down, toShop := [], shopOut := []
      counters := { s.counters with
        shopLinkDrops := bumpBy (s.toShop.length + s.shopOut.length) s.counters.shopLinkDrops } }) ∧
    (s.officeLink = .up → ∃ t, exec (.linkDown .office) s = .next t ∧ t.officeLink = .down ∧ t.toOffice = [] ∧
      t.officeOut = [] ∧ t.awaiting = [] ∧
      (∀ k m f, k ∈ s.awaiting → s.window.read .free k = .awaiting m f →
        t.window.read .free k = .timing m s.settings.confirmationTimeout) ∧
      t = { s with
        officeLink := .down, toOffice := [], officeOut := [], awaiting := [], window := t.window, counters := t.counters } ∧
      (∀ k, k ∉ s.awaiting → t.window.read .free k = s.window.read .free k) ∧ (s.awaiting = [] → t.window = s.window) ∧
      (s.awaiting.Nodup → (∀ k ∈ s.awaiting, ∃ m f, s.window.read .free k = .awaiting m f) →
        t.counters = { s.counters with
          officeLinkDrops :=
            bumpBy (s.toOffice.length + s.officeOut.length + s.awaiting.length) s.counters.officeLinkDrops })) ∧
    (s.shopLink = .down → exec (.linkUp .shop) s = .next { s with shopLink := .up, toShop := [], shopOut := [] }) ∧
    (s.officeLink = .down → exec (.linkUp .office) s = .next { s with officeLink := .up, toOffice := [], officeOut := [] }) ∧
    (s.shopLink = .down → exec (.linkDown .shop) s = .next s) ∧ (s.officeLink = .down → exec (.linkDown .office) s = .next s) ∧
    (s.shopLink = .up → exec (.linkUp .shop) s = .next s) ∧ (s.officeLink = .up → exec (.linkUp .office) s = .next s)

/-! ### Management -/

/-- R183, R194 and R175, R169: a reply, and a notice with the next number, takes a place of the office queue, or is dropped and
counted as egress-full, or dropped on a DOWN port and counted there. Nothing else changes. -/
def Obligations.RepliesAndNoticesAreOfferedToTheOffice : Prop :=
  (∀ (code tag : Nat) (reason : ReplyReason) (block : List Byte) (s : State),
    (s.officeLink = .up → s.officeOut.length < 32 → sendReply code tag reason block s = { s with
      officeOut := s.officeOut ++ [{
        frame := partFrame s.settings 4 s.settings.controllerStation (replyBody code tag reason block), origin := .reply }] }) ∧
    (s.officeLink = .up → 32 ≤ s.officeOut.length → sendReply code tag reason block s = { s with
      counters := { s.counters with officeFullDrops := bump s.counters.officeFullDrops } }) ∧
    (s.officeLink = .down → sendReply code tag reason block s = { s with
      counters := { s.counters with officeLinkDrops := bump s.counters.officeLinkDrops } })) ∧
  (∀ (n : Notice) (s : State),
    (s.officeLink = .up → s.officeOut.length < 32 → handNotice n s = { s with
      noticeNumber := (s.noticeNumber + 1) % 65536
      officeOut := s.officeOut ++ [{
        frame := partFrame s.settings 5 s.settings.controllerStation (n.body ((s.noticeNumber + 1) % 65536)),
        origin := .notice }] }) ∧
    (s.officeLink = .up → 32 ≤ s.officeOut.length → handNotice n s = { s with
      noticeNumber := (s.noticeNumber + 1) % 65536
      counters := { s.counters with officeFullDrops := bump s.counters.officeFullDrops } }) ∧
    (s.officeLink = .down → handNotice n s = { s with
      noticeNumber := (s.noticeNumber + 1) % 65536
      counters := { s.counters with officeLinkDrops := bump s.counters.officeLinkDrops } }))

/-- R184, checks 3 and 4: while a STORE_CLEAR is in flight or a RESTART pending, every management request but READ_STATUS is
refused BUSY and changes nothing. R184, checks 1 and 2, and R201: a frame that is no management request is refused FORMAT, one
with an unknown code UNKNOWN, with the code and tag that its body holds. That these refusals carry no block, those of
WRITE_TERMS and WRITE_LANE included, is the model's reading (log 10). -/
def Obligations.TheCommonChecksRefuseInOrder : Prop :=
  (∀ (s : State) (r : Request) (tag : Nat) (t : State), RequestTaken s r tag t → r ≠ .readStatus →
    clearing s = true ∨ s.restartPending = true → exec r.command s = .next (sendReply r.code tag .busy [] t)) ∧
  (∀ (s : State) (f : Frame) (rest : List Frame), s.inReset = false → s.mgmtIn = f :: rest →
    (parseManagement f = .malformed → exec .unknownRequest s =
      .next (sendReply (echoedCode f) (echoedTag f) .format [] { s with mgmtIn := rest })) ∧
    (parseManagement f = .unknown → exec .unknownRequest s =
      .next (sendReply (echoedCode f) (echoedTag f) .unknown [] { s with mgmtIn := rest })))

/-- R186: SET_STATIONS, its two refusals, and its reply under the numbers as they stood; that the reply has the old service type
too is the model's reading (log 31). R187: SET_TIMING and its three refusals, and R185: LOCK_PRIVACY. R190, R182 and R192:
SET_MODE, RESTART and STORE_CLEAR; that SERVICE is refused STATE without a clock even where it is already in force (log 32), and
that the acceptance of a STORE_CLEAR keeps the occupied window slots (log 19), are the model's reading. -/
def Obligations.SettingsAndModeRequestsAreServed : Prop :=
  (∀ (s t : State) (e c g y tag : Nat), RequestDue s (.setStations e c g y) tag t →
    let ranged := 1 ≤ e ∧ e ≤ 65535 ∧ 1 ≤ c ∧ c ≤ 65535 ∧ 1 ≤ g ∧ g ≤ 65535 ∧ 0x0600 ≤ y ∧ y ≤ 0xFFFF
    (¬ranged → exec .setStations s = .next (sendReply 0x01 tag .range [] t)) ∧
    (ranged → e = c ∨ e = g → exec .setStations s = .next (sendReply 0x01 tag .conflict [] t)) ∧
    (ranged → e ≠ c → e ≠ g → exec .setStations s =
      .next { sendReply 0x01 tag .accepted [] t with
        settings := { s.settings with engineStation := e, controllerStation := c, gatewayStation := g, serviceType := y } })) ∧
  ((∀ (s t : State) (timeout offset tag : Nat), RequestDue s (.setTiming timeout offset) tag t →
    let ranged := 5 ≤ timeout ∧ timeout ≤ 3600 ∧ offset ≤ 86399
    let dayKept := ∀ now, timeOf s.clock = some now → (now - s.settings.rollOffset) / 86400 ≤ (now - offset) / 86400
    (¬ranged → exec .setTiming s = .next (sendReply 0x02 tag .range [] t)) ∧
    (ranged → offset ≠ s.settings.rollOffset → s.mode = .service →
      exec .setTiming s = .next (sendReply 0x02 tag .state [] t)) ∧
    (ranged → offset ≠ s.settings.rollOffset → s.mode = .maintenance → ¬dayKept →
      exec .setTiming s = .next (sendReply 0x02 tag .range [] t)) ∧
    (ranged → offset = s.settings.rollOffset ∨ (s.mode = .maintenance ∧ dayKept) → exec .setTiming s =
      .next (sendReply 0x02 tag .accepted []
        { t with settings := { s.settings with confirmationTimeout := timeout, rollOffset := offset } }))) ∧
  (∀ (s t : State) (tag : Nat), RequestDue s .lockPrivacy tag t → exec .lockPrivacy s =
    .next (sendReply 0x08 tag .accepted [] { t with settings := { s.settings with privacyLock := true } }))) ∧
  (∀ (s t : State) (mode tag : Nat), RequestDue s (.setMode mode) tag t →
    (2 ≤ mode → exec .setMode s = .next (sendReply 0x04 tag .range [] t)) ∧
    (mode = 0 → exec .setMode s = .next (sendReply 0x04 tag .accepted (beBytes 1 0) { t with mode := .maintenance })) ∧
    (mode = 1 → s.clock = .unset → exec .setMode s = .next (sendReply 0x04 tag .state [] t)) ∧
    (mode = 1 → s.clock ≠ .unset → exec .setMode s =
      .next (sendReply 0x04 tag .accepted (beBytes 1 1) { t with mode := .service }))) ∧
  (∀ (s t : State) (tag : Nat), RequestDue s .restart tag t → exec .restart s =
    .next (offerOffice .restartReply (partFrame s.settings 4 s.settings.controllerStation (replyBody 0x06 tag .accepted []))
      { t with restartPending := true })) ∧
  (∀ (s t : State) (tag : Nat), RequestDue s .storeClear tag t →
    (s.mode = .service → exec .storeClear s = .next (sendReply 0x07 tag .state [] t)) ∧
    (s.mode = .maintenance → exec .storeClear s = .next (sendReply 0x07 tag .accepted []
      { t with storeClearMark := true, clearRun := .accepted, awaiting := [] })))

/-- R188: SET_CLOCK by the clock's state and the value given. R189: a second, the end of a hold and a clock loss. That a
second on a hold of 0 counts as one after the hold's end is the model's reading (log 6), as are the codes of the clock's states
(log 11). -/
def Obligations.TheClockFollowsItsRequestsAndEvents : Prop :=
  (∀ (s t : State) (v tag : Nat), RequestDue s (.setClock v) tag t →
    (2 ^ 40 ≤ v → exec .setClock s = .next (sendReply 0x03 tag .range [] t)) ∧
    (v < 2 ^ 40 → s.clock = .unset → exec .setClock s =
      .next (sendReply 0x03 tag .accepted (beBytes 8 v ++ beBytes 1 1 ++ beBytes 4 0) { t with clock := .running v })) ∧
    (∀ now, v < 2 ^ 40 → timeOf s.clock = some now →
      (now ≤ v → exec .setClock s =
        .next (sendReply 0x03 tag .accepted (beBytes 8 v ++ beBytes 1 1 ++ beBytes 4 0) { t with clock := .running v })) ∧
      (v < now → now ≤ v + 300 → exec .setClock s =
        .next (sendReply 0x03 tag .accepted (beBytes 8 now ++ beBytes 1 2 ++ beBytes 4 (now - v))
          { t with clock := .holding now (now - v) })) ∧
      (v + 300 < now → exec .setClock s = .next (sendReply 0x03 tag .range [] t)))) ∧
  (∀ s : State, s.inReset = false →
    (∀ now, s.clock = .running now → now + 1 < 2 ^ 40 → exec .clockSecond s = .next { s with clock := .running (now + 1) }) ∧
    (s.clock = .running (2 ^ 40 - 1) → exec .clockSecond s = .next s) ∧
    (∀ now held, s.clock = .holding now (held + 1) → exec .clockSecond s = .next { s with clock := .holding now held }) ∧
    (∀ now, s.clock = .holding now 0 → exec .holdEnd s = .next { s with clock := .running now }) ∧
    (∀ now, s.clock = .holding now 0 → now + 1 < 2 ^ 40 → exec .clockSecond s = .next { s with clock := .running (now + 1) }) ∧
    (s.clock = .unset → exec .clockSecond s = .next s ∧ exec .holdEnd s = .next s) ∧
    exec .clockLoss s = .next { s with clock := .unset })

/-- R5, R77, R107, R112, R124, R144, R191: the reads reply and write nothing, in either engine mode; READ_STATUS also during
an erasure and while a RESTART is pending. The bytes of the blocks are those of R201 as logs 10 and 11 read it; that READ_STATUS
shows 'STORE_CLEAR in flight' set during the first-start initialisation is the model's reading (log 16). -/
def Obligations.ReadsReplyAndWriteNothing : Prop :=
  (∀ (s t : State) (index tag : Nat), RequestDue s (.readProgram index) tag t →
    (index < 16 → exec .readProgram s = .next (sendReply 0x11 tag .accepted (programBlock (programAt s index)) t)) ∧
    (16 ≤ index → exec .readProgram s = .next (sendReply 0x11 tag .range [] t))) ∧
  (∀ (s t : State) (r : JournalRef) (tag : Nat), RequestDue s (.readJournal r) tag t →
    (refInRange r = false → exec .readJournal s = .next (sendReply 0x27 tag .range [] t)) ∧
    (refInRange r = true →
      (∀ e, entryAt s r = some e → e.lap = r.lap →
        exec .readJournal s = .next (sendReply 0x27 tag .accepted (entryBlock s.settings.privacyLock e) t)) ∧
      ((∀ e, entryAt s r = some e → e.lap ≠ r.lap) → exec .readJournal s = .next (sendReply 0x27 tag .notFound [] t)))) ∧
  (∀ (s t : State) (m tag : Nat), RequestDue s (.readTerms m) tag t →
    (m < 512 → exec .readTerms s = .next (sendReply 0x31 tag .accepted
      (termsBytes (termsOf s m) ++ beBytes 1 (m / 32) ++ beBytes 1 (pageAt s (m / 32)).code) t)) ∧
    (512 ≤ m → exec .readTerms s = .next (sendReply 0x31 tag .range [] t))) ∧
  (∀ (s t : State) (m l tag : Nat), RequestDue s (.readLane m l) tag t →
    (m < 512 → l < 8 → exec .readLane s = .next (sendReply 0x36 tag .accepted (laneBlock (laneAt s m l)) t)) ∧
    (512 ≤ m ∨ 8 ≤ l → exec .readLane s = .next (sendReply 0x36 tag .range [] t))) ∧
  (∀ (s t : State) (m tag : Nat), RequestDue s (.readPosition m) tag t →
    (m < 512 → exec .readPosition s = .next (sendReply 0x42 tag .accepted (positionBlock (positionAt s m) s.cycle) t)) ∧
    (512 ≤ m → exec .readPosition s = .next (sendReply 0x42 tag .range [] t))) ∧
  (∀ (s t : State) (n tag : Nat), RequestDue s (.readBatch n) tag t →
    (512 ≤ n → n ≠ 0xFFFF → exec .readBatch s = .next (sendReply 0x43 tag .range [] t)) ∧
    (n < 512 → s.batch.state = .empty → exec .readBatch s = .next (sendReply 0x43 tag .state [] t)) ∧
    (n < 512 → s.batch.state ≠ .empty →
      (∀ r, s.batch.records[n]? = some r → exec .readBatch s =
        .next (sendReply 0x43 tag .accepted (batchHeader s.batch ++ recordBlock r) t)) ∧
      (s.batch.records.length ≤ n → exec .readBatch s = .next (sendReply 0x43 tag .notFound [] t))) ∧
    (n = 0xFFFF →
      (s.batch.state = .empty ∨ s.batch.state = .computing → exec .readBatch s = .next (sendReply 0x43 tag .state [] t)) ∧
      (s.batch.state ≠ .empty → s.batch.state ≠ .computing → ∀ totals, s.batch.trailer = some totals →
        exec .readBatch s =
          .next (sendReply 0x43 tag .accepted (batchHeader s.batch ++ trailerBlock totals s.batch.cycle) t)))) ∧
  (∀ (s t : State) (tag : Nat), RequestTaken s .readStatus tag t →
    exec .readStatus s = .next (sendReply 0x05 tag .accepted (statusBlock t) t))

/-! ### Programs, terms, pages and lanes -/

/-- R3 and R4: WRITE_PROGRAM is refused STATE, RANGE or CONFLICT by the checks of R3 in their order, or replaces the whole entry
and keeps its live-card count; an ISSUE in hand on the entry counts as a live card. R110: WRITE_LANE, accepted and refused; the
lane written loses its last record. The model's reading (log 10): the bytes of the blocks, RANGE for a yes-or-no byte of 2 or
more, and no block for a lane that does not exist. -/
def Obligations.ProgramAndLaneWritesReplaceTheRecord : Prop :=
  (∀ (s t : State) (w : ProgramWrite) (tag : Nat), RequestDue s (.writeProgram w) tag t →
    let stored := programAt s w.index
    let inRange := w.state ≤ 2 ∧ w.renew ≤ 1 ∧ w.topup ≤ 1 ∧ 10000000 ≤ w.prefixLow ∧ w.prefixLow ≤ w.prefixHigh ∧
      w.prefixHigh ≤ 99999999 ∧ 1 ≤ w.ceiling ∧ w.ceiling ≤ 10000000 ∧ 1 ≤ w.issueMinimum ∧ w.issueMinimum ≤ w.ceiling ∧
      w.expiryDays ≤ 3650 ∧ w.dailyCap ≤ w.ceiling ∧ w.lowThreshold ≤ w.ceiling ∧ 1 ≤ w.holdLimit ∧ w.holdLimit ≤ 4 ∧
      1 ≤ w.holdHours ∧ w.holdHours ≤ 720
    let overlaps := ∃ i, i < 16 ∧ i ≠ w.index ∧ (programAt s i).state ≠ .empty ∧
      w.prefixLow ≤ (programAt s i).prefixHigh ∧ (programAt s i).prefixLow ≤ w.prefixHigh
    let live := stored.live ≠ 0 ∨ ∃ h, s.posting = .till h ∧ h.liveChange = .rise ∧ h.program = w.index
    let keeps := w.prefixLow = stored.prefixLow ∧ w.prefixHigh = stored.prefixHigh ∧ stored.ceiling ≤ w.ceiling
    let refuses := fun reason => exec .writeProgram s = .next (sendReply 0x10 tag reason [] t)
    (s.mode = .service → refuses .state) ∧
    (s.mode = .maintenance →
      (16 ≤ w.index → refuses .range) ∧
      (w.index < 16 →
        (w.state ≠ 0 → ¬inRange → refuses .range) ∧
        (w.state ≠ 0 → inRange → overlaps → refuses .conflict) ∧
        (w.state = 0 → live → refuses .conflict) ∧
        (w.state ≠ 0 → inRange → ¬overlaps → live → ¬keeps → refuses .conflict) ∧
        ((w.state = 0 ∧ ¬live) ∨ (w.state ≠ 0 ∧ inRange ∧ ¬overlaps ∧ (live → keeps)) →
          ∃ p, exec .writeProgram s = .next (sendReply 0x10 tag .accepted (programBlock p)
              { t with programs := s.programs.write Program.blank w.index p }) ∧
            p.live = stored.live ∧
            (w.state = 0 → p = { Program.blank with live := stored.live }) ∧
            (w.state ≠ 0 → p = {
              state := if w.state = 1 then .opened else .closed, prefixLow := w.prefixLow, prefixHigh := w.prefixHigh,
              ceiling := w.ceiling, issueMinimum := w.issueMinimum, expiryDays := w.expiryDays,
              renewOnTopup := decide (w.renew = 1), dailyCap := w.dailyCap, lowThreshold := w.lowThreshold,
              holdLimit := w.holdLimit, holdHours := w.holdHours, topupPermitted := decide (w.topup = 1),
              live := stored.live }))))) ∧
  (∀ (s t : State) (m l en st tag : Nat), RequestDue s (.writeLane m l en st) tag t →
    (512 ≤ m ∨ 8 ≤ l → exec .writeLane s = .next (sendReply 0x35 tag .range [] t)) ∧
    (m < 512 → l < 8 →
      (2 ≤ en ∨ (st = 0 ∧ en = 1) →
        exec .writeLane s = .next (sendReply 0x35 tag .range (laneBlock (laneAt s m l)) t)) ∧
      (en ≤ 1 → st ≠ 0 → stationTaken s.lanes (m * 8 + l) st = true →
        exec .writeLane s = .next (sendReply 0x35 tag .conflict (laneBlock (laneAt s m l)) t)) ∧
      (en ≤ 1 → st = 0 ∧ en = 0 ∨ st ≠ 0 ∧ stationTaken s.lanes (m * 8 + l) st = false →
        exec .writeLane s = .next (sendReply 0x35 tag .accepted (laneBlock ⟨st, decide (en = 1), none⟩)
          { t with lanes := s.lanes.write Lane.unassigned (m * 8 + l) ⟨st, decide (en = 1), none⟩ }))))

/-- R96, R98, R99 and R100: a WRITE_TERMS is refused RANGE, BUSY, TORN, RANGE, FIXED or LOOSENING in that order and changes
nothing; an accepted one replaces the merchant's entry and no other. On a FIXED page only a state that moves forward may differ;
on an OPEN page a written entry may only tighten. The bytes of the block, and that a merchant that does not exist has none, are
the model's reading (log 10). -/
def Obligations.WriteTermsReplacesTheEntry : Prop :=
  ∀ (s t : State) (w : TermsWrite) (tag : Nat), RequestDue s (.writeTerms w) tag t →
    let page := pageAt s (w.merchant / 32)
    let stored := termsOf s w.merchant
    let written : Terms := {
      state := if w.state = 1 then .enrolled else if w.state = 2 then .suspended else .withdrawn
      maySell := w.maySell, mayRefund := w.mayRefund, discount := w.discount, commission := w.commission, charge := w.charge,
      minPayout := w.minPayout, debitLimit := w.debitLimit, returnWindow := w.returnWindow, tolerance := w.tolerance, tier := w.tier,
      payee := w.payee }
    let inRange := 1 ≤ w.state ∧ w.state ≤ 3 ∧ w.discount ≤ 1500 ∧ w.commission ≤ 1000 ∧ w.charge ≤ 500 ∧
      w.minPayout ≤ 1000000 ∧ w.debitLimit ≤ 100000000 ∧ w.returnWindow ≤ 365 ∧ w.tolerance ≤ 30 ∧ w.tier ≤ 3
    let forward := stored.state = .enrolled ∨ (stored.state = .suspended ∧ 2 ≤ w.state) ∨
      (stored.state = .withdrawn ∧ 3 ≤ w.state)
    let agrees := { written with state := stored.state } = stored
    let tightens := forward ∧ (w.maySell = true → stored.maySell = true) ∧ (w.mayRefund = true → stored.mayRefund = true) ∧
      w.debitLimit ≤ stored.debitLimit ∧ w.returnWindow ≤ stored.returnWindow ∧ w.tolerance ≤ stored.tolerance ∧
      stored.minPayout ≤ w.minPayout ∧ w.discount = stored.discount ∧ w.commission = stored.commission ∧
      w.charge = stored.charge ∧ w.tier = stored.tier ∧ w.payee = stored.payee
    let refuses := fun reason => exec .writeTerms s = .next (sendReply 0x30 tag reason (termsBlock s w.merchant) t)
    (512 ≤ w.merchant → refuses .range) ∧
    (w.merchant < 512 →
      (page = .clearing → refuses .busy) ∧ (page = .torn → refuses .torn) ∧
      (page = .opened ∨ page = .fixed →
        (¬inRange → refuses .range) ∧
        (inRange → page = .fixed → ¬(agrees ∧ forward) → refuses .fixed) ∧
        (inRange → page = .opened → stored.state ≠ .unenrolled → ¬tightens → refuses .loosening) ∧
        (inRange → (page = .fixed ∧ agrees ∧ forward) ∨ (page = .opened ∧ (stored.state = .unenrolled ∨ tightens)) →
          ∃ u, exec .writeTerms s = .next (sendReply 0x30 tag .accepted (termsBlock u w.merchant) u) ∧
            u = { t with terms := s.terms.write Terms.unenrolled w.merchant written } ∧
            termsOf u w.merchant = written ∧ ∀ m, m ≠ w.merchant → termsOf u m = termsOf s m)))

/-- R101, R104 and R105: CLEAR_PAGE, FIX_PAGE and CLEAR_DIRECTORY, accepted and refused. R102 and R106: the completion of a
page clear and of a directory clear, with their notices. -/
def Obligations.PageRequestsAndCompletionsMoveThePages : Prop :=
  ((∀ (s t : State) (p tag : Nat), RequestDue s (.clearPage p) tag t →
    (16 ≤ p → exec .clearPage s = .next (sendReply 0x32 tag .range [] t)) ∧
    (p < 16 → s.clearOp ≠ .none → exec .clearPage s = .next (sendReply 0x32 tag .busy [] t)) ∧
    (p < 16 → s.clearOp = .none → pageAt s p = .fixed → exec .clearPage s = .next (sendReply 0x32 tag .fixed [] t)) ∧
    (p < 16 → s.clearOp = .none → pageAt s p ≠ .fixed → s.batch.state = .computing →
      exec .clearPage s = .next (sendReply 0x32 tag .busy [] t)) ∧
    (p < 16 → s.clearOp = .none → pageAt s p ≠ .fixed → s.batch.state ≠ .computing →
      exec .clearPage s = .next (sendReply 0x32 tag .accepted (beBytes 1 1)
        { t with pages := s.pages.write .opened p .clearing, clearOp := .page p }))) ∧
  (∀ (s t : State) (p tag : Nat), RequestDue s (.fixPage p) tag t →
    (16 ≤ p → exec .fixPage s = .next (sendReply 0x33 tag .range [] t)) ∧
    (p < 16 → pageAt s p = .clearing → exec .fixPage s = .next (sendReply 0x33 tag .busy [] t)) ∧
    (p < 16 → pageAt s p = .torn → exec .fixPage s = .next (sendReply 0x33 tag .torn [] t)) ∧
    (p < 16 → pageAt s p = .fixed → exec .fixPage s = .next (sendReply 0x33 tag .fixed [] t)) ∧
    (p < 16 → pageAt s p = .opened → exec .fixPage s =
      .next (sendReply 0x33 tag .accepted (beBytes 1 3) { t with pages := s.pages.write .opened p .fixed }))) ∧
  (∀ (s t : State) (tag : Nat), RequestDue s .clearDirectory tag t →
    (s.clearOp ≠ .none → exec .clearDirectory s = .next (sendReply 0x34 tag .busy [] t)) ∧
    (s.clearOp = .none →
      (s.mode = .maintenance ∧ (s.batch.state = .empty ∨ s.batch.state = .settled) ∧
          (∀ e ∈ s.positions, e.2.current = Bank.zero ∧ e.2.carry = 0) →
        ∃ u, exec .clearDirectory s = .next (sendReply 0x34 tag .accepted [] { t with pages := u, clearOp := .directory }) ∧
          ∀ p, p < 16 → u.read .opened p = .clearing) ∧
      (¬(s.mode = .maintenance ∧ (s.batch.state = .empty ∨ s.batch.state = .settled) ∧
          (∀ e ∈ s.positions, e.2.current = Bank.zero ∧ e.2.carry = 0)) →
        exec .clearDirectory s = .next (sendReply 0x34 tag .conflict [] t))))) ∧
  (∀ s : State, s.inReset = false → clearing s = false →
    (∀ p, s.clearOp = .page p → ∃ u, exec .pageClearCompletion s = .next (handNotice (.pageCleared p) u) ∧
      u = { s with terms := u.terms, pages := s.pages.write .opened p .opened, clearOp := .none } ∧
      ∀ m, u.terms.read Terms.unenrolled m =
        if m / 32 = p then Terms.unenrolled else s.terms.read Terms.unenrolled m) ∧
    (s.clearOp = .directory → exec .directoryClearCompletion s =
      .next (handNotices ((List.range 16).map .pageCleared) { s with terms := [], pages := [], clearOp := .none })))

/-- R95 and R99: a FIXED page stays FIXED under every command but an accepted CLEAR_DIRECTORY and the completion of an
erasure, and no field of its entries but a state that moves forward changes. -/
def Obligations.FixedPagesStayFixed : Prop :=
  ∀ (c : Instr) (s t : State), clearsStandOnClearingPages s → exec c s = .next t →
    c ≠ .clearDirectory → c ≠ .storeClearCompletion → c ≠ .initialisationComplete →
    ∀ p, p < 16 → pageAt s p = .fixed → pageAt t p = .fixed ∧ ∀ m, m / 32 = p → heldFixed (termsOf s m) (termsOf t m)

/-! ### Management card requests -/

/-- R17: a card request is placed in the empty card slot, and refused BUSY where the slot holds one. R17: a card request whose
number fails the common tests is refused, as is one the erasure finds in the slot (R33), and nothing is written. MOVE_BALANCE,
which tests the clock and its two numbers first (R23), has its own statement. -/
def Obligations.CardRequestsWaitInOneSlotAndAreRefusedInOrder : Prop :=
  (∀ (s t : State) (op : CardOp) (n tag : Nat), RequestDue s (.card op n) tag t →
    (s.cardSlot = none → exec .cardSlotPlacement s = .next { t with cardSlot := some ⟨op, n, tag⟩ }) ∧
    (s.cardSlot ≠ none → exec .cardSlotPlacement s = .next (sendReply op.code tag .busy [] t))) ∧
  (∀ (s : State) (q : CardRequest), s.inReset = false → s.posting = .idle → s.cardSlot = some q →
    (clearing s = true → exec q.op.command s = .next (cardAnswer q .busy [] s)) ∧
    (clearing s = false → (∀ d, q.op ≠ .move d) →
      (sixteenDigits q.card = false → exec q.op.command s = .next (cardAnswer q .format [] s)) ∧
      (sixteenDigits q.card = true → passesCheck q.card = false → exec q.op.command s = .next (cardAnswer q .range [] s)) ∧
      (sixteenDigits q.card = true → passesCheck q.card = true → lookupCard s q.card = none →
        exec q.op.command s = .next (cardAnswer q .notFound [] s))))

/-- R18 to R22 on a card found: READ_CARD shows it; SUSPEND_CARD, RESUME_CARD, RETIRE_CARD and EXTEND_CARD write it with its
expired holds removed, or are refused; PURGE_CARD empties the slot of a RETIRED card. The model's reading: EXTEND_CARD on a
RETIRED card is refused STATE whatever its day is (log 27), the bytes of the blocks and the empty block of PURGE_CARD (log
10). -/
def Obligations.CardRequestsActOnTheCardFound : Prop :=
  ∀ (s : State) (q : CardRequest) (k : Nat) (c : CardRecord), CardDue s q → sixteenDigits q.card = true →
    passesCheck q.card = true → lookupCard s q.card = some (k, c) →
    let held := c.holds.filter fun h => !holdExpired (timeOf s.clock) h
    (q.op = .read → exec .readCard s = .next (cardAnswer q .accepted (cardBlock s k c) s)) ∧
    (q.op = .suspend →
      (c.state = .active → exec .suspendCard s = .next (cardAnswer q .accepted
        (cardBlock s k { c with state := .suspended, holds := held })
        { s with cards := s.cards.write none k (some { c with state := .suspended, holds := held }) })) ∧
      (c.state ≠ .active → exec .suspendCard s = .next (cardAnswer q .state [] s))) ∧
    (q.op = .resume →
      (c.state = .suspended → exec .resumeCard s = .next (cardAnswer q .accepted
        (cardBlock s k { c with state := .active, holds := held })
        { s with cards := s.cards.write none k (some { c with state := .active, holds := held }) })) ∧
      (c.state ≠ .suspended → exec .resumeCard s = .next (cardAnswer q .state [] s))) ∧
    (q.op = .retire →
      (c.state ≠ .retired → c.balance = 0 → held = [] → exec .retireCard s = .next (cardAnswer q .accepted
        (cardBlock s k { c with state := .retired, holds := [] })
        { s with
          cards := s.cards.write none k (some { c with state := .retired, holds := [] })
          programs := s.programs.write Program.blank c.program
            { programAt s c.program with live := (programAt s c.program).live - 1 } })) ∧
      (c.state ≠ .retired → c.balance ≠ 0 ∨ held ≠ [] → exec .retireCard s = .next (cardAnswer q .conflict [] s)) ∧
      (c.state = .retired → exec .retireCard s = .next (cardAnswer q .state [] s))) ∧
    (q.op = .purge →
      (c.state = .retired → exec .purgeCard s =
        .next (cardAnswer q .accepted [] { s with cards := s.cards.write none k none })) ∧
      (c.state ≠ .retired → exec .purgeCard s = .next (cardAnswer q .state [] s))) ∧
    (∀ day, q.op = .extend day →
      (c.state = .retired → exec .extendCard s = .next (cardAnswer q .state [] s)) ∧
      (c.state ≠ .retired → day ≤ 16777215 → (day = 0 ∨ (c.expiryDay ≠ 0 ∧ c.expiryDay ≤ day)) →
        exec .extendCard s = .next (cardAnswer q .accepted (cardBlock s k { c with expiryDay := day, holds := held })
          { s with cards := s.cards.write none k (some { c with expiryDay := day, holds := held }) })) ∧
      (c.state ≠ .retired → 16777215 < day ∨ (day ≠ 0 ∧ (c.expiryDay = 0 ∨ day < c.expiryDay)) →
        exec .extendCard s = .next (cardAnswer q .range [] s)))

/-- R23: an accepted MOVE_BALANCE moves the free amount of a SUSPENDED card to an ACTIVE one in one write with a MOVE entry,
and changes neither the liability counter nor a position; its reply carries the amount, both records and the reference of the
entry; a MOVE_BALANCE that a check refuses writes nothing. The bytes of the reply, and that the source stands first in it, are
the model's reading (log 10). -/
def Obligations.MoveBalanceMovesTheFreeAmount : Prop :=
  ∀ (s : State) (q : CardRequest) (number : Nat), CardDue s q → q.op = .move number →
    (s.clock = .unset → exec .moveBalance s = .next (cardAnswer q .state [] s)) ∧
    (∀ now, timeOf s.clock = some now →
      (q.card = number → exec .moveBalance s = .next (cardAnswer q .conflict [] s)) ∧
      (q.card ≠ number → ∀ reason, requestedCard s q.card = .error reason →
        exec .moveBalance s = .next (cardAnswer q reason [] s)) ∧
      (q.card ≠ number → ∀ k c, requestedCard s q.card = .ok (k, c) →
        (c.state ≠ .suspended → exec .moveBalance s = .next (cardAnswer q .state [] s)) ∧
        (c.state = .suspended → ∀ reason, requestedCard s number = .error reason →
          exec .moveBalance s = .next (cardAnswer q reason [] s)) ∧
        (c.state = .suspended → ∀ j d, requestedCard s number = .ok (j, d) →
          let free := freeAmount (some now) c
          (d.state ≠ .active ∨ cardExpired (some now) (today s) d = true →
            exec .moveBalance s = .next (cardAnswer q .state [] s)) ∧
          (d.state = .active → cardExpired (some now) (today s) d = false →
            (free = 0 → exec .moveBalance s = .next (cardAnswer q .range [] s)) ∧
            (1 ≤ free → (programAt s d.program).ceiling < d.balance + free →
              exec .moveBalance s = .next (cardAnswer q .ceiling [] s)) ∧
            (1 ≤ free → d.balance + free ≤ (programAt s d.program).ceiling →
              let source := { c with
                holds := liveHolds (some now) c.holds, balance := c.balance - free, lastDay := today s }
              let destination := { d with
                holds := liveHolds (some now) d.holds, balance := d.balance + free, lastDay := today s }
              ∃ t, exec .moveBalance s = .next t ∧ cardAt t k = some source ∧ cardAt t j = some destination ∧
                (∀ i, i ≠ k → i ≠ j → cardAt t i = cardAt s i) ∧
                entryAt t s.writePos = some {
                  lap := s.writePos.lap, kind := .move, card := some c.number, merchant := none, lane := none,
                  amount := (free : Nat), day := today s, cycle := s.cycle, remaining := none, cancelled := false,
                  link := none, secondCard := some d.number } ∧
                (∀ p, p ≠ positionOf s.writePos → t.journal.read none p = s.journal.read none p) ∧
                t = cardAnswer q .accepted
                  (moneyBytes (free : Nat) ++ cardBlock s k source ++ cardBlock s j destination ++ refBytes s.writePos)
                  { s with cards := t.cards, journal := t.journal, writePos := advance s.writePos })))))

/-! ### Till requests -/

/-- R31 to R35, R59, R79 and R85, steps 1 to 10 of the check order. Steps 1 to 5, for every kind: the first test that fails
declines the request with its reason, and the response shows no card. Steps 6 to 10, for every kind but ISSUE: the request is
declined NO_CARD where the lookup finds no record or a RETIRED one, and then CARD_STATE, EXPIRED or MERCHANT by the first test
that fails, the response showing the card; where none fails, the kind's own tests follow. Nothing is written. -/
def Obligations.TheCheckOrderDeclinesInOrder : Prop :=
  ∀ (s : State) (r : TillRequest) (t : State), TillDue s r t →
    let inRange := r.kind.carriesAmount = true → 1 ≤ r.amount ∧ r.amount ≤ 9999999
    let admitted := clearing s = false ∧ (s.mode = .service ∨ (r.kind = .ask ∧ s.clock ≠ .unset))
    let terms := termsOf s r.merchant
    let declines := fun (reason : DeclineReason) => exec r.kind.command s =
      .next (placeResponse r (.declined reason) { z := false, s := r.kind.carriesAmount, x := false, d := false, l := false } 0
        { balance := 0, free := 0, expiry := 0 } none t)
    (¬inRange → declines .amount) ∧
    (inRange → passesCheck r.card = false → declines .checkDigit) ∧
    (inRange → passesCheck r.card = true → matchProgram s.programs r.card = none → declines .noCard) ∧
    (inRange → passesCheck r.card = true → matchProgram s.programs r.card ≠ none → ¬admitted → declines .outOfService) ∧
    (inRange → passesCheck r.card = true → matchProgram s.programs r.card ≠ none → admitted → s.clock = .unset →
      declines .noClock) ∧
    (inRange → passesCheck r.card = true → matchProgram s.programs r.card ≠ none → admitted → s.clock ≠ .unset →
      r.kind ≠ .issue →
      (lookupCard s r.card = none → declines .noCard) ∧
      ∀ k c, lookupCard s r.card = some (k, c) →
        let stateBars := c.state = .suspended ∧ r.kind ∈ [.topup, .spend, .reserve, .returnReq, .cancel, .tryReq]
        let expiryBars := (c.expiryDay ≠ 0 ∧ c.expiryDay < today s) ∧ r.kind ∈ [.topup, .spend, .reserve, .returnReq, .tryReq]
        let termsBar := terms.state = .unenrolled ∨ (terms.state ≠ .enrolled ∧ r.kind ≠ .ask ∧ r.kind ≠ .free)
        let flagBars := (r.kind = .topup ∧ terms.maySell = false) ∨ (r.kind = .returnReq ∧ terms.mayRefund = false)
        let shows := fun (reason : DeclineReason) => exec r.kind.command s =
          .next (placeResponse r (.declined reason)
            { z := decide (c.balance = 0), s := r.kind.carriesAmount, x := false, d := false, l := false } 0
            { balance := c.balance, free := freeAmount (timeOf s.clock) c, expiry := c.expiryDay } none t)
        (c.state = .retired → declines .noCard) ∧
        (c.state ≠ .retired →
          (stateBars → shows .cardState) ∧ (¬stateBars → expiryBars → shows .expired) ∧
          (¬stateBars → ¬expiryBars → termsBar ∨ flagBars → shows .merchant) ∧
          (¬stateBars → ¬expiryBars → ¬termsBar → ¬flagBars → PassesHead s r k c)))

/-- Steps 9 to 11 of ISSUE (R39) and step 11 of every other kind on a card that passes the common head: TOPUP (R41), SPEND and
TRY (R43, R44, R48), RESERVE (R61 to R63), CLAIM (R65 to R67), FREE (R69), RETURN (R79 to R82) and CANCEL (R86, R87). The
first test that fails declines the request with its reason, nothing is written, and the response shows the card as it was
read, or none for an ISSUE (R36, R38). What a list of limits decides is `GrantsFollowTheLimits`. That a CANCEL whose reference
names an empty position is AGED, and one of a kind with no condition is blocked, is the model's reading (log 22), as is a
RETURN of an original of a later day (log 21). -/
def Obligations.EachKindDeclinesAtItsOwnTests : Prop :=
  (∀ (s : State) (r : TillRequest) (t : State) (i : Nat), TillDue s r t → r.kind = .issue → 1 ≤ r.amount → r.amount ≤ 9999999 →
    passesCheck r.card = true → matchProgram s.programs r.card = some i → clearing s = false → s.mode = .service →
    s.clock ≠ .unset →
    let p := programAt s i
    let sells := (termsOf s r.merchant).state = .enrolled ∧ (termsOf s r.merchant).maySell = true
    let declines := fun (reason : DeclineReason) => exec .issue s = .next (placeResponse r (.declined reason)
      { z := false, s := true, x := decide (reason = .ceiling), d := false, l := false } 0
      { balance := 0, free := 0, expiry := 0 } none t)
    (¬sells → declines .merchant) ∧
    (sells → p.state ≠ .opened → declines .program) ∧
    (sells → p.state = .opened →
      (r.amount < p.issueMinimum → declines .amount) ∧
      (p.issueMinimum ≤ r.amount → p.ceiling < r.amount → declines .ceiling) ∧
      (p.issueMinimum ≤ r.amount → r.amount ≤ p.ceiling →
        (lookupCard s r.card ≠ none → declines .cardState) ∧
        (lookupCard s r.card = none → (∀ k ∈ probeWindow r.card, cardAt s k ≠ none) → declines .tableFull)))) ∧
  (∀ (s : State) (r : TillRequest) (t : State) (k : Nat) (c : CardRecord), TillDue s r t → PassesHead s r k c →
    let p := programAt s c.program
    let now := timeOf s.clock
    let free := freeAmount now c
    let cap := if p.dailyCap = 0 then [] else
      [(DeclineReason.dayCap, p.dailyCap - (if c.spendDay = today s then c.daySpend else 0))]
    let declines := fun (reason : DeclineReason) => exec r.kind.command s =
      .next (placeResponse r (.declined reason)
        { z := decide (c.balance = 0), s := r.kind.carriesAmount, x := decide (reason = .ceiling), d := decide (reason = .dayCap),
          l := false } 0
        { balance := c.balance, free := free, expiry := c.expiryDay } none t)
    (r.kind = .topup →
      (p.topupPermitted = false → declines .program) ∧
      (p.topupPermitted = true → ∀ x, decideGrant r.amount r.mayCut [(.ceiling, p.ceiling - c.balance)] = .error x →
        declines x)) ∧
    (r.kind = .spend ∨ r.kind = .tryReq → ∀ x, decideGrant r.amount r.mayCut ((.funds, free) :: cap) = .error x →
      declines x) ∧
    (r.kind = .reserve →
      (p.holdLimit ≤ (liveHolds now c.holds).length → declines .holdLimit) ∧
      ((liveHolds now c.holds).length < p.holdLimit → ∀ x, decideGrant r.amount r.mayCut [(.funds, free)] = .error x →
        declines x)) ∧
    (r.kind = .claim →
      (∀ h, c.holds.find? (fun h => decide (h.reference = r.reference)) = some h →
        (h.merchant ≠ r.merchant → declines .noRef) ∧
        (h.merchant = r.merchant → holdExpired now h = true → declines .expired) ∧
        (h.merchant = r.merchant → holdExpired now h = false →
          let most := if c.state = .active then h.amount + h.amount * (termsOf s r.merchant).tolerance / 100 else h.amount
          ∀ x, decideGrant r.amount r.mayCut ((.overHold, most) :: (.funds, free + h.amount) :: cap) = .error x →
            declines x)) ∧
      ((∀ h ∈ c.holds, h.reference ≠ r.reference) →
        (entryAt s r.reference = none → declines .noRef) ∧
        ∀ e, entryAt s r.reference = some e →
          let unfinished := e.kind = .reserve ∧ e.card = some r.card ∧ e.merchant = some r.merchant ∧ e.link = none
          (e.lap ≠ r.reference.lap → declines .aged) ∧
          (e.lap = r.reference.lap → unfinished → declines .expired) ∧
          (e.lap = r.reference.lap → ¬unfinished → declines .noRef))) ∧
    (r.kind = .free →
      (∀ h ∈ c.holds, h.reference = r.reference → h.merchant = r.merchant → holdExpired now h = true) → declines .noRef) ∧
    (r.kind = .returnReq →
      (entryAt s r.reference = none → declines .noRef) ∧
      ∀ e, entryAt s r.reference = some e →
        let fits := (e.kind = .spend ∨ e.kind = .claim) ∧ e.card = some r.card ∧ e.merchant = some r.merchant ∧
          e.cancelled = false ∧ c.issueDay ≤ e.day
        let window := (termsOf s r.merchant).returnWindow
        (e.lap ≠ r.reference.lap → declines .aged) ∧
        (e.lap = r.reference.lap →
          (¬fits → declines .noRef) ∧
          (fits → window = 0 ∨ e.day + window < today s → declines .returnWindow) ∧
          (fits → 1 ≤ window → today s ≤ e.day + window →
            ∀ x, decideGrant r.amount r.mayCut
              [(.returnExcess, e.remaining.getD 0), (.ceiling, p.ceiling - c.balance)] = .error x → declines x))) ∧
    (r.kind = .cancel →
      ((∀ l, (laneAt s r.merchant r.lane).last = some l → l.sequence ≠ r.cancelSequence) → declines .cancelMismatch) ∧
      ∀ l, (laneAt s r.merchant r.lane).last = some l → l.sequence = r.cancelSequence →
        ((∀ e, entryAt s l.reference = some e → e.lap ≠ l.reference.lap) → declines .aged) ∧
        ∀ e, entryAt s l.reference = some e → e.lap = l.reference.lap →
          let a := e.amount.toNat
          let undoable := (e.kind = .issue ∧ c.balance = a ∧ liveHolds now c.holds = []) ∨
            ((e.kind = .topup ∨ e.kind = .returnReq) ∧ a ≤ free) ∨
            ((e.kind = .spend ∨ e.kind = .claim) ∧ e.remaining.getD 0 = a ∧ c.balance + a ≤ p.ceiling)
          (e.card ≠ some r.card → declines .cancelMismatch) ∧
          (e.card = some r.card → l.day ≠ today s → declines .cancelWindow) ∧
          (e.card = some r.card → l.day = today s → ¬undoable → declines .cancelBlocked)))

/-- R37: without the partial flag the whole amount is granted or the first limit it exceeds gives the reason; with it the
largest amount within every limit is granted, or the first limit that stands at 0 gives the reason. -/
def Obligations.GrantsFollowTheLimits : Prop :=
  ∀ (amount : Nat) (limits : List (DeclineReason × Nat)), 1 ≤ amount →
    (∀ g, decideGrant amount false limits = .ok g ↔ g = amount ∧ ∀ l ∈ limits, amount ≤ l.2) ∧
    (∀ x, decideGrant amount false limits = .error x ↔
      ∃ before l after, limits = before ++ l :: after ∧ (∀ b ∈ before, amount ≤ b.2) ∧ l.2 < amount ∧ l.1 = x) ∧
    (∀ g, decideGrant amount true limits = .ok g ↔
      1 ≤ g ∧ g ≤ amount ∧ (∀ l ∈ limits, g ≤ l.2) ∧ (g = amount ∨ ∃ l ∈ limits, l.2 = g)) ∧
    (∀ x, decideGrant amount true limits = .error x ↔
      ∃ before l after, limits = before ++ l :: after ∧ (∀ b ∈ before, 1 ≤ b.2) ∧ l.2 = 0 ∧ l.1 = x)

/-- R36, R49 and R60: the ten till requests change nothing but the Ingress File, the request in hand, the shop queue with the
counters and, for RESERVE and FREE alone, the cards and the journal. -/
def Obligations.TakingATillRequestWritesNoStore : Prop :=
  ∀ (kind : RequestKind) (s t : State), exec kind.command s = .next t →
    t = { s with
      ingress := t.ingress, posting := t.posting, shopOut := t.shopOut, counters := t.counters, cards := t.cards,
      journal := t.journal, writePos := t.writePos } ∧
    (kind ≠ .reserve → kind ≠ .free → t.cards = s.cards ∧ t.journal = s.journal ∧ t.writePos = s.writePos)

/-- R39, R40 and R11: an ISSUE that passes its checks is held in hand with its post of S, gated by the debit limit, and the
record it will place in the first EMPTY slot of the probe window. R41 and R42: a TOPUP within the ceiling's room awaits the
table with a gated post of S. Either has its response prepared for both answers of the table (R38, R56). -/
def Obligations.SalesAwaitTheTable : Prop :=
  (∀ (s : State) (r : TillRequest) (t : State) (i k : Nat) (before after : List Nat), TillDue s r t → r.kind = .issue →
    1 ≤ r.amount → r.amount ≤ 9999999 → passesCheck r.card = true → matchProgram s.programs r.card = some i →
    clearing s = false → s.mode = .service → s.clock ≠ .unset → (termsOf s r.merchant).state = .enrolled →
    (termsOf s r.merchant).maySell = true → (programAt s i).state = .opened → (programAt s i).issueMinimum ≤ r.amount →
    r.amount ≤ (programAt s i).ceiling → lookupCard s r.card = none → probeWindow r.card = before ++ k :: after →
    (∀ j ∈ before, cardAt s j ≠ none) → cardAt s k = none →
    let expiry := if (programAt s i).expiryDays = 0 then 0 else today s + (programAt s i).expiryDays
    ∃ h, exec .issue s = .next { t with posting := .till h } ∧ h.request = r ∧ h.today = today s ∧
      h.movement = .post .sold true (termsOf s r.merchant).debitLimit ∧ h.amount = r.amount ∧ h.slot = k ∧ h.program = i ∧
      h.liveChange = .rise ∧ h.entryKind = .issue ∧ h.entryRemaining = none ∧ h.link = none ∧ h.restore = none ∧
      h.liabilityRises = true ∧ h.outcome = .approved ∧
      h.cardAfter = some {
        number := r.card, program := i, state := .active, balance := r.amount, holds := [], daySpend := 0,
        spendDay := today s, issueDay := today s, expiryDay := expiry, issuer := r.merchant, lastDay := today s } ∧
      h.conditions = { z := false, s := false, x := false, d := false, l := false } ∧
      h.after = { balance := r.amount, free := r.amount, expiry := expiry } ∧
      h.refusedConditions = { z := false, s := true, x := false, d := false, l := false } ∧
      h.refused = { balance := 0, free := 0, expiry := 0 }) ∧
  (∀ (s : State) (r : TillRequest) (t : State) (k g : Nat) (c : CardRecord), TillDue s r t → r.kind = .topup →
    PassesHead s r k c → (programAt s c.program).topupPermitted = true →
    decideGrant r.amount r.mayCut [(.ceiling, (programAt s c.program).ceiling - c.balance)] = .ok g →
    ∃ h d, exec .topup s = .next { t with posting := .till h } ∧ h.request = r ∧ h.today = today s ∧
      h.movement = .post .sold true (termsOf s r.merchant).debitLimit ∧ h.amount = g ∧ h.slot = k ∧ h.liveChange = .same ∧
      h.entryKind = .topup ∧ h.entryRemaining = none ∧ h.link = none ∧ h.restore = none ∧ h.liabilityRises = true ∧
      h.outcome = (if g = r.amount then .approved else .partially) ∧
      h.cardAfter = some d ∧ d = { c with
        balance := c.balance + g, holds := liveHolds (timeOf s.clock) c.holds, lastDay := today s
        expiryDay :=
          if (programAt s c.program).renewOnTopup = true ∧ (programAt s c.program).expiryDays ≠ 0 ∧ c.expiryDay ≠ 0 ∧
              c.expiryDay < today s + (programAt s c.program).expiryDays
          then today s + (programAt s c.program).expiryDays else c.expiryDay } ∧
      preparesAnswers h (timeOf s.clock) c d
        { z := false, s := decide (g < r.amount), x := decide ((programAt s c.program).ceiling - c.balance < r.amount), d := false,
          l := false })

/-- R43 to R45 and R66 to R68: a SPEND and a CLAIM await the table with an ungated post of R, the card prepared with the debit
made, the day-spend carried on or begun anew, expired holds removed and, for a CLAIM, its hold removed. The response is
prepared with the conditions of R38 and R67: D is set where the cap remaining cut the grant, L where the debit crosses the low
threshold. -/
def Obligations.DebitsAwaitTheTable : Prop :=
  ∀ (s : State) (r : TillRequest) (t : State) (k g : Nat) (c : CardRecord), TillDue s r t → PassesHead s r k c →
    let p := programAt s c.program
    let now := timeOf s.clock
    let free := freeAmount now c
    let daySpend := if c.spendDay = today s then c.daySpend else 0
    let cap := if p.dailyCap = 0 then [] else [(DeclineReason.dayCap, p.dailyCap - daySpend)]
    let debited := fun (holds : List Hold) => { c with
      balance := c.balance - g, holds := liveHolds now holds, daySpend := min (daySpend + g) (2 ^ 40 - 1), spendDay := today s,
      lastDay := today s }
    let served := fun (other : Nat) => ({
      z := decide (c.balance - g = 0), s := decide (g < r.amount), x := false
      d := decide (p.dailyCap ≠ 0 ∧ p.dailyCap - daySpend < r.amount ∧ p.dailyCap - daySpend ≤ other)
      l := decide (p.lowThreshold ≤ c.balance ∧ c.balance - g < p.lowThreshold) } : Conditions)
    (r.kind = .spend → decideGrant r.amount r.mayCut ((.funds, free) :: cap) = .ok g →
      ∃ h, exec .spend s = .next { t with posting := .till h } ∧ h.request = r ∧ h.today = today s ∧
        h.movement = .post .redeemed false 0 ∧ h.amount = g ∧ h.slot = k ∧ h.liveChange = .same ∧ h.entryKind = .spend ∧
        h.entryRemaining = some g ∧ h.link = none ∧ h.restore = none ∧ h.liabilityRises = false ∧
        h.outcome = (if g = r.amount then .approved else .partially) ∧ h.cardAfter = some (debited c.holds) ∧
        preparesAnswers h now c (debited c.holds) (served free)) ∧
    (∀ hold, r.kind = .claim → c.holds.find? (fun h => decide (h.reference = r.reference)) = some hold →
      hold.merchant = r.merchant → holdExpired now hold = false →
      let most := if c.state = .active then hold.amount + hold.amount * (termsOf s r.merchant).tolerance / 100 else hold.amount
      let others := c.holds.filter fun h => decide (h.reference ≠ r.reference)
      decideGrant r.amount r.mayCut ((.overHold, most) :: (.funds, free + hold.amount) :: cap) = .ok g →
      ∃ h, exec .claim s = .next { t with posting := .till h } ∧ h.request = r ∧ h.today = today s ∧
        h.movement = .post .redeemed false 0 ∧ h.amount = g ∧ h.slot = k ∧ h.liveChange = .same ∧ h.entryKind = .claim ∧
        h.entryRemaining = some g ∧ h.link = some r.reference ∧ h.restore = none ∧ h.liabilityRises = false ∧
        h.outcome = (if g = r.amount then .approved else .partially) ∧ h.cardAfter = some (debited others) ∧
        preparesAnswers h now c (debited others) (served (min most (free + hold.amount))))

/-- R46 to R48: an ASK and a TRY that pass their checks answer at once: the response is placed, nothing is written. -/
def Obligations.AskAndTryAnswerWithoutAWrite : Prop :=
  ∀ (s : State) (r : TillRequest) (t : State) (k : Nat) (c : CardRecord), TillDue s r t → PassesHead s r k c →
    let low := (programAt s c.program).lowThreshold
    let free := freeAmount (timeOf s.clock) c
    let p := programAt s c.program
    let left := p.dailyCap - (if c.spendDay = today s then c.daySpend else 0)
    (r.kind = .ask → exec .ask s = .next (placeResponse r .approved
      { z := decide (c.balance = 0), s := false, x := false, d := false, l := decide (c.balance < low) } 0
      { balance := c.balance, free := free, expiry := c.expiryDay } none t)) ∧
    (∀ g, r.kind = .tryReq → decideGrant r.amount r.mayCut
        ((.funds, free) :: if p.dailyCap = 0 then [] else [(.dayCap, left)]) = .ok g →
      exec .tryReq s = .next (placeResponse r (if g = r.amount then .approved else .partially)
        { z := decide (c.balance - g = 0), s := decide (g < r.amount), x := false,
          d := decide (p.dailyCap ≠ 0 ∧ left < r.amount ∧ left ≤ free),
          l := decide (low ≤ c.balance) && decide (c.balance - g < low) } g
        { balance := c.balance - g, free := free - g, expiry := c.expiryDay } none t))

/-- R60 to R64 and R69: a served RESERVE appends a hold named by its journal entry, a FREE removes the hold it names and links
its RESERVE entry; each writes the card, one entry at the write position and advances it, leaves every other card and journal
position, and answers at once with the reference of its entry. -/
def Obligations.ReserveAndFreeWriteTheHoldList : Prop :=
  ∀ (s : State) (r : TillRequest) (t : State) (k : Nat) (c : CardRecord), TillDue s r t → PassesHead s r k c →
    let now := timeOf s.clock
    let entry := fun (kind : JournalKind) (amount : Nat) (link : Option JournalRef) =>
      ({ lap := s.writePos.lap, kind := kind, card := some r.card, merchant := some r.merchant, lane := some r.lane,
         amount := amount, day := today s, cycle := s.cycle, remaining := none, cancelled := false, link := link,
         secondCard := none } : JournalEntry)
    let shows := fun (d : CardRecord) => ({ balance := d.balance, free := freeAmount now d, expiry := d.expiryDay } : CardView)
    (∀ g T, r.kind = .reserve → now = some T → (liveHolds now c.holds).length < (programAt s c.program).holdLimit →
      decideGrant r.amount r.mayCut [(.funds, freeAmount now c)] = .ok g →
      let d := { c with
        lastDay := today s
        holds := liveHolds now c.holds ++ [{
          reference := s.writePos, merchant := r.merchant, lane := r.lane, amount := g,
          expiry := min (T + (programAt s c.program).holdHours * 3600) (2 ^ 40 - 1) }] }
      ∃ u, exec .reserve s = .next u ∧
        u = placeResponse r (if g = r.amount then .approved else .partially)
          { z := decide (c.balance = 0), s := decide (g < r.amount), x := false, d := false, l := false } g (shows d)
          (some s.writePos) { t with cards := u.cards, journal := u.journal, writePos := advance s.writePos } ∧
        entryAt u s.writePos = some (entry .reserve g none) ∧
        (∀ p, p ≠ positionOf s.writePos → u.journal.read none p = s.journal.read none p) ∧
        cardAt u k = some d ∧ (∀ j, j ≠ k → cardAt u j = cardAt s j)) ∧
    (∀ h, r.kind = .free →
      c.holds.find? (fun h => decide (h.reference = r.reference) && decide (h.merchant = r.merchant) && !holdExpired now h) =
        some h →
      let d := { c with
        lastDay := today s, holds := liveHolds now (c.holds.filter fun h => decide (h.reference ≠ r.reference)) }
      ∃ u, exec .free s = .next u ∧
        u = placeResponse r .approved { z := false, s := false, x := false, d := false, l := false } h.amount (shows d)
          (some s.writePos) { t with cards := u.cards, journal := u.journal, writePos := advance s.writePos } ∧
        entryAt u s.writePos = some (entry .free h.amount (some r.reference)) ∧
        cardAt u k = some d ∧ (∀ j, j ≠ k → cardAt u j = cardAt s j) ∧
        (∀ p, p ≠ positionOf s.writePos → p ≠ positionOf r.reference → u.journal.read none p = s.journal.read none p) ∧
        (positionOf r.reference ≠ positionOf s.writePos →
          entryAt u r.reference = (entryAt s r.reference).map fun e =>
            if e.lap = r.reference.lap ∧ e.kind = .reserve then { e with link := some s.writePos } else e))

/-- R79 to R83: a RETURN of a returnable original within its window and limits awaits the table with a gated post of F. R85 to
R90: a CANCEL that matches its lane's last record, on the same day and under the condition of its kind, awaits the table with
a reversal that carries the cycle of the entry; the card is prepared with the posting undone. Their responses are prepared for
both answers of the table (R38, R82, R91). -/
def Obligations.ReturnsAndCancelsAwaitTheTable : Prop :=
  (∀ (s : State) (r : TillRequest) (t : State) (k g : Nat) (c : CardRecord) (e : JournalEntry), TillDue s r t →
    r.kind = .returnReq → PassesHead s r k c → entryAt s r.reference = some e → e.lap = r.reference.lap →
    e.kind = .spend ∨ e.kind = .claim → e.card = some r.card → e.merchant = some r.merchant → e.cancelled = false →
    c.issueDay ≤ e.day → 1 ≤ (termsOf s r.merchant).returnWindow → today s ≤ e.day + (termsOf s r.merchant).returnWindow →
    let room := (programAt s c.program).ceiling - c.balance
    decideGrant r.amount r.mayCut [(.returnExcess, e.remaining.getD 0), (.ceiling, room)] = .ok g →
    let d := { c with balance := c.balance + g, holds := liveHolds (timeOf s.clock) c.holds, lastDay := today s }
    ∃ h, exec .returnReq s = .next { t with posting := .till h } ∧ h.request = r ∧ h.today = today s ∧
      h.movement = .post .refunded true (termsOf s r.merchant).debitLimit ∧ h.amount = g ∧ h.slot = k ∧
      h.liveChange = .same ∧ h.entryKind = .returnReq ∧ h.entryRemaining = none ∧ h.link = some r.reference ∧
      h.restore = none ∧ h.liabilityRises = true ∧ h.outcome = (if g = r.amount then .approved else .partially) ∧
      h.cardAfter = some d ∧
      preparesAnswers h (timeOf s.clock) c d
        { z := false, s := decide (g < r.amount), x := decide (room < r.amount ∧ room ≤ e.remaining.getD 0), d := false,
          l := false }) ∧
  (∀ (s : State) (r : TillRequest) (t : State) (k : Nat) (c : CardRecord) (l : LastRecord) (e : JournalEntry), TillDue s r t →
    r.kind = .cancel → PassesHead s r k c → (laneAt s r.merchant r.lane).last = some l →
    l.sequence = r.cancelSequence → entryAt s l.reference = some e → e.lap = l.reference.lap → e.card = some r.card →
    l.day = today s →
    let p := programAt s c.program
    let a := e.amount.toNat
    let undone := { c with holds := liveHolds (timeOf s.clock) c.holds, lastDay := today s }
    let crossing := fun (balance : Nat) => ({
      z := decide (balance = 0), s := false, x := false, d := false
      l := decide (p.lowThreshold ≤ c.balance ∧ balance < p.lowThreshold) } : Conditions)
    let awaits := fun (h : Hand) => exec .cancel s = .next { t with posting := .till h } ∧ h.request = r ∧ h.today = today s ∧
      h.amount = a ∧ h.slot = k ∧ h.program = c.program ∧ h.entryKind = .cancel ∧ h.entryRemaining = none ∧
      h.link = some l.reference ∧ h.outcome = .approved
    (e.kind = .issue → c.balance = a → liveHolds (timeOf s.clock) c.holds = [] →
      ∃ h, awaits h ∧ h.movement = .reversal .sold e.cycle ∧ h.cardAfter = none ∧ h.liveChange = .fall ∧
        h.liabilityRises = false ∧ h.restore = none ∧ h.conditions = crossing 0 ∧
        h.after = { balance := 0, free := 0, expiry := 0 } ∧
        h.refusedConditions = { z := decide (c.balance = 0), s := false, x := false, d := false, l := false } ∧
        h.refused = { balance := c.balance, free := freeAmount (timeOf s.clock) c, expiry := c.expiryDay }) ∧
    (e.kind = .topup ∨ e.kind = .returnReq → a ≤ freeAmount (timeOf s.clock) c →
      ∃ h, awaits h ∧ h.movement = .reversal (if e.kind = .topup then .sold else .refunded) e.cycle ∧ h.liveChange = .same ∧
        h.liabilityRises = false ∧ h.restore = (if e.kind = .topup then none else e.link) ∧
        h.cardAfter = some { undone with balance := c.balance - a } ∧
        preparesAnswers h (timeOf s.clock) c { undone with balance := c.balance - a } (crossing (c.balance - a))) ∧
    (e.kind = .spend ∨ e.kind = .claim → e.remaining.getD 0 = a → c.balance + a ≤ p.ceiling →
      ∃ h, awaits h ∧ h.movement = .reversal .redeemed e.cycle ∧ h.liveChange = .same ∧ h.liabilityRises = true ∧
        h.restore = none ∧ h.cardAfter = some { undone with balance := c.balance + a, daySpend := c.daySpend - a } ∧
        preparesAnswers h (timeOf s.clock) c { undone with balance := c.balance + a, daySpend := c.daySpend - a }
          (crossing (c.balance + a))))

/-! ### The Position Table -/

/-- R117, R118 and R50: a post is accepted where it is not gated or the exposure stays within the debit limit; the joint write
is made, a SATURATED mark that is newly set sends its notice, and the response is placed. Otherwise the request is declined
EXPOSURE and nothing is written. R119, R89 and R90: a reversal is accepted where its cycle is the current one; the bank gives
up the amount, the lane its last record, and the SATURATED mark stays. Otherwise the CANCEL is declined CANCEL_WINDOW and
nothing is written. R68, R74, R83 and R90: what the joint write changes in entries already in the journal, `journalEdits`, made
only where the position still carries the reference's lap: a CLAIM links its RESERVE, a RETURN lowers the refundable remaining
of its original, a CANCEL sets the cancelled mark and, for a RETURN, gives the remaining back to that return's original. R118 and R119: what an addition and a reversal do to
the fields S, F and R of a bank and their counts, and when an addition saturates. -/
def Obligations.TheTableAnswersWithOneJointWrite : Prop :=
  (∀ (s : State) (h : Hand) (field : BankField) (gated : Bool) (limit : Nat), s.inReset = false → s.posting = .till h →
    h.movement = .post field gated limit →
    let m := h.request.merchant
    let p := positionAt s m
    let q := { p with
      current := p.current.add field h.amount, saturated := p.saturated || p.current.saturates field h.amount }
    (gated = false ∨ exposure p + h.amount ≤ limit → exec .conditionalPost s =
      .next (placeResponse h.request h.outcome h.conditions h.amount h.after (some s.writePos)
        (handNotices (if p.saturated = false ∧ q.saturated = true then [.saturated m s.cycle] else [])
          { s with
            positions := s.positions.write Position.zero m q
            cards := s.cards.write none h.slot h.cardAfter
            programs := changeLiveAt h.liveChange h.program s.programs
            journal := appendAt s.writePos
              (cardEntry h.entryKind h.request h.amount h.today s.cycle h.entryRemaining h.link)
              (journalEdits h s.writePos s.journal)
            writePos := advance s.writePos
            lanes := s.lanes.write Lane.unassigned (m * 8 + h.request.lane)
              { laneAt s m h.request.lane with
                last := some { reference := s.writePos, sequence := h.request.sequence, day := h.today, cycle := s.cycle } }
            liability := if h.liabilityRises then s.liability + h.amount else s.liability - h.amount }))) ∧
    (gated = true → (limit : Int) < exposure p + h.amount → exec .conditionalPost s =
      .next (placeResponse h.request (.declined .exposure) h.refusedConditions 0 h.refused none s))) ∧
  (∀ (s : State) (h : Hand) (field : BankField) (cycle : Nat), s.inReset = false → s.posting = .till h →
    h.movement = .reversal field cycle →
    let m := h.request.merchant
    let p := positionAt s m
    (cycle = s.cycle → exec .conditionalReversal s =
      .next (placeResponse h.request h.outcome h.conditions h.amount h.after (some s.writePos)
        { s with
          positions := s.positions.write Position.zero m { p with current := p.current.subtract field h.amount }
          cards := s.cards.write none h.slot h.cardAfter
          programs := changeLiveAt h.liveChange h.program s.programs
          journal := appendAt s.writePos
            (cardEntry h.entryKind h.request h.amount h.today s.cycle h.entryRemaining h.link)
            (journalEdits h s.writePos s.journal)
          writePos := advance s.writePos
          lanes := s.lanes.write Lane.unassigned (m * 8 + h.request.lane) { laneAt s m h.request.lane with last := none }
          liability := if h.liabilityRises then s.liability + h.amount else s.liability - h.amount })) ∧
    (cycle ≠ s.cycle → exec .conditionalReversal s =
      .next (placeResponse h.request (.declined .cancelWindow) h.refusedConditions 0 h.refused none s))) ∧
  (∀ (h : Hand) (w : JournalRef) (j : Table (Option JournalEntry)) (p : Nat),
    let edited := fun (ref : JournalRef) (f : JournalEntry → JournalEntry) (old : Option JournalEntry) =>
      if p = positionOf ref then old.map fun e => if e.lap = ref.lap then f e else e else old
    let now := (journalEdits h w j).read none p
    (∀ ref, h.entryKind = .claim → h.link = some ref →
      now = edited ref (fun e => if e.kind = .reserve then { e with link := some w } else e) (j.read none p)) ∧
    (∀ ref, h.entryKind = .returnReq → h.link = some ref →
      now = edited ref (fun e => { e with remaining := e.remaining.map (· - h.amount) }) (j.read none p)) ∧
    (∀ ref, h.entryKind = .cancel → h.link = some ref →
      let marked := edited ref (fun e => { e with cancelled := true }) (j.read none p)
      (h.restore = none → now = marked) ∧
      ∀ original, h.restore = some original →
        now = edited original (fun e => { e with remaining := e.remaining.map (· + h.amount) }) marked) ∧
    (h.entryKind = .issue ∨ h.entryKind = .topup ∨ h.entryKind = .spend → now = j.read none p)) ∧
  (∀ (b : Bank) (a : Nat),
    b.add .sold a = { b with sold := min (b.sold + a) (2 ^ 48 - 1), nSold := min (b.nSold + 1) (2 ^ 32 - 1) } ∧
    b.add .refunded a =
      { b with refunded := min (b.refunded + a) (2 ^ 48 - 1), nRefunded := min (b.nRefunded + 1) (2 ^ 32 - 1) } ∧
    b.add .redeemed a =
      { b with redeemed := min (b.redeemed + a) (2 ^ 48 - 1), nRedeemed := min (b.nRedeemed + 1) (2 ^ 32 - 1) } ∧
    (b.saturates .sold a = true ↔ 2 ^ 48 - 1 < b.sold + a ∨ 2 ^ 32 - 1 < b.nSold + 1) ∧
    (b.saturates .refunded a = true ↔ 2 ^ 48 - 1 < b.refunded + a ∨ 2 ^ 32 - 1 < b.nRefunded + 1) ∧
    (b.saturates .redeemed a = true ↔ 2 ^ 48 - 1 < b.redeemed + a ∨ 2 ^ 32 - 1 < b.nRedeemed + 1) ∧
    b.subtract .sold a = { b with sold := b.sold - a, nSold := b.nSold - 1 } ∧
    b.subtract .refunded a = { b with refunded := b.refunded - a, nRefunded := b.nRefunded - 1 } ∧
    b.subtract .redeemed a = { b with redeemed := b.redeemed - a, nRedeemed := b.nRedeemed - 1 })

/-- A SPEND from its taking to the answer of the table: card, liability counter, bank, journal entry and the lane's last
record move together by the grant, and the response is placed (R43 to R45, R49, R50, R53, R56). -/
def Obligations.SpendMovesTheMoneyTogether : Prop :=
  ∀ (s : State) (r : TillRequest) (t : State) (k g : Nat) (c : CardRecord), TillDue s r t → r.kind = .spend →
    PassesHead s r k c → decideGrant r.amount r.mayCut ((.funds, freeAmount (timeOf s.clock) c) ::
      if (programAt s c.program).dailyCap = 0 then [] else
        [(.dayCap, (programAt s c.program).dailyCap - (if c.spendDay = today s then c.daySpend else 0))]) = .ok g →
    ∃ u v, exec .spend s = .next u ∧ exec .conditionalPost u = .next v ∧ v.posting = .idle ∧
      (∃ d, cardAt v k = some d ∧ d.balance + g = c.balance ∧ d.number = c.number) ∧
      (∀ j, j ≠ k → cardAt v j = cardAt s j) ∧
      (positionAt v r.merchant).current.redeemed = min ((positionAt s r.merchant).current.redeemed + g) (2 ^ 48 - 1) ∧
      (positionAt v r.merchant).current.nRedeemed = min ((positionAt s r.merchant).current.nRedeemed + 1) (2 ^ 32 - 1) ∧
      (positionAt v r.merchant).carry = (positionAt s r.merchant).carry ∧
      (∀ m, m ≠ r.merchant → positionAt v m = positionAt s m) ∧
      (∃ e, entryAt v s.writePos = some e ∧ e.kind = .spend ∧ e.amount = (g : Int) ∧ e.remaining = some g ∧
        e.card = some r.card ∧ e.cycle = s.cycle ∧ e.day = today s ∧ e.cancelled = false) ∧
      (laneAt v r.merchant r.lane).last = some ⟨s.writePos, r.sequence, today s, s.cycle⟩ ∧
      v = { t with
        cards := v.cards, liability := s.liability - g, positions := v.positions, journal := v.journal,
        writePos := advance s.writePos, lanes := v.lanes, shopOut := v.shopOut, counters := v.counters,
        noticeNumber := v.noticeNumber, officeOut := v.officeOut } ∧
      (s.shopLink = .up → ∃ f, v.shopOut = s.shopOut ++ [f] ∧ f.origin = .response) ∧
      (s.shopLink = .down → v.shopOut = s.shopOut)

/-- R115, as a step: an accepted post that saturates nothing moves the liability counter and S + F - R of the current bank by
the same amount and sign, for every hand whose direction is that of its field (R53). -/
def Obligations.AcceptedPostKeepsTheLiabilityEquality : Prop :=
  ∀ (s t : State) (h : Hand) (field : BankField) (gated : Bool) (limit : Nat), s.inReset = false → s.posting = .till h →
    h.movement = .post field gated limit → gated = false ∨ exposure (positionAt s h.request.merchant) + h.amount ≤ limit →
    (positionAt s h.request.merchant).current.saturates field h.amount = false →
    h.liabilityRises = decide (field ≠ .redeemed) → (h.liabilityRises = false → h.amount ≤ s.liability) →
    exec .conditionalPost s = .next t →
    (t.liability : Int) - (positionAt t h.request.merchant).current.outstanding =
        (s.liability : Int) - (positionAt s h.request.merchant).current.outstanding ∧
      ∀ m, m ≠ h.request.merchant → positionAt t m = positionAt s m

/-- R120 and R121: an accepted CLOSE_CYCLE swaps every merchant's bank, raises the cycle, captures the opening liability and
begins the batch of the closed cycle; the exposure of each merchant whose closing bank was COMPUTED stays (R116). In
COMPUTING, COMPUTED and RELEASING it is refused BUSY. -/
def Obligations.CloseCycleSwapsTheBanks : Prop :=
  ∀ (s t : State) (tag : Nat), RequestDue s .closeCycle tag t →
    (s.batch.state ≠ .empty → s.batch.state ≠ .settled → exec .closeCycle s = .next (sendReply 0x40 tag .busy [] t)) ∧
    (s.batch.state = .empty ∨ s.batch.state = .settled →
      ∃ u, exec .closeCycle s =
          .next (sendReply 0x40 tag .accepted (beBytes 2 ((s.cycle + 1) % 65536) ++ moneyBytes s.liability) u) ∧
        u = { t with
          positions := u.positions, cycle := (s.cycle + 1) % 65536, openingLiability := s.liability
          batch := { Batch.none with state := .computing, cycle := s.cycle } } ∧
        ∀ m, m < 512 → positionAt u m = {
            current := Bank.zero, saturated := false, closing := (positionAt s m).current,
            carryIn := (positionAt s m).carry, computed := false, closingSaturated := (positionAt s m).saturated, carry := 0,
            carryClamp := (positionAt s m).carryClamp } ∧
          ((positionAt s m).computed = true → exposure (positionAt u m) = exposure (positionAt s m)))

/-- R122 and R123: ADJUST_CARRY clears the clamp mark, adds the amount under the clamp, and appends one ADJUST entry,
leaving every other merchant and journal position; its reply carries the new carry, the mark and the reference of the entry. Its
refusals change nothing. That the CARRY_CLAMP notice stands before the reply (log 12), and the bytes of the reply (log 10), are
the model's reading. -/
def Obligations.AdjustCarryAddsUnderTheClamp : Prop :=
  ∀ (s t : State) (m tag : Nat) (a : Int), RequestDue s (.adjustCarry m a) tag t →
    let inRange := -(2 ^ 62) ≤ a ∧ a ≤ 2 ^ 62 - 1 ∧ a ≠ 0
    let sum := (positionAt s m).carry + a
    (512 ≤ m ∨ ¬inRange → exec .adjustCarry s = .next (sendReply 0x41 tag .range [] t)) ∧
    (m < 512 → inRange → s.clock = .unset → exec .adjustCarry s = .next (sendReply 0x41 tag .state [] t)) ∧
    (m < 512 → inRange → s.clock ≠ .unset →
      ∃ u, exec .adjustCarry s = .next u ∧
        positionAt u m = { positionAt s m with
          carry := max (-(2 ^ 62)) (min sum (2 ^ 62 - 1))
          carryClamp := decide (sum < -(2 ^ 62) ∨ 2 ^ 62 - 1 < sum) } ∧
        (∀ n, n ≠ m → positionAt u n = positionAt s n) ∧
        entryAt u s.writePos = some {
          lap := s.writePos.lap, kind := .adjust, card := none, merchant := some m, lane := none, amount := a, day := today s,
          cycle := s.cycle, remaining := none, cancelled := false, link := none, secondCard := none } ∧
        (∀ p, p ≠ positionOf s.writePos → u.journal.read none p = s.journal.read none p) ∧
        u = sendReply 0x41 tag .accepted
          (moneyBytes (positionAt u m).carry ++ flagByte (positionAt u m).carryClamp ++ refBytes s.writePos)
          (handNotices (if (positionAt u m).carryClamp = true then [.carryClamp m] else [])
            { t with positions := u.positions, journal := u.journal, writePos := advance s.writePos }))

/-! ### The settlement calculation -/

/-- R131: the discount fee is B × d over 10,000, rounded to the nearest integer with one half away from zero, with the sign of
B; a rate of 0 gives 0; and the table of the rule. -/
def Obligations.DiscountFeeRoundsHalfAwayFromZero : Prop :=
  (∀ (b : Bank) (t : Terms), settlementBase b = (b.redeemed : Int) - b.refunded ∧
    (0 ≤ settlementBase b * t.discount →
      20000 * discountFee b t ≤ 2 * (settlementBase b * t.discount) + 10000 ∧
        2 * (settlementBase b * t.discount) + 10000 < 20000 * discountFee b t + 20000) ∧
    (settlementBase b * t.discount < 0 →
      2 * (settlementBase b * t.discount) - 10000 ≤ 20000 * discountFee b t ∧
        20000 * discountFee b t - 20000 < 2 * (settlementBase b * t.discount) - 10000) ∧
    (0 ≤ settlementBase b → 0 ≤ discountFee b t) ∧ (settlementBase b ≤ 0 → discountFee b t ≤ 0) ∧
    (t.discount = 0 → discountFee b t = 0) ∧
    (b.redeemed ≤ 2 ^ 48 - 1 → b.refunded ≤ 2 ^ 48 - 1 → t.discount ≤ 1500 →
      |settlementBase b * t.discount| ≤ 422212465065982500)) ∧
  (roundTenThousandth (200 * 25) = 1 ∧ roundTenThousandth (-200 * 25) = -1 ∧ roundTenThousandth (599 * 25) = 1 ∧
    roundTenThousandth (600 * 25) = 2 ∧ roundTenThousandth (-600 * 25) = -2 ∧ roundTenThousandth (-4000 * 300) = -120)

/-- R132: the commission is S × k over 10,000 rounded down, the charges are nR × t, and where the terms read as UNENROLLED the
fee, commission and charges are 0. -/
def Obligations.CommissionRoundsDownAndChargesCount : Prop :=
  (∀ (b : Bank) (t : Terms),
    10000 * commissionOf b t ≤ b.sold * t.commission ∧ b.sold * t.commission < 10000 * commissionOf b t + 10000 ∧
    chargesOf b t = b.nRedeemed * t.charge) ∧
  (∀ b : Bank, discountFee b Terms.unenrolled = 0 ∧ commissionOf b Terms.unenrolled = 0 ∧ chargesOf b Terms.unenrolled = 0) ∧
  (∀ (b : Bank) (t : Terms), b.sold = 399 → t.commission = 25 → commissionOf b t = 0)

/-- R133 to R136: the record of a merchant that is not idle: the net and whether it was clamped, the disposition, the payout,
the carry-out and the fields copied from the closing bank and the terms as read. With UNENROLLED terms fee, commission and
charges are 0; a SUSPENDED merchant's are those of its terms. -/
def Obligations.DispositionFollowsTheNetAndTheTerms : Prop :=
  ∀ (index merchant cycle : Nat) (p : Position) (t : Terms),
    let r := settlementRecord index merchant cycle p t
    let exact := (p.closing.redeemed : Int) - p.closing.refunded - p.closing.sold - discountFee p.closing t +
      commissionOf p.closing t - chargesOf p.closing t + p.carryIn
    r.net = max (-(2 ^ 62)) (min exact (2 ^ 62 - 1)) ∧ r.clamped = decide (exact < -(2 ^ 62) ∨ 2 ^ 62 - 1 < exact) ∧
    r.index = index ∧ r.merchant = merchant ∧ r.cycle = cycle ∧ r.bank = p.closing ∧ r.carryIn = p.carryIn ∧
    r.fee = discountFee p.closing t ∧ r.commission = commissionOf p.closing t ∧ r.charges = chargesOf p.closing t ∧
    r.termsState = t.state ∧ r.saturated = p.closingSaturated ∧ r.tier = t.tier ∧
    (t = Terms.unenrolled → r.fee = 0 ∧ r.commission = 0 ∧ r.charges = 0) ∧
    (p.closingSaturated = true → r.disposition = .held ∧ r.payout = 0 ∧ r.carryOut = 0 ∧ r.release = none) ∧
    (p.closingSaturated = false →
      (t.state = .unenrolled ∨ t.state = .suspended → r.disposition = .held) ∧
      (t.state = .enrolled ∨ t.state = .withdrawn →
        (r.net < 0 → r.disposition = .debt) ∧
        (1 ≤ r.net → (t.state = .enrolled → (t.minPayout : Int) ≤ r.net) → r.disposition = .pay) ∧
        (r.net = 0 → r.disposition = .carry) ∧
        (1 ≤ r.net → t.state = .enrolled → r.net < t.minPayout → r.disposition = .carry)) ∧
      (r.disposition = .pay → (r.payout : Int) = r.net ∧ r.carryOut = 0 ∧ r.release = some .pending) ∧
      (r.disposition ≠ .pay → r.payout = 0 ∧ r.carryOut = r.net ∧ r.release = none))

/-- R128, R130 and R137: a step of the walk marks the closing bank of the merchant at the cursor COMPUTED and advances the
cursor; an idle merchant gets no record, any other its record, its carry-out added to the carry under the clamp, and its place
in each of the totals (R139). The closing bank's fields and the current bank stand (R114). The CARRY_CLAMP mark is set where
the sum or, but for a SATURATED record, the net was clamped, with a notice where it was clear. R140: the completion of the
computation. -/
def Obligations.TheWalkTakesEachMerchantAndCompletes : Prop :=
  (∀ s : State, s.inReset = false → clearing s = false → s.batch.state = .computing → s.batch.cursor < 512 →
    let m := s.batch.cursor
    let p := positionAt s m
    (p.closing = Bank.zero → p.carryIn = 0 → p.closingSaturated = false → exec .calculatorStep s = .next { s with
      positions := s.positions.write Position.zero m { p with computed := true }
      batch := { s.batch with cursor := m + 1 } }) ∧
    (p.closing ≠ Bank.zero ∨ p.carryIn ≠ 0 ∨ p.closingSaturated = true →
      let r := settlementRecord s.batch.totals.count m s.batch.cycle p (termsOf s m)
      let sum := p.carry + r.carryOut
      let beyond := sum < -(2 ^ 62) ∨ 2 ^ 62 - 1 < sum
      let mark := p.carryClamp || decide beyond || (r.clamped && !r.saturated)
      let q := { p with carry := max (-(2 ^ 62)) (min sum (2 ^ 62 - 1)), carryClamp := mark, computed := true }
      let totals := s.batch.totals
      exec .calculatorStep s = .next (handNotices (if p.carryClamp = false ∧ mark = true then [.carryClamp m] else [])
        { s with
          positions := s.positions.write Position.zero m q
          batch := { s.batch with
            cursor := m + 1
            records := s.batch.records ++ [{ r with clamped := r.clamped || decide beyond }]
            totals := {
              count := totals.count + 1, payout := totals.payout + r.payout, net := totals.net + r.net,
              redeemed := totals.redeemed + p.closing.redeemed, refunded := totals.refunded + p.closing.refunded,
              sold := totals.sold + p.closing.sold, hash := totals.hash + m } } }))) ∧
  (∀ s : State, s.inReset = false → clearing s = false → s.batch.state = .computing →
    (s.batch.cursor = 512 → exec .computationCompletion s = .next (handNotice (.batchComputed s.batch.cycle)
      { s with batch := { s.batch with state := .computed, trailer := some s.batch.totals } })) ∧
    (s.batch.cursor < 512 → exec .computationCompletion s = .next s))

/-! ### Payout release -/

/-- R147: the release order lists every PAY record once, tier ascending, then merchant ascending. -/
def Obligations.ReleaseOrderIsByTierThenMerchant : Prop :=
  ∀ records : List BatchRecord, (∀ r ∈ records, r.merchant < 512) →
    (releaseOrder records).Nodup ∧
    (∀ i, i ∈ releaseOrder records ↔ ∃ r, records[i]? = some r ∧ r.disposition = .pay) ∧
    (releaseOrder records).Pairwise fun i j => ∀ a b, records[i]? = some a → records[j]? = some b →
      a.tier < b.tier ∨ (a.tier = b.tier ∧ a.merchant ≤ b.merchant)

/-- R153 and R154: after a FILL walk that leaves a slot free, no record that awaits sending and whose terms are readable fits
the remaining budget, and each such record is WAITING. -/
def Obligations.FillWalkLeavesNothingThatFits : Prop :=
  ∀ s : State, s.batch.mode = .fill → freeSlot (walkRecords s).window ≠ none → ∀ r ∈ (walkRecords s).batch.records,
    r.awaitsSending = true → (termsOf s r.merchant).state ≠ .unenrolled →
      (walkRecords s).batch.remaining < r.payout ∧ r.release = some .waiting

/-- R152: a STRICT walk sends no record while one before it in the release order awaits sending or is UNCONFIRMED. -/
def Obligations.StrictWalkKeepsTheOrder : Prop :=
  ∀ (s : State) (before after : List Nat) (j i : Nat) (a b a' : BatchRecord), s.batch.mode = .strict →
    releaseOrder s.batch.records = before ++ j :: after → i ∈ before →
    s.batch.records[j]? = some a → a.release ≠ some .sent →
    (walkRecords s).batch.records[j]? = some a' → a'.release = some .sent →
    (walkRecords s).batch.records[i]? = some b → b.awaitsSending = false ∧ b.release ≠ some .unconfirmed

/-- R149 and R150: RELEASE_BATCH and ADD_BUDGET with their refusals; an accepted one grants the budget and walks, or settles a
batch without PAY records; the reply is formed after the walk, and that it is offered after the notice or the instructions of
its step is the model's reading (log 12). -/
def Obligations.BudgetRequestsGrantAndWalk : Prop :=
  (∀ (s t : State) (mode g tag : Nat), RequestDue s (.releaseBatch mode g) tag t →
    (2 ≤ mode ∨ 2 ^ 48 ≤ g → exec .releaseBatch s = .next (sendReply 0x50 tag .range [] t)) ∧
    (mode < 2 → g < 2 ^ 48 → s.batch.state ≠ .computed →
      exec .releaseBatch s = .next (sendReply 0x50 tag .state [] t)) ∧
    (mode < 2 → g < 2 ^ 48 → s.batch.state = .computed →
      let begun := { t with batch := { s.batch with
        state := .releasing, mode := if mode = 0 then .strict else .fill, granted := g, remaining := g } }
      ((∀ r ∈ s.batch.records, r.disposition ≠ .pay) →
        let u := handNotice (.batchSettled s.batch.cycle) { begun with batch := { begun.batch with state := .settled } }
        exec .releaseBatch s = .next (sendReply 0x50 tag .accepted (releaseBlock u.batch) u)) ∧
      ((∃ r ∈ s.batch.records, r.disposition = .pay ∧ r.release = some .pending) →
        let u := placeInstructions (walkRecords begun)
        exec .releaseBatch s = .next (sendReply 0x50 tag .accepted (releaseBlock u.batch) u)))) ∧
  (∀ (s t : State) (g tag : Nat), RequestDue s (.addBudget g) tag t →
    (2 ^ 48 ≤ g → exec .addBudget s = .next (sendReply 0x51 tag .range [] t)) ∧
    (g < 2 ^ 48 → s.batch.state ≠ .releasing → exec .addBudget s = .next (sendReply 0x51 tag .state [] t)) ∧
    (g < 2 ^ 48 → s.batch.state = .releasing →
      (2 ^ 48 ≤ s.batch.granted + g → exec .addBudget s = .next (sendReply 0x51 tag .range [] t)) ∧
      (s.batch.granted + g < 2 ^ 48 →
        let u := placeInstructions (walkRecords { t with batch := { s.batch with
          granted := s.batch.granted + g, remaining := s.batch.remaining + g } })
        exec .addBudget s = .next (sendReply 0x51 tag .accepted (releaseBlock u.batch) u))))

/-- R160: a matching CONFIRM makes its record PAID and leaves the budget; a SENT record frees its slot, an UNCONFIRMED one
counts as late; the batch is settled where every PAY record is then final, and otherwise a walk runs. That the reply is taken
from the head of a list where it waited is the model's choice (log 13). -/
def Obligations.ConfirmMakesTheRecordPaid : Prop :=
  ∀ (s : State) (f : Frame) (rest : List Frame) (g : GatewayReply) (i : Nat) (r : BatchRecord), s.inReset = false →
    s.gatewayIn = f :: rest → matchReply s f = some (g, i, r) → g.confirms = true →
    let paid := { s.batch with records := setRelease i .paid s.batch.records }
    let freed := if r.release = some .sent then vacate r.merchant { s with gatewayIn := rest } else { s with gatewayIn := rest }
    let late := if r.release = some .unconfirmed then
      { s.counters with lateConfirms := bump s.counters.lateConfirms } else s.counters
    let u := { freed with batch := paid, counters := late }
    (allFinal paid.records = true → exec .confirm s =
      .next (handNotice (.batchSettled s.batch.cycle) { u with batch := { paid with state := .settled } })) ∧
    (allFinal paid.records = false → exec .confirm s = .next (placeInstructions (walkRecords u))) ∧
    paid.remaining = s.batch.remaining

/-- R161 and R203, R159: a matching REJECT returns the payout to the budget and to the merchant's carry; a frame that matches
no record is a stray, counted and otherwise ignored. That they are taken from the head of a list is the model's choice (log 13),
and that a CARRY_CLAMP notice stands before the BATCH_SETTLED notice and before the walk's instructions is its reading (log 12).
R158: the expiry of a TIMING slot's timer makes its record UNCONFIRMED, leaves the budget, frees the slot, hands the
PAYOUT_TIMEOUT notice and walks; a slot that is not TIMING has no timer. -/
def Obligations.RejectsStraysAndTimeoutsAreTaken : Prop :=
  (∀ (s : State) (f : Frame) (rest : List Frame), s.inReset = false → s.gatewayIn = f :: rest →
    (∀ (g : GatewayReply) (i : Nat) (r : BatchRecord), matchReply s f = some (g, i, r) → g.confirms = false →
      let freed := if r.release = some .sent then vacate r.merchant { s with gatewayIn := rest } else { s with gatewayIn := rest }
      let returned := setRelease i .returned s.batch.records
      let u := carryAddition r.merchant r.payout { freed with batch := { s.batch with
        records := returned, remaining := s.batch.remaining + r.payout } }
      (allFinal returned = true → exec .reject s =
        .next (handNotice (.batchSettled s.batch.cycle) { u with batch := { u.batch with state := .settled } })) ∧
      (allFinal returned = false → exec .reject s = .next (placeInstructions (walkRecords u)))) ∧
    (matchReply s f = none → exec .stray s =
      .next { s with gatewayIn := rest, counters := { s.counters with strays := bump s.counters.strays } })) ∧
  (∀ (s : State) (k : Nat), s.inReset = false → clearing s = false →
    (∀ m len i r, s.window.read .free k = .timing m len → s.batch.state = .releasing → findPay s.batch.records m = some i →
      s.batch.records[i]? = some r → r.release = some .sent →
      exec (.timerExpiry k) s = .next (placeInstructions (walkRecords (handNotice (.payoutTimeout m s.batch.cycle)
        { s with
          batch := { s.batch with records := setRelease i .unconfirmed s.batch.records }
          window := s.window.write .free k .free })))) ∧
    ((∀ m len, s.window.read .free k ≠ .timing m len) → exec (.timerExpiry k) s = .next s))

/-- R163: RESOLVE of an UNCONFIRMED record as PAID or as RETURNED, and its refusals. The codes 3 and 4 of the release states
(log 11), and that a CARRY_CLAMP notice stands before BATCH_SETTLED and the reply is offered last (log 12), are the model's
reading. -/
def Obligations.ResolveSettlesAnUnconfirmedRecord : Prop :=
  ∀ (s t : State) (m o tag : Nat), RequestDue s (.resolve m o) tag t →
    (512 ≤ m ∨ 2 ≤ o → exec .resolve s = .next (sendReply 0x52 tag .range [] t)) ∧
    (m < 512 → o < 2 →
      (s.batch.state ≠ .releasing → exec .resolve s = .next (sendReply 0x52 tag .state [] t)) ∧
      (s.batch.state = .releasing →
        (findPay s.batch.records m = none → exec .resolve s = .next (sendReply 0x52 tag .notFound [] t)) ∧
        ∀ i r, findPay s.batch.records m = some i → s.batch.records[i]? = some r →
          (r.release ≠ some .unconfirmed → exec .resolve s = .next (sendReply 0x52 tag .state [] t)) ∧
          (r.release = some .unconfirmed →
            let resolved := if o = 0 then { t with batch := { s.batch with records := setRelease i .paid s.batch.records } }
              else carryAddition r.merchant r.payout { t with batch := { s.batch with
                records := setRelease i .returned s.batch.records, remaining := s.batch.remaining + r.payout } }
            let u := if allFinal resolved.batch.records then
                handNotice (.batchSettled s.batch.cycle) { resolved with batch := { resolved.batch with state := .settled } }
              else placeInstructions (walkRecords resolved)
            exec .resolve s = .next (sendReply 0x52 tag .accepted
              (beBytes 1 (if o = 0 then 3 else 4) ++ moneyBytes u.batch.remaining ++ beBytes 1 u.batch.state.code) u))))

/-- R164: ABANDON moves every record that awaits sending to ABANDONED and no other, keeps the budget, adds each payout to its
merchant's carry, runs no walk, and settles the batch where nothing is left in doubt; every other field of a position stands.
R122: an addition to a carry is held within -2^62 to 2^62 - 1, sets the CARRY_CLAMP mark where the sum passes that range and
hands its notice where the mark was clear. Which fields the reply carries, R148 naming one more (log 29), and that the
CARRY_CLAMP notices stand in record order before BATCH_SETTLED and the reply last (log 12), are the model's reading. -/
def Obligations.AbandonEndsTheSending : Prop :=
  (∀ (m : Nat) (amount : Int) (v : State),
    let p := positionAt v m
    let sum := p.carry + amount
    let mark := p.carryClamp || decide (sum < -(2 ^ 62) ∨ 2 ^ 62 - 1 < sum)
    carryAddition m amount v = handNotices (if p.carryClamp = false ∧ mark = true then [.carryClamp m] else [])
      { v with
        positions := v.positions.write Position.zero m
          { p with carry := max (-(2 ^ 62)) (min sum (2 ^ 62 - 1)), carryClamp := mark } }) ∧
  ∀ (s t : State) (tag : Nat), RequestDue s .abandon tag t →
    (s.batch.state ≠ .releasing → exec .abandon s = .next (sendReply 0x53 tag .state [] t)) ∧
    (s.batch.state = .releasing →
      let gone := s.batch.records.filter fun r =>
        decide (r.disposition = .pay ∧ (r.release = some .pending ∨ r.release = some .waiting))
      let records := s.batch.records.map fun r => if r ∈ gone then { r with release := some .abandoned } else r
      let carried := gone.foldl (fun v r => carryAddition r.merchant r.payout v) { t with batch := { s.batch with records := records } }
      let settles := ∀ r ∈ records, r.disposition = .pay →
        r.release = some .paid ∨ r.release = some .returned ∨ r.release = some .abandoned
      ∃ v u, exec .abandon s = .next u ∧
        (settles → v = handNotice (.batchSettled s.batch.cycle) { carried with batch := { carried.batch with state := .settled } }) ∧
        (¬settles → v = carried) ∧
        u = sendReply 0x53 tag .accepted
          (beBytes 4 gone.length ++ moneyBytes ((gone.map BatchRecord.payout).sum : Nat) ++ beBytes 1 v.batch.state.code) v ∧
        (settles → u.batch = { s.batch with records := records, state := .settled }) ∧
        (¬settles → u.batch = { s.batch with records := records }) ∧
        u = { t with
          batch := u.batch, positions := u.positions, noticeNumber := u.noticeNumber, officeOut := u.officeOut,
          counters := u.counters } ∧
        (∀ m, ∃ carry mark, positionAt u m = { positionAt s m with carry := carry, carryClamp := mark }) ∧
        (∀ m, (∀ r ∈ gone, r.merchant ≠ m) → positionAt u m = positionAt s m) ∧
        (∀ before r after, gone = before ++ r :: after → (∀ q ∈ before ++ after, q.merchant ≠ r.merchant) →
          let p := positionAt s r.merchant
          let sum := p.carry + r.payout
          positionAt u r.merchant = { p with
            carry := max (-(2 ^ 62)) (min sum (2 ^ 62 - 1))
            carryClamp := p.carryClamp || decide (sum < -(2 ^ 62) ∨ 2 ^ 62 - 1 < sum) }))

/-! ### Invariants that every step keeps -/

/-- The soundness conditions hold of the state right after reset. -/
def Obligations.ResetIsSound : Prop :=
  withinCapacities State.reset = true ∧ storesCanonical State.reset = true ∧ clockInRange State.reset = true ∧
    countersInRange State.reset = true ∧ moneyOnCards State.reset = true ∧ budgetAccounts State.reset = true ∧
    marksFollowCursor State.reset = true ∧ writePositionInRange State.reset = true ∧ cardsWithinLimits State.reset = true ∧
    balancesWithinCeilings State.reset = true ∧ tablesUnambiguous State.reset ∧ clearsStandOnClearingPages State.reset ∧
    liveCountsMatch State.reset = true ∧ numbersStandOnce State.reset = true ∧ cycleBalances State.reset = true ∧
    reversalCovered State.reset ∧ batchNamesClosedCycle State.reset = true ∧ windowHoldsSent State.reset = true

/-- R172, R174, R175, R183: no step takes a queue above its capacity. Every step keeps every store in canonical form, the
write position at a position (R71) and the counters in range (R30, R168, R177, R183). The canonical form of a store is the
model's own choice of data (log 18). -/
def Obligations.StepsKeepTheQueuesAndStoresInForm : Prop :=
  (∀ s t : State, withinCapacities s = true → step s = .next t → withinCapacities t = true) ∧
  (∀ s t : State, storesCanonical s = true → writePositionInRange s = true → countersInRange s = true → step s = .next t →
    storesCanonical t = true ∧ writePositionInRange t = true ∧ countersInRange t = true)

/-- R188 and R189: the clock stays in range, and T does not move backward while the clock is set. -/
def Obligations.TimeNeverMovesBackward : Prop :=
  ∀ s t : State, clockInRange s = true → step s = .next t →
    clockInRange t = true ∧
      ∀ before after, timeOf s.clock = some before → timeOf t.clock = some after → before ≤ after

/-- R53 and R9: every step keeps the liability counter equal to the sum of the balances of the ACTIVE and SUSPENDED cards, and
the holds of each card within its balance. -/
def Obligations.LiabilityEqualsTheMoneyOnCards : Prop :=
  ∀ s t : State, moneyOnCards s = true → step s = .next t → moneyOnCards t = true

/-- R115: every step keeps the liability counter at the opening liability plus S + F - R of all current banks while no current
bank is SATURATED. What R119 says of a bank that is not saturated, that it holds what a reversal takes from it, is a premise on
the step: no condition on one state follows it through the 256 laps after which a reference names another entry (R65, R71). -/
def Obligations.LiabilityEqualsTheOpeningOnePlusTheBanks : Prop :=
  ∀ s t : State, cycleBalances s = true → reversalCovered s → step s = .next t →
    cycleBalances t = true ∧
      (nothingSaturated t = true → (t.liability : Int) = t.openingLiability + currentOutstanding t)

/-- R8 and R9: every step keeps each card at four holds at most and at no more than the largest ceiling; and, the live-card
counts being right, within the ceiling of its own program, which R3 keeps from falling while the program has live cards. -/
def Obligations.CardsStayWithinTheirLimits : Prop :=
  (∀ s t : State, cardsWithinLimits s = true → step s = .next t → cardsWithinLimits t = true) ∧
  ∀ s t : State, liveCountsMatch s = true → balancesWithinCeilings s = true → step s = .next t →
    balancesWithinCeilings t = true ∧ ∀ k c, cardAt t k = some c → c.balance ≤ (programAt t c.program).ceiling

/-- R6: every step keeps each live-card count at the number of live cards of its program. R11 and R10: every step keeps each
card in the probe window of its number, and its number in no other slot. -/
def Obligations.CardsAreCountedAndStandOnce : Prop :=
  ∀ s t : State, step s = .next t →
    (liveCountsMatch s = true → liveCountsMatch t = true) ∧ (numbersStandOnce s = true → numbersStandOnce t = true)

/-- R148: every step keeps the remaining budget equal to the granted budget less the payouts SENT, PAID and UNCONFIRMED. -/
def Obligations.BudgetAccountsForEveryPayout : Prop :=
  ∀ s t : State, budgetAccounts s = true → step s = .next t → budgetAccounts t = true

/-- R156, R136: every step keeps the window on exactly the SENT records, a merchant in one slot at most. But for an erasure
made again after a reset, and for the reset itself, the SENT records are as many as the occupied slots, at most 16. That a
STORE_CLEAR keeps the slots until its completion is the model's reading (log 19). -/
def Obligations.WindowHoldsExactlyTheSentRecords : Prop :=
  (∀ s t : State, windowHoldsSent s = true → step s = .next t → windowHoldsSent t = true) ∧
  ∀ s : State, windowHoldsSent s = true → s.inReset = false → s.clearRun = .none ∨ s.clearRun = .accepted →
    sentCount s.batch.records = occupiedSlots s.window ∧ occupiedSlots s.window ≤ 16

/-- R114 and R128: every step keeps the computed marks in step with the batch and its cursor. -/
def Obligations.ComputedMarksFollowTheCursor : Prop :=
  ∀ s t : State, marksFollowCursor s = true → step s = .next t → marksFollowCursor t = true

/-- R127: every step keeps the batch cycle of a batch that is not EMPTY at the current cycle number less 1, modulo 65,536. -/
def Obligations.BatchSettlesTheCycleBeforeTheCurrentOne : Prop :=
  ∀ s t : State, batchNamesClosedCycle s = true → step s = .next t → batchNamesClosedCycle t = true

/-- R2, R3, R109, R110 and R101, R106: every step keeps program ranges and lane stations unambiguous, and a clear in flight on
pages that are CLEARING. -/
def Obligations.StepsKeepTheTablesUnambiguous : Prop :=
  ∀ s t : State, step s = .next t →
    (tablesUnambiguous s → tablesUnambiguous t) ∧ (clearsStandOnClearingPages s → clearsStandOnClearingPages t)
end

