-- ==== Sys2Proof/Laws/State.lean ====
section
/-! SUPPORT. What the shared operations leave alone: one lemma a field an operation, so that no proof unfolds a record
update. -/

namespace Sys2Proof.Machine

/-! ### offerOffice -/

section
variable (o : Origin) (f : Frame) (s : State)

@[simp] theorem offerOffice_inReset : (offerOffice o f s).inReset = s.inReset := rfl
@[simp] theorem offerOffice_configured : (offerOffice o f s).configured = s.configured := rfl
@[simp] theorem offerOffice_settings : (offerOffice o f s).settings = s.settings := rfl
@[simp] theorem offerOffice_storeClearMark : (offerOffice o f s).storeClearMark = s.storeClearMark := rfl
@[simp] theorem offerOffice_clearRun : (offerOffice o f s).clearRun = s.clearRun := rfl
@[simp] theorem offerOffice_restartPending : (offerOffice o f s).restartPending = s.restartPending := rfl
@[simp] theorem offerOffice_mode : (offerOffice o f s).mode = s.mode := rfl
@[simp] theorem offerOffice_clock : (offerOffice o f s).clock = s.clock := rfl
@[simp] theorem offerOffice_noticeNumber : (offerOffice o f s).noticeNumber = s.noticeNumber := rfl
@[simp] theorem offerOffice_shopLink : (offerOffice o f s).shopLink = s.shopLink := rfl
@[simp] theorem offerOffice_officeLink : (offerOffice o f s).officeLink = s.officeLink := rfl
@[simp] theorem offerOffice_toOffice : (offerOffice o f s).toOffice = s.toOffice := rfl
@[simp] theorem offerOffice_toShop : (offerOffice o f s).toShop = s.toShop := rfl
@[simp] theorem offerOffice_shopOut : (offerOffice o f s).shopOut = s.shopOut := rfl
@[simp] theorem offerOffice_ingress : (offerOffice o f s).ingress = s.ingress := rfl
@[simp] theorem offerOffice_mgmtIn : (offerOffice o f s).mgmtIn = s.mgmtIn := rfl
@[simp] theorem offerOffice_gatewayIn : (offerOffice o f s).gatewayIn = s.gatewayIn := rfl
@[simp] theorem offerOffice_posting : (offerOffice o f s).posting = s.posting := rfl
@[simp] theorem offerOffice_cardSlot : (offerOffice o f s).cardSlot = s.cardSlot := rfl
@[simp] theorem offerOffice_liability : (offerOffice o f s).liability = s.liability := rfl
@[simp] theorem offerOffice_programs : (offerOffice o f s).programs = s.programs := rfl
@[simp] theorem offerOffice_cards : (offerOffice o f s).cards = s.cards := rfl
@[simp] theorem offerOffice_journal : (offerOffice o f s).journal = s.journal := rfl
@[simp] theorem offerOffice_writePos : (offerOffice o f s).writePos = s.writePos := rfl
@[simp] theorem offerOffice_lanes : (offerOffice o f s).lanes = s.lanes := rfl
@[simp] theorem offerOffice_terms : (offerOffice o f s).terms = s.terms := rfl
@[simp] theorem offerOffice_pages : (offerOffice o f s).pages = s.pages := rfl
@[simp] theorem offerOffice_clearOp : (offerOffice o f s).clearOp = s.clearOp := rfl
@[simp] theorem offerOffice_positions : (offerOffice o f s).positions = s.positions := rfl
@[simp] theorem offerOffice_cycle : (offerOffice o f s).cycle = s.cycle := rfl
@[simp] theorem offerOffice_openingLiability : (offerOffice o f s).openingLiability = s.openingLiability := rfl
@[simp] theorem offerOffice_batch : (offerOffice o f s).batch = s.batch := rfl
@[simp] theorem offerOffice_window : (offerOffice o f s).window = s.window := rfl
@[simp] theorem offerOffice_awaiting : (offerOffice o f s).awaiting = s.awaiting := rfl
@[simp] theorem offerOffice_out : (offerOffice o f s).out = s.out := rfl
@[simp] theorem offerOffice_freeCount : (offerOffice o f s).freeCount = s.freeCount := rfl
@[simp] theorem offerOffice_pending : (offerOffice o f s).pending = s.pending := rfl

end

/-! ### handNotice -/

section
variable (n : Notice) (s : State)

@[simp] theorem handNotice_inReset : (handNotice n s).inReset = s.inReset := rfl
@[simp] theorem handNotice_configured : (handNotice n s).configured = s.configured := rfl
@[simp] theorem handNotice_settings : (handNotice n s).settings = s.settings := rfl
@[simp] theorem handNotice_storeClearMark : (handNotice n s).storeClearMark = s.storeClearMark := rfl
@[simp] theorem handNotice_clearRun : (handNotice n s).clearRun = s.clearRun := rfl
@[simp] theorem handNotice_restartPending : (handNotice n s).restartPending = s.restartPending := rfl
@[simp] theorem handNotice_mode : (handNotice n s).mode = s.mode := rfl
@[simp] theorem handNotice_clock : (handNotice n s).clock = s.clock := rfl
@[simp] theorem handNotice_shopLink : (handNotice n s).shopLink = s.shopLink := rfl
@[simp] theorem handNotice_officeLink : (handNotice n s).officeLink = s.officeLink := rfl
@[simp] theorem handNotice_toOffice : (handNotice n s).toOffice = s.toOffice := rfl
@[simp] theorem handNotice_toShop : (handNotice n s).toShop = s.toShop := rfl
@[simp] theorem handNotice_shopOut : (handNotice n s).shopOut = s.shopOut := rfl
@[simp] theorem handNotice_ingress : (handNotice n s).ingress = s.ingress := rfl
@[simp] theorem handNotice_mgmtIn : (handNotice n s).mgmtIn = s.mgmtIn := rfl
@[simp] theorem handNotice_gatewayIn : (handNotice n s).gatewayIn = s.gatewayIn := rfl
@[simp] theorem handNotice_posting : (handNotice n s).posting = s.posting := rfl
@[simp] theorem handNotice_cardSlot : (handNotice n s).cardSlot = s.cardSlot := rfl
@[simp] theorem handNotice_liability : (handNotice n s).liability = s.liability := rfl
@[simp] theorem handNotice_programs : (handNotice n s).programs = s.programs := rfl
@[simp] theorem handNotice_cards : (handNotice n s).cards = s.cards := rfl
@[simp] theorem handNotice_journal : (handNotice n s).journal = s.journal := rfl
@[simp] theorem handNotice_writePos : (handNotice n s).writePos = s.writePos := rfl
@[simp] theorem handNotice_lanes : (handNotice n s).lanes = s.lanes := rfl
@[simp] theorem handNotice_terms : (handNotice n s).terms = s.terms := rfl
@[simp] theorem handNotice_pages : (handNotice n s).pages = s.pages := rfl
@[simp] theorem handNotice_clearOp : (handNotice n s).clearOp = s.clearOp := rfl
@[simp] theorem handNotice_positions : (handNotice n s).positions = s.positions := rfl
@[simp] theorem handNotice_cycle : (handNotice n s).cycle = s.cycle := rfl
@[simp] theorem handNotice_openingLiability : (handNotice n s).openingLiability = s.openingLiability := rfl
@[simp] theorem handNotice_batch : (handNotice n s).batch = s.batch := rfl
@[simp] theorem handNotice_window : (handNotice n s).window = s.window := rfl
@[simp] theorem handNotice_awaiting : (handNotice n s).awaiting = s.awaiting := rfl
@[simp] theorem handNotice_out : (handNotice n s).out = s.out := rfl
@[simp] theorem handNotice_freeCount : (handNotice n s).freeCount = s.freeCount := rfl
@[simp] theorem handNotice_pending : (handNotice n s).pending = s.pending := rfl

end

/-! ### handNotices -/

/-- Notices change the notice number, the office queue and the counters, and nothing else. -/
theorem handNotices_frame (ns : List Notice) (s : State) :
    ∃ n q c, handNotices ns s = { s with noticeNumber := n, officeOut := q, counters := c } := by
  induction ns generalizing s with
  | nil => exact ⟨s.noticeNumber, s.officeOut, s.counters, rfl⟩
  | cons a rest ih =>
    obtain ⟨n, q, c, h⟩ := ih (handNotice a s)
    exact ⟨n, q, c, h⟩

/-! ### handNotices, field by field -/

section
variable (ns : List Notice) (s : State)

@[simp] theorem handNotices_inReset : (handNotices ns s).inReset = s.inReset := by obtain ⟨_, _, _, h⟩ := handNotices_frame ns s; rw [h]
@[simp] theorem handNotices_configured : (handNotices ns s).configured = s.configured := by obtain ⟨_, _, _, h⟩ := handNotices_frame ns s; rw [h]
@[simp] theorem handNotices_settings : (handNotices ns s).settings = s.settings := by obtain ⟨_, _, _, h⟩ := handNotices_frame ns s; rw [h]
@[simp] theorem handNotices_storeClearMark : (handNotices ns s).storeClearMark = s.storeClearMark := by obtain ⟨_, _, _, h⟩ := handNotices_frame ns s; rw [h]
@[simp] theorem handNotices_clearRun : (handNotices ns s).clearRun = s.clearRun := by obtain ⟨_, _, _, h⟩ := handNotices_frame ns s; rw [h]
@[simp] theorem handNotices_restartPending : (handNotices ns s).restartPending = s.restartPending := by obtain ⟨_, _, _, h⟩ := handNotices_frame ns s; rw [h]
@[simp] theorem handNotices_mode : (handNotices ns s).mode = s.mode := by obtain ⟨_, _, _, h⟩ := handNotices_frame ns s; rw [h]
@[simp] theorem handNotices_clock : (handNotices ns s).clock = s.clock := by obtain ⟨_, _, _, h⟩ := handNotices_frame ns s; rw [h]
@[simp] theorem handNotices_shopLink : (handNotices ns s).shopLink = s.shopLink := by obtain ⟨_, _, _, h⟩ := handNotices_frame ns s; rw [h]
@[simp] theorem handNotices_officeLink : (handNotices ns s).officeLink = s.officeLink := by obtain ⟨_, _, _, h⟩ := handNotices_frame ns s; rw [h]
@[simp] theorem handNotices_toOffice : (handNotices ns s).toOffice = s.toOffice := by obtain ⟨_, _, _, h⟩ := handNotices_frame ns s; rw [h]
@[simp] theorem handNotices_toShop : (handNotices ns s).toShop = s.toShop := by obtain ⟨_, _, _, h⟩ := handNotices_frame ns s; rw [h]
@[simp] theorem handNotices_shopOut : (handNotices ns s).shopOut = s.shopOut := by obtain ⟨_, _, _, h⟩ := handNotices_frame ns s; rw [h]
@[simp] theorem handNotices_ingress : (handNotices ns s).ingress = s.ingress := by obtain ⟨_, _, _, h⟩ := handNotices_frame ns s; rw [h]
@[simp] theorem handNotices_mgmtIn : (handNotices ns s).mgmtIn = s.mgmtIn := by obtain ⟨_, _, _, h⟩ := handNotices_frame ns s; rw [h]
@[simp] theorem handNotices_gatewayIn : (handNotices ns s).gatewayIn = s.gatewayIn := by obtain ⟨_, _, _, h⟩ := handNotices_frame ns s; rw [h]
@[simp] theorem handNotices_posting : (handNotices ns s).posting = s.posting := by obtain ⟨_, _, _, h⟩ := handNotices_frame ns s; rw [h]
@[simp] theorem handNotices_cardSlot : (handNotices ns s).cardSlot = s.cardSlot := by obtain ⟨_, _, _, h⟩ := handNotices_frame ns s; rw [h]
@[simp] theorem handNotices_liability : (handNotices ns s).liability = s.liability := by obtain ⟨_, _, _, h⟩ := handNotices_frame ns s; rw [h]
@[simp] theorem handNotices_programs : (handNotices ns s).programs = s.programs := by obtain ⟨_, _, _, h⟩ := handNotices_frame ns s; rw [h]
@[simp] theorem handNotices_cards : (handNotices ns s).cards = s.cards := by obtain ⟨_, _, _, h⟩ := handNotices_frame ns s; rw [h]
@[simp] theorem handNotices_journal : (handNotices ns s).journal = s.journal := by obtain ⟨_, _, _, h⟩ := handNotices_frame ns s; rw [h]
@[simp] theorem handNotices_writePos : (handNotices ns s).writePos = s.writePos := by obtain ⟨_, _, _, h⟩ := handNotices_frame ns s; rw [h]
@[simp] theorem handNotices_lanes : (handNotices ns s).lanes = s.lanes := by obtain ⟨_, _, _, h⟩ := handNotices_frame ns s; rw [h]
@[simp] theorem handNotices_terms : (handNotices ns s).terms = s.terms := by obtain ⟨_, _, _, h⟩ := handNotices_frame ns s; rw [h]
@[simp] theorem handNotices_pages : (handNotices ns s).pages = s.pages := by obtain ⟨_, _, _, h⟩ := handNotices_frame ns s; rw [h]
@[simp] theorem handNotices_clearOp : (handNotices ns s).clearOp = s.clearOp := by obtain ⟨_, _, _, h⟩ := handNotices_frame ns s; rw [h]
@[simp] theorem handNotices_positions : (handNotices ns s).positions = s.positions := by obtain ⟨_, _, _, h⟩ := handNotices_frame ns s; rw [h]
@[simp] theorem handNotices_cycle : (handNotices ns s).cycle = s.cycle := by obtain ⟨_, _, _, h⟩ := handNotices_frame ns s; rw [h]
@[simp] theorem handNotices_openingLiability : (handNotices ns s).openingLiability = s.openingLiability := by obtain ⟨_, _, _, h⟩ := handNotices_frame ns s; rw [h]
@[simp] theorem handNotices_batch : (handNotices ns s).batch = s.batch := by obtain ⟨_, _, _, h⟩ := handNotices_frame ns s; rw [h]
@[simp] theorem handNotices_window : (handNotices ns s).window = s.window := by obtain ⟨_, _, _, h⟩ := handNotices_frame ns s; rw [h]
@[simp] theorem handNotices_awaiting : (handNotices ns s).awaiting = s.awaiting := by obtain ⟨_, _, _, h⟩ := handNotices_frame ns s; rw [h]
@[simp] theorem handNotices_out : (handNotices ns s).out = s.out := by obtain ⟨_, _, _, h⟩ := handNotices_frame ns s; rw [h]
@[simp] theorem handNotices_freeCount : (handNotices ns s).freeCount = s.freeCount := by obtain ⟨_, _, _, h⟩ := handNotices_frame ns s; rw [h]
@[simp] theorem handNotices_pending : (handNotices ns s).pending = s.pending := by obtain ⟨_, _, _, h⟩ := handNotices_frame ns s; rw [h]

end

/-! ### sendReply -/

section
variable (code tag : Nat) (reason : ReplyReason) (block : List Byte) (s : State)

@[simp] theorem sendReply_inReset : (sendReply code tag reason block s).inReset = s.inReset := rfl
@[simp] theorem sendReply_configured : (sendReply code tag reason block s).configured = s.configured := rfl
@[simp] theorem sendReply_settings : (sendReply code tag reason block s).settings = s.settings := rfl
@[simp] theorem sendReply_storeClearMark : (sendReply code tag reason block s).storeClearMark = s.storeClearMark := rfl
@[simp] theorem sendReply_clearRun : (sendReply code tag reason block s).clearRun = s.clearRun := rfl
@[simp] theorem sendReply_restartPending : (sendReply code tag reason block s).restartPending = s.restartPending := rfl
@[simp] theorem sendReply_mode : (sendReply code tag reason block s).mode = s.mode := rfl
@[simp] theorem sendReply_clock : (sendReply code tag reason block s).clock = s.clock := rfl
@[simp] theorem sendReply_noticeNumber : (sendReply code tag reason block s).noticeNumber = s.noticeNumber := rfl
@[simp] theorem sendReply_shopLink : (sendReply code tag reason block s).shopLink = s.shopLink := rfl
@[simp] theorem sendReply_officeLink : (sendReply code tag reason block s).officeLink = s.officeLink := rfl
@[simp] theorem sendReply_toOffice : (sendReply code tag reason block s).toOffice = s.toOffice := rfl
@[simp] theorem sendReply_toShop : (sendReply code tag reason block s).toShop = s.toShop := rfl
@[simp] theorem sendReply_shopOut : (sendReply code tag reason block s).shopOut = s.shopOut := rfl
@[simp] theorem sendReply_ingress : (sendReply code tag reason block s).ingress = s.ingress := rfl
@[simp] theorem sendReply_mgmtIn : (sendReply code tag reason block s).mgmtIn = s.mgmtIn := rfl
@[simp] theorem sendReply_gatewayIn : (sendReply code tag reason block s).gatewayIn = s.gatewayIn := rfl
@[simp] theorem sendReply_posting : (sendReply code tag reason block s).posting = s.posting := rfl
@[simp] theorem sendReply_cardSlot : (sendReply code tag reason block s).cardSlot = s.cardSlot := rfl
@[simp] theorem sendReply_liability : (sendReply code tag reason block s).liability = s.liability := rfl
@[simp] theorem sendReply_programs : (sendReply code tag reason block s).programs = s.programs := rfl
@[simp] theorem sendReply_cards : (sendReply code tag reason block s).cards = s.cards := rfl
@[simp] theorem sendReply_journal : (sendReply code tag reason block s).journal = s.journal := rfl
@[simp] theorem sendReply_writePos : (sendReply code tag reason block s).writePos = s.writePos := rfl
@[simp] theorem sendReply_lanes : (sendReply code tag reason block s).lanes = s.lanes := rfl
@[simp] theorem sendReply_terms : (sendReply code tag reason block s).terms = s.terms := rfl
@[simp] theorem sendReply_pages : (sendReply code tag reason block s).pages = s.pages := rfl
@[simp] theorem sendReply_clearOp : (sendReply code tag reason block s).clearOp = s.clearOp := rfl
@[simp] theorem sendReply_positions : (sendReply code tag reason block s).positions = s.positions := rfl
@[simp] theorem sendReply_cycle : (sendReply code tag reason block s).cycle = s.cycle := rfl
@[simp] theorem sendReply_openingLiability : (sendReply code tag reason block s).openingLiability = s.openingLiability := rfl
@[simp] theorem sendReply_batch : (sendReply code tag reason block s).batch = s.batch := rfl
@[simp] theorem sendReply_window : (sendReply code tag reason block s).window = s.window := rfl
@[simp] theorem sendReply_awaiting : (sendReply code tag reason block s).awaiting = s.awaiting := rfl
@[simp] theorem sendReply_out : (sendReply code tag reason block s).out = s.out := rfl
@[simp] theorem sendReply_freeCount : (sendReply code tag reason block s).freeCount = s.freeCount := rfl
@[simp] theorem sendReply_pending : (sendReply code tag reason block s).pending = s.pending := rfl

end

/-! ### placeResponse -/

section
variable (r : TillRequest) (o : TillOutcome) (c : Conditions) (g : Nat) (v : CardView) (ref : Option JournalRef) (s : State)

@[simp] theorem placeResponse_inReset : (placeResponse r o c g v ref s).inReset = s.inReset := rfl
@[simp] theorem placeResponse_configured : (placeResponse r o c g v ref s).configured = s.configured := rfl
@[simp] theorem placeResponse_settings : (placeResponse r o c g v ref s).settings = s.settings := rfl
@[simp] theorem placeResponse_storeClearMark : (placeResponse r o c g v ref s).storeClearMark = s.storeClearMark := rfl
@[simp] theorem placeResponse_clearRun : (placeResponse r o c g v ref s).clearRun = s.clearRun := rfl
@[simp] theorem placeResponse_restartPending : (placeResponse r o c g v ref s).restartPending = s.restartPending := rfl
@[simp] theorem placeResponse_mode : (placeResponse r o c g v ref s).mode = s.mode := rfl
@[simp] theorem placeResponse_clock : (placeResponse r o c g v ref s).clock = s.clock := rfl
@[simp] theorem placeResponse_noticeNumber : (placeResponse r o c g v ref s).noticeNumber = s.noticeNumber := rfl
@[simp] theorem placeResponse_shopLink : (placeResponse r o c g v ref s).shopLink = s.shopLink := rfl
@[simp] theorem placeResponse_officeLink : (placeResponse r o c g v ref s).officeLink = s.officeLink := rfl
@[simp] theorem placeResponse_toOffice : (placeResponse r o c g v ref s).toOffice = s.toOffice := rfl
@[simp] theorem placeResponse_toShop : (placeResponse r o c g v ref s).toShop = s.toShop := rfl
@[simp] theorem placeResponse_officeOut : (placeResponse r o c g v ref s).officeOut = s.officeOut := rfl
@[simp] theorem placeResponse_ingress : (placeResponse r o c g v ref s).ingress = s.ingress := rfl
@[simp] theorem placeResponse_mgmtIn : (placeResponse r o c g v ref s).mgmtIn = s.mgmtIn := rfl
@[simp] theorem placeResponse_gatewayIn : (placeResponse r o c g v ref s).gatewayIn = s.gatewayIn := rfl
@[simp] theorem placeResponse_cardSlot : (placeResponse r o c g v ref s).cardSlot = s.cardSlot := rfl
@[simp] theorem placeResponse_liability : (placeResponse r o c g v ref s).liability = s.liability := rfl
@[simp] theorem placeResponse_programs : (placeResponse r o c g v ref s).programs = s.programs := rfl
@[simp] theorem placeResponse_cards : (placeResponse r o c g v ref s).cards = s.cards := rfl
@[simp] theorem placeResponse_journal : (placeResponse r o c g v ref s).journal = s.journal := rfl
@[simp] theorem placeResponse_writePos : (placeResponse r o c g v ref s).writePos = s.writePos := rfl
@[simp] theorem placeResponse_lanes : (placeResponse r o c g v ref s).lanes = s.lanes := rfl
@[simp] theorem placeResponse_terms : (placeResponse r o c g v ref s).terms = s.terms := rfl
@[simp] theorem placeResponse_pages : (placeResponse r o c g v ref s).pages = s.pages := rfl
@[simp] theorem placeResponse_clearOp : (placeResponse r o c g v ref s).clearOp = s.clearOp := rfl
@[simp] theorem placeResponse_positions : (placeResponse r o c g v ref s).positions = s.positions := rfl
@[simp] theorem placeResponse_cycle : (placeResponse r o c g v ref s).cycle = s.cycle := rfl
@[simp] theorem placeResponse_openingLiability : (placeResponse r o c g v ref s).openingLiability = s.openingLiability := rfl
@[simp] theorem placeResponse_batch : (placeResponse r o c g v ref s).batch = s.batch := rfl
@[simp] theorem placeResponse_window : (placeResponse r o c g v ref s).window = s.window := rfl
@[simp] theorem placeResponse_awaiting : (placeResponse r o c g v ref s).awaiting = s.awaiting := rfl
@[simp] theorem placeResponse_out : (placeResponse r o c g v ref s).out = s.out := rfl
@[simp] theorem placeResponse_freeCount : (placeResponse r o c g v ref s).freeCount = s.freeCount := rfl
@[simp] theorem placeResponse_pending : (placeResponse r o c g v ref s).pending = s.pending := rfl

end

/-! ### finishCard -/

section
variable (q : CardRequest) (reason : ReplyReason) (block : List Byte) (s : State)

@[simp] theorem finishCard_inReset : (finishCard q reason block s).inReset = s.inReset := rfl
@[simp] theorem finishCard_configured : (finishCard q reason block s).configured = s.configured := rfl
@[simp] theorem finishCard_settings : (finishCard q reason block s).settings = s.settings := rfl
@[simp] theorem finishCard_storeClearMark : (finishCard q reason block s).storeClearMark = s.storeClearMark := rfl
@[simp] theorem finishCard_clearRun : (finishCard q reason block s).clearRun = s.clearRun := rfl
@[simp] theorem finishCard_restartPending : (finishCard q reason block s).restartPending = s.restartPending := rfl
@[simp] theorem finishCard_mode : (finishCard q reason block s).mode = s.mode := rfl
@[simp] theorem finishCard_clock : (finishCard q reason block s).clock = s.clock := rfl
@[simp] theorem finishCard_noticeNumber : (finishCard q reason block s).noticeNumber = s.noticeNumber := rfl
@[simp] theorem finishCard_shopLink : (finishCard q reason block s).shopLink = s.shopLink := rfl
@[simp] theorem finishCard_officeLink : (finishCard q reason block s).officeLink = s.officeLink := rfl
@[simp] theorem finishCard_toOffice : (finishCard q reason block s).toOffice = s.toOffice := rfl
@[simp] theorem finishCard_toShop : (finishCard q reason block s).toShop = s.toShop := rfl
@[simp] theorem finishCard_shopOut : (finishCard q reason block s).shopOut = s.shopOut := rfl
@[simp] theorem finishCard_ingress : (finishCard q reason block s).ingress = s.ingress := rfl
@[simp] theorem finishCard_mgmtIn : (finishCard q reason block s).mgmtIn = s.mgmtIn := rfl
@[simp] theorem finishCard_gatewayIn : (finishCard q reason block s).gatewayIn = s.gatewayIn := rfl
@[simp] theorem finishCard_liability : (finishCard q reason block s).liability = s.liability := rfl
@[simp] theorem finishCard_programs : (finishCard q reason block s).programs = s.programs := rfl
@[simp] theorem finishCard_cards : (finishCard q reason block s).cards = s.cards := rfl
@[simp] theorem finishCard_journal : (finishCard q reason block s).journal = s.journal := rfl
@[simp] theorem finishCard_writePos : (finishCard q reason block s).writePos = s.writePos := rfl
@[simp] theorem finishCard_lanes : (finishCard q reason block s).lanes = s.lanes := rfl
@[simp] theorem finishCard_terms : (finishCard q reason block s).terms = s.terms := rfl
@[simp] theorem finishCard_pages : (finishCard q reason block s).pages = s.pages := rfl
@[simp] theorem finishCard_clearOp : (finishCard q reason block s).clearOp = s.clearOp := rfl
@[simp] theorem finishCard_positions : (finishCard q reason block s).positions = s.positions := rfl
@[simp] theorem finishCard_cycle : (finishCard q reason block s).cycle = s.cycle := rfl
@[simp] theorem finishCard_openingLiability : (finishCard q reason block s).openingLiability = s.openingLiability := rfl
@[simp] theorem finishCard_batch : (finishCard q reason block s).batch = s.batch := rfl
@[simp] theorem finishCard_window : (finishCard q reason block s).window = s.window := rfl
@[simp] theorem finishCard_awaiting : (finishCard q reason block s).awaiting = s.awaiting := rfl
@[simp] theorem finishCard_out : (finishCard q reason block s).out = s.out := rfl
@[simp] theorem finishCard_freeCount : (finishCard q reason block s).freeCount = s.freeCount := rfl
@[simp] theorem finishCard_pending : (finishCard q reason block s).pending = s.pending := rfl

end

/-! ### jointWrite -/

section
variable (h : Hand) (p : Position) (s : State)

@[simp] theorem jointWrite_inReset : (jointWrite h p s).inReset = s.inReset := rfl
@[simp] theorem jointWrite_configured : (jointWrite h p s).configured = s.configured := rfl
@[simp] theorem jointWrite_settings : (jointWrite h p s).settings = s.settings := rfl
@[simp] theorem jointWrite_storeClearMark : (jointWrite h p s).storeClearMark = s.storeClearMark := rfl
@[simp] theorem jointWrite_clearRun : (jointWrite h p s).clearRun = s.clearRun := rfl
@[simp] theorem jointWrite_restartPending : (jointWrite h p s).restartPending = s.restartPending := rfl
@[simp] theorem jointWrite_mode : (jointWrite h p s).mode = s.mode := rfl
@[simp] theorem jointWrite_clock : (jointWrite h p s).clock = s.clock := rfl
@[simp] theorem jointWrite_noticeNumber : (jointWrite h p s).noticeNumber = s.noticeNumber := rfl
@[simp] theorem jointWrite_shopLink : (jointWrite h p s).shopLink = s.shopLink := rfl
@[simp] theorem jointWrite_officeLink : (jointWrite h p s).officeLink = s.officeLink := rfl
@[simp] theorem jointWrite_toOffice : (jointWrite h p s).toOffice = s.toOffice := rfl
@[simp] theorem jointWrite_toShop : (jointWrite h p s).toShop = s.toShop := rfl
@[simp] theorem jointWrite_shopOut : (jointWrite h p s).shopOut = s.shopOut := rfl
@[simp] theorem jointWrite_officeOut : (jointWrite h p s).officeOut = s.officeOut := rfl
@[simp] theorem jointWrite_ingress : (jointWrite h p s).ingress = s.ingress := rfl
@[simp] theorem jointWrite_mgmtIn : (jointWrite h p s).mgmtIn = s.mgmtIn := rfl
@[simp] theorem jointWrite_gatewayIn : (jointWrite h p s).gatewayIn = s.gatewayIn := rfl
@[simp] theorem jointWrite_counters : (jointWrite h p s).counters = s.counters := rfl
@[simp] theorem jointWrite_posting : (jointWrite h p s).posting = s.posting := rfl
@[simp] theorem jointWrite_cardSlot : (jointWrite h p s).cardSlot = s.cardSlot := rfl
@[simp] theorem jointWrite_terms : (jointWrite h p s).terms = s.terms := rfl
@[simp] theorem jointWrite_pages : (jointWrite h p s).pages = s.pages := rfl
@[simp] theorem jointWrite_clearOp : (jointWrite h p s).clearOp = s.clearOp := rfl
@[simp] theorem jointWrite_cycle : (jointWrite h p s).cycle = s.cycle := rfl
@[simp] theorem jointWrite_openingLiability : (jointWrite h p s).openingLiability = s.openingLiability := rfl
@[simp] theorem jointWrite_batch : (jointWrite h p s).batch = s.batch := rfl
@[simp] theorem jointWrite_window : (jointWrite h p s).window = s.window := rfl
@[simp] theorem jointWrite_awaiting : (jointWrite h p s).awaiting = s.awaiting := rfl
@[simp] theorem jointWrite_out : (jointWrite h p s).out = s.out := rfl
@[simp] theorem jointWrite_freeCount : (jointWrite h p s).freeCount = s.freeCount := rfl
@[simp] theorem jointWrite_pending : (jointWrite h p s).pending = s.pending := rfl

end

/-! ### placeInstructions -/

section
variable (s : State)

@[simp] theorem placeInstructions_inReset : (placeInstructions s).inReset = s.inReset := rfl
@[simp] theorem placeInstructions_configured : (placeInstructions s).configured = s.configured := rfl
@[simp] theorem placeInstructions_settings : (placeInstructions s).settings = s.settings := rfl
@[simp] theorem placeInstructions_storeClearMark : (placeInstructions s).storeClearMark = s.storeClearMark := rfl
@[simp] theorem placeInstructions_clearRun : (placeInstructions s).clearRun = s.clearRun := rfl
@[simp] theorem placeInstructions_restartPending : (placeInstructions s).restartPending = s.restartPending := rfl
@[simp] theorem placeInstructions_mode : (placeInstructions s).mode = s.mode := rfl
@[simp] theorem placeInstructions_clock : (placeInstructions s).clock = s.clock := rfl
@[simp] theorem placeInstructions_noticeNumber : (placeInstructions s).noticeNumber = s.noticeNumber := rfl
@[simp] theorem placeInstructions_shopLink : (placeInstructions s).shopLink = s.shopLink := rfl
@[simp] theorem placeInstructions_officeLink : (placeInstructions s).officeLink = s.officeLink := rfl
@[simp] theorem placeInstructions_toOffice : (placeInstructions s).toOffice = s.toOffice := rfl
@[simp] theorem placeInstructions_toShop : (placeInstructions s).toShop = s.toShop := rfl
@[simp] theorem placeInstructions_shopOut : (placeInstructions s).shopOut = s.shopOut := rfl
@[simp] theorem placeInstructions_ingress : (placeInstructions s).ingress = s.ingress := rfl
@[simp] theorem placeInstructions_mgmtIn : (placeInstructions s).mgmtIn = s.mgmtIn := rfl
@[simp] theorem placeInstructions_gatewayIn : (placeInstructions s).gatewayIn = s.gatewayIn := rfl
@[simp] theorem placeInstructions_posting : (placeInstructions s).posting = s.posting := rfl
@[simp] theorem placeInstructions_cardSlot : (placeInstructions s).cardSlot = s.cardSlot := rfl
@[simp] theorem placeInstructions_liability : (placeInstructions s).liability = s.liability := rfl
@[simp] theorem placeInstructions_programs : (placeInstructions s).programs = s.programs := rfl
@[simp] theorem placeInstructions_cards : (placeInstructions s).cards = s.cards := rfl
@[simp] theorem placeInstructions_journal : (placeInstructions s).journal = s.journal := rfl
@[simp] theorem placeInstructions_writePos : (placeInstructions s).writePos = s.writePos := rfl
@[simp] theorem placeInstructions_lanes : (placeInstructions s).lanes = s.lanes := rfl
@[simp] theorem placeInstructions_terms : (placeInstructions s).terms = s.terms := rfl
@[simp] theorem placeInstructions_pages : (placeInstructions s).pages = s.pages := rfl
@[simp] theorem placeInstructions_clearOp : (placeInstructions s).clearOp = s.clearOp := rfl
@[simp] theorem placeInstructions_positions : (placeInstructions s).positions = s.positions := rfl
@[simp] theorem placeInstructions_cycle : (placeInstructions s).cycle = s.cycle := rfl
@[simp] theorem placeInstructions_openingLiability : (placeInstructions s).openingLiability = s.openingLiability := rfl
@[simp] theorem placeInstructions_batch : (placeInstructions s).batch = s.batch := rfl
@[simp] theorem placeInstructions_out : (placeInstructions s).out = s.out := rfl
@[simp] theorem placeInstructions_freeCount : (placeInstructions s).freeCount = s.freeCount := rfl
@[simp] theorem placeInstructions_pending : (placeInstructions s).pending = s.pending := rfl

end

/-! ### carryAddition -/

section
variable (m : Nat) (a : Int) (s : State)

@[simp] theorem carryAddition_inReset : (carryAddition m a s).inReset = s.inReset := by simp [carryAddition]
@[simp] theorem carryAddition_configured : (carryAddition m a s).configured = s.configured := by simp [carryAddition]
@[simp] theorem carryAddition_settings : (carryAddition m a s).settings = s.settings := by simp [carryAddition]
@[simp] theorem carryAddition_storeClearMark : (carryAddition m a s).storeClearMark = s.storeClearMark := by simp [carryAddition]
@[simp] theorem carryAddition_clearRun : (carryAddition m a s).clearRun = s.clearRun := by simp [carryAddition]
@[simp] theorem carryAddition_restartPending : (carryAddition m a s).restartPending = s.restartPending := by simp [carryAddition]
@[simp] theorem carryAddition_mode : (carryAddition m a s).mode = s.mode := by simp [carryAddition]
@[simp] theorem carryAddition_clock : (carryAddition m a s).clock = s.clock := by simp [carryAddition]
@[simp] theorem carryAddition_shopLink : (carryAddition m a s).shopLink = s.shopLink := by simp [carryAddition]
@[simp] theorem carryAddition_officeLink : (carryAddition m a s).officeLink = s.officeLink := by simp [carryAddition]
@[simp] theorem carryAddition_toOffice : (carryAddition m a s).toOffice = s.toOffice := by simp [carryAddition]
@[simp] theorem carryAddition_toShop : (carryAddition m a s).toShop = s.toShop := by simp [carryAddition]
@[simp] theorem carryAddition_shopOut : (carryAddition m a s).shopOut = s.shopOut := by simp [carryAddition]
@[simp] theorem carryAddition_ingress : (carryAddition m a s).ingress = s.ingress := by simp [carryAddition]
@[simp] theorem carryAddition_mgmtIn : (carryAddition m a s).mgmtIn = s.mgmtIn := by simp [carryAddition]
@[simp] theorem carryAddition_gatewayIn : (carryAddition m a s).gatewayIn = s.gatewayIn := by simp [carryAddition]
@[simp] theorem carryAddition_posting : (carryAddition m a s).posting = s.posting := by simp [carryAddition]
@[simp] theorem carryAddition_cardSlot : (carryAddition m a s).cardSlot = s.cardSlot := by simp [carryAddition]
@[simp] theorem carryAddition_liability : (carryAddition m a s).liability = s.liability := by simp [carryAddition]
@[simp] theorem carryAddition_programs : (carryAddition m a s).programs = s.programs := by simp [carryAddition]
@[simp] theorem carryAddition_cards : (carryAddition m a s).cards = s.cards := by simp [carryAddition]
@[simp] theorem carryAddition_journal : (carryAddition m a s).journal = s.journal := by simp [carryAddition]
@[simp] theorem carryAddition_writePos : (carryAddition m a s).writePos = s.writePos := by simp [carryAddition]
@[simp] theorem carryAddition_lanes : (carryAddition m a s).lanes = s.lanes := by simp [carryAddition]
@[simp] theorem carryAddition_terms : (carryAddition m a s).terms = s.terms := by simp [carryAddition]
@[simp] theorem carryAddition_pages : (carryAddition m a s).pages = s.pages := by simp [carryAddition]
@[simp] theorem carryAddition_clearOp : (carryAddition m a s).clearOp = s.clearOp := by simp [carryAddition]
@[simp] theorem carryAddition_cycle : (carryAddition m a s).cycle = s.cycle := by simp [carryAddition]
@[simp] theorem carryAddition_openingLiability : (carryAddition m a s).openingLiability = s.openingLiability := by simp [carryAddition]
@[simp] theorem carryAddition_batch : (carryAddition m a s).batch = s.batch := by simp [carryAddition]
@[simp] theorem carryAddition_window : (carryAddition m a s).window = s.window := by simp [carryAddition]
@[simp] theorem carryAddition_awaiting : (carryAddition m a s).awaiting = s.awaiting := by simp [carryAddition]
@[simp] theorem carryAddition_out : (carryAddition m a s).out = s.out := by simp [carryAddition]
@[simp] theorem carryAddition_freeCount : (carryAddition m a s).freeCount = s.freeCount := by simp [carryAddition]
@[simp] theorem carryAddition_pending : (carryAddition m a s).pending = s.pending := by simp [carryAddition]

end

/-! ### The walk and what follows a change of release state -/

/-- A walk changes the batch, the window and the instructions awaiting egress. -/
theorem walkRecords_frame (s : State) : ∃ b w a, walkRecords s = { s with batch := b, window := w, awaiting := a } := ⟨_, _, _, rfl⟩

theorem releaseWalk_frame (s : State) :
    ∃ b w a q c, releaseWalk s = { s with batch := b, window := w, awaiting := a, officeOut := q, counters := c } := by
  unfold releaseWalk
  split
  · exact ⟨_, _, _, _, _, rfl⟩
  · exact ⟨s.batch, s.window, s.awaiting, s.officeOut, s.counters, rfl⟩

theorem afterChange_frame (s : State) :
    ∃ n b w a q c,
      afterChange s = { s with noticeNumber := n, batch := b, window := w, awaiting := a, officeOut := q, counters := c } := by
  unfold afterChange
  split
  · exact ⟨_, _, s.window, s.awaiting, _, _, rfl⟩
  · obtain ⟨b, w, a, q, c, h⟩ := releaseWalk_frame s
    exact ⟨s.noticeNumber, b, w, a, q, c, h⟩

end Sys2Proof.Machine
end

