-- ==== Sys2Proof/Laws/Stores.lean ====
section
/-! SUPPORT. What the stores' operations do: reads after writes, and that the canonical form is kept. -/

namespace Sys2Proof.Machine
variable {α : Type}

theorem Table.read_erase_same (d : α) (t : Table α) (k : Nat) : (t.erase k).read d k = d := by
  induction t with
  | nil => rfl
  | cons e rest ih =>
    obtain ⟨j, v⟩ := e
    by_cases h : j = k <;> simp_all [Table.erase, Table.read]

theorem Table.read_erase_ne (d : α) (t : Table α) {k j : Nat} (h : j ≠ k) : (t.erase k).read d j = t.read d j := by
  induction t with
  | nil => rfl
  | cons e rest ih =>
    obtain ⟨i, v⟩ := e
    by_cases hk : i = k
    · subst hk
      simp_all [Table.erase, Table.read, Ne.symm h]
    · simp_all [Table.erase, Table.read]

theorem Table.read_insert_ne (d : α) (t : Table α) {k j : Nat} (v : α) (h : j ≠ k) :
    (Table.insert k v t).read d j = t.read d j := by
  induction t with
  | nil => simp [Table.insert, Table.read, Ne.symm h]
  | cons e rest ih =>
    obtain ⟨i, w⟩ := e
    simp only [Table.insert]
    split <;> simp_all [Table.read, Ne.symm h]

theorem Table.read_insert_same (d : α) (t : Table α) (k : Nat) (v : α) (h : ∀ e ∈ t, e.1 ≠ k) :
    (Table.insert k v t).read d k = v := by
  induction t with
  | nil => simp [Table.insert, Table.read]
  | cons e rest ih =>
    obtain ⟨i, w⟩ := e
    have hi : i ≠ k := h (i, w) (by simp)
    simp only [Table.insert]
    split
    · simp [Table.read]
    · simp only [Table.read, hi, if_false]
      exact ih fun e he => h e (by simp [he])

theorem Table.ne_of_mem_erase {t : Table α} {k : Nat} {e : Nat × α} (h : e ∈ t.erase k) : e.1 ≠ k := by
  simp [Table.erase] at h
  exact h.2

/-- A read of the place just written. -/
@[simp] theorem Table.read_write_same [DecidableEq α] (d : α) (t : Table α) (k : Nat) (v : α) : (t.write d k v).read d k = v := by
  unfold Table.write
  split
  · next h => rw [Table.read_erase_same, h]
  · exact Table.read_insert_same d _ k v fun e he => Table.ne_of_mem_erase he

/-- A read of another place. -/
theorem Table.read_write_ne [DecidableEq α] (d : α) (t : Table α) {k j : Nat} (v : α) (h : j ≠ k) :
    (t.write d k v).read d j = t.read d j := by
  unfold Table.write
  split
  · exact Table.read_erase_ne d t h
  · rw [Table.read_insert_ne d _ v h, Table.read_erase_ne d t h]

/-- Both reads at once. -/
theorem Table.read_write [DecidableEq α] (d : α) (t : Table α) (k j : Nat) (v : α) :
    (t.write d k v).read d j = if j = k then v else t.read d j := by
  split
  · next h => subst h; simp
  · next h => exact Table.read_write_ne d t v h

/-! ### The canonical form -/

/-- The bound below an entry is met. -/
def Table.above (low : Option Nat) (k : Nat) : Prop := ∀ l, low = some l → l < k

theorem Table.wfFrom_cons [DecidableEq α] (d : α) (low : Option Nat) (k : Nat) (v : α) (rest : Table α) :
    Table.wfFrom d low ((k, v) :: rest) = true ↔ Table.above low k ∧ v ≠ d ∧ Table.wfFrom d (some k) rest = true := by
  cases low <;> simp [Table.wfFrom, Table.above, and_assoc]

theorem Table.wfFrom_weaken [DecidableEq α] (d : α) {low low' : Option Nat} {t : Table α} (h : Table.wfFrom d low t = true)
    (hl : ∀ k, Table.above low k → Table.above low' k) : Table.wfFrom d low' t = true := by
  cases t with
  | nil => rfl
  | cons e rest =>
    obtain ⟨k, v⟩ := e
    rw [Table.wfFrom_cons] at h ⊢
    exact ⟨hl k h.1, h.2⟩

theorem Table.wfFrom_filter [DecidableEq α] (d : α) (p : Nat × α → Bool) (low : Option Nat) (t : Table α)
    (h : Table.wfFrom d low t = true) : Table.wfFrom d low (t.filter p) = true := by
  induction t generalizing low with
  | nil => rfl
  | cons e rest ih =>
    obtain ⟨k, v⟩ := e
    rw [Table.wfFrom_cons] at h
    simp only [List.filter_cons]
    split
    · exact (Table.wfFrom_cons d low k v _).2 ⟨h.1, h.2.1, ih _ h.2.2⟩
    · refine ih low (Table.wfFrom_weaken d h.2.2 fun j hj l hl => ?_)
      exact lt_trans (h.1 l hl) (hj k rfl)

theorem Table.wfFrom_insert [DecidableEq α] (d : α) (k : Nat) (v : α) (hv : v ≠ d) (low : Option Nat) (t : Table α)
    (h : Table.wfFrom d low t = true) (hk : Table.above low k) (hne : ∀ e ∈ t, e.1 ≠ k) :
    Table.wfFrom d low (Table.insert k v t) = true := by
  induction t generalizing low with
  | nil => exact (Table.wfFrom_cons d low k v []).2 ⟨hk, hv, rfl⟩
  | cons e rest ih =>
    obtain ⟨j, w⟩ := e
    rw [Table.wfFrom_cons] at h
    have hj : j ≠ k := hne (j, w) (by simp)
    simp only [Table.insert]
    split
    · next hlt =>
      refine (Table.wfFrom_cons d low k v _).2 ⟨hk, hv, (Table.wfFrom_cons d _ j w rest).2 ⟨?_, h.2⟩⟩
      intro l hl
      cases hl
      exact hlt
    · next hlt =>
      refine (Table.wfFrom_cons d low j w _).2 ⟨h.1, h.2.1, ih (some j) h.2.2 ?_ fun e he => hne e (by simp [he])⟩
      intro l hl
      cases hl
      exact lt_of_le_of_ne (not_lt.1 hlt) hj

/-- A write keeps the canonical form. -/
theorem Table.wf_write [DecidableEq α] (d : α) (t : Table α) (k : Nat) (v : α) (h : t.wf d = true) : (t.write d k v).wf d = true := by
  have he : Table.wfFrom d none (t.erase k) = true := Table.wfFrom_filter d _ none t h
  unfold Table.write
  split
  · exact he
  · next hv =>
    exact Table.wfFrom_insert d k v hv none _ he (fun l hl => by cases hl) fun e he' => Table.ne_of_mem_erase he'

/-- A store whose numbers lie above a bound has nothing at or below it. -/
theorem Table.read_of_wfFrom_le [DecidableEq α] (d : α) (k j : Nat) (t : Table α) (h : Table.wfFrom d (some k) t = true) (hj : j ≤ k) :
    t.read d j = d := by
  induction t generalizing k with
  | nil => rfl
  | cons e rest ih =>
    obtain ⟨i, v⟩ := e
    rw [Table.wfFrom_cons] at h
    have hi : k < i := h.1 k rfl
    have : i ≠ j := by omega
    simp only [Table.read, this, if_false]
    exact ih i h.2.2 (by omega)

/-- An entry of a written store is the one written or one that stood at another number. -/
theorem Table.mem_write [DecidableEq α] (d : α) (t : Table α) (k : Nat) (v : α) {e : Nat × α} (h : e ∈ t.write d k v) :
    e = (k, v) ∧ v ≠ d ∨ e ∈ t ∧ e.1 ≠ k := by
  have kept : e ∈ t.erase k → e ∈ t ∧ e.1 ≠ k := fun h => ⟨List.mem_of_mem_filter h, Table.ne_of_mem_erase h⟩
  have placed : ∀ u : Table α, e ∈ u.insert k v → e = (k, v) ∨ e ∈ u := by
    intro u
    induction u with
    | nil => simp [Table.insert]
    | cons a rest ih =>
      simp only [Table.insert]
      split
      · simp
      · intro h
        rcases List.mem_cons.1 h with rfl | h
        · simp
        · rcases ih h with h | h <;> simp [h]
  unfold Table.write at h
  split at h
  · exact .inr (kept h)
  · next hv => exact (placed _ h).imp (fun e => ⟨e, hv⟩) kept

/-- The sum of a measure over the records of a store after a write: the record written counts in place of the one read there. -/
theorem Table.sum_write [DecidableEq α] {β : Type} [AddCommMonoid β] (d : α) (f : α → β) (hd : f d = 0) (t : Table α) (k : Nat) (v : α)
    (h : t.wf d = true) :
    ((t.write d k v).map fun e => f e.2).sum + f (t.read d k) = (t.map fun e => f e.2).sum + f v := by
  have inserted : ∀ u : Table α, ((u.insert k v).map fun e => f e.2).sum = (u.map fun e => f e.2).sum + f v := by
    intro u
    induction u with
    | nil => simp [Table.insert]
    | cons a rest ih =>
      simp only [Table.insert]
      split
      · simp [add_comm]
      · simp [ih, add_assoc]
  have erased : ∀ (low : Option Nat) (u : Table α), Table.wfFrom d low u = true →
      ((u.erase k).map fun e => f e.2).sum + f (u.read d k) = (u.map fun e => f e.2).sum := by
    intro low u
    induction u generalizing low with
    | nil => intro _; simp [Table.erase, Table.read, hd]
    | cons a rest ih =>
      obtain ⟨j, w⟩ := a
      intro hu
      rw [Table.wfFrom_cons] at hu
      by_cases same : j = k
      · subst same
        have gone : Table.erase ((j, w) :: rest) j = Table.erase rest j := by simp [Table.erase]
        have none : Table.read d rest j = d := Table.read_of_wfFrom_le d j j rest hu.2.2 (Nat.le_refl j)
        have rest' := ih (some j) hu.2.2
        rw [none, hd, add_zero] at rest'
        rw [gone, rest']
        simp [Table.read, add_comm]
      · have stays : Table.erase ((j, w) :: rest) k = (j, w) :: Table.erase rest k := by simp [Table.erase, same]
        rw [stays]
        simp only [Table.read, same, if_false, List.map_cons, List.sum_cons, add_assoc, ih (some j) hu.2.2]
  unfold Table.write
  split
  · next hv => rw [hv, hd, add_zero, erased none t h]
  · rw [inserted, add_right_comm, erased none t h]

/-- Dropping entries keeps the canonical form. -/
theorem Table.wf_filter [DecidableEq α] (d : α) (t : Table α) (p : Nat × α → Bool) (h : t.wf d = true) :
    Table.wf d (t.filter p) = true := Table.wfFrom_filter d p none t h

theorem Table.wf_dropWhere [DecidableEq α] (d : α) (t : Table α) (p : Nat → Bool) (h : t.wf d = true) :
    (t.dropWhere p).wf d = true := Table.wfFrom_filter d _ none t h

/-- A read after entries were dropped. -/
theorem Table.read_dropWhere (d : α) (t : Table α) (p : Nat → Bool) (k : Nat) :
    (t.dropWhere p).read d k = if p k then d else t.read d k := by
  induction t with
  | nil => simp [Table.dropWhere, Table.read]
  | cons e rest ih =>
    obtain ⟨j, v⟩ := e
    simp only [Table.dropWhere, List.filter_cons] at ih ⊢
    by_cases hj : j = k
    · subst hj
      by_cases hp : p j = true <;> simp_all [Table.read]
    · by_cases hp : p j = true <;> simp_all [Table.read]

/-- The reads of a store built by number. -/
theorem Table.read_build [DecidableEq α] (d : α) (n : Nat) (f : Nat → α) (k : Nat) (h : k < n) :
    (Table.build d n f).read d k = f k := by
  have key : ∀ l : List Nat, Table.read d ((l.map fun k => (k, f k)).filter fun e => decide (e.2 ≠ d)) k =
      if k ∈ l then f k else d := by
    intro l
    induction l with
    | nil => rfl
    | cons a rest ih =>
      by_cases hf : f a = d
      · by_cases ha : a = k
        · subst ha
          simpa [hf] using ih
        · simpa [hf, Ne.symm ha] using ih
      · by_cases ha : a = k
        · subst ha
          simp [hf, Table.read]
        · simpa [hf, Table.read, ha, Ne.symm ha] using ih
  simpa [Table.build, h] using key (List.range n)

/-- The canonical form of a store built by number. -/
theorem Table.wf_build [DecidableEq α] (d : α) (n : Nat) (f : Nat → α) : (Table.build d n f).wf d = true := by
  have key : ∀ (m a : Nat) (low : Option Nat), Table.above low a →
      Table.wfFrom d low (((List.range' a m).map fun k => (k, f k)).filter fun e => decide (e.2 ≠ d)) = true := by
    intro m
    induction m with
    | zero => intro a low _; rfl
    | succ m ih =>
      intro a low ha
      simp only [List.range'_succ, List.map_cons, List.filter_cons]
      split
      · next hv =>
        refine (Table.wfFrom_cons d low a (f a) _).2 ⟨ha, by simpa using hv, ih (a + 1) (some a) ?_⟩
        intro l hl
        cases hl
        omega
      · refine ih (a + 1) low fun l hl => ?_
        have := ha l hl
        omega
  simpa [Table.wf, Table.build, List.range_eq_range'] using key n 0 none fun l hl => by cases hl

/-- The canonical form of a store whose entries are changed in place. -/
theorem Table.wf_map [DecidableEq α] (d : α) (f : α → α) (hf : ∀ v, v ≠ d → f v ≠ d) (t : Table α) (h : t.wf d = true) :
    Table.wf d (t.map fun e => (e.1, f e.2)) = true := by
  have key : ∀ (t : Table α) (low : Option Nat), Table.wfFrom d low t = true →
      Table.wfFrom d low (t.map fun e => (e.1, f e.2)) = true := by
    intro t
    induction t with
    | nil => intro low _; rfl
    | cons e rest ih =>
      intro low h
      obtain ⟨k, v⟩ := e
      rw [Table.wfFrom_cons] at h
      exact (Table.wfFrom_cons d low k (f v) _).2 ⟨h.1, hf v h.2.1, ih _ h.2.2⟩
  exact key t none h

/-- A read of a store whose entries are changed in place. -/
theorem Table.read_map (d : α) (f : α → α) (hd : f d = d) (t : Table α) (k : Nat) :
    Table.read d (t.map fun e => (e.1, f e.2)) k = f (t.read d k) := by
  induction t with
  | nil => exact hd.symm
  | cons e rest ih =>
    obtain ⟨j, v⟩ := e
    simp only [List.map_cons, Table.read]
    split
    · rfl
    · exact ih

/-! ### Counters and checks -/

theorem bump_le (n : Nat) : bump n ≤ Config.maxCount := by
  unfold bump; split <;> omega

theorem bumpBy_le (k n : Nat) (h : n ≤ Config.maxCount) : bumpBy k n ≤ Config.maxCount := by
  induction k generalizing n with
  | zero => exact h
  | succ k ih => exact ih (bump n) (bump_le n)

/-- No check of a table fails: every test holds. -/
theorem firstFailure_none {ρ : Type} (l : List (Check ρ)) : firstFailure l = none ↔ ∀ e ∈ l, e.1 = true := by
  induction l with
  | nil => simp [firstFailure]
  | cons e rest ih =>
    obtain ⟨ok, reason⟩ := e
    cases ok <;> simp [firstFailure, ih]

/-- The first failing test gives the reason: the tests before it hold. -/
theorem firstFailure_some {ρ : Type} (l : List (Check ρ)) (x : ρ) :
    firstFailure l = some x ↔ ∃ before after, l = before ++ (false, x) :: after ∧ ∀ e ∈ before, e.1 = true := by
  induction l with
  | nil => simp [firstFailure]
  | cons e rest ih =>
    obtain ⟨ok, reason⟩ := e
    cases ok with
    | false =>
      simp only [firstFailure, Bool.false_eq_true, if_false, Option.some.injEq]
      constructor
      · rintro rfl
        exact ⟨[], rest, rfl, by simp⟩
      · rintro ⟨before, after, h, hb⟩
        cases before with
        | nil => simpa using (List.cons.inj h).1
        | cons b bs =>
          have hh := (List.cons.inj h).1
          subst hh
          simpa using hb (false, reason) (by simp)
    | true =>
      simp only [firstFailure, if_true]
      rw [ih]
      constructor
      · rintro ⟨before, after, h, hb⟩
        exact ⟨(true, reason) :: before, after, by simp [h], by simpa using hb⟩
      · rintro ⟨before, after, h, hb⟩
        cases before with
        | nil => simp at h
        | cons b bs =>
          obtain ⟨-, h2⟩ := List.cons.inj h
          exact ⟨bs, after, h2, fun e he => hb e (by simp [he])⟩

/-- The element changed, and the others. -/
theorem modifyAt_getElem? {β : Type} (f : β → β) (l : List β) (i j : Nat) :
    (modifyAt f l i)[j]? = if j = i then (l[j]?).map f else l[j]? := by
  induction l generalizing i j with
  | nil => simp [modifyAt]
  | cons a rest ih =>
    cases i with
    | zero => cases j <;> simp [modifyAt]
    | succ i => cases j <;> simp [modifyAt, ih]

end Sys2Proof.Machine
end

