-- ==== Sys2Proof/Laws/Ops.lean ====
section
/-! SUPPORT. What the shared operations can do, said once: how a block takes a piece of work, what the lookups find, the
journal's write position, and the release walk as an induction. -/

namespace Sys2Proof.Machine

/-! ### Taking work -/

theorem outOfReset_due (f : State → State) (s : State) (h : s.inReset = false) : outOfReset f s = f s := by
  simp [outOfReset, h]

/-- A management request of this step's own that is due is served, the frame having left the input queue. -/
theorem serveManagement_due {α : Type} (mine : Request → Option α) (serve : α → Nat → State → State) {s t : State} {r : Request}
    {tag : Nat} {a : α} (due : RequestDue s r tag t) (own : mine r = some a) : serveManagement mine serve s = serve a tag t := by
  obtain ⟨⟨out, f, rest, front, good, tagged, rfl⟩, calm, steady⟩ := due
  have run : s.clearRun = .none := by simpa [clearing] using calm
  simp [serveManagement, outOfReset, takeManagement, out, front, good, own, clearing, run, steady, tagged]

/-- Everything a step that serves management requests can do. -/
theorem serveManagement_cases {α : Type} (mine : Request → Option α) (serve : α → Nat → State → State) (s : State) :
    serveManagement mine serve s = s ∨
      ∃ f rest r a, s.inReset = false ∧ s.mgmtIn = f :: rest ∧ parseManagement f = .good r ∧ mine r = some a ∧
        (((clearing s || s.restartPending) = true ∧
            serveManagement mine serve s = sendReply (echoedCode f) (echoedTag f) .busy [] { s with mgmtIn := rest }) ∨
          ((clearing s || s.restartPending) = false ∧
            serveManagement mine serve s = serve a (echoedTag f) { s with mgmtIn := rest })) := by
  cases held : s.inReset with
  | true => exact .inl (by simp [serveManagement, outOfReset, held])
  | false =>
    cases queue : s.mgmtIn with
    | nil => exact .inl (by simp [serveManagement, outOfReset, takeManagement, held, queue])
    | cons f rest =>
      cases parsed : parseManagement f with
      | malformed => exact .inl (by simp [serveManagement, outOfReset, takeManagement, held, queue, parsed])
      | unknown => exact .inl (by simp [serveManagement, outOfReset, takeManagement, held, queue, parsed])
      | good r =>
        cases own : mine r with
        | none => exact .inl (by simp [serveManagement, outOfReset, takeManagement, held, queue, parsed, own])
        | some a =>
          refine .inr ⟨f, rest, r, a, rfl, rfl, parsed, own, ?_⟩
          cases busy : (clearing s || s.restartPending) with
          | true => exact .inl ⟨rfl, by simp [serveManagement, outOfReset, takeManagement, held, queue, parsed, own, busy]⟩
          | false => exact .inr ⟨rfl, by simp [serveManagement, outOfReset, takeManagement, held, queue, parsed, own, busy]⟩

/-- A till request that is due is served, having left the Ingress File. -/
theorem takeTill_due (serve : TillRequest → State → State) {s t : State} {r : TillRequest} (due : TillDue s r t) :
    takeTill r.kind serve s = serve r t := by
  obtain ⟨out, idle, empty, room, rest, front, rfl⟩ := due
  simp [takeTill, outOfReset, out, idle, empty, room, front]

/-- Everything a step that takes till requests can do. -/
theorem takeTill_cases (kind : RequestKind) (serve : TillRequest → State → State) (s : State) :
    takeTill kind serve s = s ∨
      ∃ r t, r.kind = kind ∧ TillDue s r t ∧ takeTill kind serve s = serve r t := by
  unfold takeTill outOfReset
  split
  · exact .inl rfl
  · rename_i held
    beta_reduce
    split
    · rename_i r rest idle empty front
      split
      · rename_i due
        exact .inr ⟨r, _, due.1, ⟨by simpa using held, idle, empty, due.2, rest, front, rfl⟩, rfl⟩
      · exact .inl rfl
    · exact .inl rfl

/-- A management card request that is due is served, the Posting Unit being CARD. -/
theorem takeCard_due {α : Type} (mine : CardOp → Option α) (serve : α → CardRequest → State → State) {s : State} {q : CardRequest}
    {a : α} (due : CardDue s q) (own : mine q.op = some a) : takeCard mine serve s = serve a q { s with posting := .card q } := by
  obtain ⟨out, calm, idle, held⟩ := due
  simp [takeCard, outOfReset, out, calm, idle, held, own]

/-- Everything a step that takes management card requests can do. -/
theorem takeCard_cases {α : Type} (mine : CardOp → Option α) (serve : α → CardRequest → State → State) (s : State) :
    takeCard mine serve s = s ∨
      ∃ q a, s.inReset = false ∧ s.posting = .idle ∧ s.cardSlot = some q ∧ mine q.op = some a ∧
        ((clearing s = true ∧ takeCard mine serve s = finishCard q .busy [] s) ∨
          (clearing s = false ∧ takeCard mine serve s = serve a q { s with posting := .card q })) := by
  unfold takeCard outOfReset
  split
  · exact .inl rfl
  · rename_i held
    beta_reduce
    split
    · rename_i q idle slot
      split
      · rename_i a own
        refine .inr ⟨q, a, by simpa using held, idle, slot, own, ?_⟩
        cases busy : clearing s with
        | true => exact .inl ⟨rfl, by simp⟩
        | false => exact .inr ⟨rfl, by simp⟩
      · exact .inl rfl
    · exact .inl rfl

/-! ### Lookups -/

/-- The lookup finds a slot of the probe window that holds a record of the number (R10). -/
theorem lookupCard_some {s : State} {number k : Nat} {c : CardRecord} (h : lookupCard s number = some (k, c)) :
    k ∈ probeWindow number ∧ cardAt s k = some c ∧ c.number = number := by
  obtain ⟨j, inWindow, found⟩ := List.exists_of_findSome?_eq_some h
  split at found
  · rename_i d held
    split at found
    · rename_i same
      cases found
      exact ⟨inWindow, held, same⟩
    · cases found
  · cases found

theorem liveCard_some {s : State} {number k : Nat} {c : CardRecord} (h : liveCard s number = some (k, c)) :
    lookupCard s number = some (k, c) ∧ c.state ≠ .retired := by
  unfold liveCard at h
  split at h
  · rename_i found
    split at h
    · cases h
    · rename_i live
      cases h
      exact ⟨found, live⟩
  · cases h

/-- The slot chosen for a new card is an EMPTY one of the window (R11). -/
theorem firstEmpty_some {s : State} {number k : Nat} (h : firstEmpty s number = some k) :
    k ∈ probeWindow number ∧ cardAt s k = none :=
  ⟨List.mem_of_find?_eq_some h, by simpa using List.find?_some h⟩

theorem requestedCard_ok {s : State} {number k : Nat} {c : CardRecord} (h : requestedCard s number = .ok (k, c)) :
    sixteenDigits number = true ∧ passesCheck number = true ∧ lookupCard s number = some (k, c) := by
  unfold requestedCard at h
  split at h
  · rename_i digits
    split at h
    · rename_i checked
      split at h
      · rename_i found looked
        cases h
        exact ⟨digits, checked, looked⟩
      · cases h
    · cases h
  · cases h

/-- A reference resolves to the entry at its position where that carries its lap (R76). -/
theorem resolveRef_ok {s : State} {r : JournalRef} {e : JournalEntry} (h : resolveRef s r = .ok e) :
    entryAt s r = some e ∧ e.lap = r.lap := by
  unfold resolveRef at h
  split at h
  · cases h
  · rename_i found stored
    split at h
    · rename_i same
      cases h
      exact ⟨stored, same⟩
    · cases h

theorem freeSlot_some {w : Table WindowSlot} {k : Nat} (h : freeSlot w = some k) : k < 16 ∧ w.read .free k = .free :=
  ⟨List.mem_range.1 (List.mem_of_find?_eq_some h), by simpa using List.find?_some h⟩

theorem findPay_some {records : List BatchRecord} {m i : Nat} (h : findPay records m = some i) :
    ∃ r, records[i]? = some r ∧ r.disposition = .pay ∧ r.merchant = m := by
  obtain ⟨bound, found, -⟩ := List.findIdx?_eq_some_iff_getElem.1 h
  exact ⟨records[i], List.getElem?_eq_getElem bound, by simpa [BatchRecord.isPay] using found⟩

/-! ### The journal -/

theorem advance_inRange {w : JournalRef} (h : refInRange w = true) : refInRange (advance w) = true := by
  simp only [refInRange, Bool.and_eq_true, decide_eq_true_eq] at h ⊢
  obtain ⟨⟨lap, block⟩, entry⟩ := h
  unfold advance
  split
  · exact ⟨⟨lap, block⟩, ‹_›⟩
  · split
    · exact ⟨⟨lap, ‹_›⟩, Nat.zero_lt_succ _⟩
    · exact ⟨⟨Nat.mod_lt _ (Nat.zero_lt_succ _), Nat.zero_lt_succ _⟩, Nat.zero_lt_succ _⟩

theorem wf_editEntry (r : JournalRef) (f : JournalEntry → JournalEntry) (j : Table (Option JournalEntry)) (h : j.wf none = true) :
    (editEntry r f j).wf none = true := by
  unfold editEntry
  split
  · split
    · exact Table.wf_write _ _ _ _ h
    · exact h
  · exact h

/-- The entry a reference names is changed where its position still carries the reference's lap, and no other (R74). -/
theorem read_editEntry (r : JournalRef) (f : JournalEntry → JournalEntry) (j : Table (Option JournalEntry)) (p : Nat) :
    (editEntry r f j).read none p =
      if p = positionOf r then (j.read none p).map (fun e => if e.lap = r.lap then f e else e) else j.read none p := by
  unfold editEntry
  by_cases here : p = positionOf r
  · subst here
    cases found : j.read none (positionOf r) with
    | none => simp [found]
    | some e => by_cases lap : e.lap = r.lap <;> simp [lap, found]
  · cases found : j.read none (positionOf r) with
    | none => simp [here]
    | some e => by_cases lap : e.lap = r.lap <;> simp [lap, here, Table.read_write_ne]

theorem wf_editLinked (r : Option JournalRef) (f : JournalEntry → JournalEntry) (j : Table (Option JournalEntry))
    (h : j.wf none = true) : (editLinked r f j).wf none = true := by
  cases r with
  | none => exact h
  | some ref => exact wf_editEntry ref f j h

theorem wf_appendAt (w : JournalRef) (e : JournalEntry) (j : Table (Option JournalEntry)) (h : j.wf none = true) :
    (appendAt w e j).wf none = true := Table.wf_write _ _ _ _ h

theorem read_appendAt (w : JournalRef) (e : JournalEntry) (j : Table (Option JournalEntry)) (p : Nat) :
    (appendAt w e j).read none p = if p = positionOf w then some { e with lap := w.lap } else j.read none p :=
  Table.read_write _ _ _ _ _

theorem wf_changeLiveAt (change : LiveChange) (i : Nat) (t : Table Program) (h : t.wf Program.blank = true) :
    (changeLiveAt change i t).wf Program.blank = true := by
  cases change with
  | same => exact h
  | rise => exact Table.wf_write _ _ _ _ h
  | fall => exact Table.wf_write _ _ _ _ h

/-! ### The walk -/

/-- What holds before the release walk and is kept by the marking of a record that does not fit and by the sending of one
that fits holds after it (R151 to R155). -/
theorem walkGo_induction (s : State) (P : WalkState → Prop)
    (mark : ∀ w i r, P w → w.records[i]? = some r → r.awaitsSending = true → w.remaining < r.payout →
      P { w with records := setRelease i .waiting w.records })
    (send : ∀ w i r slot, P w → w.records[i]? = some r → r.awaitsSending = true → freeSlot w.window = some slot →
      (termsOf s r.merchant).state ≠ .unenrolled → r.payout ≤ w.remaining → P (sendRecord s i r slot w)) :
    ∀ order w, P w → P (walkGo s order w) := by
  intro order
  induction order with
  | nil => exact fun w h => h
  | cons i rest ih =>
    intro w h
    unfold walkGo
    split
    · exact ih w h
    · rename_i r found
      split
      · rename_i waits
        split
        · exact h
        · rename_i slot free
          split
          · split
            · exact h
            · exact ih w h
          · rename_i readable
            split
            · rename_i fits
              exact ih _ (send w i r slot h found waits free readable fits)
            · rename_i short
              split
              · exact mark w i r h found waits (Nat.lt_of_not_le short)
              · exact ih _ (mark w i r h found waits (Nat.lt_of_not_le short))
      · split
        · exact h
        · exact ih w h

/-- What the placing of instructions keeps: each instruction placed or dropped leaves its slot TIMING with the timeout, and
the queue stays within its capacity (R157). -/
theorem drainGo_queue (link : Link) (timeout : Nat) :
    ∀ ks w q n, q.length ≤ 32 → (drainGo link timeout ks w q n).2.2.1.length ≤ 32 := by
  intro ks
  induction ks with
  | nil => exact fun w q n h => h
  | cons k ks ih =>
    intro w q n h
    unfold drainGo
    split
    · split
      · exact ih _ _ _ h
      · split
        · rename_i room
          refine ih _ _ _ ?_
          simp only [Config.officeCapacity] at room
          simpa using room
        · exact h
    · exact ih _ _ _ h
    · exact ih _ _ _ h

theorem drainGo_wf (link : Link) (timeout : Nat) :
    ∀ ks w q n, w.wf WindowSlot.free = true → (drainGo link timeout ks w q n).2.1.wf WindowSlot.free = true := by
  intro ks
  induction ks with
  | nil => exact fun w q n h => h
  | cons k ks ih =>
    intro w q n h
    unfold drainGo
    split
    · split
      · exact ih _ _ _ (Table.wf_write _ _ _ _ h)
      · split
        · exact ih _ _ _ (Table.wf_write _ _ _ _ h)
        · exact h
    · exact ih _ _ _ h
    · exact ih _ _ _ h

/-- From an empty window a walk fills slots 0 to 15 only, each once, and each slot it fills awaits egress with its instruction
(R155, R156). -/
theorem walkRecords_window {s : State} (emptyWindow : s.window = []) (noneAwaits : s.awaiting = []) :
    (walkRecords s).awaiting.Nodup ∧ (∀ k ∈ (walkRecords s).awaiting, k < 16) ∧
      (∀ k, k ∈ (walkRecords s).awaiting ↔ (walkRecords s).window.read .free k ≠ .free) ∧
      ∀ k, (walkRecords s).window.read .free k ≠ .free → ∃ m f, (walkRecords s).window.read .free k = .awaiting m f := by
  let P : WalkState → Prop := fun w =>
    w.awaiting.Nodup ∧ (∀ k ∈ w.awaiting, k < 16) ∧ (∀ k, k ∈ w.awaiting ↔ w.window.read .free k ≠ .free) ∧
      ∀ k, w.window.read .free k ≠ .free → ∃ m f, w.window.read .free k = .awaiting m f
  refine walkGo_induction s P (fun w i r h _ _ _ => h) ?_ _ _ (by simp [P, emptyWindow, noneAwaits, Table.read])
  rintro w i r slot ⟨once, below, filled, awaits⟩ - - free - -
  obtain ⟨low, isFree⟩ := freeSlot_some free
  have after : ∀ j, (sendRecord s i r slot w).window.read .free j =
      if j = slot then .awaiting r.merchant (instructionFrame s r slot) else w.window.read .free j :=
    fun j => Table.read_write _ w.window slot j (.awaiting r.merchant (instructionFrame s r slot))
  have fresh : slot ∉ w.awaiting := fun h => (filled _).mp h isFree
  refine ⟨?_, fun k h => ?_, fun k => ?_, fun k => ?_⟩
  · exact List.nodup_append.mpr ⟨once, by simp, fun a h b e q => fresh (by simp at e; rwa [← e, ← q])⟩
  · rcases List.mem_append.mp (show k ∈ w.awaiting ++ [slot] from h) with h | h
    · exact below k h
    · simp at h; omega
  · rw [after]
    show k ∈ w.awaiting ++ [slot] ↔ _
    by_cases q : k = slot <;> simp [q, filled]
  · rw [after]
    split
    · exact fun _ => ⟨_, _, rfl⟩
    · exact awaits k

/-! ### The start-up and the carry -/

/-- The order of a start-up holds the items of both blocks, each once, whatever the free choice is (R180, log 7). -/
theorem startOrder_perm (pick : Nat → Bool) :
    ∀ (fuel i : Nat) (a b : List StartItem), (startOrder pick fuel i a b).Perm (a ++ b) := by
  intro fuel
  induction fuel with
  | zero => intros; exact List.Perm.refl _
  | succ n ih =>
    intro i a b
    cases a with
    | nil => exact List.Perm.refl _
    | cons x xs =>
      cases b with
      | nil => simp [startOrder]
      | cons y ys =>
        rw [startOrder]
        split
        · exact List.Perm.cons _ (ih _ _ _)
        · exact (List.Perm.cons _ (ih _ _ _)).trans List.perm_middle.symm

/-- The clamp of a carry holds a sum within its bounds (R122). -/
theorem clampCarry_eq (v : Int) : clampCarry v = max Config.minCarry (min v Config.maxCarry) := by
  have : Config.minCarry ≤ Config.maxCarry := by decide
  unfold clampCarry
  split_ifs <;> omega

/-- An addition to a carry writes one position and hands at most one notice (R122). -/
theorem carryAddition_frame (m : Nat) (amount : Int) (s : State) :
    ∃ n q c, carryAddition m amount s = { s with
      positions := s.positions.write Position.zero m (addCarry amount (positionAt s m))
      noticeNumber := n, officeOut := q, counters := c } :=
  handNotices_frame _ _

end Sys2Proof.Machine
end

