-- ==== Sys2Proof/Laws/PerInstr.lean ====
section
/-! SUPPORT. The family OperandsInRange: which operands each command admits (WellFormed.lean), one lemma a command. -/

namespace Sys2Proof.Laws.OperandsInRange

/-- A command is well formed unless it is the expiry of a timer of a slot that the window does not have (R156). -/
def Statement (i : Instr) : Prop := i.wellFormed = true ↔ ∀ slot, i = .timerExpiry slot → slot < 16

/-- A command that is no timer expiry satisfies the statement where it is well formed. -/
theorem of_other (i : Instr) (well : i.wellFormed = true) (other : ∀ slot, i ≠ .timerExpiry slot) : Statement i :=
  ⟨fun _ slot h => absurd h (other slot), fun _ => well⟩

theorem shopFrameArrival (frame : Frame) : Statement (.shopFrameArrival frame) := of_other _ rfl fun _ h => by cases h
theorem officeFrameArrival (frame : Frame) : Statement (.officeFrameArrival frame) := of_other _ rfl fun _ h => by cases h
theorem frameEgress (port : Port) : Statement (.frameEgress port) := of_other _ rfl fun _ h => by cases h
theorem linkDown (port : Port) : Statement (.linkDown port) := of_other _ rfl fun _ h => by cases h
theorem linkUp (port : Port) : Statement (.linkUp port) := of_other _ rfl fun _ h => by cases h
theorem pinReset : Statement .pinReset := of_other _ rfl fun _ h => by cases h
theorem restartReset : Statement .restartReset := of_other _ rfl fun _ h => by cases h
theorem startUp : Statement .startUp := of_other _ rfl fun _ h => by cases h
theorem initialisationComplete : Statement .initialisationComplete := of_other _ rfl fun _ h => by cases h
theorem issue : Statement .issue := of_other _ rfl fun _ h => by cases h
theorem topup : Statement .topup := of_other _ rfl fun _ h => by cases h
theorem spend : Statement .spend := of_other _ rfl fun _ h => by cases h
theorem ask : Statement .ask := of_other _ rfl fun _ h => by cases h
theorem tryReq : Statement .tryReq := of_other _ rfl fun _ h => by cases h
theorem reserve : Statement .reserve := of_other _ rfl fun _ h => by cases h
theorem claim : Statement .claim := of_other _ rfl fun _ h => by cases h
theorem free : Statement .free := of_other _ rfl fun _ h => by cases h
theorem returnReq : Statement .returnReq := of_other _ rfl fun _ h => by cases h
theorem cancel : Statement .cancel := of_other _ rfl fun _ h => by cases h
theorem conditionalPost : Statement .conditionalPost := of_other _ rfl fun _ h => by cases h
theorem conditionalReversal : Statement .conditionalReversal := of_other _ rfl fun _ h => by cases h
theorem cardSlotPlacement : Statement .cardSlotPlacement := of_other _ rfl fun _ h => by cases h
theorem readCard : Statement .readCard := of_other _ rfl fun _ h => by cases h
theorem suspendCard : Statement .suspendCard := of_other _ rfl fun _ h => by cases h
theorem resumeCard : Statement .resumeCard := of_other _ rfl fun _ h => by cases h
theorem retireCard : Statement .retireCard := of_other _ rfl fun _ h => by cases h
theorem purgeCard : Statement .purgeCard := of_other _ rfl fun _ h => by cases h
theorem extendCard : Statement .extendCard := of_other _ rfl fun _ h => by cases h
theorem moveBalance : Statement .moveBalance := of_other _ rfl fun _ h => by cases h
theorem setStations : Statement .setStations := of_other _ rfl fun _ h => by cases h
theorem setTiming : Statement .setTiming := of_other _ rfl fun _ h => by cases h
theorem setClock : Statement .setClock := of_other _ rfl fun _ h => by cases h
theorem setMode : Statement .setMode := of_other _ rfl fun _ h => by cases h
theorem readStatus : Statement .readStatus := of_other _ rfl fun _ h => by cases h
theorem restart : Statement .restart := of_other _ rfl fun _ h => by cases h
theorem storeClear : Statement .storeClear := of_other _ rfl fun _ h => by cases h
theorem lockPrivacy : Statement .lockPrivacy := of_other _ rfl fun _ h => by cases h
theorem writeProgram : Statement .writeProgram := of_other _ rfl fun _ h => by cases h
theorem readProgram : Statement .readProgram := of_other _ rfl fun _ h => by cases h
theorem readJournal : Statement .readJournal := of_other _ rfl fun _ h => by cases h
theorem writeTerms : Statement .writeTerms := of_other _ rfl fun _ h => by cases h
theorem readTerms : Statement .readTerms := of_other _ rfl fun _ h => by cases h
theorem clearPage : Statement .clearPage := of_other _ rfl fun _ h => by cases h
theorem fixPage : Statement .fixPage := of_other _ rfl fun _ h => by cases h
theorem clearDirectory : Statement .clearDirectory := of_other _ rfl fun _ h => by cases h
theorem writeLane : Statement .writeLane := of_other _ rfl fun _ h => by cases h
theorem readLane : Statement .readLane := of_other _ rfl fun _ h => by cases h
theorem closeCycle : Statement .closeCycle := of_other _ rfl fun _ h => by cases h
theorem adjustCarry : Statement .adjustCarry := of_other _ rfl fun _ h => by cases h
theorem readPosition : Statement .readPosition := of_other _ rfl fun _ h => by cases h
theorem readBatch : Statement .readBatch := of_other _ rfl fun _ h => by cases h
theorem releaseBatch : Statement .releaseBatch := of_other _ rfl fun _ h => by cases h
theorem addBudget : Statement .addBudget := of_other _ rfl fun _ h => by cases h
theorem resolve : Statement .resolve := of_other _ rfl fun _ h => by cases h
theorem abandon : Statement .abandon := of_other _ rfl fun _ h => by cases h
theorem unknownRequest : Statement .unknownRequest := of_other _ rfl fun _ h => by cases h
theorem confirm : Statement .confirm := of_other _ rfl fun _ h => by cases h
theorem reject : Statement .reject := of_other _ rfl fun _ h => by cases h
theorem stray : Statement .stray := of_other _ rfl fun _ h => by cases h
theorem timerExpiry (slot : Nat) : Statement (.timerExpiry slot) := by
  simp only [Statement, Instr.wellFormed, decide_eq_true_eq, Instr.timerExpiry.injEq]
  exact ⟨fun h k hk => hk ▸ h, fun h => h slot rfl⟩
theorem pageClearCompletion : Statement .pageClearCompletion := of_other _ rfl fun _ h => by cases h
theorem directoryClearCompletion : Statement .directoryClearCompletion := of_other _ rfl fun _ h => by cases h
theorem storeClearCompletion : Statement .storeClearCompletion := of_other _ rfl fun _ h => by cases h
theorem calculatorStep : Statement .calculatorStep := of_other _ rfl fun _ h => by cases h
theorem computationCompletion : Statement .computationCompletion := of_other _ rfl fun _ h => by cases h
theorem clockSecond : Statement .clockSecond := of_other _ rfl fun _ h => by cases h
theorem holdEnd : Statement .holdEnd := of_other _ rfl fun _ h => by cases h
theorem clockLoss : Statement .clockLoss := of_other _ rfl fun _ h => by cases h

end Sys2Proof.Laws.OperandsInRange
end

