-- ==== Sys2Proof/Tests/Slice0.lean ====
section
/-! SUPPORT. Tests: the spec's worked values, the well-formedness check, and for every statement with hypotheses a state and
operands that meet them, clause by clause. Expected values come from the rule a test names. -/

namespace Sys2Proof.Tests
open Sys2Proof.Machine

/-! ### Well-formedness -/

/-- R156: the window has slots 0 to 15. -/
theorem test_wellFormed_refuses_slot_sixteen :
    (Instr.timerExpiry 16).wellFormed = false ∧ (Instr.timerExpiry 15).wellFormed = true := by decide

/-- The table gives no row any bits: no word spells a command, and `withFetchWord` leaves the state. -/
theorem test_no_word_spells_a_command :
    decodeTableWord 0 0 = none ∧ decodeTableWord 8 255 = none ∧ State.reset.withFetchWord 8 1 = State.reset := by decide

/-! ### The spec's own numbers -/

/-- R32: the number with the check digit 9 passes, the one with 3 fails. -/
theorem test_checkDigit : passesCheck 4000001234567899 = true ∧ passesCheck 4000001234567893 = false := by decide

/-- R16: the lock shows the last four digits. -/
theorem test_mask : maskCard true 4000001234567893 = 7893 ∧ cardBytes 7893 = beBytes 8 0x7893 := by decide

/-- R131, R132: one half rounds away from zero; the commission rounds down. -/
theorem test_rounding :
    roundTenThousandth 5000 = 1 ∧ roundTenThousandth (-5000) = -1 ∧ roundTenThousandth 4999 = 0 ∧ 399 * 25 / 10000 = 0 := by decide

/-- R71: the write position carries into block and lap. -/
theorem test_advance :
    advance ⟨0, 0, 31⟩ = ⟨0, 1, 0⟩ ∧ advance ⟨0, 2047, 31⟩ = ⟨1, 0, 0⟩ ∧ advance ⟨255, 2047, 31⟩ = ⟨0, 0, 0⟩ := by decide

/-- R195: most significant byte first, a card two digits a byte, a reference lap, block, entry. -/
theorem test_bytes :
    beBytes 2 0x1234 = [0x12#8, 0x34#8] ∧ beNat [0x12#8, 0x34#8] = 0x1234 ∧ signedBytes 2 (-2) = [0xFF#8, 0xFE#8] ∧
      signedAt [0xFF#8, 0xFE#8] 0 2 = -2 ∧ refBytes ⟨1, 0x102, 3⟩ = [1#8, 1#8, 2#8, 3#8] ∧
      cardOf (cardBytes 4000001234567899) = some 4000001234567899 := by decide

/-- R197: a part's frame is padded to 60 bytes, and its header tells the length of the body. -/
theorem test_partFrame :
    (partFrame Settings.default kindNotice 2 (Notice.body 1 (.pageCleared 3))).payload.length = 46 ∧
      headerLength (partFrame Settings.default kindNotice 2 (Notice.body 1 (.pageCleared 3))) = 12 := by decide

/-- R189: the business day of T, and 0 below the roll offset. -/
theorem test_day : dayOf 0 1000000 = 11 ∧ dayOf 3600 3599 = 0 ∧ dayOf 3600 90000 = 1 := by decide

/-! ### Small states -/

def number : Nat := 4000001234567899
def otherNumber : Nat := 4000001200000008
def slot : Nat := 65203
def otherSlot : Nat := 100056

def program : Program :=
  { state := .opened, prefixLow := 40000000, prefixHigh := 40000099, ceiling := 10000, issueMinimum := 100, expiryDays := 30,
    renewOnTopup := true, dailyCap := 0, lowThreshold := 500, holdLimit := 2, holdHours := 2, topupPermitted := true, live := 1 }

/-- A hold of 300 at journal position 1, unexpired at the clock of `ready`. -/
def hold : Hold := { reference := ⟨0, 0, 1⟩, merchant := 0, lane := 0, amount := 300, expiry := 1007200 }

def card : CardRecord :=
  { number := number, program := 0, state := .active, balance := 4000, holds := [hold], daySpend := 1000, spendDay := 11,
    issueDay := 11, expiryDay := 41, issuer := 0, lastDay := 11 }

def terms : Terms :=
  { state := .enrolled, maySell := true, mayRefund := true, discount := 300, commission := 50, charge := 10, minPayout := 1,
    debitLimit := 10000, returnWindow := 30, tolerance := 20, tier := 1, payee := 7 }

def spendEntry : JournalEntry :=
  { lap := 0, kind := .spend, card := some number, merchant := some 0, lane := some 0, amount := 1000, day := 11, cycle := 0,
    remaining := some 1000, cancelled := false, link := none, secondCard := none }

def reserveEntry : JournalEntry := { spendEntry with kind := .reserve, amount := 300, remaining := none }

def position : Position := { Position.zero with current := { Bank.zero with redeemed := 1000, nRedeemed := 1 } }

/-- A part in SERVICE with one program, one card with a hold, one merchant with a lane, and a SPEND of 1000 behind it. -/
def ready : State :=
  { State.reset with
    configured := true, clearRun := .none, mode := .service, clock := .running 1000000, programs := [(0, program)],
    cards := [(slot, some card)], liability := 4000, terms := [(0, terms)], positions := [(0, position)],
    lanes := [(0, { station := 100, enabled := true, last := some ⟨⟨0, 0, 0⟩, 9, 11, 0⟩ })],
    journal := [(0, some spendEntry), (1, some reserveEntry)], writePos := ⟨0, 0, 2⟩ }

/-- A till request of the lane of `ready`. -/
def asks (kind : RequestKind) (amount : Nat) : TillRequest :=
  { kind := kind, mayCut := false, sequence := 10, card := number, amount := amount, reference := ⟨0, 0, 0⟩, cancelSequence := 9,
    source := 100, merchant := 0, lane := 0 }

def waiting (r : TillRequest) (s : State) : State := { s with ingress := [r] }

/-- A frame with a common header (R196). -/
def frame (destination source kind : Nat) (body : List Byte) : Frame :=
  { ethDst := 0, ethSrc := 0, etherType := 0x88B5#16,
    payload := beBytes 2 destination ++ beBytes 2 source ++ beBytes 1 kind ++ beBytes 1 0 ++ beBytes 2 body.length ++ body }

/-- The part with a management request of the controller at the head of the input queue, with tag 7. -/
def told (code : Nat) (ps : List Byte) (s : State) : State :=
  { s with mgmtIn := [frame 1 2 3 (beBytes 2 code ++ beBytes 2 7 ++ ps)] }

def takenNow (s : State) (r : Request) (tag : Nat) : Bool :=
  decide (s.inReset = false) && (match s.mgmtIn with
    | f :: _ => decide (parseManagement f = .good r) && decide (echoedTag f = tag)
    | [] => false)

theorem taken {s : State} {r : Request} {tag : Nat} (h : takenNow s r tag = true) :
    RequestTaken s r tag { s with mgmtIn := s.mgmtIn.tail } := by
  unfold takenNow at h
  split at h
  · rename_i f rest front
    simp only [Bool.and_eq_true, decide_eq_true_eq] at h
    exact ⟨h.1, f, rest, front, h.2.1, h.2.2, by rw [front]; rfl⟩
  · simp at h

theorem due {s : State} {r : Request} {tag : Nat} (h : (takenNow s r tag && !clearing s && !s.restartPending) = true) :
    RequestDue s r tag { s with mgmtIn := s.mgmtIn.tail } := by
  simp only [Bool.and_eq_true, Bool.not_eq_true'] at h
  exact ⟨taken h.1.1, h.1.2, h.2⟩

def tillDueNow (s : State) (r : TillRequest) : Bool :=
  decide (s.inReset = false) && decide (s.posting = .idle) && decide (s.cardSlot = none) && decide (shopPlaces s < 16) &&
    decide (s.ingress.head? = some r)

theorem tillDue {s : State} {r : TillRequest} (h : tillDueNow s r = true) : TillDue s r { s with ingress := s.ingress.tail } := by
  simp only [tillDueNow, Bool.and_eq_true, decide_eq_true_eq] at h
  obtain ⟨⟨⟨⟨out, idle⟩, empty⟩, room⟩, front⟩ := h
  obtain ⟨rest, queue⟩ := List.head?_eq_some_iff.1 front
  exact ⟨out, idle, empty, room, rest, queue, by rw [queue]; rfl⟩

theorem passes {s : State} {r : TillRequest} {k : Nat} {c : CardRecord}
    (h : (decide (firstFailure (entryTests s r) = none) && decide (liveCard s r.card = some (k, c)) &&
      decide (firstFailure (cardTests s r c) = none)) = true) : PassesHead s r k c := by
  simp only [Bool.and_eq_true, decide_eq_true_eq] at h
  exact ⟨h.1.1, h.1.2, h.2⟩

theorem cardDue {s : State} {q : CardRequest}
    (h : (decide (s.inReset = false) && decide (clearing s = false) && decide (s.posting = .idle) && decide (s.cardSlot = some q)) = true) :
    CardDue s q := by
  simp only [Bool.and_eq_true, decide_eq_true_eq] at h
  exact ⟨h.1.1.1, h.1.1.2, h.1.2, h.2⟩

/-! ### Witnesses: the machine, reset and the ports -/

def inHand : Hand :=
  handFor ready (asks .spend 100) (.post .redeemed false 0) .exposure 100 slot card (afterDebit ready 100 card) .spend (some 100) none
    false .approved {}

/-- A part whose Posting Unit holds a SPEND of 100. -/
def holding : State := { ready with posting := .till inHand }

def held : State := resetState ready

theorem witness_heldInReset : held.inReset = true ∧ Instr.issue ≠ .pinReset ∧ Instr.issue ≠ .startUp ∧
    ∀ p, Instr.issue ≠ .linkDown p ∧ Instr.issue ≠ .linkUp p :=
  ⟨rfl, by decide, by decide, fun _ => ⟨by simp, by simp⟩⟩

/-- The RESTART reply, as it waits in the office queue. -/
def restartReply : OutFrame := { frame := frame 2 1 4 [], origin := .restartReply }

theorem witness_resets :
    ({ ready with restartPending := true }.restartPending = true ∧ ∀ e ∈ ready.officeOut, e.origin ≠ .restartReply) ∧
      (∃ e ∈ { ready with restartPending := true, officeOut := [restartReply] }.officeOut, e.origin = .restartReply) ∧
      ({ State.reset with inReset := true }.inReset = true ∧ State.reset.configured = false) ∧
      (held.inReset = true ∧ held.configured = true ∧ { held with storeClearMark := true }.storeClearMark = true) := by
  refine ⟨⟨rfl, by decide⟩, ⟨restartReply, by simp, rfl⟩, by decide, by decide⟩

/-- A PAY record of merchant 0. -/
def payRecord (x : ReleaseState) (payout : Nat) : BatchRecord :=
  { settlementRecord 0 0 0 { position with closing := position.current } terms with
    disposition := .pay, payout := payout, release := some x }

/-- A batch in release with these records. -/
def releasing (mode : ReleaseMode) (remaining : Nat) (records : List BatchRecord) : Batch :=
  { Batch.none with state := .releasing, mode := mode, granted := 1000, remaining := remaining, records := records }

def computing (cursor : Nat) : Batch := { Batch.none with state := .computing, cursor := cursor }

theorem witness_startUp :
    (held.inReset = true ∧ held.configured = true ∧ held.storeClearMark = false ∧ held.noticeNumber = 0) ∧
      ({ held with batch := computing 512 }.batch.state = .computing ∧ (computing 512).cursor = 512) ∧
      (computing 511).cursor < 512 ∧
      ((releasing .fill 0 [payRecord .sent 1000]).state = .releasing ∧
        (releasing .fill 0 [payRecord .sent 1000]).records[0]? = some (payRecord .sent 1000) ∧
        (payRecord .sent 1000).release = some .sent) ∧
      (held.batch.state ≠ .computing ∧ held.batch.state ≠ .releasing ∧ held.awaiting = []) ∧
      (held.officeOut = [] ∧ held.window = [] ∧ held.officeLink = .up ∧ { held with officeLink := .down }.officeLink = .down) := by
  and_intros <;> decide

theorem witness_erasure :
    ready.inReset = false ∧ holding.posting ≠ .idle ∧ { ready with cardSlot := some ⟨.read, number, 7⟩ }.cardSlot ≠ none ∧
      ready.posting = .idle ∧ ready.cardSlot = none ∧ { ready with clearRun := .accepted }.clearRun = .accepted ∧
      { ready with clearRun := .repeated }.clearRun = .repeated ∧ State.reset.clearRun = .initialising ∧
      State.reset.inReset = false ∧ State.reset.posting = .idle ∧ State.reset.cardSlot = none := by
  and_intros <;> decide

/-- A TRANSACTION frame from a station, its body cut to `bytes` bytes (R198). -/
def spendFrame (source flags bytes card : Nat) : Frame :=
  frame 1 source 1 ((beBytes 1 3 ++ beBytes 1 flags ++ beBytes 4 10 ++ cardBytes card ++ beBytes 4 100 ++ beBytes 4 0 ++ beBytes 4 0 ++
    beBytes 6 0).take bytes)

theorem witness_shopFrames :
    (ready.inReset = false ∧ ready.shopLink = .up) ∧
      ({ frame 1 100 1 [] with etherType := 0x0800#16 }.etherType ≠ BitVec.ofNat 16 ready.settings.serviceType) ∧
      ({ frame 1 100 1 [] with payload := List.replicate 7 0 }.payload.length < 8) ∧
      (8 ≤ (frame 1 100 2 []).payload.length ∧ headerKind (frame 1 100 2 []) ≠ 1) ∧
      (headerKind (frame 1 100 1 []) = 1 ∧ transactionCard (bodyOf (frame 1 100 1 [])) = none) ∧
      (transactionCard (bodyOf (spendFrame 100 0 32 5000000000000009)) = some 5000000000000009 ∧
        matchProgram (admissionPrograms ready) 5000000000000009 = none) ∧
      (transactionCard (bodyOf (spendFrame 101 0 32 number)) = some number ∧
        matchProgram (admissionPrograms ready) number = some 0 ∧
        laneOfStation ready.lanes (headerSource (spendFrame 101 0 32 number)) = none) ∧
      (laneOfStation ready.lanes (headerSource (spendFrame 100 2 32 number)) = some (0, 0) ∧
        transactionKind (spendFrame 100 2 32 number) = none) ∧
      transactionKind (spendFrame 100 1 32 number) = some .spend ∧
      8 ≤ { ready with ingress := List.replicate 8 (asks .ask 0) }.ingress.length ∧
      { ready with ingress := List.replicate 7 (asks .ask 0) }.ingress.length < 8 := by
  and_intros <;> decide

theorem witness_queuesOfferedTo :
    2 ^ 32 - 1 ≤ 2 ^ 32 - 1 ∧ (ready.shopLink = .up ∧ shopPlaces ready < 16 ∧ 16 ≤ shopPlaces { holding with shopOut := List.replicate 15 restartReply }) ∧
      (ready.officeLink = .up ∧ { ready with toOffice := List.replicate 63 (frame 1 2 3 []) }.toOffice.length < 64 ∧
        64 ≤ { ready with toOffice := List.replicate 64 (frame 1 2 3 []) }.toOffice.length) ∧
      { ready with officeLink := .down }.officeLink = .down ∧ { ready with shopLink := .down }.shopLink = .down ∧
      ready.toShop.length < 64 ∧ 64 ≤ { ready with toShop := List.replicate 64 (frame 1 2 3 []) }.toShop.length ∧
      { ready with officeOut := List.replicate 31 restartReply }.officeOut.length < 32 ∧
      32 ≤ { ready with officeOut := List.replicate 32 restartReply }.officeOut.length := by
  and_intros <;> decide

theorem witness_officeFrames :
    (ready.inReset = false ∧ ready.officeLink = .up) ∧
      (8 ≤ (frame 9 2 3 []).payload.length ∧ headerDestination (frame 9 2 3 []) ≠ ready.settings.engineStation) ∧
      (headerDestination (frame 1 2 3 []) = ready.settings.engineStation ∧
        headerSource (frame 1 2 3 []) = ready.settings.controllerStation) ∧
      { ready with mgmtIn := List.replicate 15 (frame 1 2 3 []) }.mgmtIn.length < 16 ∧
      16 ≤ { ready with mgmtIn := List.replicate 16 (frame 1 2 3 []) }.mgmtIn.length ∧
      (headerSource (frame 1 3 7 []) ≠ ready.settings.controllerStation ∧
        headerSource (frame 1 3 7 []) = ready.settings.gatewayStation) ∧
      headerSource (frame 1 4 7 []) ≠ ready.settings.gatewayStation := by
  and_intros <;> decide

/-- The office queue is full and slot 0 waits. -/
def crowded : State :=
  { ready with
    officeOut := List.replicate 32 restartReply, awaiting := [0, 1],
    window := [(0, .awaiting 0 (frame 3 1 6 [])), (1, .awaiting 1 (frame 3 1 6 []))] }

theorem witness_egress :
    ({ ready with shopOut := [restartReply] }.shopOut = restartReply :: [] ∧
        { ready with toShop := [frame 1 2 3 []] }.toShop = frame 1 2 3 [] :: [] ∧ ready.shopOut = [] ∧ ready.officeOut = []) ∧
      (crowded.inReset = false ∧ crowded.officeLink = .up ∧ crowded.officeOut = restartReply :: List.replicate 31 restartReply ∧
        (List.replicate 31 restartReply).length = 31 ∧ crowded.awaiting = 0 :: [1] ∧
        crowded.window.read .free 0 = .awaiting 0 (frame 3 1 6 []) ∧ 0 ∉ [1] ∧
        ∀ j ∈ [1], ∃ m f, crowded.window.read .free j = .awaiting m f) := by
  refine ⟨by decide, by decide, by decide, by decide, by decide, by decide, by decide, by decide, ?_⟩
  intro j hj
  obtain rfl := List.mem_singleton.1 hj
  exact ⟨1, _, rfl⟩

theorem witness_links :
    (ready.shopLink = .up ∧ ready.officeLink = .up ∧ ready.awaiting = []) ∧
      (crowded.officeLink = .up ∧ 0 ∈ crowded.awaiting ∧ crowded.window.read .free 0 = .awaiting 0 (frame 3 1 6 []) ∧
        2 ∉ crowded.awaiting ∧ crowded.awaiting.Nodup ∧ ∀ k ∈ crowded.awaiting, ∃ m f, crowded.window.read .free k = .awaiting m f) ∧
      { ready with shopLink := .down }.shopLink = .down ∧ { ready with officeLink := .down }.officeLink = .down := by
  refine ⟨by decide, ⟨by decide, by decide, by decide, by decide, by decide, ?_⟩, by decide, by decide⟩
  intro k hk
  obtain rfl | rfl : k = 0 ∨ k = 1 := by simpa [crowded] using hk
  · exact ⟨0, _, rfl⟩
  · exact ⟨1, _, rfl⟩

/-! ### Witnesses: management -/

theorem witness_commonChecks :
    (RequestTaken (told 0x08 [] { ready with clearRun := .accepted }) .lockPrivacy 7 { ready with clearRun := .accepted } ∧
        Request.lockPrivacy ≠ .readStatus ∧ clearing (told 0x08 [] { ready with clearRun := .accepted }) = true) ∧
      (told 0x08 [] { ready with restartPending := true }).restartPending = true ∧
      ((told 0x08 [0] ready).mgmtIn = frame 1 2 3 (beBytes 2 8 ++ beBytes 2 7 ++ [0]) :: [] ∧
        parseManagement (frame 1 2 3 (beBytes 2 8 ++ beBytes 2 7 ++ [0])) = .malformed) ∧
      parseManagement (frame 1 2 3 (beBytes 2 9 ++ beBytes 2 7)) = .unknown := by
  repeat' first | exact taken (by decide) | refine And.intro ?_ ?_ | decide

/-- The parameters of SET_STATIONS. -/
def stations (e c g y : Nat) : List Byte := beBytes 2 e ++ beBytes 2 c ++ beBytes 2 g ++ beBytes 2 y

theorem witness_setStations :
    RequestDue (told 0x01 (stations 0 2 3 0x88B5) ready) (.setStations 0 2 3 0x88B5) 7 ready ∧
      RequestDue (told 0x01 (stations 1 2 3 0x05FF) ready) (.setStations 1 2 3 0x05FF) 7 ready ∧
      (RequestDue (told 0x01 (stations 2 2 65535 0x0600) ready) (.setStations 2 2 65535 0x0600) 7 ready ∧ (1 : Nat) ≤ 2) ∧
      (RequestDue (told 0x01 (stations 1 65535 65535 0xFFFF) ready) (.setStations 1 65535 65535 0xFFFF) 7 ready ∧
        (1 : Nat) ≠ 65535) := by
  repeat' first | exact due (by decide) | refine And.intro ?_ ?_ | decide

theorem witness_setTiming :
    (RequestDue (told 0x02 (beBytes 2 4 ++ beBytes 4 0) ready) (.setTiming 4 0) 7 ready ∧ ¬5 ≤ 4) ∧
      (RequestDue (told 0x02 (beBytes 2 5 ++ beBytes 4 86399) ready) (.setTiming 5 86399) 7 ready ∧
        86399 ≠ ready.settings.rollOffset ∧ ready.mode = .service) ∧
      (RequestDue (told 0x02 (beBytes 2 3600 ++ beBytes 4 86399) { ready with mode := .maintenance }) (.setTiming 3600 86399) 7
          { ready with mode := .maintenance } ∧
        ¬(1000000 - ready.settings.rollOffset) / 86400 ≤ (1000000 - 86399) / 86400) ∧
      (1000000 - ready.settings.rollOffset) / 86400 ≤ (1000000 - 3600) / 86400 ∧
      RequestDue (told 0x02 (beBytes 2 3600 ++ beBytes 4 0) ready) (.setTiming 3600 0) 7 ready ∧
      RequestDue (told 0x08 [] ready) .lockPrivacy 7 ready := by
  repeat' first | exact due (by decide) | refine And.intro ?_ ?_ | decide

theorem witness_setClock :
    RequestDue (told 0x03 (beBytes 8 (2 ^ 40)) ready) (.setClock (2 ^ 40)) 7 ready ∧
      (RequestDue (told 0x03 (beBytes 8 (2 ^ 40 - 1)) { ready with clock := .unset }) (.setClock (2 ^ 40 - 1)) 7
        { ready with clock := .unset }) ∧
      (RequestDue (told 0x03 (beBytes 8 1000000) ready) (.setClock 1000000) 7 ready ∧ timeOf ready.clock = some 1000000) ∧
      (RequestDue (told 0x03 (beBytes 8 999700) ready) (.setClock 999700) 7 ready ∧ 1000000 ≤ 999700 + 300) ∧
      (RequestDue (told 0x03 (beBytes 8 999699) ready) (.setClock 999699) 7 ready ∧ 999699 + 300 < 1000000) := by
  repeat' first | exact due (by decide) | refine And.intro ?_ ?_ | decide

theorem witness_clockEvents :
    (ready.inReset = false ∧ ready.clock = .running 1000000 ∧ 1000000 + 1 < 2 ^ 40) ∧
      { ready with clock := .running (2 ^ 40 - 1) }.clock = .running (2 ^ 40 - 1) ∧
      { ready with clock := .holding 1000000 1 }.clock = .holding 1000000 (0 + 1) ∧
      { ready with clock := .holding 1000000 0 }.clock = .holding 1000000 0 ∧ { ready with clock := .unset }.clock = .unset := by
  and_intros <;> decide

theorem witness_modeRestartClear :
    RequestDue (told 0x04 (beBytes 1 2 ++ [0]) ready) (.setMode 2) 7 ready ∧
      RequestDue (told 0x04 (beBytes 1 0 ++ [0]) ready) (.setMode 0) 7 ready ∧
      (RequestDue (told 0x04 (beBytes 1 1 ++ [0]) { ready with clock := .unset }) (.setMode 1) 7 { ready with clock := .unset }) ∧
      (RequestDue (told 0x04 (beBytes 1 1 ++ [0]) ready) (.setMode 1) 7 ready ∧ ready.clock ≠ .unset) ∧
      RequestDue (told 0x06 [] ready) .restart 7 ready ∧
      (RequestDue (told 0x07 [] ready) .storeClear 7 ready ∧ ready.mode = .service) ∧
      RequestDue (told 0x07 [] { ready with mode := .maintenance }) .storeClear 7 { ready with mode := .maintenance } := by
  repeat' first | exact due (by decide) | refine And.intro ?_ ?_ | decide

theorem witness_readProgram :
    RequestDue (told 0x11 (beBytes 1 15 ++ [0]) ready) (.readProgram 15) 7 ready ∧
      RequestDue (told 0x11 (beBytes 1 16 ++ [0]) ready) (.readProgram 16) 7 ready := by
  exact ⟨due (by decide), due (by decide)⟩

/-- A batch that is computed, with one record. -/
def computed : Batch := { Batch.none with state := .computed, records := [payRecord .pending 1000], trailer := some Totals.zero }

theorem witness_reads :
    (RequestDue (told 0x27 (refBytes ⟨0, 0, 0⟩) ready) (.readJournal ⟨0, 0, 0⟩) 7 ready ∧ refInRange ⟨0, 0, 0⟩ = true ∧
        entryAt ready ⟨0, 0, 0⟩ = some spendEntry ∧ spendEntry.lap = 0) ∧
      (RequestDue (told 0x27 (refBytes ⟨0, 2048, 0⟩) ready) (.readJournal ⟨0, 2048, 0⟩) 7 ready ∧ refInRange ⟨0, 2048, 0⟩ = false) ∧
      (RequestDue (told 0x27 (refBytes ⟨1, 0, 0⟩) ready) (.readJournal ⟨1, 0, 0⟩) 7 ready ∧
        (∀ e, entryAt ready ⟨1, 0, 0⟩ = some e → e.lap ≠ 1)) ∧
      RequestDue (told 0x31 (beBytes 2 511) ready) (.readTerms 511) 7 ready ∧
      RequestDue (told 0x31 (beBytes 2 512) ready) (.readTerms 512) 7 ready ∧
      RequestDue (told 0x36 (beBytes 2 511 ++ beBytes 1 7 ++ [0]) ready) (.readLane 511 7) 7 ready ∧
      RequestDue (told 0x36 (beBytes 2 0 ++ beBytes 1 8 ++ [0]) ready) (.readLane 0 8) 7 ready ∧
      RequestDue (told 0x42 (beBytes 2 511) ready) (.readPosition 511) 7 ready ∧
      RequestDue (told 0x42 (beBytes 2 512) ready) (.readPosition 512) 7 ready ∧
      RequestTaken (told 0x05 [] ready) .readStatus 7 ready := by
  repeat' first
    | exact due (by decide)
    | exact taken (by decide)
    | refine And.intro ?_ ?_
    | (intro e h; obtain rfl : spendEntry = e := Option.some.inj h; decide)
    | decide

theorem witness_readBatch :
    RequestDue (told 0x43 (beBytes 2 512) ready) (.readBatch 512) 7 ready ∧
      (RequestDue (told 0x43 (beBytes 2 511) ready) (.readBatch 511) 7 ready ∧ ready.batch.state = .empty) ∧
      (RequestDue (told 0x43 (beBytes 2 0) { ready with batch := computed }) (.readBatch 0) 7 { ready with batch := computed } ∧
        computed.state ≠ .empty ∧ computed.records[0]? = some (payRecord .pending 1000) ∧ computed.records.length ≤ 1) ∧
      (RequestDue (told 0x43 (beBytes 2 0xFFFF) { ready with batch := computed }) (.readBatch 0xFFFF) 7 { ready with batch := computed } ∧
        computed.state ≠ .computing ∧ computed.trailer = some Totals.zero) := by
  repeat' first | exact due (by decide) | refine And.intro ?_ ?_ | decide

def programWrite (state ceiling : Nat) : ProgramWrite :=
  { index := 0, state := state, renew := 1, topup := 1, holdLimit := 4, holdHours := 720, prefixLow := 40000000,
    prefixHigh := 40000099, ceiling := ceiling, issueMinimum := 100, expiryDays := 3650, dailyCap := 0, lowThreshold := 500 }

def programBytes (w : ProgramWrite) : List Byte :=
  beBytes 1 w.index ++ beBytes 1 w.state ++ beBytes 1 w.renew ++ beBytes 1 w.topup ++ beBytes 1 w.holdLimit ++ beBytes 1 0 ++
    beBytes 2 w.holdHours ++ beBytes 4 w.prefixLow ++ beBytes 4 w.prefixHigh ++ beBytes 4 w.ceiling ++ beBytes 4 w.issueMinimum ++
    beBytes 2 w.expiryDays ++ beBytes 2 0 ++ beBytes 4 w.dailyCap ++ beBytes 4 w.lowThreshold

def closedForTills : State := { ready with mode := .maintenance }

/-- The part told to write a program entry. -/
def writes (w : ProgramWrite) (s : State) : State := told 0x10 (programBytes w) s

/-- A write of entry 15 whose range begins at `low`. -/
def besideEntry (low : Nat) : ProgramWrite := { programWrite 2 720 with index := 15, prefixLow := low, prefixHigh := 99999999 }

theorem witness_programRefusals :
    (RequestDue (writes (programWrite 1 10000) ready) (.writeProgram (programWrite 1 10000)) 7 ready ∧ ready.mode = .service) ∧
      (RequestDue (writes { programWrite 1 10000 with index := 16 } closedForTills)
          (.writeProgram { programWrite 1 10000 with index := 16 }) 7 closedForTills ∧ closedForTills.mode = .maintenance) ∧
      (RequestDue (writes (programWrite 1 10000001) closedForTills) (.writeProgram (programWrite 1 10000001)) 7 closedForTills ∧
        ¬(programWrite 1 10000001).ceiling ≤ 10000000) ∧
      (RequestDue (writes (programWrite 3 10000) closedForTills) (.writeProgram (programWrite 3 10000)) 7 closedForTills ∧
        ¬(programWrite 3 10000).state ≤ 2) ∧
      (RequestDue (writes (besideEntry 40000099) closedForTills) (.writeProgram (besideEntry 40000099)) 7 closedForTills ∧
        (0 ≠ (besideEntry 40000099).index ∧ (programAt closedForTills 0).state ≠ .empty ∧
          (besideEntry 40000099).prefixLow ≤ (programAt closedForTills 0).prefixHigh ∧
          (programAt closedForTills 0).prefixLow ≤ (besideEntry 40000099).prefixHigh)) ∧
      (RequestDue (writes (programWrite 0 10000) closedForTills) (.writeProgram (programWrite 0 10000)) 7 closedForTills ∧
        (programAt closedForTills 0).live ≠ 0) ∧
      (RequestDue (writes (programWrite 1 9999) closedForTills) (.writeProgram (programWrite 1 9999)) 7 closedForTills ∧
        ¬(programAt closedForTills 0).ceiling ≤ (programWrite 1 9999).ceiling) := by
  repeat' first | exact due (by decide) | refine And.intro ?_ ?_ | decide

/-- Entry 0 takes a larger ceiling though it has a live card; entry 15 takes the range after that of entry 0; and an entry without
a live card is emptied. -/
theorem witness_programWrites :
    (RequestDue (writes (programWrite 1 10000000) closedForTills) (.writeProgram (programWrite 1 10000000)) 7 closedForTills ∧
        (programWrite 1 10000000).prefixLow = (programAt closedForTills 0).prefixLow ∧
        (programWrite 1 10000000).prefixHigh = (programAt closedForTills 0).prefixHigh ∧
        (programAt closedForTills 0).ceiling ≤ (programWrite 1 10000000).ceiling ∧
        ¬∃ i, i < 16 ∧ i ≠ (programWrite 1 10000000).index ∧ (programAt closedForTills i).state ≠ .empty ∧
          (programWrite 1 10000000).prefixLow ≤ (programAt closedForTills i).prefixHigh ∧
          (programAt closedForTills i).prefixLow ≤ (programWrite 1 10000000).prefixHigh) ∧
      (RequestDue (writes (besideEntry 40000100) closedForTills) (.writeProgram (besideEntry 40000100)) 7 closedForTills ∧
        (programAt closedForTills 15).live = 0 ∧ closedForTills.posting = .idle ∧
        ¬∃ i, i < 16 ∧ i ≠ (besideEntry 40000100).index ∧ (programAt closedForTills i).state ≠ .empty ∧
          (besideEntry 40000100).prefixLow ≤ (programAt closedForTills i).prefixHigh ∧
          (programAt closedForTills i).prefixLow ≤ (besideEntry 40000100).prefixHigh) ∧
      (RequestDue (writes (programWrite 0 10000) { closedForTills with programs := [] }) (.writeProgram (programWrite 0 10000)) 7
          { closedForTills with programs := [] } ∧
        (programAt { closedForTills with programs := [] } 0).live = 0) := by
  repeat' first | exact due (by decide) | refine And.intro ?_ ?_ | decide

/-- The parameters of WRITE_LANE. -/
def laneBytes (m l en st : Nat) : List Byte := beBytes 2 m ++ beBytes 1 l ++ beBytes 1 en ++ beBytes 2 st

theorem witness_laneWrite :
    RequestDue (told 0x35 (laneBytes 512 0 0 5) ready) (.writeLane 512 0 0 5) 7 ready ∧
      RequestDue (told 0x35 (laneBytes 511 8 0 5) ready) (.writeLane 511 8 0 5) 7 ready ∧
      RequestDue (told 0x35 (laneBytes 0 0 2 5) ready) (.writeLane 0 0 2 5) 7 ready ∧
      RequestDue (told 0x35 (laneBytes 0 0 1 0) ready) (.writeLane 0 0 1 0) 7 ready ∧
      (RequestDue (told 0x35 (laneBytes 511 7 1 100) ready) (.writeLane 511 7 1 100) 7 ready ∧
        stationTaken ready.lanes (511 * 8 + 7) 100 = true) ∧
      RequestDue (told 0x35 (laneBytes 0 0 0 0) ready) (.writeLane 0 0 0 0) 7 ready ∧
      (RequestDue (told 0x35 (laneBytes 0 0 1 100) ready) (.writeLane 0 0 1 100) 7 ready ∧
        stationTaken ready.lanes (0 * 8 + 0) 100 = false) := by
  repeat' first | exact due (by decide) | refine And.intro ?_ ?_ | decide

def termsWrite (state debitLimit : Nat) : TermsWrite :=
  { merchant := 0, state := state, maySell := true, mayRefund := true, discount := 300, commission := 50, charge := 10,
    tolerance := 20, tier := 1, returnWindow := 30, minPayout := 1, debitLimit := debitLimit, payee := 7 }

def termsWriteBytes (w : TermsWrite) : List Byte :=
  beBytes 2 w.merchant ++ beBytes 1 w.state ++ beBytes 1 3 ++ beBytes 2 w.discount ++ beBytes 2 w.commission ++ beBytes 2 w.charge ++
    beBytes 1 w.tolerance ++ beBytes 1 w.tier ++ beBytes 2 w.returnWindow ++ beBytes 2 0 ++ beBytes 4 w.minPayout ++
    beBytes 4 w.debitLimit ++ beBytes 4 w.payee

/-- The part told to write terms. -/
def writesTerms (w : TermsWrite) (s : State) : State := told 0x30 (termsWriteBytes w) s

/-- `ready` with page 0 in a state. -/
def page (x : PageState) : State := { ready with pages := [(0, x)] }

theorem witness_termsRefusals :
    RequestDue (writesTerms { termsWrite 1 10000 with merchant := 512 } ready) (.writeTerms { termsWrite 1 10000 with merchant := 512 }) 7
        ready ∧
      (RequestDue (writesTerms (termsWrite 1 10000) (page .clearing)) (.writeTerms (termsWrite 1 10000)) 7 (page .clearing) ∧
        pageAt (page .clearing) 0 = .clearing) ∧
      (RequestDue (writesTerms (termsWrite 1 10000) (page .torn)) (.writeTerms (termsWrite 1 10000)) 7 (page .torn) ∧
        pageAt (page .torn) 0 = .torn) ∧
      (RequestDue (writesTerms (termsWrite 4 10000) ready) (.writeTerms (termsWrite 4 10000)) 7 ready ∧ pageAt ready 0 = .opened ∧
        ¬(termsWrite 4 10000).state ≤ 3) ∧
      (RequestDue (writesTerms (termsWrite 1 100000001) (page .fixed)) (.writeTerms (termsWrite 1 100000001)) 7 (page .fixed) ∧
        ¬(termsWrite 1 100000001).debitLimit ≤ 100000000) ∧
      (RequestDue (writesTerms (termsWrite 1 9999) (page .fixed)) (.writeTerms (termsWrite 1 9999)) 7 (page .fixed) ∧
        pageAt (page .fixed) 0 = .fixed ∧ { terms with debitLimit := 9999 } ≠ terms) ∧
      (RequestDue (writesTerms (termsWrite 1 10001) ready) (.writeTerms (termsWrite 1 10001)) 7 ready ∧
        (termsOf ready 0).state ≠ .unenrolled ∧ ¬(termsWrite 1 10001).debitLimit ≤ (termsOf ready 0).debitLimit) := by
  repeat' first | exact due (by decide) | refine And.intro ?_ ?_ | decide

/-- On a FIXED page merchant 0 is suspended; on an OPEN one its debit limit tightens, and merchant 31 is enrolled. -/
theorem witness_termsWrites :
    (RequestDue (writesTerms (termsWrite 2 10000) (page .fixed)) (.writeTerms (termsWrite 2 10000)) 7 (page .fixed) ∧
        pageAt (page .fixed) 0 = .fixed ∧ termsOf (page .fixed) 0 = terms ∧ terms.state = .enrolled) ∧
      (RequestDue (writesTerms (termsWrite 1 9999) ready) (.writeTerms (termsWrite 1 9999)) 7 ready ∧ pageAt ready 0 = .opened ∧
        (termsWrite 1 9999).debitLimit ≤ (termsOf ready 0).debitLimit) ∧
      (RequestDue (writesTerms { termsWrite 3 100000000 with merchant := 31, tier := 3 } ready)
          (.writeTerms { termsWrite 3 100000000 with merchant := 31, tier := 3 }) 7 ready ∧
        (termsOf ready 31).state = .unenrolled) := by
  repeat' first | exact due (by decide) | refine And.intro ?_ ?_ | decide

/-- The parameters of a page request. -/
def pageBytes (p : Nat) : List Byte := beBytes 1 p ++ [0]

theorem witness_pages :
    RequestDue (told 0x32 (pageBytes 16) ready) (.clearPage 16) 7 ready ∧
      (RequestDue (told 0x32 (pageBytes 15) ready) (.clearPage 15) 7 ready ∧ ready.clearOp = .none ∧ pageAt ready 15 ≠ .fixed ∧
        ready.batch.state ≠ .computing) ∧
      { ready with clearOp := .page 0 }.clearOp ≠ .none ∧ pageAt { ready with pages := [(15, .fixed)] } 15 = .fixed ∧
      { ready with batch := computing 0 }.batch.state = .computing ∧
      RequestDue (told 0x33 (pageBytes 16) ready) (.fixPage 16) 7 ready ∧
      (RequestDue (told 0x33 (pageBytes 15) ready) (.fixPage 15) 7 ready ∧ pageAt ready 15 = .opened) ∧
      pageAt { ready with pages := [(15, .clearing)] } 15 = .clearing ∧ pageAt { ready with pages := [(15, .torn)] } 15 = .torn ∧
      (RequestDue (told 0x34 [] ready) .clearDirectory 7 ready ∧ ready.mode ≠ .maintenance) ∧
      (RequestDue (told 0x34 [] { closedForTills with positions := [] }) .clearDirectory 7 { closedForTills with positions := [] } ∧
        ∀ e ∈ ({ closedForTills with positions := [] } : State).positions, e.2.current = Bank.zero ∧ e.2.carry = 0) ∧
      (ready.inReset = false ∧ clearing ready = false ∧ { ready with clearOp := .page 3 }.clearOp = .page 3 ∧
        { ready with clearOp := .directory }.clearOp = .directory) := by
  repeat' first | exact due (by decide) | refine And.intro ?_ ?_ | decide

theorem witness_fixedPages :
    clearsStandOnClearingPages { ready with pages := [(0, .fixed)] } ∧
      (∃ t, exec .writeTerms { ready with pages := [(0, .fixed)] } = .next t) ∧ Instr.writeTerms ≠ .clearDirectory ∧
      Instr.writeTerms ≠ .storeClearCompletion ∧ Instr.writeTerms ≠ .initialisationComplete ∧
      pageAt { ready with pages := [(0, .fixed)] } 0 = .fixed :=
  ⟨trivial, ⟨_, rfl⟩, by decide, by decide, by decide, by decide⟩

/-! ### Witnesses: cards -/

def inSlot (q : CardRequest) (s : State) : State := { s with cardSlot := some q }

def reading (n : Nat) : CardRequest := { op := .read, card := n, tag := 7 }

/-- The part with another card in the slot of `card`. -/
def having (c : CardRecord) : State := { ready with cards := [(slot, some c)] }

theorem witness_cardSlot :
    (RequestDue (told 0x20 (cardBytes number) ready) (.card .read number) 7 ready ∧ ready.cardSlot = none) ∧
      (RequestDue (told 0x20 (cardBytes number) (inSlot (reading 5) ready)) (.card .read number) 7 (inSlot (reading 5) ready) ∧
        (inSlot (reading 5) ready).cardSlot ≠ none) ∧
      (ready.inReset = false ∧ ready.posting = .idle ∧ (inSlot (reading number) ready).cardSlot = some (reading number)) ∧
      clearing { ready with clearRun := .repeated } = true ∧
      (clearing ready = false ∧ ∀ d, (reading number).op ≠ .move d) ∧ sixteenDigits (10 ^ 15 - 1) = false ∧
      (sixteenDigits 4000001234567893 = true ∧ passesCheck 4000001234567893 = false) ∧
      (sixteenDigits otherNumber = true ∧ passesCheck otherNumber = true ∧ lookupCard ready otherNumber = none) := by
  repeat' first | exact due (by decide) | refine And.intro ?_ ?_ | decide | (intro d; simp [reading])

theorem witness_cardRequests :
    (CardDue (inSlot (reading number) ready) (reading number) ∧ sixteenDigits number = true ∧ passesCheck number = true ∧
        lookupCard (inSlot (reading number) ready) number = some (slot, card) ∧ (reading number).op = .read) ∧
      (CardDue (inSlot ⟨.suspend, number, 7⟩ ready) ⟨.suspend, number, 7⟩ ∧ card.state = .active) ∧
      lookupCard (inSlot ⟨.resume, number, 7⟩ (having { card with state := .suspended })) number =
        some (slot, { card with state := .suspended }) ∧
      lookupCard (inSlot ⟨.retire, number, 7⟩ (having { card with balance := 0, holds := [] })) number =
        some (slot, { card with balance := 0, holds := [] }) ∧
      (card.state ≠ .retired ∧ card.balance ≠ 0 ∧ card.holds.filter (fun h => !holdExpired (some 1000000) h) ≠ []) ∧
      lookupCard (inSlot ⟨.purge, number, 7⟩ (having { card with state := .retired })) number =
        some (slot, { card with state := .retired }) ∧
      (CardDue (inSlot ⟨.extend 16777215, number, 7⟩ ready) ⟨.extend 16777215, number, 7⟩ ∧ card.expiryDay ≠ 0 ∧
        card.expiryDay ≤ 16777215) ∧
      16777215 < 16777216 ∧ (40 ≠ 0 ∧ 40 < card.expiryDay) ∧
      lookupCard (having { card with expiryDay := 0 }) number = some (slot, { card with expiryDay := 0 }) := by
  repeat' first | exact cardDue (by decide) | refine And.intro ?_ ?_ | decide

/-- A lost card of balance 4000 with the free amount 3700, and a second card. -/
def moving (second : CardRecord) : State :=
  { ready with cards := [(slot, some { card with state := .suspended }), (otherSlot, some second)] }

def second (balance : Nat) : CardRecord := { card with number := otherNumber, balance := balance, holds := [] }

def move : CardRequest := { op := .move otherNumber, card := number, tag := 7 }

theorem witness_move :
    (CardDue (inSlot move { ready with clock := .unset }) move ∧ move.op = .move otherNumber) ∧
      CardDue (inSlot { move with op := .move number } ready) { move with op := .move number } ∧
      requestedCard (inSlot { move with card := 5000000000000009 } ready) 5000000000000009 = .error .notFound ∧
      (CardDue (inSlot move ready) move ∧ timeOf ready.clock = some 1000000 ∧
        requestedCard (inSlot move ready) move.card = .ok (slot, card) ∧ card.state ≠ .suspended) ∧
      (requestedCard (moving (second 6300)) number = .ok (slot, { card with state := .suspended }) ∧
        requestedCard (moving (second 6300)) otherNumber = .ok (otherSlot, second 6300) ∧
        cardExpired (some 1000000) (today (moving (second 6300))) (second 6300) = false ∧
        freeAmount (some 1000000) card = 3700 ∧
        (second 6300).balance + 3700 ≤ (programAt (moving (second 6300)) (second 6300).program).ceiling) ∧
      (programAt (moving (second 6301)) 0).ceiling < (second 6301).balance + 3700 ∧
      cardExpired (some 1000000) 11 { second 0 with expiryDay := 10 } = true ∧
      freeAmount (some 1000000) { card with balance := 300 } = 0 := by
  refine ⟨⟨cardDue (by decide), rfl⟩, cardDue (by decide), by rfl, ⟨cardDue (by decide), rfl, by rfl, by decide⟩, ?_⟩
  and_intros <;> first | rfl | decide

/-! ### Witnesses: tills -/

theorem witness_checkOrder :
    (TillDue (waiting (asks .spend 0) ready) (asks .spend 0) ready ∧ RequestKind.carriesAmount .spend = true ∧
        ¬(1 ≤ (asks .spend 0).amount)) ∧
      ¬(asks .spend 10000000).amount ≤ 9999999 ∧
      (TillDue (waiting (asks .spend 9999999) ready) (asks .spend 9999999) ready ∧ (asks .spend 9999999).amount ≤ 9999999) ∧
      passesCheck { asks .spend 1 with card := 4000001234567893 }.card = false ∧
      (passesCheck 5000000000000009 = true ∧ matchProgram ready.programs 5000000000000009 = none) ∧
      (matchProgram ready.programs number ≠ none ∧ ¬(closedForTills.mode = .service) ∧ RequestKind.spend ≠ .ask) ∧
      (clearing ready = false ∧ ready.mode = .service ∧ { ready with clock := .unset }.clock = .unset) ∧
      (TillDue (waiting (asks .ask 0) closedForTills) (asks .ask 0) closedForTills ∧ closedForTills.clock ≠ .unset) := by
  repeat' first | exact tillDue (by decide) | refine And.intro ?_ ?_ | decide

/-- A request passes steps 1 to 5: its amount, its check digit, its program, the mode and the clock. -/
def passesEntry (s : State) (r : TillRequest) : Bool :=
  decide (r.kind.carriesAmount = true → 1 ≤ r.amount ∧ r.amount ≤ 9999999) && passesCheck r.card &&
    decide (matchProgram s.programs r.card ≠ none) && !clearing s && decide (s.mode = .service) && decide (s.clock ≠ .unset)

theorem witness_cardTests :
    (TillDue (waiting (asks .spend 100) { ready with cards := [] }) (asks .spend 100) { ready with cards := [] } ∧
        passesEntry { ready with cards := [] } (asks .spend 100) = true ∧ (asks .spend 100).kind ≠ .issue ∧
        lookupCard { ready with cards := [] } number = none) ∧
      (lookupCard (having { card with state := .retired }) number = some (slot, { card with state := .retired })) ∧
      (TillDue (waiting (asks .cancel 0) (having { card with state := .suspended })) (asks .cancel 0)
          (having { card with state := .suspended }) ∧
        passesEntry (having { card with state := .suspended }) (asks .cancel 0) = true ∧
        lookupCard (having { card with state := .suspended }) number = some (slot, { card with state := .suspended })) ∧
      (TillDue (waiting (asks .spend 100) (having { card with expiryDay := 10 })) (asks .spend 100) (having { card with expiryDay := 10 }) ∧
        passesEntry (having { card with expiryDay := 10 }) (asks .spend 100) = true ∧
        lookupCard (having { card with expiryDay := 10 }) number = some (slot, { card with expiryDay := 10 }) ∧
        10 < today (having { card with expiryDay := 10 })) ∧
      (TillDue (waiting (asks .spend 100) { ready with terms := [(0, { terms with state := .withdrawn })] }) (asks .spend 100)
          { ready with terms := [(0, { terms with state := .withdrawn })] } ∧
        (termsOf { ready with terms := [(0, { terms with state := .withdrawn })] } 0).state ≠ .enrolled) ∧
      (TillDue (waiting (asks .topup 100) { ready with terms := [(0, { terms with maySell := false })] }) (asks .topup 100)
          { ready with terms := [(0, { terms with maySell := false })] } ∧
        (termsOf { ready with terms := [(0, { terms with maySell := false })] } 0).maySell = false) ∧
      (termsOf { ready with terms := [(0, { terms with mayRefund := false })] } 0).mayRefund = false ∧
      (TillDue (waiting (asks .spend 100) (having { card with expiryDay := 11 })) (asks .spend 100) (having { card with expiryDay := 11 }) ∧
        passesEntry (having { card with expiryDay := 11 }) (asks .spend 100) = true ∧
        lookupCard (having { card with expiryDay := 11 }) number = some (slot, { card with expiryDay := 11 }) ∧
        ¬11 < today (having { card with expiryDay := 11 }) ∧ (termsOf ready 0).state = .enrolled) := by
  repeat' first | exact tillDue (by decide) | refine And.intro ?_ ?_ | decide

theorem witness_grants :
    1 ≤ 100 ∧ decideGrant 100 false [(.funds, 100)] = .ok 100 ∧ decideGrant 101 false [(.funds, 100)] = .error .funds ∧
      decideGrant 101 true [(.funds, 100), (.dayCap, 50)] = .ok 50 ∧ decideGrant 101 true [(.funds, 0), (.dayCap, 0)] = .error .funds :=
  ⟨by decide, rfl, rfl, rfl, rfl⟩

theorem witness_takingWritesNoStore : ∃ t, exec (RequestKind.command .spend) (waiting (asks .spend 100) ready) = .next t := ⟨_, rfl⟩

/-- An ISSUE of another card at the program's ceiling. -/
def issue : TillRequest := { asks .issue 10000 with card := otherNumber }

theorem witness_sales :
    (TillDue (waiting issue ready) issue ready ∧ issue.kind = .issue ∧ 1 ≤ issue.amount ∧ issue.amount ≤ 9999999 ∧
        passesCheck issue.card = true ∧ matchProgram ready.programs issue.card = some 0 ∧ clearing ready = false ∧
        ready.mode = .service ∧ ready.clock ≠ .unset ∧ (termsOf ready 0).state = .enrolled ∧ (termsOf ready 0).maySell = true ∧
        (programAt ready 0).state = .opened ∧ (programAt ready 0).issueMinimum ≤ issue.amount ∧
        issue.amount ≤ (programAt ready 0).ceiling ∧ lookupCard ready issue.card = none ∧
        probeWindow issue.card = [] ++ otherSlot :: (probeWindow issue.card).tail ∧ cardAt ready otherSlot = none) ∧
      (TillDue (waiting (asks .topup 6000) ready) (asks .topup 6000) ready ∧ (asks .topup 6000).kind = .topup ∧
        PassesHead (waiting (asks .topup 6000) ready) (asks .topup 6000) slot card ∧
        (programAt ready card.program).topupPermitted = true ∧
        decideGrant 6000 false [(.ceiling, (programAt ready card.program).ceiling - card.balance)] = .ok 6000) := by
  repeat' first | exact tillDue (by decide) | exact passes (by decide) | refine And.intro ?_ ?_ | rfl | decide

/-- A request that names the hold of `card`. -/
def onHold (kind : RequestKind) (amount : Nat) : TillRequest := { asks kind amount with reference := ⟨0, 0, 1⟩ }

theorem witness_debits :
    (TillDue (waiting (asks .spend 3700) ready) (asks .spend 3700) ready ∧
        PassesHead (waiting (asks .spend 3700) ready) (asks .spend 3700) slot card ∧ (programAt ready 0).dailyCap = 0 ∧
        decideGrant 3700 false [(.funds, freeAmount (timeOf ready.clock) card)] = .ok 3700) ∧
      (TillDue (waiting (onHold .claim 360) ready) (onHold .claim 360) ready ∧
        PassesHead (waiting (onHold .claim 360) ready) (onHold .claim 360) slot card ∧
        card.holds.find? (fun h => decide (h.reference = (onHold .claim 360).reference)) = some hold ∧
        hold.merchant = (onHold .claim 360).merchant ∧ holdExpired (timeOf ready.clock) hold = false ∧ card.state = .active ∧
        decideGrant 360 false [(.overHold, hold.amount + hold.amount * (termsOf ready 0).tolerance / 100),
          (.funds, freeAmount (timeOf ready.clock) card + hold.amount)] = .ok 360) := by
  repeat' first | exact tillDue (by decide) | exact passes (by decide) | refine And.intro ?_ ?_ | rfl

/-! The kind's own tests: a sale of `amount` to a card of another number, a hold of another merchant or one that has expired, and
entries that do not fit. -/

def sells (amount : Nat) : TillRequest := { issue with amount := amount }

/-- `ready` with another program entry 0. -/
def under (p : Program) : State := { ready with programs := [(0, p)] }

/-- `ready` with another entry at journal position 0. -/
def journalled (e : JournalEntry) : State := { ready with journal := [(0, some e), (1, some reserveEntry)] }

theorem witness_ownTestsOfAnIssue :
    (TillDue (waiting (sells 100) ready) (sells 100) ready ∧ (sells 100).kind = .issue ∧ passesCheck otherNumber = true ∧
        matchProgram ready.programs otherNumber = some 0 ∧ clearing ready = false ∧ ready.mode = .service ∧ ready.clock ≠ .unset) ∧
      ¬((termsOf { ready with terms := [(0, { terms with maySell := false })] } 0).maySell = true) ∧
      (termsOf ready 0).state = .enrolled ∧ (termsOf ready 0).maySell = true ∧
      (matchProgram (under { program with state := .closed }).programs otherNumber = some 0 ∧
        (programAt (under { program with state := .closed }) 0).state ≠ .opened) ∧
      (sells 99).amount < (programAt ready 0).issueMinimum ∧ (programAt ready 0).ceiling < (sells 10001).amount ∧
      lookupCard ready (asks .issue 100).card ≠ none ∧
      (lookupCard { ready with cards := (probeWindow otherNumber).map fun k => (k, some card) } otherNumber = none ∧
        ∀ k ∈ probeWindow otherNumber, cardAt { ready with cards := (probeWindow otherNumber).map fun k => (k, some card) } k ≠ none) := by
  repeat' first | exact tillDue (by decide) | refine And.intro ?_ ?_ | decide

theorem witness_ownTests :
    (TillDue (waiting (asks .topup 100) (under { program with topupPermitted := false })) (asks .topup 100)
        (under { program with topupPermitted := false }) ∧
        PassesHead (waiting (asks .topup 100) (under { program with topupPermitted := false })) (asks .topup 100) slot card) ∧
      (PassesHead (waiting (asks .topup 6001) ready) (asks .topup 6001) slot card ∧
        decideGrant 6001 false [(.ceiling, (programAt ready 0).ceiling - card.balance)] = .error .ceiling) ∧
      (PassesHead (waiting (asks .spend 3701) ready) (asks .spend 3701) slot card ∧
        decideGrant 3701 false [(.funds, freeAmount (timeOf ready.clock) card)] = .error .funds) ∧
      (PassesHead (waiting (asks .tryReq 51) (under { program with dailyCap := 1050 })) (asks .tryReq 51) slot card ∧
        decideGrant 51 false [(.funds, freeAmount (timeOf ready.clock) card), (.dayCap, 1050 - card.daySpend)] = .error .dayCap) ∧
      (PassesHead (waiting (asks .reserve 1) (under { program with holdLimit := 1 })) (asks .reserve 1) slot card ∧
        1 ≤ (liveHolds (timeOf ready.clock) card.holds).length) ∧
      (PassesHead (waiting (asks .reserve 3701) ready) (asks .reserve 3701) slot card ∧
        (liveHolds (timeOf ready.clock) card.holds).length < (programAt ready 0).holdLimit) := by
  repeat' first | exact tillDue (by decide) | exact passes (by decide) | refine And.intro ?_ ?_ | rfl | decide

theorem witness_ownTestsOfAHold :
    (TillDue (waiting (onHold .claim 361) ready) (onHold .claim 361) ready ∧
        PassesHead (waiting (onHold .claim 361) ready) (onHold .claim 361) slot card ∧
        card.holds.find? (fun h => decide (h.reference = ⟨0, 0, 1⟩)) = some hold ∧
        decideGrant 361 false [(.overHold, hold.amount + hold.amount * (termsOf ready 0).tolerance / 100),
          (.funds, freeAmount (timeOf ready.clock) card + hold.amount)] = .error .overHold) ∧
      (({ hold with merchant := 1 } : Hold).merchant ≠ (onHold .claim 361).merchant ∧
        PassesHead (waiting (onHold .free 0) (having { card with holds := [{ hold with merchant := 1 }] })) (onHold .free 0) slot
          { card with holds := [{ hold with merchant := 1 }] }) ∧
      holdExpired (timeOf ready.clock) { hold with expiry := 1000000 } = true ∧
      (PassesHead (waiting (onHold .claim 1) (having { card with holds := [] })) (onHold .claim 1) slot { card with holds := [] } ∧
        entryAt ready ⟨0, 0, 1⟩ = some reserveEntry ∧ reserveEntry.lap = 0 ∧ reserveEntry.kind = .reserve ∧
        reserveEntry.card = some number ∧ reserveEntry.merchant = some 0 ∧ reserveEntry.link = none) ∧
      (entryAt ready ⟨0, 2047, 31⟩ = none ∧ entryAt ready ⟨1, 0, 1⟩ = some reserveEntry ∧ reserveEntry.lap ≠ 1 ∧
        entryAt ready ⟨0, 0, 0⟩ = some spendEntry ∧ spendEntry.kind ≠ .reserve) := by
  repeat' first | exact tillDue (by decide) | exact passes (by decide) | refine And.intro ?_ ?_ | rfl | decide

theorem witness_ownTestsOfAReturn :
    (TillDue (waiting (asks .returnReq 1001) ready) (asks .returnReq 1001) ready ∧
        PassesHead (waiting (asks .returnReq 1001) ready) (asks .returnReq 1001) slot card ∧
        entryAt ready ⟨0, 0, 0⟩ = some spendEntry ∧ spendEntry.lap = 0 ∧ spendEntry.kind = .spend ∧ spendEntry.card = some number ∧
        spendEntry.merchant = some 0 ∧ spendEntry.cancelled = false ∧ card.issueDay ≤ spendEntry.day ∧
        today ready ≤ spendEntry.day + (termsOf ready 0).returnWindow ∧
        decideGrant 1001 false [(.returnExcess, spendEntry.remaining.getD 0), (.ceiling, (programAt ready 0).ceiling - card.balance)] =
          .error .returnExcess) ∧
      entryAt { ready with journal := [] } ⟨0, 0, 0⟩ = none ∧
      (entryAt (journalled { spendEntry with lap := 1 }) ⟨0, 0, 0⟩ = some { spendEntry with lap := 1 }) ∧
      ¬card.issueDay ≤ ({ spendEntry with day := 10 } : JournalEntry).day ∧
      ({ terms with returnWindow := 0 }.returnWindow = 0 ∧ 10 + { terms with returnWindow := 0 }.returnWindow < today ready) := by
  repeat' first | exact tillDue (by decide) | exact passes (by decide) | refine And.intro ?_ ?_ | rfl | decide

theorem witness_ownTestsOfACancel :
    (TillDue (waiting { asks .cancel 0 with cancelSequence := 8 } ready) { asks .cancel 0 with cancelSequence := 8 } ready ∧
        PassesHead (waiting { asks .cancel 0 with cancelSequence := 8 } ready) { asks .cancel 0 with cancelSequence := 8 } slot card ∧
        (laneAt ready 0 0).last = some ⟨⟨0, 0, 0⟩, 9, 11, 0⟩ ∧ (9 : Nat) ≠ 8) ∧
      (TillDue (waiting (asks .cancel 0) ready) (asks .cancel 0) ready ∧
        PassesHead (waiting (asks .cancel 0) ready) (asks .cancel 0) slot card ∧ (9 : Nat) = (asks .cancel 0).cancelSequence) ∧
      (entryAt (journalled { spendEntry with lap := 1 }) ⟨0, 0, 0⟩ = some { spendEntry with lap := 1 } ∧ (1 : Nat) ≠ 0) ∧
      (entryAt (journalled { spendEntry with card := some otherNumber }) ⟨0, 0, 0⟩ = some { spendEntry with card := some otherNumber } ∧
        ({ spendEntry with card := some otherNumber } : JournalEntry).card ≠ some number) ∧
      (today { ready with clock := .running 1036800 } = 12 ∧
        PassesHead (waiting (asks .cancel 0) { ready with clock := .running 1036800 }) (asks .cancel 0) slot card) ∧
      (entryAt (journalled { spendEntry with remaining := some 999 }) ⟨0, 0, 0⟩ = some { spendEntry with remaining := some 999 } ∧
        (999 : Nat) ≠ spendEntry.amount.toNat) := by
  repeat' first | exact tillDue (by decide) | exact passes (by decide) | refine And.intro ?_ ?_ | rfl | decide

theorem witness_askAndTry :
    (TillDue (waiting (asks .ask 0) ready) (asks .ask 0) ready ∧
        PassesHead (waiting (asks .ask 0) ready) (asks .ask 0) slot card) ∧
      (TillDue (waiting (asks .tryReq 1) ready) (asks .tryReq 1) ready ∧
        PassesHead (waiting (asks .tryReq 1) ready) (asks .tryReq 1) slot card ∧ (programAt ready 0).dailyCap = 0 ∧
        decideGrant 1 false [(.funds, freeAmount (timeOf ready.clock) card)] = .ok 1) := by
  repeat' first | exact tillDue (by decide) | exact passes (by decide) | refine And.intro ?_ ?_ | rfl

theorem witness_holds :
    (TillDue (waiting (asks .reserve 3700) ready) (asks .reserve 3700) ready ∧
        PassesHead (waiting (asks .reserve 3700) ready) (asks .reserve 3700) slot card ∧ timeOf ready.clock = some 1000000 ∧
        (liveHolds (some 1000000) card.holds).length < (programAt ready card.program).holdLimit ∧
        decideGrant 3700 false [(.funds, freeAmount (some 1000000) card)] = .ok 3700) ∧
      (TillDue (waiting (onHold .free 0) ready) (onHold .free 0) ready ∧
        PassesHead (waiting (onHold .free 0) ready) (onHold .free 0) slot card ∧
        card.holds.find? (fun h => decide (h.reference = ⟨0, 0, 1⟩) && decide (h.merchant = 0) &&
          !holdExpired (timeOf ready.clock) h) = some hold ∧
        entryAt ready ⟨0, 0, 1⟩ = some reserveEntry ∧ reserveEntry.lap = 0 ∧ reserveEntry.kind = .reserve ∧
        positionOf ⟨0, 0, 1⟩ ≠ positionOf ready.writePos) := by
  repeat' first | exact tillDue (by decide) | exact passes (by decide) | refine And.intro ?_ ?_ | rfl | decide

theorem witness_returns :
    TillDue (waiting (asks .returnReq 1000) ready) (asks .returnReq 1000) ready ∧
      PassesHead (waiting (asks .returnReq 1000) ready) (asks .returnReq 1000) slot card ∧
      entryAt ready ⟨0, 0, 0⟩ = some spendEntry ∧ spendEntry.lap = 0 ∧ spendEntry.kind = .spend ∧ spendEntry.card = some number ∧
      spendEntry.merchant = some 0 ∧ spendEntry.cancelled = false ∧ card.issueDay ≤ spendEntry.day ∧
      1 ≤ (termsOf ready 0).returnWindow ∧ today ready ≤ spendEntry.day + (termsOf ready 0).returnWindow ∧
      decideGrant 1000 false
        [(.returnExcess, spendEntry.remaining.getD 0), (.ceiling, (programAt ready card.program).ceiling - card.balance)] =
        .ok 1000 := by
  repeat' first | exact tillDue (by decide) | exact passes (by decide) | refine And.intro ?_ ?_ | rfl | decide

/-- The entries of an ISSUE and a TOPUP of 4000 and 3700, of a RETURN of 1, and a card without holds. -/
theorem witness_cancels :
    (TillDue (waiting (asks .cancel 0) ready) (asks .cancel 0) ready ∧
        PassesHead (waiting (asks .cancel 0) ready) (asks .cancel 0) slot card ∧
        (laneAt ready 0 0).last = some ⟨⟨0, 0, 0⟩, 9, 11, 0⟩ ∧ (9 : Nat) = (asks .cancel 0).cancelSequence ∧
        entryAt ready ⟨0, 0, 0⟩ = some spendEntry ∧ spendEntry.lap = 0 ∧ spendEntry.card = some number ∧ 11 = today ready ∧
        spendEntry.kind = .spend ∧ spendEntry.remaining.getD 0 = spendEntry.amount.toNat ∧
        card.balance + spendEntry.amount.toNat ≤ (programAt ready 0).ceiling) ∧
      (entryAt (journalled { spendEntry with kind := .issue, amount := 4000, remaining := none }) ⟨0, 0, 0⟩ =
          some { spendEntry with kind := .issue, amount := 4000, remaining := none } ∧
        PassesHead (waiting (asks .cancel 0) (having { card with holds := [] })) (asks .cancel 0) slot { card with holds := [] } ∧
        card.balance = ({ spendEntry with amount := 4000 } : JournalEntry).amount.toNat ∧ liveHolds (timeOf ready.clock) [] = []) ∧
      (({ spendEntry with kind := .topup, amount := 3700 } : JournalEntry).kind = .topup ∧
        ({ spendEntry with kind := .topup, amount := 3700 } : JournalEntry).amount.toNat ≤ freeAmount (timeOf ready.clock) card) ∧
      (({ spendEntry with kind := .returnReq, amount := 1 } : JournalEntry).kind = .returnReq ∧
        ({ spendEntry with kind := .returnReq, amount := 1 } : JournalEntry).amount.toNat ≤ freeAmount (timeOf ready.clock) card) := by
  repeat' first | exact tillDue (by decide) | exact passes (by decide) | refine And.intro ?_ ?_ | rfl | decide

/-! ### Witnesses: the Position Table and the settlement -/

/-- A sale of `amount` in hand, gated by the debit limit 10000 of merchant 0, whose exposure is -1000. -/
def saleInHand (amount : Nat) : Hand :=
  handFor ready (asks .topup amount) (.post .sold true 10000) .exposure amount slot card { card with balance := card.balance + amount }
    .topup none none true .approved {}

def cancelInHand (cycle : Nat) : Hand :=
  { inHand with movement := .reversal .redeemed cycle, entryKind := .cancel, link := some ⟨0, 0, 0⟩ }

theorem witness_tableAnswers :
    (holding.inReset = false ∧ holding.posting = .till inHand ∧ inHand.movement = .post .redeemed false 0) ∧
      ((saleInHand 11000).movement = .post .sold true 10000 ∧ exposure position + ((saleInHand 11000).amount : Int) ≤ 10000 ∧
        10000 < exposure position + ((saleInHand 11001).amount : Int)) ∧
      ((cancelInHand 0).movement = .reversal .redeemed 0 ∧ 0 = ready.cycle ∧ (cancelInHand 1).movement = .reversal .redeemed 1 ∧
        1 ≠ ready.cycle) ∧
      ((saleInHand 1).entryKind = .topup ∧ (cancelInHand 0).entryKind = .cancel ∧ (cancelInHand 0).link = some ⟨0, 0, 0⟩ ∧
        (cancelInHand 0).restore = none ∧ { cancelInHand 0 with restore := some ⟨0, 0, 1⟩ }.restore = some ⟨0, 0, 1⟩ ∧
        { inHand with entryKind := .claim, link := some ⟨0, 0, 1⟩ }.entryKind = .claim ∧
        { inHand with entryKind := .returnReq, link := some ⟨0, 0, 0⟩ }.link = some ⟨0, 0, 0⟩) := by
  repeat' first | refine And.intro ?_ ?_ | rfl | decide

theorem witness_spendMovesTheMoney :
    TillDue (waiting (asks .spend 3700) ready) (asks .spend 3700) ready ∧ (asks .spend 3700).kind = .spend ∧
      PassesHead (waiting (asks .spend 3700) ready) (asks .spend 3700) slot card ∧ (programAt ready 0).dailyCap = 0 ∧
      decideGrant 3700 false [(.funds, freeAmount (timeOf ready.clock) card)] = .ok 3700 ∧ ready.shopLink = .up ∧
      { ready with shopLink := .down }.shopLink = .down := by
  repeat' first | exact tillDue (by decide) | exact passes (by decide) | refine And.intro ?_ ?_ | rfl

theorem witness_liabilityEquality :
    (inHand.movement = .post .redeemed false 0 ∧
        (positionAt holding inHand.request.merchant).current.saturates .redeemed inHand.amount = false ∧
        inHand.liabilityRises = decide (BankField.redeemed ≠ .redeemed) ∧ inHand.amount ≤ holding.liability ∧
        ∃ t, exec .conditionalPost holding = .next t) ∧
      (saleInHand 11000).liabilityRises = decide (BankField.sold ≠ .redeemed) :=
  ⟨⟨rfl, by decide, by decide, by decide, _, rfl⟩, by decide⟩

theorem witness_closeCycle :
    (RequestDue (told 0x40 [] ready) .closeCycle 7 ready ∧ ready.batch.state = .empty) ∧
      (RequestDue (told 0x40 [] { ready with batch := computing 0 }) .closeCycle 7 { ready with batch := computing 0 } ∧
        (computing 0).state ≠ .empty ∧ (computing 0).state ≠ .settled) ∧
      { Batch.none with state := .settled }.state = .settled ∧ (positionAt ready 511).computed = true := by
  repeat' first | exact due (by decide) | refine And.intro ?_ ?_ | decide

/-- The parameters of ADJUST_CARRY. -/
def adjustBytes (m : Nat) (a : Int) : List Byte := beBytes 2 m ++ [0, 0] ++ signedBytes 8 a

theorem witness_adjustCarry :
    RequestDue (told 0x41 (adjustBytes 512 5) ready) (.adjustCarry 512 5) 7 ready ∧
      (RequestDue (told 0x41 (adjustBytes 511 0) ready) (.adjustCarry 511 0) 7 ready ∧ ¬(0 : Int) ≠ 0) ∧
      (RequestDue (told 0x41 (adjustBytes 511 (2 ^ 62)) ready) (.adjustCarry 511 (2 ^ 62)) 7 ready ∧
        ¬(2 ^ 62 : Int) ≤ 2 ^ 62 - 1) ∧
      (RequestDue (told 0x41 (adjustBytes 511 (-(2 ^ 62))) { ready with clock := .unset }) (.adjustCarry 511 (-(2 ^ 62))) 7
        { ready with clock := .unset }) ∧
      (RequestDue (told 0x41 (adjustBytes 511 (2 ^ 62 - 1)) ready) (.adjustCarry 511 (2 ^ 62 - 1)) 7 ready ∧ ready.clock ≠ .unset) := by
  repeat' first | exact due (by decide) | refine And.intro ?_ ?_ | decide

theorem witness_arithmetic :
    (0 ≤ settlementBase { Bank.zero with redeemed := 600 } * 25 ∧ settlementBase { Bank.zero with refunded := 600 } * 25 < 0 ∧
        Terms.unenrolled.discount = 0 ∧ (2 ^ 48 - 1 : Nat) ≤ 2 ^ 48 - 1 ∧ 1500 ≤ 1500) ∧
      ({ Bank.zero with sold := 399 }.sold = 399 ∧ { terms with commission := 25 }.commission = 25) := by
  and_intros <;> decide

/-- A position whose closing bank redeemed `r`, with carry-in `c`. -/
def closed (r : Nat) (c : Int) : Position := { Position.zero with closing := { Bank.zero with redeemed := r }, carryIn := c, computed := false }

theorem witness_dispositions :
    { closed 1 0 with closingSaturated := true }.closingSaturated = true ∧ (closed 1 0).closingSaturated = false ∧
      Terms.unenrolled.state = .unenrolled ∧ terms.state = .enrolled ∧ { terms with state := .withdrawn }.state = .withdrawn ∧
      (settlementRecord 0 0 0 (closed 0 (-1)) terms).net < 0 ∧ (settlementRecord 0 0 0 (closed 0 1) terms).net = 1 ∧
      (settlementRecord 0 0 0 (closed 0 1) terms).disposition = .pay ∧
      (settlementRecord 0 0 0 (closed 10 (-10)) terms).net = 0 ∧
      (settlementRecord 0 0 0 (closed 0 1) { terms with minPayout := 2 }).disposition = .carry := by
  and_intros <;> decide

/-- A part whose walk stands at a cursor. -/
def walking (cursor : Nat) (p : Position) : State := { ready with batch := computing cursor, positions := [(511, p)] }

theorem witness_walk :
    ((walking 511 Position.zero).inReset = false ∧ clearing (walking 511 Position.zero) = false ∧
        (walking 511 Position.zero).batch.state = .computing ∧ (walking 511 Position.zero).batch.cursor < 512) ∧
      ((positionAt (walking 511 (closed 0 0)) 511).closing = Bank.zero ∧ (positionAt (walking 511 (closed 0 0)) 511).carryIn = 0 ∧
        (positionAt (walking 511 (closed 0 0)) 511).closingSaturated = false) ∧
      (positionAt (walking 511 (closed 1 0)) 511).closing ≠ Bank.zero ∧ (walking 512 Position.zero).batch.cursor = 512 := by
  and_intros <;> decide

/-! ### Witnesses: payout release -/

theorem witness_releaseOrder : ∀ r ∈ [payRecord .pending 100, { payRecord .pending 50 with merchant := 511, tier := 0 }], r.merchant < 512 := by
  decide

/-- A part that releases these records, merchants 0 and 1 being enrolled. -/
def sending (mode : ReleaseMode) (remaining : Nat) (records : List BatchRecord) : State :=
  { ready with batch := releasing mode remaining records, terms := [(0, terms), (1, terms)] }

def first : BatchRecord := payRecord .pending 100
def next : BatchRecord := { payRecord .pending 100 with merchant := 1, index := 1 }

theorem witness_fillWalk :
    (sending .fill 99 [first]).batch.mode = .fill ∧ freeSlot (walkRecords (sending .fill 99 [first])).window ≠ none ∧
      { first with release := some .waiting } ∈ (walkRecords (sending .fill 99 [first])).batch.records ∧
      { first with release := some .waiting }.awaitsSending = true ∧ (termsOf (sending .fill 99 [first]) first.merchant).state ≠ .unenrolled := by
  and_intros <;> decide

theorem witness_strictWalk :
    (sending .strict 200 [first, next]).batch.mode = .strict ∧ releaseOrder [first, next] = [0] ++ 1 :: [] ∧ 0 ∈ [0] ∧
      [first, next][1]? = some next ∧ next.release ≠ some .sent ∧
      (walkRecords (sending .strict 200 [first, next])).batch.records[1]? = some { next with release := some .sent } ∧
      (walkRecords (sending .strict 200 [first, next])).batch.records[0]? = some { first with release := some .sent } := by
  and_intros <;> decide

/-- The parameters of RELEASE_BATCH. -/
def releaseBytes (mode g : Nat) : List Byte := beBytes 1 mode ++ [0] ++ beBytes 8 g

theorem witness_budget :
    RequestDue (told 0x50 (releaseBytes 2 0) ready) (.releaseBatch 2 0) 7 ready ∧
      RequestDue (told 0x50 (releaseBytes 1 (2 ^ 48)) ready) (.releaseBatch 1 (2 ^ 48)) 7 ready ∧
      (RequestDue (told 0x50 (releaseBytes 1 (2 ^ 48 - 1)) ready) (.releaseBatch 1 (2 ^ 48 - 1)) 7 ready ∧ ready.batch.state ≠ .computed) ∧
      (RequestDue (told 0x50 (releaseBytes 0 0) { ready with batch := computed }) (.releaseBatch 0 0) 7 { ready with batch := computed } ∧
        ∃ r ∈ computed.records, r.disposition = .pay ∧ r.release = some .pending) ∧
      (∀ r ∈ { computed with records := [] }.records, r.disposition ≠ .pay) ∧
      RequestDue (told 0x51 (beBytes 8 (2 ^ 48)) ready) (.addBudget (2 ^ 48)) 7 ready ∧
      RequestDue (told 0x51 (beBytes 8 (2 ^ 48 - 1)) ready) (.addBudget (2 ^ 48 - 1)) 7 ready ∧
      (RequestDue (told 0x51 (beBytes 8 (2 ^ 48 - 1000)) (sending .fill 0 [])) (.addBudget (2 ^ 48 - 1000)) 7 (sending .fill 0 []) ∧
        2 ^ 48 ≤ (sending .fill 0 []).batch.granted + (2 ^ 48 - 1000)) ∧
      (sending .fill 0 []).batch.granted + (2 ^ 48 - 1001) < 2 ^ 48 := by
  repeat' first | exact due (by decide) | refine And.intro ?_ ?_ | decide

/-- A gateway reply for a merchant (R202). -/
def reply (kind merchant : Nat) : Frame := frame 1 3 kind (beBytes 2 merchant ++ [0, 0] ++ beBytes 2 0 ++ [0, 0])

def answered (kind merchant : Nat) (records : List BatchRecord) : State :=
  { sending .fill 0 records with gatewayIn := [reply kind merchant], window := [(0, .timing 0 120)] }

theorem witness_gateway :
    ((answered 7 0 [payRecord .sent 1000]).inReset = false ∧
        matchReply (answered 7 0 [payRecord .sent 1000]) (reply 7 0) = some (⟨true, 0, 0⟩, 0, payRecord .sent 1000) ∧
        allFinal (setRelease 0 .paid [payRecord .sent 1000]) = true) ∧
      (matchReply (answered 7 0 [payRecord .unconfirmed 1000, next]) (reply 7 0) =
          some (⟨true, 0, 0⟩, 0, payRecord .unconfirmed 1000) ∧
        allFinal (setRelease 0 .paid [payRecord .unconfirmed 1000, next]) = false) ∧
      (matchReply (answered 8 0 [payRecord .sent 1000]) (reply 8 0) = some (⟨false, 0, 0⟩, 0, payRecord .sent 1000) ∧
        allFinal (setRelease 0 .returned [payRecord .sent 1000]) = true ∧
        allFinal (setRelease 0 .returned [payRecord .sent 1000, next]) = false) ∧
      matchReply (answered 7 1 [payRecord .sent 1000]) (reply 7 1) = none := by
  and_intros <;> decide

theorem witness_timerExpiry :
    ((answered 7 0 [payRecord .sent 1000]).inReset = false ∧ clearing (answered 7 0 [payRecord .sent 1000]) = false ∧
        (answered 7 0 [payRecord .sent 1000]).window.read .free 0 = .timing 0 120 ∧
        (answered 7 0 [payRecord .sent 1000]).batch.state = .releasing ∧ findPay [payRecord .sent 1000] 0 = some 0 ∧
        (payRecord .sent 1000).release = some .sent) ∧
      ∀ m len, ready.window.read .free 15 ≠ .timing m len :=
  ⟨by decide, fun _ _ h => by cases h⟩

/-- The parameters of RESOLVE. -/
def resolveBytes (m o : Nat) : List Byte := beBytes 2 m ++ beBytes 1 o ++ [0]

theorem witness_resolve :
    RequestDue (told 0x52 (resolveBytes 512 0) ready) (.resolve 512 0) 7 ready ∧
      RequestDue (told 0x52 (resolveBytes 511 2) ready) (.resolve 511 2) 7 ready ∧
      (RequestDue (told 0x52 (resolveBytes 511 1) ready) (.resolve 511 1) 7 ready ∧ ready.batch.state ≠ .releasing) ∧
      (RequestDue (told 0x52 (resolveBytes 0 1) (sending .fill 0 [payRecord .unconfirmed 1000])) (.resolve 0 1) 7
          (sending .fill 0 [payRecord .unconfirmed 1000]) ∧
        findPay [payRecord .unconfirmed 1000] 0 = some 0 ∧ (payRecord .unconfirmed 1000).release = some .unconfirmed) ∧
      (findPay [payRecord .unconfirmed 1000] 511 = none ∧ (payRecord .sent 1000).release ≠ some .unconfirmed) := by
  repeat' first | exact due (by decide) | refine And.intro ?_ ?_ | decide

theorem witness_abandon :
    (RequestDue (told 0x53 [] ready) .abandon 7 ready ∧ ready.batch.state ≠ .releasing) ∧
      (RequestDue (told 0x53 [] (sending .fill 0 [first, payRecord .paid 7])) .abandon 7 (sending .fill 0 [first, payRecord .paid 7]) ∧
        (sending .fill 0 [first]).batch.state = .releasing ∧ [first, payRecord .paid 7].filter BatchRecord.awaitsSending = [] ++ first :: [] ∧
        (∀ q ∈ [] ++ ([] : List BatchRecord), q.merchant ≠ first.merchant) ∧ (∀ r ∈ [first], r.merchant ≠ 511)) ∧
      allFinal ([first, payRecord .paid 7].map abandonRecord) = true ∧ allFinal ([first, payRecord .sent 7].map abandonRecord) = false := by
  repeat' first | exact due (by decide) | refine And.intro ?_ ?_ | decide

/-- R157, R180: a start-up in release sends what its walk can, and the slot is TIMING at once. -/
theorem test_startUpSends :
    (match exec .startUp { held with batch := releasing .fill 1000 [first], terms := [(0, terms)] } with
     | .next t => decide (t.awaiting = [] ∧ t.window.read .free 0 = .timing 0 t.settings.confirmationTimeout ∧ t.officeOut.length = 1)
     | _ => false) = true := by decide

/-! ### Witnesses: the invariants -/

/-- A step of `holding`: the Position Table takes the SPEND in hand. -/
def stepping : State := { holding with pending := [.conditionalPost] }

theorem witness_invariants :
    withinCapacities stepping = true ∧ storesCanonical stepping = true ∧ writePositionInRange stepping = true ∧
      countersInRange stepping = true ∧ moneyOnCards stepping = true ∧ cardsWithinLimits stepping = true ∧
      budgetAccounts stepping = true ∧ clockInRange stepping = true ∧ timeOf stepping.clock = some 1000000 ∧
      (∃ t, step stepping = .next t ∧ timeOf t.clock = some 1000000) := by
  refine ⟨by decide, by decide, by decide, by decide, by decide, by decide, by decide, by decide, rfl, _, rfl, rfl⟩

theorem witness_cardsCounted :
    liveCountsMatch stepping = true ∧ numbersStandOnce stepping = true ∧ balancesWithinCeilings stepping = true ∧
      ∃ t, step stepping = .next t ∧ cardAt t slot ≠ none := by
  refine ⟨by decide, by decide, by decide, _, rfl, by decide⟩

/-- R8: the balance at the ceiling of the card's own program is within it, one unit more is not. -/
theorem test_ceilingOfTheProgram :
    balancesWithinCeilings (having { card with balance := 10000 }) = true ∧
      balancesWithinCeilings (having { card with balance := 10001 }) = false := by decide

/-- The cycle opened with 5000 on cards, of which 1000 was spent; a CANCEL of that SPEND is in hand. -/
def cancelling : State :=
  { stepping with
    openingLiability := 5000
    posting := .till { cancelInHand 0 with
      amount := 1000, liabilityRises := true, cardAfter := some { card with balance := 5000, daySpend := 0 } }
    pending := [.conditionalReversal] }

theorem witness_cycleBalances :
    (cycleBalances { stepping with openingLiability := 5000 } = true ∧ nothingSaturated stepping = true) ∧
      (cycleBalances cancelling = true ∧ ∃ t, step cancelling = .next t ∧ t.liability = 5000 ∧ nothingSaturated t = true) := by
  refine ⟨by decide, by decide, _, rfl, by decide, by decide⟩

theorem witness_reversalCovered : reversalCovered cancelling := by
  intro h field held reverses
  cases held
  cases reverses
  decide

theorem witness_batchCycle : batchNamesClosedCycle { ready with cycle := 0, batch := { computed with cycle := 65535 } } = true := by decide

/-- One record is SENT, its slot TIMING, and the next one waits for the budget. -/
theorem witness_windowHoldsSent :
    windowHoldsSent { answered 7 0 [payRecord .sent 1000, { next with release := some .waiting }] with pending := [.confirm] } = true ∧
      (answered 7 0 []).inReset = false ∧ (answered 7 0 []).clearRun = .none := by decide

theorem witness_marks : marksFollowCursor stepping = true := by decide +kernel

theorem witness_budgetInRelease : budgetAccounts (sending .fill 0 [payRecord .sent 1000]) = true := by decide

theorem witness_clears : clearsStandOnClearingPages { ready with clearOp := .page 3, pages := [(3, .clearing)] } := ⟨rfl, rfl⟩

/-- `ready` has one program and one lane. -/
theorem witness_unambiguous : tablesUnambiguous ready := by
  refine ⟨fun i j pre _ _ differ claims => ?_, fun i j differ assigned => ?_⟩
  · by_cases zero : j = 0
    · subst zero
      have blank : programAt ready i = Program.blank := by simp [programAt, ready, Table.read, Ne.symm differ]
      rw [blank] at claims
      simp [Program.claims, Program.blank] at claims
    · have blank : programAt ready j = Program.blank := by simp [programAt, ready, Table.read, Ne.symm zero]
      rw [blank]
      simp [Program.claims, Program.blank]
  · by_cases zero : i = 0
    · subst zero
      simp [ready, Table.read, differ, Lane.unassigned]
    · simp [ready, Table.read, Ne.symm zero, Lane.unassigned] at assigned

/-! ### One step of the main commands -/

/-- What `exec` leaves, read by `f`. -/
def leaves {α : Type} (c : Instr) (s : State) (f : State → α) : Option α :=
  match exec c s with
  | .next t => some (f t)
  | .fault _ => none
  | .refused _ => none

/-- R43, R50: the post of the SPEND in hand debits the card and the liability counter and adds to R and nR. -/
theorem test_post_of_a_spend :
    leaves .conditionalPost holding (fun t => (t.liability, (cardAt t slot).map CardRecord.balance,
      (positionAt t 0).current.redeemed, (positionAt t 0).current.nRedeemed, t.writePos.entry, t.posting)) =
      some (3900, some 3900, 1100, 2, 3, .idle) := by decide

/-- R66, R68: a CLAIM of 360 awaits the table with the hold gone from the prepared card. -/
theorem test_claim_prepares_the_card :
    leaves .claim (waiting (onHold .claim 360) ready) (fun t => match t.posting with
      | .till h => h.cardAfter.map fun c => (c.balance, c.holds.length, c.daySpend)
      | _ => none) = some (some (3640, 0, 1360)) := by decide

/-- R61, R64: a RESERVE of 700 adds a hold that ends two hours after T. -/
theorem test_reserve_places_a_hold :
    leaves .reserve (waiting (asks .reserve 700) ready) (fun t => (cardAt t slot).map fun c => c.holds.map Hold.expiry) =
      some (some [1007200, 1007200]) := by decide

/-- R79: a RETURN of 1000 posts F, gated by the debit limit. -/
theorem test_return_posts_refunded :
    leaves .returnReq (waiting (asks .returnReq 1000) ready) (fun t => match t.posting with
      | .till h => some (h.movement, h.amount)
      | _ => none) = some (some (.post .refunded true 10000, 1000)) := by decide

/-- R88: the CANCEL of a SPEND reverses R in the cycle of its entry. -/
theorem test_cancel_reverses_redeemed :
    leaves .cancel (waiting (asks .cancel 0) ready) (fun t => match t.posting with
      | .till h => some (h.movement, h.cardAfter.map CardRecord.balance)
      | _ => none) = some (some (.reversal .redeemed 0, some 5000)) := by decide

/-- R121: the close moves the bank to the closing place and the batch begins. -/
theorem test_closeCycle :
    leaves .closeCycle (told 0x40 [] ready) (fun t => ((positionAt t 0).closing.redeemed, (positionAt t 0).computed, t.cycle,
      t.batch.state, t.openingLiability)) = some (1000, false, 1, .computing, 4000) := by decide +kernel

/-- R133, R134: a bank of R 10000 and one redemption at 3% and 10 a redemption pays 9690. -/
theorem test_calculatorStep :
    leaves .calculatorStep { walking 511 { closed 10000 0 with closing := { Bank.zero with redeemed := 10000, nRedeemed := 1 } } with
        terms := [(511, terms)] } (fun t => t.batch.records.map fun r => (r.net, r.payout, r.disposition)) =
      some [(9690, 9690, .pay)] := by decide

/-- R155, R157: RELEASE_BATCH with budget for the one PAY record sends it; its instruction is queued and its slot TIMING. -/
theorem test_releaseBatch :
    leaves .releaseBatch (told 0x50 (releaseBytes 0 1000) { ready with batch := computed }) (fun t =>
      (t.batch.remaining, t.batch.records.map BatchRecord.release, t.window.read .free 0, t.officeOut.map OutFrame.origin)) =
      some (0, [some .sent], .timing 0 120, [.instruction, .reply]) := by decide +kernel

/-- R160: a CONFIRM settles the batch and frees the slot. -/
theorem test_confirm :
    leaves .confirm (answered 7 0 [payRecord .sent 1000]) (fun t =>
      (t.batch.state, t.batch.records.map BatchRecord.release, t.window)) = some (.settled, [some .paid], []) := by decide +kernel

/-- R188: SET_CLOCK 60 seconds back holds the clock. -/
theorem test_setClock_back :
    leaves .setClock (told 0x03 (beBytes 8 999940) ready) State.clock = some (.holding 1000000 60) := by decide +kernel

end Sys2Proof.Tests
end

