-- ==== Sys2Proof/Proofs/SettlementArithmetic.lean ====
section
/-! The arithmetic of the settlement calculation (section 7.2): what the rounding of R131 is on a product that is not negative,
that it commutes with the sign, and the discount fee, commission and charges that follow. -/

namespace Sys2Proof.Machine

/-! ### The rounding -/

@[simp] theorem roundTenThousandth_zero : roundTenThousandth 0 = 0 := by decide

/-- R131: a negative quotient is rounded as its magnitude would be, and then given its sign back. -/
theorem roundTenThousandth_neg (n : Int) : roundTenThousandth (-n) = -roundTenThousandth n := by
  obtain hneg | rfl | hpos := lt_trichotomy n 0
  · simp only [roundTenThousandth, if_pos (show 0 ≤ -n by omega), if_neg (not_le.mpr hneg), neg_neg]
  · simp
  · simp only [roundTenThousandth, if_pos hpos.le, if_neg (show ¬0 ≤ -n by omega), neg_neg]

/-- R131: a quotient that is not negative goes to the nearest integer, and up at one half. -/
theorem roundTenThousandth_bounds_of_nonneg {n : Int} (hn : 0 ≤ n) :
    20000 * roundTenThousandth n ≤ 2 * n + 10000 ∧ 2 * n + 10000 < 20000 * roundTenThousandth n + 20000 := by
  rw [roundTenThousandth, if_pos hn]
  omega

/-- R131: a quotient that is not positive goes to the nearest integer, and down at one half. -/
theorem roundTenThousandth_bounds_of_nonpos {n : Int} (hn : n ≤ 0) :
    2 * n - 10000 ≤ 20000 * roundTenThousandth n ∧ 20000 * roundTenThousandth n - 20000 < 2 * n - 10000 := by
  have hmagnitude := roundTenThousandth_bounds_of_nonneg (show 0 ≤ -n by omega)
  rw [roundTenThousandth_neg] at hmagnitude
  omega

theorem roundTenThousandth_nonneg {n : Int} (hn : 0 ≤ n) : 0 ≤ roundTenThousandth n := by
  have hbounds := roundTenThousandth_bounds_of_nonneg hn
  omega

theorem roundTenThousandth_nonpos {n : Int} (hn : n ≤ 0) : roundTenThousandth n ≤ 0 := by
  have hbounds := roundTenThousandth_bounds_of_nonpos hn
  omega

/-! ### The discount fee -/

theorem discountFee_nonneg {b : Bank} (t : Terms) (hbase : 0 ≤ settlementBase b) : 0 ≤ discountFee b t :=
  roundTenThousandth_nonneg (mul_nonneg hbase t.discount.cast_nonneg)

theorem discountFee_nonpos {b : Bank} (t : Terms) (hbase : settlementBase b ≤ 0) : discountFee b t ≤ 0 :=
  roundTenThousandth_nonpos (mul_nonpos_of_nonpos_of_nonneg hbase t.discount.cast_nonneg)

theorem discountFee_of_discount_zero (b : Bank) {t : Terms} (hrate : t.discount = 0) : discountFee b t = 0 := by
  simp [discountFee, hrate]

theorem abs_settlementBase_le {b : Bank} {limit : Nat} (hredeemed : b.redeemed ≤ limit) (hrefunded : b.refunded ≤ limit) :
    |settlementBase b| ≤ limit := by
  rw [settlementBase, abs_le]
  omega

/-- R131: the magnitude of B × d is at most (2^48 − 1) × 1,500. -/
theorem abs_feeProduct_le {b : Bank} {t : Terms} (hredeemed : b.redeemed ≤ 2 ^ 48 - 1) (hrefunded : b.refunded ≤ 2 ^ 48 - 1)
    (hrate : t.discount ≤ 1500) : |settlementBase b * t.discount| ≤ 422212465065982500 :=
  calc |settlementBase b * t.discount| = |settlementBase b| * t.discount := by rw [abs_mul, Nat.abs_cast]
    _ ≤ ((2 ^ 48 - 1 : Nat) : Int) * 1500 :=
      mul_le_mul (abs_settlementBase_le hredeemed hrefunded) (by exact_mod_cast hrate) (by positivity) (by positivity)
    _ = 422212465065982500 := by norm_num

/-- Settles O37: each clause is the rounding's own lemma read at the product B × d; the table is evaluated. -/
theorem discountFeeRoundsHalfAwayFromZero : Obligations.DiscountFeeRoundsHalfAwayFromZero := by
  refine ⟨fun b t => ⟨rfl, ?positive, ?negative, discountFee_nonneg t, discountFee_nonpos t,
    discountFee_of_discount_zero b, abs_feeProduct_le⟩, ?table⟩
  case positive => exact roundTenThousandth_bounds_of_nonneg
  case negative => exact fun hproduct => roundTenThousandth_bounds_of_nonpos hproduct.le
  case table => decide

/-! ### The commission and the charges -/

/-- R132: the commission is the quotient of S × k by 10,000, rounded down. -/
theorem commissionOf_bounds (b : Bank) (t : Terms) :
    10000 * commissionOf b t ≤ b.sold * t.commission ∧ b.sold * t.commission < 10000 * commissionOf b t + 10000 :=
  ⟨Nat.mul_div_le _ _, Nat.lt_mul_div_succ _ (by decide)⟩

theorem commissionOf_of_commission_zero (b : Bank) {t : Terms} (hrate : t.commission = 0) : commissionOf b t = 0 := by
  simp [commissionOf, hrate]

theorem chargesOf_of_charge_zero (b : Bank) {t : Terms} (hcharge : t.charge = 0) : chargesOf b t = 0 := by
  simp [chargesOf, hcharge]

/-- R132: any fraction is kept by the mall, so a product below 10,000 gives no commission. -/
theorem commissionOf_eq_zero_of_lt {b : Bank} {t : Terms} (hproduct : b.sold * t.commission < 10000) : commissionOf b t = 0 :=
  Nat.div_eq_of_lt hproduct

/-- Settles O38: the bounds of the quotient, the zero rates of UNENROLLED terms, and 399 × 25 below 10,000. -/
theorem commissionRoundsDownAndChargesCount : Obligations.CommissionRoundsDownAndChargesCount := by
  refine ⟨fun b t => ?quotient, fun b => ?unenrolled, fun b t hsold hrate => ?worked⟩
  case quotient =>
    obtain ⟨hlower, hupper⟩ := commissionOf_bounds b t
    exact ⟨hlower, hupper, rfl⟩
  case unenrolled =>
    exact ⟨discountFee_of_discount_zero b rfl, commissionOf_of_commission_zero b rfl, chargesOf_of_charge_zero b rfl⟩
  case worked => exact commissionOf_eq_zero_of_lt (by rw [hsold, hrate]; decide)

end Sys2Proof.Machine
end

