-- ==== Sys2Proof/Proofs/Grants.lean ====
section
/-! The grant of R37 over a list of limits: what is granted, and which limit gives the reason of a refusal. -/

namespace Sys2Proof.Machine

/-- The largest amount within every limit (R37, with the partial flag). -/
def largestWithin (amount : Nat) (limits : List (DeclineReason × Nat)) : Nat := limits.foldl (fun g l => min g l.2) amount

theorem le_largestWithin_iff (k amount : Nat) (limits : List (DeclineReason × Nat)) :
    k ≤ largestWithin amount limits ↔ k ≤ amount ∧ ∀ l ∈ limits, k ≤ l.2 := by
  induction limits generalizing amount with
  | nil => simp [largestWithin]
  | cons l rest ih =>
    rw [show largestWithin amount (l :: rest) = largestWithin (min amount l.2) rest from rfl, ih]
    simp [and_assoc]

theorem largestWithin_attained (amount : Nat) (limits : List (DeclineReason × Nat)) :
    largestWithin amount limits = amount ∨ ∃ l ∈ limits, l.2 = largestWithin amount limits := by
  induction limits generalizing amount with
  | nil => exact .inl rfl
  | cons l rest ih =>
    rw [show largestWithin amount (l :: rest) = largestWithin (min amount l.2) rest from rfl]
    obtain whole | ⟨m, inRest, reached⟩ := ih (min amount l.2)
    · obtain least | least := min_choice amount l.2
      · exact .inl (whole.trans least)
      · exact .inr ⟨l, by simp, (whole.trans least).symm⟩
    · exact .inr ⟨m, by simp [inRest], reached⟩

/-- The first limit that bars, with the limits before it that do not. -/
theorem find?_reason_iff (limits : List (DeclineReason × Nat)) (bars : Nat → Prop) [DecidablePred bars] (x : DeclineReason) :
    (∃ l, limits.find? (fun l => decide (bars l.2)) = some l ∧ l.1 = x) ↔
      ∃ before l after, limits = before ++ l :: after ∧ (∀ b ∈ before, ¬bars b.2) ∧ bars l.2 ∧ l.1 = x := by
  simp only [List.find?_eq_some_iff_append, decide_eq_true_eq, Bool.not_eq_true', decide_eq_false_iff_not]
  constructor
  · rintro ⟨l, ⟨barred, before, after, split, free⟩, rfl⟩
    exact ⟨before, l, after, split, free, barred, rfl⟩
  · rintro ⟨before, l, after, split, free, barred, rfl⟩
    exact ⟨l, ⟨barred, before, after, split, free⟩, rfl⟩

theorem decideGrant_whole (amount : Nat) (limits : List (DeclineReason × Nat)) :
    decideGrant amount false limits = match limits.find? fun l => decide (l.2 < amount) with
      | some l => .error l.1
      | none => .ok amount := rfl

theorem decideGrant_whole_ok (amount g : Nat) (limits : List (DeclineReason × Nat)) :
    decideGrant amount false limits = .ok g ↔ g = amount ∧ ∀ l ∈ limits, amount ≤ l.2 := by
  rw [decideGrant_whole]
  cases found : limits.find? fun l => decide (l.2 < amount) with
  | none =>
    have within : ∀ l ∈ limits, amount ≤ l.2 := by simpa using found
    simp only [Except.ok.injEq]
    exact ⟨fun h => ⟨h.symm, within⟩, fun h => h.1.symm⟩
  | some l =>
    have below : l.2 < amount := by simpa using List.find?_some found
    simp only [reduceCtorEq, false_iff, not_and, not_forall]
    exact fun _ => ⟨l, List.mem_of_find?_eq_some found, by omega⟩

theorem decideGrant_whole_error (amount : Nat) (limits : List (DeclineReason × Nat)) (x : DeclineReason) :
    decideGrant amount false limits = .error x ↔
      ∃ before l after, limits = before ++ l :: after ∧ (∀ b ∈ before, amount ≤ b.2) ∧ l.2 < amount ∧ l.1 = x := by
  have first := find?_reason_iff limits (· < amount) x
  simp only [not_lt] at first
  rw [decideGrant_whole, ← first]
  cases limits.find? fun l => decide (l.2 < amount) <;> simp

/-- With the partial flag some limit stands at 0 exactly where the largest amount is 0. -/
theorem decideGrant_partial (amount : Nat) (limits : List (DeclineReason × Nat)) :
    decideGrant amount true limits = if 1 ≤ largestWithin amount limits then .ok (largestWithin amount limits)
      else match limits.find? fun l => decide (l.2 = 0) with
        | some l => .error l.1
        | none => .error .amount := rfl

theorem decideGrant_partial_ok (amount g : Nat) (limits : List (DeclineReason × Nat)) :
    decideGrant amount true limits = .ok g ↔
      1 ≤ g ∧ g ≤ amount ∧ (∀ l ∈ limits, g ≤ l.2) ∧ (g = amount ∨ ∃ l ∈ limits, l.2 = g) := by
  have largest : 1 ≤ g ∧ g ≤ amount ∧ (∀ l ∈ limits, g ≤ l.2) ∧ (g = amount ∨ ∃ l ∈ limits, l.2 = g) ↔
      1 ≤ g ∧ largestWithin amount limits = g := by
    constructor
    · rintro ⟨positive, whole, within, reached⟩
      refine ⟨positive, le_antisymm ?_ ((le_largestWithin_iff _ _ _).2 ⟨whole, within⟩)⟩
      obtain ⟨most, limited⟩ := (le_largestWithin_iff _ amount limits).1 le_rfl
      obtain rfl | ⟨l, inLimits, rfl⟩ := reached
      · exact most
      · exact limited l inLimits
    · rintro ⟨positive, rfl⟩
      obtain ⟨most, limited⟩ := (le_largestWithin_iff _ amount limits).1 le_rfl
      exact ⟨positive, most, limited, largestWithin_attained amount limits⟩
  rw [decideGrant_partial, largest]
  split
  · simp only [Except.ok.injEq]
    exact ⟨fun h => ⟨h ▸ ‹_›, h⟩, fun h => h.2⟩
  · refine ⟨fun h => ?_, fun h => absurd (h.2 ▸ h.1) ‹_›⟩
    split at h <;> cases h

theorem decideGrant_partial_error {amount : Nat} (positive : 1 ≤ amount) (limits : List (DeclineReason × Nat)) (x : DeclineReason) :
    decideGrant amount true limits = .error x ↔
      ∃ before l after, limits = before ++ l :: after ∧ (∀ b ∈ before, 1 ≤ b.2) ∧ l.2 = 0 ∧ l.1 = x := by
  have first := find?_reason_iff limits (· = 0) x
  simp only [← Nat.one_le_iff_ne_zero] at first
  rw [decideGrant_partial, ← first]
  split
  · rename_i some'
    have none : limits.find? (fun l => decide (l.2 = 0)) = none := by
      have limited := ((le_largestWithin_iff _ amount limits).1 some').2
      exact List.find?_eq_none.2 fun l inLimits => by simpa [Nat.one_le_iff_ne_zero] using limited l inLimits
    simp [none]
  · rename_i zero
    cases found : limits.find? fun l => decide (l.2 = 0) with
    | some l => simp
    | none =>
      have limited : ∀ l ∈ limits, 1 ≤ l.2 := by simpa [Nat.one_le_iff_ne_zero] using found
      exact absurd ((le_largestWithin_iff _ amount limits).2 ⟨positive, limited⟩) zero

/-- Settles O25: the whole amount by the first limit below it, and a part by the least of the limits. -/
theorem grantsFollowTheLimits : Obligations.GrantsFollowTheLimits := fun amount limits positive =>
  ⟨fun g => decideGrant_whole_ok amount g limits, decideGrant_whole_error amount limits,
    fun g => decideGrant_partial_ok amount g limits, decideGrant_partial_error positive limits⟩

/-- A grant never passes the amount or a limit. -/
theorem decideGrant_le {amount g : Nat} {mayCut : Bool} {limits : List (DeclineReason × Nat)}
    (h : decideGrant amount mayCut limits = .ok g) : g ≤ amount ∧ ∀ l ∈ limits, g ≤ l.2 := by
  cases mayCut with
  | false =>
    obtain ⟨rfl, within⟩ := (decideGrant_whole_ok _ _ _).1 h
    exact ⟨le_rfl, within⟩
  | true =>
    obtain ⟨-, whole, within, -⟩ := (decideGrant_partial_ok _ _ _).1 h
    exact ⟨whole, within⟩

end Sys2Proof.Machine
end

