-- ==== Sys2Proof/Proofs/Traffic.lean ====
section
/-! Traffic: what a step may do to the queues, the counters and the settings while every store stands. `Traffic s t` also says that
the step keeps the queues within their capacities and the counters in range, so each operation on a queue is judged once. -/

namespace Sys2Proof.Machine

/-! ### Stores that stand -/

/-- `t` differs from `s` at most in its settings, modes, links, queues and counters. -/
def SameStores (s t : State) : Prop :=
  t = { s with
    configured := t.configured, settings := t.settings, storeClearMark := t.storeClearMark, restartPending := t.restartPending,
    mode := t.mode, noticeNumber := t.noticeNumber, shopLink := t.shopLink, officeLink := t.officeLink, toOffice := t.toOffice,
    toShop := t.toShop, shopOut := t.shopOut, officeOut := t.officeOut, ingress := t.ingress, mgmtIn := t.mgmtIn,
    gatewayIn := t.gatewayIn, counters := t.counters, cardSlot := t.cardSlot, out := t.out, freeCount := t.freeCount }

/-- Each counter, and the declines counters as a table, stand in range and in form. -/
def Counters.sound (c : Counters) : Prop := countersInRange { State.reset with counters := c } = true ∧ c.declines.wf 0 = true

/-- A step of the queues and counters alone: the stores stand, no queue passes its capacity and no counter its range. -/
structure Traffic (s t : State) : Prop where
  stores : SameStores s t
  capacities : withinCapacities s = true → withinCapacities t = true
  counters : s.counters.sound → t.counters.sound

theorem countersSound_iff (s : State) :
    s.counters.sound ↔ countersInRange s = true ∧ s.counters.declines.wf 0 = true := Iff.rfl

theorem Traffic.refl (s : State) : Traffic s s := ⟨rfl, id, id⟩

theorem SameStores.trans {s t u : State} (first : SameStores s t) (second : SameStores t u) : SameStores s u := by
  unfold SameStores at first second ⊢
  rw [first] at second
  exact second

theorem Traffic.trans {s t u : State} (first : Traffic s t) (second : Traffic t u) : Traffic s u :=
  ⟨first.stores.trans second.stores, second.capacities ∘ first.capacities, second.counters ∘ first.counters⟩

/-! ### Counters -/

/-- The sixteen bounds and the form of the declines table, by name. -/
theorem Counters.sound_iff (c : Counters) : c.sound ↔
    (c.approvals ≤ Config.maxCount ∧ c.partials ≤ Config.maxCount ∧ (∀ e ∈ c.declines, e.2 ≤ Config.maxCount) ∧
      c.declines.wf 0 = true) ∧
    (c.forwardedToOffice ≤ Config.maxCount ∧ c.forwardedToShop ≤ Config.maxCount ∧ c.droppedToOffice ≤ Config.maxCount ∧
      c.droppedToShop ≤ Config.maxCount) ∧
    (c.headerDrops ≤ Config.maxCount ∧ c.foreignDrops ≤ Config.maxCount ∧ c.shopFullDrops ≤ Config.maxCount ∧
      c.officeFullDrops ≤ Config.maxCount) ∧
    (c.shopLinkDrops ≤ Config.maxCount ∧ c.officeLinkDrops ≤ Config.maxCount) ∧
    (c.mgmtOverflow ≤ Config.maxCount ∧ c.strays ≤ Config.maxCount ∧ c.lateConfirms ≤ Config.maxCount) := by
  simp only [Counters.sound, countersInRange, Bool.and_eq_true, decide_eq_true_eq, List.all_eq_true, Config.maxCount]
  tauto

/-! One rule a counter: a new value in range keeps the counters sound. -/

section
variable {c : Counters} (sound : c.sound) {n : Nat} (bound : n ≤ Config.maxCount)
include sound bound

theorem Counters.sound.approvals : Counters.sound { c with approvals := n } := by rw [Counters.sound_iff] at sound ⊢; tauto
theorem Counters.sound.partials : Counters.sound { c with partials := n } := by rw [Counters.sound_iff] at sound ⊢; tauto
theorem Counters.sound.forwardedToOffice : Counters.sound { c with forwardedToOffice := n } := by rw [Counters.sound_iff] at sound ⊢; tauto
theorem Counters.sound.forwardedToShop : Counters.sound { c with forwardedToShop := n } := by rw [Counters.sound_iff] at sound ⊢; tauto
theorem Counters.sound.droppedToOffice : Counters.sound { c with droppedToOffice := n } := by rw [Counters.sound_iff] at sound ⊢; tauto
theorem Counters.sound.droppedToShop : Counters.sound { c with droppedToShop := n } := by rw [Counters.sound_iff] at sound ⊢; tauto
theorem Counters.sound.headerDrops : Counters.sound { c with headerDrops := n } := by rw [Counters.sound_iff] at sound ⊢; tauto
theorem Counters.sound.foreignDrops : Counters.sound { c with foreignDrops := n } := by rw [Counters.sound_iff] at sound ⊢; tauto
theorem Counters.sound.shopFullDrops : Counters.sound { c with shopFullDrops := n } := by rw [Counters.sound_iff] at sound ⊢; tauto
theorem Counters.sound.officeFullDrops : Counters.sound { c with officeFullDrops := n } := by rw [Counters.sound_iff] at sound ⊢; tauto
theorem Counters.sound.shopLinkDrops : Counters.sound { c with shopLinkDrops := n } := by rw [Counters.sound_iff] at sound ⊢; tauto
theorem Counters.sound.officeLinkDrops : Counters.sound { c with officeLinkDrops := n } := by rw [Counters.sound_iff] at sound ⊢; tauto
theorem Counters.sound.mgmtOverflow : Counters.sound { c with mgmtOverflow := n } := by rw [Counters.sound_iff] at sound ⊢; tauto
theorem Counters.sound.strays : Counters.sound { c with strays := n } := by rw [Counters.sound_iff] at sound ⊢; tauto
theorem Counters.sound.lateConfirms : Counters.sound { c with lateConfirms := n } := by rw [Counters.sound_iff] at sound ⊢; tauto

end

theorem Counters.zero_sound : Counters.zero.sound := by
  rw [Counters.sound_iff]
  decide

theorem countDecline_sound (reason : DeclineReason) {c : Counters} (h : c.sound) : (countDecline reason c).sound := by
  rw [Counters.sound_iff] at h ⊢
  obtain ⟨⟨approvals, partials, bounded, form⟩, rest⟩ := h
  refine ⟨⟨approvals, partials, fun e he => ?_, Table.wf_write _ _ _ _ form⟩, rest⟩
  obtain ⟨rfl, -⟩ | ⟨old, -⟩ := Table.mem_write _ _ _ _ he
  · exact bump_le _
  · exact bounded e old

theorem countOutcome_sound (outcome : TillOutcome) {c : Counters} (h : c.sound) : (countOutcome outcome c).sound := by
  cases outcome with
  | declined reason => exact countDecline_sound reason h
  | approved => exact h.approvals (bump_le _)
  | partially => exact h.partials (bump_le _)

/-! ### Operations on the queues -/

theorem withinCapacities_iff (s : State) : withinCapacities s = true ↔
    s.toOffice.length ≤ 64 ∧ s.toShop.length ≤ 64 ∧ shopPlaces s ≤ 16 ∧ s.officeOut.length ≤ 32 ∧ s.ingress.length ≤ 8 ∧
      s.mgmtIn.length ≤ 16 := by
  simp only [withinCapacities, Bool.and_eq_true, decide_eq_true_eq, and_assoc]

/-- A queue that takes one more frame only below its capacity stays within it. -/
theorem length_append_if {α : Type} {p : Prop} [Decidable p] {l : List α} {a : α} {n : Nat} (within : l.length ≤ n)
    (room : p → l.length < n) : (if p then l ++ [a] else l).length ≤ n := by
  split
  · simpa using room ‹_›
  · exact within

theorem traffic_offerOffice (o : Origin) (f : Frame) (s : State) : Traffic s (offerOffice o f s) := by
  refine ⟨rfl, fun h => ?_, fun h => ?_⟩
  · rw [withinCapacities_iff] at h ⊢
    obtain ⟨toOffice, toShop, shop, office, rest⟩ := h
    refine ⟨toOffice, toShop, shop, length_append_if office fun room => ?_, rest⟩
    exact of_decide_eq_true (Bool.and_eq_true_iff.1 room).2
  · simp only [offerOffice]
    split_ifs
    · exact h
    · exact h.officeLinkDrops (bump_le _)
    · exact h.officeFullDrops (bump_le _)

theorem traffic_handNotice (n : Notice) (s : State) : Traffic s (handNotice n s) :=
  Traffic.trans (t := { s with noticeNumber := nextNotice s }) ⟨rfl, id, id⟩ (traffic_offerOffice _ _ _)

theorem traffic_handNotices (ns : List Notice) (s : State) : Traffic s (handNotices ns s) := by
  induction ns generalizing s with
  | nil => exact Traffic.refl s
  | cons n rest ih => exact (traffic_handNotice n s).trans (ih _)

theorem traffic_sendReply (code tag : Nat) (reason : ReplyReason) (block : List Byte) (s : State) :
    Traffic s (sendReply code tag reason block s) := traffic_offerOffice _ _ _

theorem traffic_forwardToOffice (f : Frame) (s : State) : Traffic s (forwardToOffice f s) := by
  refine ⟨rfl, fun h => ?_, fun h => ?_⟩
  · rw [withinCapacities_iff] at h ⊢
    exact ⟨length_append_if h.1 (·.2), h.2⟩
  · simp only [forwardToOffice]
    split_ifs
    · exact h.officeLinkDrops (bump_le _)
    · exact h.forwardedToOffice (bump_le _)
    · exact h.droppedToOffice (bump_le _)

theorem traffic_forwardToShop (f : Frame) (s : State) : Traffic s (forwardToShop f s) := by
  refine ⟨rfl, fun h => ?_, fun h => ?_⟩
  · rw [withinCapacities_iff] at h ⊢
    exact ⟨h.1, length_append_if h.2.1 (·.2), h.2.2⟩
  · simp only [forwardToShop]
    split_ifs
    · exact h.shopLinkDrops (bump_le _)
    · exact h.forwardedToShop (bump_le _)
    · exact h.droppedToShop (bump_le _)

theorem traffic_dropHeader (s : State) : Traffic s (dropHeader s) := ⟨rfl, id, fun h => h.headerDrops (bump_le _)⟩

theorem shopPlaces_append (s : State) (e : OutFrame) (c : Counters) :
    shopPlaces { s with shopOut := s.shopOut ++ [e], counters := c } = shopPlaces s + 1 := by
  simp only [shopPlaces, List.length_append, List.length_singleton]
  omega

theorem traffic_answer (reason : DeclineReason) (f : Frame) (s : State) : Traffic s (answer reason f s) := by
  refine ⟨rfl, fun h => ?_, fun h => ?_⟩
  · rw [withinCapacities_iff] at h ⊢
    obtain ⟨toOffice, toShop, shop, rest⟩ := h
    refine ⟨toOffice, toShop, ?_, rest⟩
    by_cases room : shopPlaces s < Config.shopCapacity
    · simp only [answer, room, if_true, shopPlaces_append]
      exact room
    · simp only [answer, room, if_false]
      exact shop
  · simp only [answer]
    split_ifs
    · exact countDecline_sound reason h
    · exact (countDecline_sound reason h).shopFullDrops (bump_le _)

theorem traffic_handManagement (f : Frame) (s : State) : Traffic s (handManagement f s) := by
  refine ⟨rfl, fun h => ?_, fun h => ?_⟩
  · rw [withinCapacities_iff] at h ⊢
    obtain ⟨toOffice, toShop, shop, office, ingress, input⟩ := h
    exact ⟨toOffice, toShop, shop, office, ingress, length_append_if input id⟩
  · simp only [handManagement]
    split_ifs
    · exact h
    · exact h.mgmtOverflow (bump_le _)

/-- Queues that only shrink keep their capacities. -/
theorem traffic_shrink {s t : State} (stores : SameStores s t) (posting : t.posting = s.posting)
    (toOffice : t.toOffice.length ≤ s.toOffice.length) (toShop : t.toShop.length ≤ s.toShop.length)
    (shopOut : t.shopOut.length ≤ s.shopOut.length) (officeOut : t.officeOut.length ≤ s.officeOut.length)
    (ingress : t.ingress.length ≤ s.ingress.length) (mgmtIn : t.mgmtIn.length ≤ s.mgmtIn.length)
    (counters : s.counters.sound → t.counters.sound) : Traffic s t := by
  refine ⟨stores, fun h => ?_, counters⟩
  rw [withinCapacities_iff] at h ⊢
  simp only [shopPlaces, posting] at h ⊢
  omega

theorem traffic_shopEgress (s : State) : Traffic s (shopEgress s) := by
  unfold shopEgress
  split
  · rename_i e rest front
    exact traffic_shrink rfl rfl le_rfl le_rfl (by simp [front]) le_rfl le_rfl le_rfl id
  · split
    · rename_i f rest front
      exact traffic_shrink rfl rfl le_rfl (by simp [front]) le_rfl le_rfl le_rfl le_rfl id
    · exact Traffic.refl s

theorem traffic_flushShop (s : State) : Traffic s (flushShop s) := by
  refine traffic_shrink rfl rfl le_rfl (Nat.zero_le _) (Nat.zero_le _) le_rfl le_rfl le_rfl fun h => ?_
  exact h.shopLinkDrops (bumpBy_le _ _ ((Counters.sound_iff _).1 h).2.2.2.1.1)

theorem traffic_flushOffice (s : State) : Traffic s (flushOffice s) := by
  refine traffic_shrink rfl rfl (Nat.zero_le _) le_rfl le_rfl (Nat.zero_le _) le_rfl le_rfl fun h => ?_
  exact h.officeLinkDrops (bumpBy_le _ _ ((Counters.sound_iff _).1 h).2.2.2.1.2)

theorem traffic_linkUpStep (port : Port) (s : State) : Traffic s (linkUpStep port s) := by
  cases port with
  | shop =>
    simp only [linkUpStep]
    split
    · exact traffic_shrink rfl rfl le_rfl (Nat.zero_le _) (Nat.zero_le _) le_rfl le_rfl le_rfl id
    · exact Traffic.refl s
  | office =>
    simp only [linkUpStep]
    split
    · exact traffic_shrink rfl rfl (Nat.zero_le _) le_rfl le_rfl (Nat.zero_le _) le_rfl le_rfl id
    · exact Traffic.refl s

/-- A management request leaves the Responder's input queue. -/
theorem traffic_takeRequest {s : State} {f : Frame} {rest : List Frame} (front : s.mgmtIn = f :: rest) :
    Traffic s { s with mgmtIn := rest } :=
  traffic_shrink rfl rfl le_rfl le_rfl le_rfl le_rfl le_rfl (by simp [front]) id

/-- A till request leaves the Ingress File. -/
theorem traffic_takeTill {s : State} {r : TillRequest} {rest : List TillRequest} (front : s.ingress = r :: rest) :
    Traffic s { s with ingress := rest } :=
  traffic_shrink rfl rfl le_rfl le_rfl le_rfl le_rfl (by simp [front]) le_rfl id

/-- A request is taken only while the Ingress File has a free place (R170 step 8). -/
theorem shopFate_taken {s : State} {f : Frame} {request : TillRequest} (taken : shopFate s f = .taken request) :
    s.ingress.length < 8 := by
  by_contra full
  simp only [shopFate, Config.ingressCapacity, full, if_false] at taken
  repeat' split at taken
  all_goals cases taken

theorem traffic_shopArrival (f : Frame) (s : State) : Traffic s (shopArrival f s) := by
  unfold shopArrival
  split
  · split
    · exact traffic_forwardToOffice f s
    · exact traffic_dropHeader s
    · exact traffic_answer _ f s
    · rename_i request taken
      refine ⟨rfl, fun h => ?_, id⟩
      have room := shopFate_taken taken
      rw [withinCapacities_iff] at h ⊢
      simp only [List.length_append, List.length_singleton]
      exact ⟨h.1, h.2.1, h.2.2.1, h.2.2.2.1, by omega, h.2.2.2.2.2⟩
  · exact Traffic.refl s

theorem traffic_officeArrival (f : Frame) (s : State) : Traffic s (officeArrival f s) := by
  unfold officeArrival
  split
  · split
    · exact traffic_forwardToShop f s
    · exact traffic_dropHeader s
    · exact traffic_handManagement f s
    · exact ⟨rfl, id, id⟩
    · exact ⟨rfl, id, fun h => h.foreignDrops (bump_le _)⟩
  · exact Traffic.refl s

end Sys2Proof.Machine
end

