-- ==== Sys2Proof/Proofs/Effects.lean ====
section
/-! What a command may do to the stores, said once for all 68: `Change` lists the writes, each with the facts its checks give, and
`Aftermath` what may follow a write in the same step. `exec_path` says that every command is such a change with its aftermath; an
invariant is then a question about each change alone. -/

namespace Sys2Proof.Machine

/-! ### What a request in hand prepares -/

/-- The card `d` that replaces `c` in its slot is the same card with no more holds than the limits allow. -/
structure SameCard (s : State) (c d : CardRecord) : Prop where
  number : d.number = c.number
  program : d.program = c.program
  fewHolds : c.holds.length ≤ 4 → (programAt s c.program).holdLimit ≤ 4 → d.holds.length ≤ 4

/-- What the Posting Unit knows of the request it keeps in hand: a new card, a card with its balance raised or lowered by the
amount, or a card removed (R40, R42, R45, R68, R83, R89). -/
inductive Prepares (s : State) (h : Hand) : Prop where
  | issue (index : Nat) (c : CardRecord) (index_lt : index < Config.programCount) (unused : lookupCard s c.number = none)
      (inWindow : h.slot ∈ probeWindow c.number) (empty : cardAt s h.slot = none) (after : h.cardAfter = some c)
      (program : c.program = index) (active : c.state = .active) (holds : c.holds = []) (balance : c.balance = h.amount)
      (fits : c.balance ≤ (programAt s index).ceiling) (counted : h.liveChange = .rise) (entry : h.program = index)
      (rises : h.liabilityRises = true)
  | rise (c d : CardRecord) (found : lookupCard s c.number = some (h.slot, c)) (live : c.state ≠ .retired)
      (after : h.cardAfter = some d) (same : SameCard s c d) (state : d.state = c.state) (balance : d.balance = c.balance + h.amount)
      (fits : d.balance ≤ max c.balance (programAt s c.program).ceiling) (holds : heldSum d.holds ≤ heldSum c.holds)
      (counted : h.liveChange = .same) (rises : h.liabilityRises = true)
  | fall (c d : CardRecord) (found : lookupCard s c.number = some (h.slot, c)) (live : c.state ≠ .retired)
      (after : h.cardAfter = some d) (same : SameCard s c d) (state : d.state = c.state) (balance : d.balance = c.balance - h.amount)
      (holds : heldSum c.holds ≤ c.balance → heldSum d.holds + h.amount ≤ c.balance)
      (counted : h.liveChange = .same) (falls : h.liabilityRises = false)
  | remove (c : CardRecord) (found : lookupCard s c.number = some (h.slot, c)) (live : c.state ≠ .retired)
      (after : h.cardAfter = none) (balance : c.balance = h.amount) (counted : h.liveChange = .fall) (entry : h.program = c.program)
      (falls : h.liabilityRises = false)

/-- A place of the shop queue is kept for the response: the request in hand reserved it, or one is free (R27). -/
def responseReserved (s : State) : Prop := (s.posting = .idle ∧ shopPlaces s < 16) ∨ ∃ h, s.posting = .till h

/-- The position an accepted movement writes (R117, R119). -/
inductive Moves (s : State) (h : Hand) : Position → Prop where
  | post (field : BankField) (gated : Bool) (limit : Nat) (movement : h.movement = .post field gated limit) :
      Moves s h ((positionAt s h.request.merchant).post field h.amount)
  | reverse (field : BankField) (movement : h.movement = .reversal field s.cycle) :
      Moves s h ((positionAt s h.request.merchant).reverse field h.amount)

/-! ### The changes, family by family -/

/-- What the till requests and the table's answers write. -/
inductive TillChange (s : State) : State → Prop where
  | await (h : Hand) (idle : s.posting = .idle) (room : shopPlaces s < 16) (prepared : Prepares s h)
      (direction : handDirection { s with posting := .till h } = true) : TillChange s { s with posting := .till h }
  | respond (r : TillRequest) (outcome : TillOutcome) (c : Conditions) (grant : Nat) (view : CardView) (ref : Option JournalRef)
      (reserved : responseReserved s) : TillChange s (placeResponse r outcome c grant view ref s)
  | joint (h : Hand) (position : Position) (held : s.posting = .till h) (moves : Moves s h position) :
      TillChange s (acceptMovement h position s)
  | hold (r : TillRequest) (outcome : TillOutcome) (cs : Conditions) (grant : Nat) (view : CardView) (ref : Option JournalRef)
      (slot : Nat) (c d : CardRecord) (j : Table (Option JournalEntry)) (idle : s.posting = .idle) (room : shopPlaces s < 16)
      (found : lookupCard s c.number = some (slot, c)) (live : c.state ≠ .retired) (same : SameCard s c d) (state : d.state = c.state)
      (balance : d.balance = c.balance) (holds : heldSum c.holds ≤ c.balance → heldSum d.holds ≤ c.balance)
      (form : s.journal.wf none = true → j.wf none = true) :
      TillChange s (placeResponse r outcome cs grant view ref (holdWrite slot d j s))

/-- What the management card requests write; the Posting Unit is IDLE before and after. -/
inductive CardChange (s : State) : State → Prop where
  | restate (slot : Nat) (c d : CardRecord) (found : lookupCard s c.number = some (slot, c)) (live : c.state ≠ .retired)
      (same : SameCard s c d) (state : d.state ≠ .retired) (balance : d.balance = c.balance)
      (holds : heldSum d.holds ≤ heldSum c.holds) : CardChange s { s with cards := s.cards.write none slot (some d) }
  | retire (slot : Nat) (c d : CardRecord) (found : lookupCard s c.number = some (slot, c)) (live : c.state ≠ .retired)
      (same : SameCard s c d) (state : d.state = .retired) (zero : c.balance = 0) (balance : d.balance = 0)
      (holds : heldSum d.holds ≤ heldSum c.holds) :
      CardChange s { s with
        cards := s.cards.write none slot (some d), programs := changeLiveAt .fall c.program s.programs }
  | purge (slot : Nat) (c : CardRecord) (found : lookupCard s c.number = some (slot, c)) (retired : c.state = .retired) :
      CardChange s { s with cards := s.cards.write none slot none }
  | move (slot slot' : Nat) (c d c' d' : CardRecord) (j : Table (Option JournalEntry)) (amount : Nat)
      (source : lookupCard s c.number = some (slot, c)) (target : lookupCard s d.number = some (slot', d))
      (apart : c.number ≠ d.number) (live : c.state = .suspended) (active : d.state = .active) (same : SameCard s c c')
      (same' : SameCard s d d') (state : c'.state = c.state) (state' : d'.state = d.state) (balance : c'.balance = c.balance - amount)
      (balance' : d'.balance = d.balance + amount) (fits : d'.balance ≤ (programAt s d.program).ceiling)
      (holds : heldSum c.holds ≤ c.balance → heldSum c'.holds + amount ≤ c.balance) (holds' : heldSum d'.holds ≤ heldSum d.holds)
      (form : s.journal.wf none = true → j.wf none = true) :
      CardChange s { s with
        cards := (s.cards.write none slot (some c')).write none slot' (some d'), journal := j, writePos := advance s.writePos }

/-- What the Merchant Directory writes. -/
inductive DirectoryChange (i : Instr) (s : State) : State → Prop where
  | terms (w : TermsWrite) (tests : firstFailure (termsTests s w) = none) :
      DirectoryChange i s { s with terms := s.terms.write Terms.unenrolled w.merchant (writtenTerms w) }
  | clearPage (page : Nat) (out : s.inReset = false) (tests : firstFailure (clearPageTests s page) = none) :
      DirectoryChange i s { s with pages := s.pages.write .opened page .clearing, clearOp := .page page }
  | pageCleared (page : Nat) (running : s.clearOp = .page page) :
      DirectoryChange i s { s with
        terms := s.terms.dropWhere fun m => decide (pageOf m = page), pages := s.pages.write .opened page .opened, clearOp := .none }
  | fixPage (page : Nat) (opened : pageAt s page = .opened) :
      DirectoryChange i s { s with pages := s.pages.write .opened page .fixed }
  | clearDirectory (command : i = .clearDirectory) (out : s.inReset = false) :
      DirectoryChange i s { s with pages := Table.build .opened Config.pageCount fun _ => .clearing, clearOp := .directory }
  | directoryCleared (running : s.clearOp = .directory) :
      DirectoryChange i s { s with terms := [], pages := [], clearOp := .none }

/-- What the Program Table and the Lane Table take from the controller. -/
inductive TableChange (s : State) : State → Prop where
  | program (w : ProgramWrite) (tests : firstFailure (programTests s w) = none) :
      TableChange s { s with programs := s.programs.write Program.blank w.index (writtenProgram (programAt s w.index).live w) }
  | lane (merchant lane enabled station : Nat) (record : Lane) (tests : firstFailure (laneTests s merchant lane enabled station) = none)
      (named : record.station = station) :
      TableChange s { s with lanes := s.lanes.write Lane.unassigned (laneNumber merchant lane) record }

/-- A write-back that leaves the current bank of a position alone. -/
structure KeepsBank (p q : Position) : Prop where
  current : q.current = p.current
  saturated : q.saturated = p.saturated

/-- What the Settlement Calculator and the Release Unit write to positions and batch. -/
inductive BatchChange (s : State) : State → Prop where
  | calculated (q : Position) (records : List BatchRecord) (totals : Totals) (computing : s.batch.state = .computing)
      (below : s.batch.cursor < Config.merchantCount) (bank : KeepsBank (positionAt s s.batch.cursor) q) (computed : q.computed = true)
      (added : records = s.batch.records ∨ ∃ r, records = s.batch.records ++ [r] ∧ r.merchant = s.batch.cursor ∧
        (r.release = none ∨ r.release = some .pending)) :
      BatchChange s { s with
        positions := s.positions.write Position.zero s.batch.cursor q
        batch := { s.batch with cursor := s.batch.cursor + 1, records := records, totals := totals } }
  | completed (due : completionDue s = true) : BatchChange s (completionWrite s)
  | closed (out : s.inReset = false) (calm : clearing s = false) (idle : s.batch.state = .empty ∨ s.batch.state = .settled) :
      BatchChange s (closeWrite s)
  | adjusted (m : Nat) (amount : Int) : BatchChange s (adjustWrite m amount s)
  | granted (mode budget : Nat) (computed : s.batch.state = .computed) : BatchChange s (grantWrite mode budget s)
  | funded (amount : Nat) (releasing : s.batch.state = .releasing) : BatchChange s (budgetWrite amount s)
  | paid (i : Nat) (r : BatchRecord) (releasing : s.batch.state = .releasing) (found : s.batch.records[i]? = some r)
      (awaited : r.release = some .sent ∨ r.release = some .unconfirmed) : BatchChange s (recordPaid i (releaseSlot r s))
  | returned (i : Nat) (r : BatchRecord) (releasing : s.batch.state = .releasing) (found : s.batch.records[i]? = some r)
      (awaited : r.release = some .sent ∨ r.release = some .unconfirmed) :
      BatchChange s { releaseSlot r s with
        batch := { s.batch with
          records := setRelease i .returned s.batch.records, remaining := s.batch.remaining + r.payout } }
  | timedOut (slot i m length : Nat) (r : BatchRecord) (timing : s.window.read .free slot = .timing m length)
      (found : s.batch.records[i]? = some r) (own : r.merchant = m) (sent : r.release = some .sent) :
      BatchChange s { s with
        batch := { s.batch with records := setRelease i .unconfirmed s.batch.records }, window := s.window.write .free slot .free }
  | abandoned (releasing : s.batch.state = .releasing) :
      BatchChange s { s with batch := { s.batch with records := s.batch.records.map abandonRecord } }

/-- The clock after one event or one SET_CLOCK (R188, R189). -/
inductive ClockMoves (before : Clock) : Clock → Prop where
  | second : ClockMoves before before.second
  | endHold : ClockMoves before before.endHold
  | loss : ClockMoves before .unset
  | set (v : Nat) (after : Clock) (accepted : before.set v = some after) : ClockMoves before after

/-- The batch as a start-up finds it before its walk (R142, R166, R180). -/
inductive Recovers (s : State) : Batch → Prop where
  | completed (due : completionDue s = true) : Recovers s { s.batch with state := .computed, trailer := some s.batch.totals }
  | doubted (releasing : s.batch.state = .releasing) : Recovers s { s.batch with records := doubtSent s.batch.records }
  | stands (other : s.batch.state ≠ .releasing) : Recovers s s.batch

/-- Resets, start-ups and erasures. -/
inductive RunChange (i : Instr) (s : State) : State → Prop where
  | reset : RunChange i s (resetState s)
  | erasing (run : ClearRun) (held : s.inReset = true) (kind : run = .repeated ∨ run = .initialising) :
      RunChange i s { s with inReset := false, clearRun := run }
  | recovered (batch : Batch) (held : s.inReset = true) (recovers : Recovers s batch) :
      RunChange i s { s with inReset := false, pages := tearPages s.pages, batch := batch }
  | begun (calm : clearing s = false) : RunChange i s (beginClear s)
  | erased (command : i = .storeClearCompletion ∨ i = .initialisationComplete) (idle : s.posting = .idle) :
      RunChange i s (clearStores s)

/-- Every change a command may make to the stores. -/
inductive Change (i : Instr) (s : State) : State → Prop where
  | stay : Change i s s
  | clock (after : Clock) (moves : ClockMoves s.clock after) : Change i s { s with clock := after }
  | till {u : State} (change : TillChange s u) : Change i s u
  | card {u : State} (idle : s.posting = .idle) (change : CardChange s u) : Change i s u
  | directory {u : State} (change : DirectoryChange i s u) : Change i s u
  | table {u : State} (change : TableChange s u) : Change i s u
  | batch {u : State} (change : BatchChange s u) : Change i s u
  | run {u : State} (change : RunChange i s u) : Change i s u

/-- What may follow a change in the same step: frames, a carry addition, the settling of a batch, a walk, and the placing of
instructions. -/
inductive Aftermath (s : State) : State → Prop where
  | traffic {t : State} (moves : Traffic s t) : Aftermath s t
  | carry (m : Nat) (amount : Int) :
      Aftermath s { s with positions := s.positions.write Position.zero m (addCarry amount (positionAt s m)) }
  | settle (releasing : s.batch.state = .releasing) (final : allFinal s.batch.records = true) :
      Aftermath s { s with batch := { s.batch with state := .settled } }
  | walk (out : s.inReset = false) (releasing : s.batch.state = .releasing) : Aftermath s (walkRecords s)
  | place (offered rest : List Nat) (all : s.awaiting = offered ++ rest) : Aftermath s (placeSome offered rest s)

/-- A step of the part: traffic, one change, and its aftermath. -/
def Path (i : Instr) (s t : State) : Prop :=
  ∃ before u, Traffic s before ∧ Change i before u ∧ Relation.ReflTransGen Aftermath u t

end Sys2Proof.Machine
end

