-- ==== Sys2Proof/Proofs/Paths.lean ====
section
/-! Every command is traffic, one change of `Change` and its aftermath (`exec_path`): the commands are walked through once here, in
the order of the blocks, and an invariant is then proved change by change (`exec_keeps`). -/

namespace Sys2Proof.Machine

open Relation (ReflTransGen)

variable {i : Instr} {s t u : State}

/-! ### Paths -/

theorem Path.ofChange (change : Change i s u) : Path i s u := ⟨s, u, Traffic.refl s, change, .refl⟩

theorem Path.refl : Path i s s := .ofChange .stay

theorem Path.followed (path : Path i s t) (after : ReflTransGen Aftermath t u) : Path i s u := by
  obtain ⟨before, v, moves, change, rest⟩ := path
  exact ⟨before, v, moves, change, rest.trans after⟩

theorem Path.framed (path : Path i s t) (moves : Traffic t u) : Path i s u := path.followed (.single (.traffic moves))

theorem Path.ofTraffic (moves : Traffic s t) : Path i s t := Path.refl.framed moves

theorem Path.preceded (moves : Traffic s t) (path : Path i t u) : Path i s u := by
  obtain ⟨before, v, first, change, rest⟩ := path
  exact ⟨before, v, moves.trans first, change, rest⟩

theorem path_ite {p : Prop} [Decidable p] (yes : p → Path i s t) (no : ¬p → Path i s u) : Path i s (if p then t else u) := by
  split
  · exact yes ‹_›
  · exact no ‹_›

theorem path_outOfReset {f : State → State} (works : s.inReset = false → Path i s (f s)) : Path i s (outOfReset f s) := by
  unfold outOfReset
  split
  · exact .refl
  · rename_i out
    exact works (by simpa using out)

/-! ### What follows a change -/

theorem after_carryAddition (m : Nat) (amount : Int) (s : State) : ReflTransGen Aftermath s (carryAddition m amount s) :=
  .head (.carry m amount) (.single (.traffic (traffic_handNotices _ _)))

theorem after_placeInstructions (s : State) : ReflTransGen Aftermath s (placeInstructions s) :=
  .single (.place s.awaiting [] (List.append_nil _).symm)

theorem after_releaseWalk (out : s.inReset = false) : ReflTransGen Aftermath s (releaseWalk s) := by
  unfold releaseWalk
  split
  · exact .head (.walk out (And.left ‹_›)) (after_placeInstructions _)
  · exact .refl

theorem after_settle (releasing : s.batch.state = .releasing) (final : allFinal s.batch.records = true) (n : Notice) :
    ReflTransGen Aftermath s (handNotice n { s with batch := { s.batch with state := .settled } }) :=
  .head (.settle releasing final) (.single (.traffic (traffic_handNotice _ _)))

theorem after_afterChange (out : s.inReset = false) (releasing : s.batch.state = .releasing) : ReflTransGen Aftermath s (afterChange s) := by
  unfold afterChange
  split
  · exact after_settle releasing ‹_› _
  · exact after_releaseWalk out

theorem after_settleIfFinal (releasing : s.batch.state = .releasing) : ReflTransGen Aftermath s (settleIfFinal s) := by
  unfold settleIfFinal
  split
  · exact after_settle releasing ‹_› _
  · exact .refl

/-! ### Taking work -/

theorem path_serveManagement {α : Type} (mine : Request → Option α) (serve : α → Nat → State → State) (s : State)
    (served : ∀ a tag u, u.inReset = false → clearing u = false → Path i u (serve a tag u)) :
    Path i s (serveManagement mine serve s) := by
  obtain same | ⟨f, rest, r, a, out, front, -, -, ⟨-, busy⟩ | ⟨calm, takes⟩⟩ := serveManagement_cases mine serve s
  · rw [same]
    exact .refl
  · rw [busy]
    exact .preceded (traffic_takeRequest front) (.ofTraffic (traffic_sendReply _ _ _ _ _))
  · rw [takes]
    exact .preceded (traffic_takeRequest front) (served a _ _ out (Bool.or_eq_false_iff.1 calm).1)

theorem path_takeTill (kind : RequestKind) (serve : TillRequest → State → State) (s : State)
    (served : ∀ r u, u.posting = .idle → shopPlaces u < 16 → Path i u (serve r u)) : Path i s (takeTill kind serve s) := by
  obtain same | ⟨r, t, -, ⟨-, idle, -, room, rest, front, rfl⟩, takes⟩ := takeTill_cases kind serve s
  · rw [same]
    exact .refl
  · rw [takes]
    exact .preceded (traffic_takeTill front) (served r _ idle room)

/-- A finished card request leaves the stores as the request left them: the Posting Unit was IDLE before it (R17, R25). -/
theorem traffic_finishCard (q : CardRequest) (reason : ReplyReason) (block : List Byte) (idle : s.posting = .idle) :
    Traffic s (finishCard q reason block { s with posting := .card q }) := by
  have same : { s with posting := .idle, cardSlot := none } = ({ s with cardSlot := none } : State) := by rw [← idle]
  unfold finishCard
  exact Traffic.trans (t := { s with cardSlot := none }) ⟨rfl, id, id⟩ (same ▸ traffic_sendReply _ _ _ _ _)

theorem path_takeCard {α : Type} (mine : CardOp → Option α) (serve : α → CardRequest → State → State) (s : State)
    (served : ∀ a q, s.posting = .idle → Path i s (serve a q { s with posting := .card q })) : Path i s (takeCard mine serve s) := by
  obtain same | ⟨q, a, -, idle, -, -, ⟨-, busy⟩ | ⟨-, takes⟩⟩ := takeCard_cases mine serve s
  · rw [same]
    exact .refl
  · have refused : finishCard q .busy [] s = finishCard q .busy [] { s with posting := .card q } := rfl
    rw [busy, refused]
    exact .ofTraffic (traffic_finishCard q _ _ idle)
  · rw [takes]
    exact served a q idle

/-! ### Ports and clock -/

theorem path_officeEgress (s : State) : Path i s (officeEgress s) := by
  unfold officeEgress
  split
  · rename_i e rest front
    refine Path.followed (.ofTraffic (traffic_shrink (t := { s with officeOut := rest, out := s.out ++ [(.office, e.frame)] })
      rfl rfl le_rfl le_rfl le_rfl (by simp [front]) le_rfl le_rfl id)) (after_placeInstructions _)
  · split
    · rename_i f rest front
      exact .ofTraffic (traffic_shrink rfl rfl (by simp [front]) le_rfl le_rfl le_rfl le_rfl le_rfl id)
    · exact .refl

theorem path_frameEgress (port : Port) (s : State) : Path i s (frameEgressStep port s) := by
  cases port with
  | shop => exact path_ite (fun _ => .ofTraffic (traffic_shopEgress s)) fun _ => .refl
  | office => exact path_ite (fun _ => path_officeEgress s) fun _ => .refl

theorem path_linkDown (port : Port) (s : State) : Path i s (linkDownStep port s) := by
  cases port with
  | shop => exact path_ite (fun _ => .ofTraffic (traffic_flushShop s)) fun _ => .refl
  | office =>
    exact path_ite (fun _ => Path.followed (.ofTraffic (traffic_flushOffice s)) (after_placeInstructions _)) fun _ => .refl

/-! ### Till requests -/

theorem path_decline (r : TillRequest) (reason : DeclineReason) (card : Option CardRecord) (reserved : responseReserved s) :
    Path i s (decline r reason card s) := .ofChange (.till (.respond _ _ _ _ _ _ reserved))

/-- The head of the check order declines, or hands the card found to the kind's own tests (R31). -/
theorem path_serveOnCard (own : TillRequest → Nat → CardRecord → State → State) (r : TillRequest) (idle : s.posting = .idle)
    (room : shopPlaces s < 16)
    (served : ∀ slot c, lookupCard s c.number = some (slot, c) → c.state ≠ .retired → Path i s (own r slot c s)) :
    Path i s (serveOnCard own r s) := by
  have reserved : responseReserved s := .inl ⟨idle, room⟩
  unfold serveOnCard
  split
  · exact path_decline r _ none reserved
  · split
    · exact path_decline r _ none reserved
    · rename_i slot c found
      obtain ⟨looked, live⟩ := liveCard_some found
      split
      · exact path_decline r _ (some c) reserved
      · exact served slot c ((lookupCard_some looked).2.2 ▸ looked) live

theorem path_takeOnCard (kind : RequestKind) (own : TillRequest → Nat → CardRecord → State → State) (s : State)
    (served : ∀ r u slot c, u.posting = .idle → shopPlaces u < 16 → lookupCard u c.number = some (slot, c) → c.state ≠ .retired →
      Path i u (own r slot c u)) : Path i s (takeTill kind (serveOnCard own) s) :=
  path_takeTill kind _ s fun r u idle room => path_serveOnCard own r idle room fun slot c => served r u slot c idle room

theorem heldSum_filter_le (p : Hold → Bool) (holds : List Hold) : heldSum (holds.filter p) ≤ heldSum holds :=
  List.Sublist.sum_le_sum (List.Sublist.map _ List.filter_sublist) fun _ _ => Nat.zero_le _

theorem heldSum_append (a b : List Hold) : heldSum (a ++ b) = heldSum a + heldSum b := by simp [heldSum]

/-- Free is the balance less the unexpired holds, where the holds are covered (R9). -/
theorem freeAmount_add_held {c : CardRecord} (now : Option Nat) (covered : heldSum c.holds ≤ c.balance) :
    freeAmount now c + heldSum (liveHolds now c.holds) = c.balance :=
  Nat.sub_add_cancel ((heldSum_filter_le _ _).trans covered)

theorem SameCard.refl_of_holds {c d : CardRecord} (number : d.number = c.number) (program : d.program = c.program)
    (holds : d.holds.length ≤ c.holds.length) : SameCard s c d := ⟨number, program, fun few _ => holds.trans few⟩

theorem length_liveHolds_le (now : Option Nat) (holds : List Hold) : (liveHolds now holds).length ≤ holds.length :=
  List.length_filter_le _ _

theorem matchProgram_lt {programs : Table Program} {card index : Nat} (h : matchProgram programs card = some index) :
    index < Config.programCount := List.mem_range.1 (List.mem_of_find?_eq_some h)

/-- An ISSUE in hand is for a number no record carries, in the EMPTY slot found, within the ceiling of its program (R39). -/
theorem prepares_issueHand {r : TillRequest} {index slot : Nat} (program : matchProgram s.programs r.card = some index)
    (tests : firstFailure (issueTests s r (programAt s index)) = none) (empty : firstEmpty s r.card = some slot) :
    Prepares s (issueHand s r index (programAt s index) slot) := by
  simp only [firstFailure_none, issueTests, List.forall_mem_cons, decide_eq_true_eq, Option.isNone_iff_eq_none] at tests
  obtain ⟨-, -, -, -, fits, unused, -⟩ := tests
  obtain ⟨inWindow, vacant⟩ := firstEmpty_some empty
  exact .issue index (issuedCard s r index (programAt s index)) (matchProgram_lt program) unused inWindow vacant rfl rfl rfl rfl rfl
    fits rfl rfl rfl

theorem path_serveIssue (r : TillRequest) (idle : s.posting = .idle) (room : shopPlaces s < 16) : Path i s (serveIssue r s) := by
  have declines := fun reason => path_decline (i := i) r reason none (.inl ⟨idle, room⟩ : responseReserved s)
  unfold serveIssue
  split
  · exact declines _
  · split
    · exact declines _
    · split
      · exact declines _
      · split
        · exact declines _
        · exact .ofChange (.till (.await _ idle room (prepares_issueHand ‹_› ‹_› ‹_›) rfl))

/-- The hold that a CLAIM names is on the card, of the merchant, and unexpired (R65). -/
theorem resolveHold_ok {r : TillRequest} {c : CardRecord} {h : Hold} (resolved : resolveHold s r c = .ok h) :
    h ∈ c.holds ∧ h.reference = r.reference ∧ h.merchant = r.merchant ∧ holdExpired (timeOf s.clock) h = false := by
  unfold resolveHold at resolved
  split at resolved
  · rename_i found
    split_ifs at resolved with own expired
    cases resolved
    exact ⟨List.mem_of_find?_eq_some found, by simpa using List.find?_some found, own, by simpa using expired⟩
  · split at resolved
    · cases resolved
    · split_ifs at resolved

theorem heldSum_filter_add_le {p : Hold → Bool} {h : Hold} {holds : List Hold} (present : h ∈ holds) (out : p h = false) :
    heldSum (holds.filter p) + h.amount ≤ heldSum holds := by
  induction holds with
  | nil => cases present
  | cons a rest ih =>
    have rest_le := heldSum_filter_le p rest
    simp only [heldSum, List.filter_cons, List.map_cons, List.sum_cons] at ih rest_le ⊢
    obtain rfl | inRest := List.mem_cons.1 present
    · rw [out]
      simp only [Bool.false_eq_true, if_false]
      omega
    · have := ih inRest
      split
      · simp only [List.map_cons, List.sum_cons]
        omega
      · omega

/-- The unexpired holds left when an unexpired one is taken out amount to no more than all of them less it (R67). -/
theorem heldSum_withoutHold_le {now : Option Nat} {ref : JournalRef} {h : Hold} {holds : List Hold} (present : h ∈ holds)
    (named : h.reference = ref) (unexpired : holdExpired now h = false) :
    heldSum (liveHolds now (holds.filter fun h => decide (h.reference ≠ ref))) + h.amount ≤ heldSum (liveHolds now holds) := by
  unfold liveHolds
  rw [List.filter_comm]
  exact heldSum_filter_add_le (List.mem_filter.2 ⟨present, by simp [unexpired]⟩) (by simp [named])

section
variable {r : TillRequest} {slot : Nat} {c : CardRecord} (idle : s.posting = .idle) (room : shopPlaces s < 16)
  (found : lookupCard s c.number = some (slot, c)) (live : c.state ≠ .retired)
include idle room found live

theorem path_topupOwn : Path i s (topupOwn r slot c s) := by
  have reserved : responseReserved s := .inl ⟨idle, room⟩
  refine path_ite (fun _ => ?_) fun _ => path_decline r _ _ reserved
  split
  · exact path_decline r _ _ reserved
  · rename_i g granted
    have within := (decideGrant_le granted).2 _ (List.mem_singleton.2 rfl)
    refine .ofChange (.till (.await _ idle room
      (.rise c (toppedUp s (programAt s c.program) g c) found live rfl ?same rfl rfl ?fits (heldSum_filter_le _ _) rfl rfl) rfl))
    case same => exact .refl_of_holds rfl rfl (length_liveHolds_le _ _)
    case fits =>
      show c.balance + g ≤ _
      omega

/-- A debit takes no more than what is free, so the holds that stay are covered (R43, R66). -/
theorem path_spendOwn : Path i s (spendOwn r slot c s) := by
  simp only [spendOwn]
  split
  · exact path_decline r _ _ (.inl ⟨idle, room⟩)
  · rename_i g granted
    have within := (decideGrant_le granted).2 _ (List.mem_cons_self ..)
    refine .ofChange (.till (.await _ idle room
      (.fall c (afterDebit s g c) found live rfl ?same rfl rfl (fun covered => ?holds) rfl rfl) rfl))
    case same => exact .refl_of_holds rfl rfl (length_liveHolds_le _ _)
    case holds =>
      have free := freeAmount_add_held (timeOf s.clock) covered
      show heldSum (liveHolds _ c.holds) + g ≤ _
      omega

omit found live in
theorem path_tryOwn : Path i s (tryOwn r slot c s) := by
  simp only [tryOwn]
  split
  · exact path_decline r _ _ (.inl ⟨idle, room⟩)
  · exact .ofChange (.till (.respond _ _ _ _ _ _ (.inl ⟨idle, room⟩)))

omit found live in
theorem path_askOwn : Path i s (askOwn r slot c s) := .ofChange (.till (.respond _ _ _ _ _ _ (.inl ⟨idle, room⟩)))

theorem path_reserveOwn : Path i s (reserveOwn r slot c s) := by
  have reserved : responseReserved s := .inl ⟨idle, room⟩
  refine path_ite (fun few => ?_) fun _ => path_decline r _ _ reserved
  split
  · exact path_decline r _ _ reserved
  · rename_i g granted
    have within := (decideGrant_le granted).2 _ (List.mem_singleton.2 rfl)
    refine .ofChange (.till (.hold r _ _ _ _ _ slot c (withHold s r (programAt s c.program) g c) _ idle room found live ?same rfl rfl
      (fun covered => ?holds) (wf_appendAt _ _ _)))
    case same =>
      refine ⟨rfl, rfl, fun _ limit => ?_⟩
      show (liveHolds _ c.holds ++ [_]).length ≤ 4
      simp only [List.length_append, List.length_singleton]
      omega
    case holds =>
      have free := freeAmount_add_held (timeOf s.clock) covered
      show heldSum (liveHolds _ c.holds ++ [_]) ≤ _
      rw [heldSum_append]
      show _ + (g + 0) ≤ _
      omega

theorem path_claimOwn : Path i s (claimOwn r slot c s) := by
  have reserved : responseReserved s := .inl ⟨idle, room⟩
  simp only [claimOwn]
  split
  · exact path_decline r _ _ reserved
  · rename_i h resolved
    obtain ⟨present, named, -, unexpired⟩ := resolveHold_ok resolved
    split
    · exact path_decline r _ _ reserved
    · rename_i g granted
      have within := (decideGrant_le granted).2 _ (List.mem_cons_of_mem _ (List.mem_cons_self ..))
      refine .ofChange (.till (.await _ idle room
        (.fall c (afterDebit s g (withoutHold r.reference c)) found live rfl ?same rfl rfl (fun covered => ?holds) rfl rfl) rfl))
      case same => exact .refl_of_holds rfl rfl ((length_liveHolds_le _ _).trans (List.length_filter_le _ _))
      case holds =>
        have free := freeAmount_add_held (timeOf s.clock) covered
        have others := heldSum_withoutHold_le present named unexpired
        simp only [freeWithout] at within
        show heldSum (liveHolds (timeOf s.clock) (c.holds.filter fun h => decide (h.reference ≠ r.reference))) + g ≤ _
        omega

theorem path_freeOwn : Path i s (freeOwn r slot c s) := by
  unfold freeOwn
  split
  · exact path_decline r _ _ (.inl ⟨idle, room⟩)
  · refine .ofChange (.till (.hold r _ _ _ _ _ slot c (touched s (withoutHold r.reference c)) _ idle room found live ?same rfl rfl
      (fun covered => ?holds) fun form => wf_appendAt _ _ _ (wf_editEntry _ _ _ form)))
    case same => exact .refl_of_holds rfl rfl ((length_liveHolds_le _ _).trans (List.length_filter_le _ _))
    case holds => exact ((heldSum_filter_le _ _).trans (heldSum_filter_le _ _)).trans covered

theorem path_returnOwn : Path i s (returnOwn r slot c s) := by
  have reserved : responseReserved s := .inl ⟨idle, room⟩
  simp only [returnOwn]
  split
  · exact path_decline r _ _ reserved
  · refine path_ite (fun _ => ?_) fun _ => path_decline r _ _ reserved
    split
    · exact path_decline r _ _ reserved
    · rename_i g granted
      have within := (decideGrant_le granted).2 _ (List.mem_cons_of_mem _ (List.mem_singleton.2 rfl))
      refine .ofChange (.till (.await _ idle room
        (.rise c { touched s c with balance := c.balance + g } found live rfl ?same rfl rfl ?fits (heldSum_filter_le _ _) rfl rfl) rfl))
      case same => exact .refl_of_holds rfl rfl (length_liveHolds_le _ _)
      case fits =>
        show c.balance + g ≤ _
        omega

section
omit idle room
variable {l : LastRecord} {e : JournalEntry} (condition : cancelCondition s c e = true)
include condition

omit found live condition in
theorem sameCard_cancelledCard : SameCard s c (cancelledCard s e c) := by
  unfold cancelledCard
  split <;> exact .refl_of_holds rfl rfl (length_liveHolds_le _ _)

/-- The cancel of an ISSUE gives back the whole balance of the card (R87, R89). -/
theorem prepares_cancelIssueHand (kind : e.kind = .issue) : Prepares s (cancelIssueHand s r slot c l e) := by
  simp only [cancelCondition, kind, Bool.and_eq_true, decide_eq_true_eq] at condition
  exact .remove c found live rfl condition.1 rfl rfl rfl

/-- The cancel of a debit stays within the ceiling (R87). -/
theorem prepares_cancelHand_debit (kind : e.kind = .spend ∨ e.kind = .claim) : Prepares s (cancelHand s r slot c l e) := by
  have fits : c.balance + e.amount.toNat ≤ (programAt s c.program).ceiling := by
    obtain kind | kind := kind <;>
      (simp only [cancelCondition, kind, Bool.and_eq_true, decide_eq_true_eq] at condition; exact condition.2)
  have card : cancelledCard s e c =
      { touched s c with balance := c.balance + e.amount.toNat, daySpend := c.daySpend - e.amount.toNat } := by
    obtain kind | kind := kind <;> simp only [cancelledCard, kind]
  refine .rise c (cancelledCard s e c) found live rfl sameCard_cancelledCard ?_ ?_ ?_ ?_ rfl ?_
  · rw [card]; rfl
  · rw [card]; rfl
  · rw [card]; exact le_max_of_le_right fits
  · rw [card]; exact heldSum_filter_le _ _
  · obtain kind | kind := kind <;> simp [cancelHand, handFor, kind]

/-- The cancel of a credit takes no more than what is free (R87). -/
theorem prepares_cancelHand_credit (kind : e.kind = .topup ∨ e.kind = .returnReq) : Prepares s (cancelHand s r slot c l e) := by
  have within : e.amount.toNat ≤ freeAmount (timeOf s.clock) c := by
    obtain kind | kind := kind <;> simpa only [cancelCondition, kind, decide_eq_true_eq] using condition
  have card : cancelledCard s e c = { touched s c with balance := c.balance - e.amount.toNat } := by
    obtain kind | kind := kind <;> simp only [cancelledCard, kind]
  refine .fall c (cancelledCard s e c) found live rfl sameCard_cancelledCard ?_ ?_ (fun covered => ?_) rfl ?_
  · rw [card]; rfl
  · rw [card]; rfl
  · have free := freeAmount_add_held (timeOf s.clock) covered
    rw [card]
    show heldSum (liveHolds (timeOf s.clock) c.holds) + e.amount.toNat ≤ _
    omega
  · obtain kind | kind := kind <;> simp [cancelHand, handFor, kind]

omit found live in
/-- Only a kind with a condition is cancelled (R87). -/
theorem cancelCondition_kind : e.kind = .issue ∨ (e.kind = .spend ∨ e.kind = .claim) ∨ e.kind = .topup ∨ e.kind = .returnReq := by
  cases kind : e.kind <;> simp [cancelCondition, kind] at condition ⊢

end

theorem path_cancelOwn : Path i s (cancelOwn r slot c s) := by
  unfold cancelOwn
  split
  · exact path_decline r _ _ (.inl ⟨idle, room⟩)
  · rename_i l e _
    refine path_ite (fun condition => ?_) fun _ => path_decline r _ _ (.inl ⟨idle, room⟩)
    obtain kind | kind | kind := cancelCondition_kind condition
    · rw [if_pos kind]
      refine .ofChange (.till (.await _ idle room (prepares_cancelIssueHand found live condition kind) ?_))
      simp [handDirection, cancelIssueHand, handFor, cancelField, kind]
    · rw [if_neg (by obtain kind | kind := kind <;> simp [kind])]
      refine .ofChange (.till (.await _ idle room (prepares_cancelHand_debit found live condition kind) ?_))
      obtain kind | kind := kind <;> simp [handDirection, cancelHand, handFor, cancelField, kind]
    · rw [if_neg (by obtain kind | kind := kind <;> simp [kind])]
      refine .ofChange (.till (.await _ idle room (prepares_cancelHand_credit found live condition kind) ?_))
      obtain kind | kind := kind <;> simp [handDirection, cancelHand, handFor, cancelField, kind]

end

/-! ### The Position Table's answers -/

theorem path_refuseMovement (h : Hand) (reason : DeclineReason) (held : s.posting = .till h) :
    Path i s (refuseMovement h reason s) := .ofChange (.till (.respond _ _ _ _ _ _ (.inr ⟨h, held⟩)))

theorem path_conditionalPost (s : State) : Path i s (conditionalPostStep s) := by
  refine path_outOfReset fun _ => ?_
  split
  · rename_i h held
    split
    · rename_i field gated limit movement
      exact path_ite (fun _ => .ofChange (.till (.joint h _ held (.post field gated limit movement))))
        fun _ => path_refuseMovement h _ held
    · exact .refl
  · exact .refl

theorem path_conditionalReversal (s : State) : Path i s (conditionalReversalStep s) := by
  refine path_outOfReset fun _ => ?_
  split
  · rename_i h held
    split
    · rename_i field cycle movement
      exact path_ite (fun current => .ofChange (.till (.joint h _ held (.reverse field (current ▸ movement)))))
        fun _ => path_refuseMovement h _ held
    · exact .refl
  · exact .refl

end Sys2Proof.Machine
end

