-- ==== Sys2Proof/Proofs/Commands.lean ====
section
/-! The commands of the other blocks as paths, and `exec_path` for all 68. -/

namespace Sys2Proof.Machine

open Relation (ReflTransGen)

variable {i : Instr} {s t u : State}

/-! ### Management card requests -/

/-- The request is answered after its change, the Posting Unit being IDLE (R17, R25). -/
theorem Path.finished (path : Path i s u) (idle : u.posting = .idle) (q : CardRequest) (reason : ReplyReason) (block : List Byte) :
    Path i s (finishCard q reason block { u with posting := .card q }) := path.framed (traffic_finishCard q reason block idle)

theorem lookupCard_self {number k : Nat} {c : CardRecord} (found : lookupCard s number = some (k, c)) :
    lookupCard s c.number = some (k, c) := (lookupCard_some found).2.2 ▸ found

/-- A change of one card: refused, or written as `change` gives it with its expired holds removed (R13, R17). -/
theorem path_changeCard (change : CardRecord → Except ReplyReason CardRecord) (live : LiveChange) (q : CardRequest)
    (idle : s.posting = .idle)
    (writes : ∀ slot c d, lookupCard s c.number = some (slot, c) → change c = .ok d →
      CardChange s { s with
        cards := s.cards.write none slot (some (pruneHolds (timeOf s.clock) d)), programs := changeLiveAt live c.program s.programs }) :
    Path i s (changeCard q change live { s with posting := .card q }) := by
  unfold changeCard
  split
  · exact Path.refl.finished idle q _ _
  · rename_i slot c found
    have looked : lookupCard s c.number = some (slot, c) := lookupCard_self (requestedCard_ok found).2.2
    split
    · exact Path.refl.finished idle q _ _
    · rename_i d changed
      exact (Path.ofChange (.card idle (writes slot c d looked changed))).finished idle q _ _

theorem path_readCard (q : CardRequest) (idle : s.posting = .idle) : Path i s (serveReadCard q { s with posting := .card q }) := by
  unfold serveReadCard
  split <;> exact Path.refl.finished idle q _ _

theorem sameCard_pruneHolds {c d : CardRecord} (now : Option Nat) (number : d.number = c.number) (program : d.program = c.program)
    (holds : d.holds = c.holds) : SameCard s c (pruneHolds now d) :=
  .refl_of_holds number program (holds ▸ length_liveHolds_le now d.holds)

theorem path_suspendCard (q : CardRequest) (idle : s.posting = .idle) :
    Path i s (changeCard q suspended .same { s with posting := .card q }) := by
  refine path_changeCard _ _ q idle fun slot c d found changed => ?_
  unfold suspended at changed
  split_ifs at changed with active
  cases changed
  exact .restate slot c _ found (by simp [active]) (sameCard_pruneHolds _ rfl rfl rfl) CardState.noConfusion rfl
    (heldSum_filter_le _ _)

theorem path_resumeCard (q : CardRequest) (idle : s.posting = .idle) :
    Path i s (changeCard q resumed .same { s with posting := .card q }) := by
  refine path_changeCard _ _ q idle fun slot c d found changed => ?_
  unfold resumed at changed
  split_ifs at changed with suspended
  cases changed
  exact .restate slot c _ found (by simp [suspended]) (sameCard_pruneHolds _ rfl rfl rfl) CardState.noConfusion rfl
    (heldSum_filter_le _ _)

theorem path_extendCard (day : Nat) (q : CardRequest) (idle : s.posting = .idle) :
    Path i s (changeCard q (extended day) .same { s with posting := .card q }) := by
  refine path_changeCard _ _ q idle fun slot c d found changed => ?_
  unfold extended at changed
  split_ifs at changed with retired
  cases changed
  exact .restate slot c _ found retired (sameCard_pruneHolds _ rfl rfl rfl) retired rfl (heldSum_filter_le _ _)

theorem path_retireCard (now : Option Nat) (q : CardRequest) (idle : s.posting = .idle) :
    Path i s (changeCard q (retired now) .fall { s with posting := .card q }) := by
  refine path_changeCard _ _ q idle fun slot c d found changed => ?_
  unfold retired at changed
  split_ifs at changed with gone empty
  cases changed
  exact .retire slot c _ found gone (sameCard_pruneHolds _ rfl rfl rfl) rfl empty.1 empty.1 (heldSum_filter_le _ _)

theorem path_purgeCard (q : CardRequest) (idle : s.posting = .idle) : Path i s (servePurgeCard q { s with posting := .card q }) := by
  unfold servePurgeCard
  split
  · exact Path.refl.finished idle q _ _
  · rename_i slot c found
    have looked : lookupCard s c.number = some (slot, c) := lookupCard_self (requestedCard_ok found).2.2
    exact path_ite (fun gone => (Path.ofChange (.card idle (.purge slot c looked gone))).finished idle q _ _)
      fun _ => Path.refl.finished idle q _ _

theorem path_moveBalance (number : Nat) (q : CardRequest) (idle : s.posting = .idle) :
    Path i s (serveMoveBalance number q { s with posting := .card q }) := by
  have refused := fun reason => Path.refl.finished (i := i) idle q reason []
  unfold serveMoveBalance
  refine path_ite (fun _ => refused _) fun _ => path_ite (fun _ => refused _) fun apart => ?_
  split
  · exact refused _
  · rename_i slot c requested
    obtain ⟨-, -, source⟩ := requestedCard_ok requested
    refine path_ite (fun suspended => ?_) fun _ => refused _
    split
    · exact refused _
    · rename_i slot' d requested'
      obtain ⟨-, -, target⟩ := requestedCard_ok requested'
      split
      · exact refused _
      · rename_i tests
        simp only [firstFailure_none, moveTests, List.forall_mem_cons, Bool.and_eq_true, decide_eq_true_eq] at tests
        obtain ⟨⟨active, -⟩, -, fits, -⟩ := tests
        refine (Path.ofChange (.card idle (.move slot slot' c d
          (moved s (c.balance - freeAmount (timeOf s.clock) c) c) (moved s (d.balance + freeAmount (timeOf s.clock) c) d) _
          (freeAmount (timeOf s.clock) c) (lookupCard_self source) (lookupCard_self target) ?apart suspended active ?_ ?_ rfl rfl rfl
          rfl fits (fun covered => ?holds) (heldSum_filter_le _ _) (wf_appendAt _ (moveEntry s c d _) _)))).finished idle q _ _
        case apart => rwa [(lookupCard_some source).2.2, (lookupCard_some target).2.2]
        case holds => exact (Nat.add_comm _ _).trans (freeAmount_add_held _ covered) |>.le
        all_goals exact .refl_of_holds rfl rfl (length_liveHolds_le _ _)

/-! ### The Directory and the tables -/

theorem path_writeTerms (w : TermsWrite) (tag : Nat) : Path i s (serveWriteTerms w tag s) := by
  unfold serveWriteTerms
  split
  · exact .ofTraffic (traffic_sendReply _ _ _ _ _)
  · exact (Path.ofChange (.directory (.terms w ‹_›))).framed (traffic_sendReply _ _ _ _ _)

theorem path_clearPage (page tag : Nat) (out : s.inReset = false) : Path i s (serveClearPage page tag s) := by
  unfold serveClearPage
  split
  · exact .ofTraffic (traffic_sendReply _ _ _ _ _)
  · exact (Path.ofChange (.directory (.clearPage page out ‹_›))).framed (traffic_sendReply _ _ _ _ _)

theorem path_pageClear (s : State) : Path i s (pageClearStep s) := by
  refine path_outOfReset fun _ => ?_
  split
  · rename_i page running
    exact path_ite (fun _ => .refl)
      fun _ => (Path.ofChange (.directory (.pageCleared page running))).framed (traffic_handNotice _ _)
  · exact .refl
  · exact .refl

theorem fixRefusal_none {p : PageState} (h : fixRefusal p = none) : p = .opened := by
  cases p <;> simp [fixRefusal] at h ⊢

theorem path_fixPage (page tag : Nat) : Path i s (serveFixPage page tag s) := by
  refine path_ite (fun _ => ?_) fun _ => .ofTraffic (traffic_sendReply _ _ _ _ _)
  split
  · exact .ofTraffic (traffic_sendReply _ _ _ _ _)
  · exact (Path.ofChange (.directory (.fixPage page (fixRefusal_none ‹_›)))).framed (traffic_sendReply _ _ _ _ _)

theorem path_clearDirectory (tag : Nat) (out : s.inReset = false) : Path .clearDirectory s (serveClearDirectory tag s) := by
  unfold serveClearDirectory
  split
  · exact .ofTraffic (traffic_sendReply _ _ _ _ _)
  · exact (Path.ofChange (.directory (.clearDirectory rfl out))).framed (traffic_sendReply _ _ _ _ _)

theorem path_directoryClear (s : State) : Path i s (directoryClearStep s) := by
  refine path_outOfReset fun _ => ?_
  split
  · rename_i running
    exact path_ite (fun _ => .refl)
      fun _ => (Path.ofChange (.directory (.directoryCleared running))).framed (traffic_handNotices _ _)
  · exact .refl
  · exact .refl

theorem path_writeLane (w : Nat × Nat × Nat × Nat) (tag : Nat) : Path i s (serveWriteLane w tag s) := by
  obtain ⟨merchant, lane, enabled, station⟩ := w
  simp only [serveWriteLane]
  split
  · exact .ofTraffic (traffic_sendReply _ _ _ _ _)
  · exact (Path.ofChange (.table (.lane merchant lane enabled station _ ‹_› rfl))).framed (traffic_sendReply _ _ _ _ _)

theorem path_writeProgram (w : ProgramWrite) (tag : Nat) : Path i s (serveWriteProgram w tag s) := by
  unfold serveWriteProgram
  split
  · exact .ofTraffic (traffic_sendReply _ _ _ _ _)
  · exact (Path.ofChange (.table (.program w ‹_›))).framed (traffic_sendReply _ _ _ _ _)

/-! ### The Settlement Calculator and the cycle -/

/-- The release state a record of the walk begins with (R136). -/
theorem markClamped_release (index merchant cycle : Nat) (p : Position) (t : Terms) :
    let r := markClamped (settlementRecord index merchant cycle p t) p
    r.release = none ∨ r.release = some .pending := by
  simp only [markClamped, settlementRecord]
  split_ifs <;> simp

theorem path_calculatorStep (s : State) : Path i s (calculatorStepState s) := by
  refine path_outOfReset fun _ => path_ite (fun due => ?_) fun _ => .refl
  obtain ⟨runs, below⟩ := due
  have computing : s.batch.state = .computing := of_decide_eq_true (Bool.and_eq_true_iff.1 runs).1
  simp only [walkStep]
  refine path_ite (fun _ => ?_) fun _ => ?_
  · exact .ofChange (.batch (.calculated { positionAt s s.batch.cursor with computed := true } s.batch.records s.batch.totals computing
      below ⟨rfl, rfl⟩ rfl (.inl rfl)))
  · refine Path.framed ?_ (traffic_handNotices _ _)
    exact .ofChange (.batch (.calculated _ _ _ computing below ⟨rfl, rfl⟩ rfl
      (.inr ⟨_, rfl, rfl, markClamped_release _ _ _ _ _⟩)))

theorem path_computationCompletion (s : State) : Path i s (computationCompletionState s) :=
  path_outOfReset fun _ => path_ite
    (fun due => (Path.ofChange (.batch (.completed due.2))).framed (traffic_handNotice _ _)) fun _ => .refl

theorem path_closeCycle (tag : Nat) (out : s.inReset = false) (calm : clearing s = false) : Path i s (serveCloseCycle tag s) :=
  path_ite (fun idle => (Path.ofChange (.batch (.closed out calm idle))).framed (traffic_sendReply _ _ _ _ _))
    fun _ => .ofTraffic (traffic_sendReply _ _ _ _ _)

theorem path_adjustCarry (merchant : Nat) (amount : Int) (tag : Nat) : Path i s (serveAdjustCarry merchant amount tag s) := by
  unfold serveAdjustCarry
  split
  · exact .ofTraffic (traffic_sendReply _ _ _ _ _)
  · exact ((Path.ofChange (.batch (.adjusted merchant amount))).framed (traffic_handNotices _ _)).framed (traffic_sendReply _ _ _ _ _)

/-! ### The Release Unit -/

/-- The walk or the settling that a request or a reply starts, then its own reply. -/
theorem path_releaseBatch (a : Nat × Nat) (tag : Nat) (out : s.inReset = false) : Path i s (serveReleaseBatch a tag s) := by
  unfold serveReleaseBatch
  split
  · exact .ofTraffic (traffic_sendReply _ _ _ _ _)
  · rename_i tests
    simp only [firstFailure_none, releaseTests, List.forall_mem_cons, decide_eq_true_eq] at tests
    exact ((Path.ofChange (.batch (.granted a.1 a.2 tests.2.1))).followed (after_afterChange out rfl)).framed (traffic_sendReply _ _ _ _ _)

theorem path_addBudget (amount tag : Nat) (out : s.inReset = false) : Path i s (serveAddBudget amount tag s) := by
  unfold serveAddBudget
  split
  · exact .ofTraffic (traffic_sendReply _ _ _ _ _)
  · rename_i tests
    simp only [firstFailure_none, budgetTests, List.forall_mem_cons, decide_eq_true_eq] at tests
    exact ((Path.ofChange (.batch (.funded amount tests.2.1))).followed (after_releaseWalk out)).framed (traffic_sendReply _ _ _ _ _)

/-- A reply that matches is to a record in SENT or UNCONFIRMED of the batch in release (R159, R192). -/
theorem matchReply_some {f : Frame} {g : GatewayReply} {n : Nat} {r : BatchRecord} (h : matchReply s f = some (g, n, r)) :
    gatewayReply f = some g ∧ s.batch.state = .releasing ∧ clearing s = false ∧ findPay s.batch.records g.merchant = some n ∧
      s.batch.records[n]? = some r ∧ (r.release = some .sent ∨ r.release = some .unconfirmed) := by
  unfold matchReply at h
  split at h
  · cases h
  · rename_i reply parsed
    split_ifs at h with due
    split at h
    · cases h
    · rename_i place found
      split at h
      · cases h
      · rename_i record stored
        split_ifs at h with awaited
        cases h
        exact ⟨parsed, due.1, due.2.1, found, stored, awaited⟩

theorem releaseSlot_batch (r : BatchRecord) (s : State) : (releaseSlot r s).batch = s.batch := by
  unfold releaseSlot vacate
  split <;> rfl

theorem releaseSlot_inReset (r : BatchRecord) (s : State) : (releaseSlot r s).inReset = s.inReset := by
  unfold releaseSlot vacate
  split <;> rfl

theorem path_recordPaid {n : Nat} {r : BatchRecord} (releasing : s.batch.state = .releasing) (found : s.batch.records[n]? = some r)
    (awaited : r.release = some .sent ∨ r.release = some .unconfirmed) : Path i s (recordPaid n (releaseSlot r s)) :=
  .ofChange (.batch (.paid n r releasing found awaited))

theorem path_recordReturned {n : Nat} {r : BatchRecord} (releasing : s.batch.state = .releasing)
    (found : s.batch.records[n]? = some r) (awaited : r.release = some .sent ∨ r.release = some .unconfirmed) :
    Path i s (recordReturned n r (releaseSlot r s)) := by
  unfold recordReturned
  rw [releaseSlot_batch]
  exact (Path.ofChange (.batch (.returned n r releasing found awaited))).followed (after_carryAddition _ _ _)

theorem traffic_countLate (r : BatchRecord) (s : State) : Traffic s (countLate r s) := by
  unfold countLate
  split
  · exact ⟨rfl, id, fun h => h.lateConfirms (bump_le _)⟩
  · exact Traffic.refl s

theorem countLate_batch (r : BatchRecord) (s : State) : (countLate r s).batch = s.batch := by
  unfold countLate
  split <;> rfl

theorem countLate_inReset (r : BatchRecord) (s : State) : (countLate r s).inReset = s.inReset := by
  unfold countLate
  split <;> rfl

theorem path_takeConfirm (f : Frame) (out : s.inReset = false) : Path i s (takeConfirm f s) := by
  unfold takeConfirm
  split
  · rename_i g n r matched
    obtain ⟨-, releasing, -, -, found, awaited⟩ := matchReply_some matched
    refine ((path_recordPaid releasing found awaited).framed (traffic_countLate r _)).followed (after_afterChange ?_ ?_)
    · simpa only [countLate_inReset, recordPaid, releaseSlot_inReset] using out
    · simpa only [countLate_batch, recordPaid, releaseSlot_batch] using releasing
  · exact .refl

theorem path_takeReject (f : Frame) (out : s.inReset = false) : Path i s (takeReject f s) := by
  unfold takeReject
  split
  · rename_i g n r matched
    obtain ⟨-, releasing, -, -, found, awaited⟩ := matchReply_some matched
    refine (path_recordReturned releasing found awaited).followed (after_afterChange ?_ ?_)
    · simpa only [recordReturned, carryAddition_inReset, releaseSlot_inReset] using out
    · simpa only [recordReturned, carryAddition_batch, releaseSlot_batch] using releasing
  · exact .refl

theorem path_takeGateway (serve : Frame → State → State) (s : State) (served : ∀ f u, u.inReset = false → Path i u (serve f u)) :
    Path i s (takeGateway serve s) := by
  refine path_outOfReset fun out => ?_
  split
  · exact .refl
  · rename_i f rest _
    exact Path.preceded (t := { s with gatewayIn := rest }) ⟨rfl, id, id⟩ (served f _ out)

theorem path_timerExpiry (slot : Nat) (s : State) : Path i s (timerExpiryStep slot s) := by
  refine path_outOfReset fun out => ?_
  split
  · rename_i m length timing
    refine path_ite (fun _ => .refl) fun _ => ?_
    split
    · exact .refl
    · rename_i n found
      refine path_ite (fun sent => ?_) fun _ => .refl
      obtain ⟨r, stored, -, own⟩ := findPay_some found
      rw [stored] at sent
      exact ((Path.ofChange (.batch (.timedOut slot n m length r timing stored own sent))).framed
        (traffic_handNotice _ _)).followed (after_releaseWalk out)
  · exact .refl
  · exact .refl

/-- Only an UNCONFIRMED record of a batch in release is resolved (R163). -/
theorem resolvable_ok {merchant outcome n : Nat} {r : BatchRecord} (h : resolvable s merchant outcome = .ok (n, r)) :
    s.batch.state = .releasing ∧ s.batch.records[n]? = some r ∧ r.release = some .unconfirmed := by
  unfold resolvable at h
  split_ifs at h with ranged releasing
  split at h
  · cases h
  · split at h
    · cases h
    · split_ifs at h with doubtful
      cases h
      exact ⟨releasing, ‹_›, doubtful⟩

theorem path_resolve (a : Nat × Nat) (tag : Nat) (out : s.inReset = false) : Path i s (serveResolve a tag s) := by
  unfold serveResolve
  split
  · exact .ofTraffic (traffic_sendReply _ _ _ _ _)
  · rename_i n r resolved
    obtain ⟨releasing, found, doubtful⟩ := resolvable_ok resolved
    have stays : releaseSlot r s = s := by simp [releaseSlot, doubtful]
    have paid := path_recordPaid (i := i) releasing found (.inr doubtful)
    have returned := path_recordReturned (i := i) releasing found (.inr doubtful)
    rw [stays] at paid returned
    refine Path.framed (Path.followed (path_ite (fun _ => paid) fun _ => returned) (after_afterChange ?_ ?_)) (traffic_sendReply _ _ _ _ _)
    · split
      · exact out
      · simpa only [recordReturned, carryAddition_inReset] using out
    · split
      · exact releasing
      · simpa only [recordReturned, carryAddition_batch] using releasing

/-- Carry additions follow one another (R164). -/
theorem after_carryAdditions (records : List BatchRecord) (s : State) :
    ReflTransGen Aftermath s (records.foldl (fun t r => carryAddition r.merchant r.payout t) s) ∧
      (records.foldl (fun t r => carryAddition r.merchant r.payout t) s).batch = s.batch := by
  induction records generalizing s with
  | nil => exact ⟨.refl, rfl⟩
  | cons r rest ih =>
    obtain ⟨after, same⟩ := ih (carryAddition r.merchant r.payout s)
    exact ⟨(after_carryAddition _ _ _).trans after, same.trans (carryAddition_batch _ _ _)⟩

theorem path_abandon (tag : Nat) : Path i s (serveAbandon tag s) := by
  refine path_ite (fun releasing => ?_) fun _ => .ofTraffic (traffic_sendReply _ _ _ _ _)
  obtain ⟨carried, same⟩ := after_carryAdditions (s.batch.records.filter BatchRecord.awaitsSending)
    { s with batch := { s.batch with records := s.batch.records.map abandonRecord } }
  have still : (abandonWrite s).batch.state = .releasing := (congrArg Batch.state same).trans releasing
  exact (((Path.ofChange (.batch (.abandoned releasing))).followed carried).followed (after_settleIfFinal still)).framed
    (traffic_sendReply _ _ _ _ _)

/-! ### Resets, start-ups and erasures -/

theorem after_offerItem (item : StartItem) (s : State) : ReflTransGen Aftermath s (offerItem item s) := by
  cases item with
  | notice n => exact .single (.traffic (traffic_handNotice n s))
  | instruction =>
    simp only [offerItem]
    split
    · exact .refl
    · exact .single (.place [_] _ ‹_›)

theorem after_offerItems (items : List StartItem) (s : State) :
    ReflTransGen Aftermath s (items.foldl (fun u i => offerItem i u) s) := by
  induction items generalizing s with
  | nil => exact .refl
  | cons item rest ih => exact (after_offerItem item s).trans (ih _)

/-- The batch left over is completed, walked or left as it stands (R142, R166, R180). -/
theorem path_recoverBatch (held : s.inReset = true) :
    Path i s (recoverBatch { s with inReset := false, pages := tearPages s.pages }) := by
  unfold recoverBatch
  refine path_ite (fun due => ?_) fun _ => path_ite (fun releasing => ?_) fun other => ?_
  · exact .ofChange (.run (.recovered _ held (.completed due)))
  · exact Path.followed (.ofChange (.run (.recovered _ held (.doubted releasing)))) (.single (.walk rfl releasing))
  · exact .ofChange (.run (.recovered _ held (.stands other)))

theorem path_startUp (s : State) : Path i s (startUpStep s) := by
  refine path_ite (fun held => path_ite (fun _ => ?_) fun _ => path_ite (fun _ => ?_) fun _ => ?_) fun _ => .refl
  · exact (Path.ofChange (.run (.erasing .initialising held (.inr rfl)))).framed ⟨rfl, id, id⟩
  · exact .ofChange (.run (.erasing .repeated held (.inl rfl)))
  · refine Path.followed (Path.framed (path_recoverBatch held) ?_) (after_offerItems _ _)
    exact ⟨rfl, id, id⟩

theorem path_restartReset (s : State) : Path i s (outOfReset (fun s => if restartDue s then resetState s else s) s) :=
  path_outOfReset fun _ => path_ite (fun _ => .ofChange (.run .reset)) fun _ => .refl

theorem idle_of_postingDone (h : postingDone s = true) : s.posting = .idle := of_decide_eq_true (Bool.and_eq_true_iff.1 h).1

theorem path_storeClear (tag : Nat) (calm : clearing s = false) : Path i s (serveStoreClear tag s) :=
  path_ite (fun _ => .ofTraffic (traffic_sendReply _ _ _ _ _))
    fun _ => (Path.ofChange (.run (.begun calm))).framed (traffic_sendReply _ _ _ _ _)

/-! ### The Responder's own requests -/

theorem path_setStations (a : Nat × Nat × Nat × Nat) (tag : Nat) : Path i s (serveSetStations a tag s) := by
  unfold serveSetStations
  split
  · exact .ofTraffic (traffic_sendReply _ _ _ _ _)
  · exact .ofTraffic (.trans (t := { s with settings := writeStations a.1 a.2.1 a.2.2.1 a.2.2.2 s.settings }) ⟨rfl, id, id⟩
      (traffic_offerOffice _ _ _))

theorem path_setTiming (a : Nat × Nat) (tag : Nat) : Path i s (serveSetTiming a tag s) := by
  unfold serveSetTiming
  split
  · exact .ofTraffic (traffic_sendReply _ _ _ _ _)
  · exact .ofTraffic (.trans (t := { s with settings := { s.settings with confirmationTimeout := a.1, rollOffset := a.2 } })
      ⟨rfl, id, id⟩ (traffic_sendReply _ _ _ _ _))

theorem path_lockPrivacy (tag : Nat) : Path i s (serveLockPrivacy tag s) :=
  .ofTraffic (.trans (t := { s with settings := { s.settings with privacyLock := true } }) ⟨rfl, id, id⟩ (traffic_sendReply _ _ _ _ _))

theorem path_setClock (v tag : Nat) : Path i s (serveSetClock v tag s) := by
  unfold serveSetClock
  split
  · exact .ofTraffic (traffic_sendReply _ _ _ _ _)
  · exact (Path.ofChange (.clock _ (.set v _ ‹_›))).framed (traffic_sendReply _ _ _ _ _)

theorem path_setMode (mode tag : Nat) : Path i s (serveSetMode mode tag s) := by
  unfold serveSetMode
  split
  · exact .ofTraffic (traffic_sendReply _ _ _ _ _)
  · rename_i m _
    exact path_ite (fun _ => .ofTraffic (traffic_sendReply _ _ _ _ _))
      fun _ => .ofTraffic (.trans (t := { s with mode := m }) ⟨rfl, id, id⟩ (traffic_sendReply _ _ _ _ _))

theorem path_restart (tag : Nat) : Path i s (serveRestart tag s) :=
  .ofTraffic (.trans (t := { s with restartPending := true }) ⟨rfl, id, id⟩ (traffic_offerOffice _ _ _))

theorem takeManagement_some {code tag : Nat} {parsed : Parsed} (h : takeManagement s = some (code, tag, parsed, t)) :
    Traffic s t := by
  unfold takeManagement at h
  split at h
  · cases h
  · rename_i f rest front
    cases h
    exact traffic_takeRequest front

theorem path_readStatus (s : State) : Path i s (readStatusStep s) := by
  refine path_outOfReset fun _ => ?_
  split
  · exact .ofTraffic ((takeManagement_some ‹_›).trans (traffic_sendReply _ _ _ _ _))
  · exact .refl

theorem path_unknownRequest (s : State) : Path i s (unknownRequestStep s) := by
  refine path_outOfReset fun _ => ?_
  split
  · exact .ofTraffic ((takeManagement_some ‹_›).trans (traffic_sendReply _ _ _ _ _))
  · exact .ofTraffic ((takeManagement_some ‹_›).trans (traffic_sendReply _ _ _ _ _))
  · exact .refl
  · exact .refl

theorem path_cardSlotPlacement (q : CardOp × Nat) (tag : Nat) : Path i s (serveCardSlotPlacement q tag s) :=
  path_ite (fun _ => .ofTraffic (traffic_sendReply _ _ _ _ _)) fun _ => .ofTraffic ⟨rfl, id, id⟩

/-! ### All commands -/

/-- What a command leaves, where it answers a next state. -/
theorem exec_path {c : Instr} (h : exec c s = .next t) : Path c s t := by
  cases c <;> cases h
  case shopFrameArrival f => exact .ofTraffic (traffic_shopArrival f s)
  case officeFrameArrival f => exact .ofTraffic (traffic_officeArrival f s)
  case frameEgress port => exact path_frameEgress port s
  case linkDown port => exact path_linkDown port s
  case linkUp port => exact .ofTraffic (traffic_linkUpStep port s)
  case pinReset => exact .ofChange (.run .reset)
  case restartReset => exact path_restartReset s
  case startUp => exact path_startUp s
  case initialisationComplete =>
    exact path_outOfReset fun _ => path_ite
      (fun due => (Path.ofChange (.run (.erased (.inr rfl) (idle_of_postingDone due.2)))).framed ⟨rfl, id, id⟩) fun _ => .refl
  case issue => exact path_takeTill _ _ s fun r u idle room => path_serveIssue r idle room
  case topup => exact path_takeOnCard _ _ s fun r u slot c idle room found live => path_topupOwn idle room found live
  case spend => exact path_takeOnCard _ _ s fun r u slot c idle room found live => path_spendOwn idle room found live
  case ask => exact path_takeOnCard _ _ s fun r u slot c idle room _ _ => path_askOwn idle room
  case tryReq => exact path_takeOnCard _ _ s fun r u slot c idle room _ _ => path_tryOwn idle room
  case reserve => exact path_takeOnCard _ _ s fun r u slot c idle room found live => path_reserveOwn idle room found live
  case claim => exact path_takeOnCard _ _ s fun r u slot c idle room found live => path_claimOwn idle room found live
  case free => exact path_takeOnCard _ _ s fun r u slot c idle room found live => path_freeOwn idle room found live
  case returnReq => exact path_takeOnCard _ _ s fun r u slot c idle room found live => path_returnOwn idle room found live
  case cancel => exact path_takeOnCard _ _ s fun r u slot c idle room found live => path_cancelOwn idle room found live
  case conditionalPost => exact path_conditionalPost s
  case conditionalReversal => exact path_conditionalReversal s
  case cardSlotPlacement => exact path_serveManagement _ _ s fun q tag u _ _ => path_cardSlotPlacement q tag
  case readCard => exact path_takeCard _ _ s fun _ q idle => path_readCard q idle
  case suspendCard => exact path_takeCard _ _ s fun _ q idle => path_suspendCard q idle
  case resumeCard => exact path_takeCard _ _ s fun _ q idle => path_resumeCard q idle
  case retireCard => exact path_takeCard _ _ s fun _ q idle => path_retireCard _ q idle
  case purgeCard => exact path_takeCard _ _ s fun _ q idle => path_purgeCard q idle
  case extendCard => exact path_takeCard _ _ s fun day q idle => path_extendCard day q idle
  case moveBalance => exact path_takeCard _ _ s fun number q idle => path_moveBalance number q idle
  case setStations => exact path_serveManagement _ _ s fun a tag u _ _ => path_setStations a tag
  case setTiming => exact path_serveManagement _ _ s fun a tag u _ _ => path_setTiming a tag
  case setClock => exact path_serveManagement _ _ s fun v tag u _ _ => path_setClock v tag
  case setMode => exact path_serveManagement _ _ s fun m tag u _ _ => path_setMode m tag
  case readStatus => exact path_readStatus s
  case restart => exact path_serveManagement _ _ s fun _ tag u _ _ => path_restart tag
  case storeClear => exact path_serveManagement _ _ s fun _ tag u _ calm => path_storeClear tag calm
  case lockPrivacy => exact path_serveManagement _ _ s fun _ tag u _ _ => path_lockPrivacy tag
  case writeProgram => exact path_serveManagement _ _ s fun w tag u _ _ => path_writeProgram w tag
  case readProgram =>
    exact path_serveManagement _ _ s fun _ tag u _ _ => path_ite (fun _ => .ofTraffic (traffic_sendReply _ _ _ _ _))
      fun _ => .ofTraffic (traffic_sendReply _ _ _ _ _)
  case readJournal =>
    refine path_serveManagement _ _ s fun r tag u _ _ => path_ite (fun _ => ?_) fun _ => .ofTraffic (traffic_sendReply _ _ _ _ _)
    split <;> exact .ofTraffic (traffic_sendReply _ _ _ _ _)
  case writeTerms => exact path_serveManagement _ _ s fun w tag u _ _ => path_writeTerms w tag
  case readTerms =>
    exact path_serveManagement _ _ s fun _ tag u _ _ => path_ite (fun _ => .ofTraffic (traffic_sendReply _ _ _ _ _))
      fun _ => .ofTraffic (traffic_sendReply _ _ _ _ _)
  case clearPage => exact path_serveManagement _ _ s fun page tag u out _ => path_clearPage page tag out
  case fixPage => exact path_serveManagement _ _ s fun page tag u _ _ => path_fixPage page tag
  case clearDirectory => exact path_serveManagement _ _ s fun _ tag u out _ => path_clearDirectory tag out
  case writeLane => exact path_serveManagement _ _ s fun w tag u _ _ => path_writeLane w tag
  case readLane =>
    exact path_serveManagement _ _ s fun _ tag u _ _ => path_ite (fun _ => .ofTraffic (traffic_sendReply _ _ _ _ _))
      fun _ => .ofTraffic (traffic_sendReply _ _ _ _ _)
  case closeCycle => exact path_serveManagement _ _ s fun _ tag u out calm => path_closeCycle tag out calm
  case adjustCarry => exact path_serveManagement _ _ s fun a tag u _ _ => path_adjustCarry a.1 a.2 tag
  case readPosition =>
    exact path_serveManagement _ _ s fun _ tag u _ _ => path_ite (fun _ => .ofTraffic (traffic_sendReply _ _ _ _ _))
      fun _ => .ofTraffic (traffic_sendReply _ _ _ _ _)
  case readBatch =>
    refine path_serveManagement _ _ s fun _ tag u _ _ => ?_
    unfold serveReadBatch
    split <;> exact .ofTraffic (traffic_sendReply _ _ _ _ _)
  case releaseBatch => exact path_serveManagement _ _ s fun a tag u out _ => path_releaseBatch a tag out
  case addBudget => exact path_serveManagement _ _ s fun amount tag u out _ => path_addBudget amount tag out
  case resolve => exact path_serveManagement _ _ s fun a tag u out _ => path_resolve a tag out
  case abandon => exact path_serveManagement _ _ s fun _ tag u _ _ => path_abandon tag
  case unknownRequest => exact path_unknownRequest s
  case confirm => exact path_ite (fun _ => path_takeGateway _ s fun f u => path_takeConfirm f) fun _ => .refl
  case reject => exact path_ite (fun _ => path_takeGateway _ s fun f u => path_takeReject f) fun _ => .refl
  case stray =>
    exact path_ite (fun _ => .refl)
      fun _ => path_takeGateway _ s fun f u _ => .ofTraffic ⟨rfl, id, fun h => h.strays (bump_le _)⟩
  case timerExpiry slot => exact path_timerExpiry slot s
  case pageClearCompletion => exact path_pageClear s
  case directoryClearCompletion => exact path_directoryClear s
  case storeClearCompletion =>
    exact path_outOfReset fun _ => path_ite
      (fun due => .ofChange (.run (.erased (.inl rfl) (idle_of_postingDone due.2)))) fun _ => .refl
  case calculatorStep => exact path_calculatorStep s
  case computationCompletion => exact path_computationCompletion s
  case clockSecond => exact path_outOfReset fun _ => .ofChange (.clock _ .second)
  case holdEnd => exact path_outOfReset fun _ => .ofChange (.clock _ .endHold)
  case clockLoss => exact path_outOfReset fun _ => .ofChange (.clock _ .loss)

/-- A step is the front command's path, or nothing where none waits. -/
theorem step_path (h : step s = .next t) : s = t ∨ ∃ c rest, s.pending = c :: rest ∧ Path c { s with pending := rest } t := by
  unfold step at h
  split at h
  · cases h
    exact .inl rfl
  · exact .inr ⟨_, _, ‹_›, exec_path h⟩

/-- A property that traffic, every change and every aftermath keep is kept by a whole path. -/
theorem Path.keeps {P : State → Prop} (path : Path i s t) (traffic : ∀ {a b}, Traffic a b → P a → P b)
    (change : ∀ {a b}, Change i a b → P a → P b) (after : ∀ {a b}, Aftermath a b → P a → P b) (holds : P s) : P t := by
  obtain ⟨before, u, moves, changes, rest⟩ := path
  have changed := change changes (traffic moves holds)
  clear changes
  induction rest with
  | refl => exact changed
  | tail _ step ih => exact after step ih

/-- The same for a step; the queue of waiting commands is not part of the property. -/
theorem step_keeps {P : State → Prop} (h : step s = .next t) (pending : ∀ {a : State} {l}, P a → P { a with pending := l })
    (traffic : ∀ {a b}, Traffic a b → P a → P b) (change : ∀ {i a b}, Change i a b → P a → P b)
    (after : ∀ {a b}, Aftermath a b → P a → P b) (holds : P s) : P t := by
  obtain rfl | ⟨c, rest, -, path⟩ := step_path h
  · exact holds
  · exact path.keeps traffic change after (pending holds)

end Sys2Proof.Machine
end

