-- ==== Sys2Proof/Proofs/Frames.lean ====
section
/-! The frame of each family of changes: which stores it may write. An invariant about other stores is kept because the state it
reads is the same. -/

namespace Sys2Proof.Machine

variable {i : Instr} {s t u : State}

theorem SameStores.eq (same : SameStores s t) : t = { s with
    configured := t.configured, settings := t.settings, storeClearMark := t.storeClearMark, restartPending := t.restartPending,
    mode := t.mode, noticeNumber := t.noticeNumber, shopLink := t.shopLink, officeLink := t.officeLink, toOffice := t.toOffice,
    toShop := t.toShop, shopOut := t.shopOut, officeOut := t.officeOut, ingress := t.ingress, mgmtIn := t.mgmtIn,
    gatewayIn := t.gatewayIn, counters := t.counters, cardSlot := t.cardSlot, out := t.out, freeCount := t.freeCount } := same

theorem SameStores.refl (s : State) : SameStores s s := rfl

theorem placeResponse_stores (r : TillRequest) (outcome : TillOutcome) (c : Conditions) (grant : Nat) (view : CardView)
    (ref : Option JournalRef) (s : State) : SameStores { s with posting := .idle } (placeResponse r outcome c grant view ref s) := rfl

/-- The accepted movement is the joint write and the release of the request in hand (R50). -/
theorem acceptMovement_stores (h : Hand) (p : Position) (s : State) :
    SameStores { jointWrite h p s with posting := .idle } (acceptMovement h p s) := by
  obtain ⟨n, q, c, noticed⟩ := handNotices_frame
    (saturationNotices h.request.merchant s.cycle (positionAt s h.request.merchant) p) (jointWrite h p s)
  unfold acceptMovement
  rw [noticed]
  rfl

theorem TillChange.frame (change : TillChange s u) : ∃ posting liability programs cards journal writePos lanes positions,
    SameStores { s with
      posting := posting, liability := liability, programs := programs, cards := cards, journal := journal, writePos := writePos,
      lanes := lanes, positions := positions } u := by
  cases change with
  | await h => exact ⟨_, s.liability, s.programs, s.cards, s.journal, s.writePos, s.lanes, s.positions, .refl _⟩
  | respond => exact ⟨.idle, s.liability, s.programs, s.cards, s.journal, s.writePos, s.lanes, s.positions, rfl⟩
  | joint h position => exact ⟨_, _, _, _, _, _, _, _, acceptMovement_stores h position s⟩
  | hold => exact ⟨.idle, s.liability, s.programs, _, _, _, s.lanes, s.positions, rfl⟩

theorem CardChange.frame (change : CardChange s u) :
    ∃ cards programs journal writePos,
      u = { s with cards := cards, programs := programs, journal := journal, writePos := writePos } := by
  cases change with
  | restate => exact ⟨_, s.programs, s.journal, s.writePos, rfl⟩
  | retire => exact ⟨_, _, s.journal, s.writePos, rfl⟩
  | purge => exact ⟨_, s.programs, s.journal, s.writePos, rfl⟩
  | move => exact ⟨_, s.programs, _, _, rfl⟩

theorem DirectoryChange.frame (change : DirectoryChange i s u) :
    ∃ terms pages clearOp, u = { s with terms := terms, pages := pages, clearOp := clearOp } := by
  cases change with
  | terms => exact ⟨_, s.pages, s.clearOp, rfl⟩
  | clearPage => exact ⟨s.terms, _, _, rfl⟩
  | pageCleared => exact ⟨_, _, _, rfl⟩
  | fixPage => exact ⟨s.terms, _, s.clearOp, rfl⟩
  | clearDirectory => exact ⟨s.terms, _, _, rfl⟩
  | directoryCleared => exact ⟨_, _, _, rfl⟩

theorem TableChange.frame (change : TableChange s u) : ∃ programs lanes, u = { s with programs := programs, lanes := lanes } := by
  cases change with
  | program => exact ⟨_, s.lanes, rfl⟩
  | lane => exact ⟨s.programs, _, rfl⟩

theorem releaseSlot_frame (r : BatchRecord) (s : State) :
    ∃ window awaiting, releaseSlot r s = { s with window := window, awaiting := awaiting } := by
  unfold releaseSlot
  split
  · exact ⟨_, _, rfl⟩
  · exact ⟨s.window, s.awaiting, rfl⟩

theorem BatchChange.frame (change : BatchChange s u) :
    ∃ positions cycle openingLiability batch journal writePos window awaiting, u = { s with
      positions := positions, cycle := cycle, openingLiability := openingLiability, batch := batch, journal := journal,
      writePos := writePos, window := window, awaiting := awaiting } := by
  cases change with
  | calculated => exact ⟨_, s.cycle, s.openingLiability, _, s.journal, s.writePos, s.window, s.awaiting, rfl⟩
  | completed => exact ⟨s.positions, s.cycle, s.openingLiability, _, s.journal, s.writePos, s.window, s.awaiting, rfl⟩
  | closed => exact ⟨_, _, _, _, s.journal, s.writePos, s.window, s.awaiting, rfl⟩
  | adjusted => exact ⟨_, s.cycle, s.openingLiability, s.batch, _, _, s.window, s.awaiting, rfl⟩
  | granted => exact ⟨s.positions, s.cycle, s.openingLiability, _, s.journal, s.writePos, s.window, s.awaiting, rfl⟩
  | funded => exact ⟨s.positions, s.cycle, s.openingLiability, _, s.journal, s.writePos, s.window, s.awaiting, rfl⟩
  | paid n r =>
    obtain ⟨w, a, freed⟩ := releaseSlot_frame r s
    exact ⟨s.positions, s.cycle, s.openingLiability, _, s.journal, s.writePos, w, a, by rw [freed]; rfl⟩
  | returned n r =>
    obtain ⟨w, a, freed⟩ := releaseSlot_frame r s
    exact ⟨s.positions, s.cycle, s.openingLiability, _, s.journal, s.writePos, w, a, by rw [freed]⟩
  | timedOut => exact ⟨s.positions, s.cycle, s.openingLiability, _, s.journal, s.writePos, _, s.awaiting, rfl⟩
  | abandoned => exact ⟨s.positions, s.cycle, s.openingLiability, _, s.journal, s.writePos, s.window, s.awaiting, rfl⟩

theorem Aftermath.frame (after : Aftermath s t) : ∃ positions batch window awaiting,
    SameStores { s with positions := positions, batch := batch, window := window, awaiting := awaiting } t := by
  cases after with
  | traffic moves => exact ⟨s.positions, s.batch, s.window, s.awaiting, moves.stores⟩
  | carry => exact ⟨_, s.batch, s.window, s.awaiting, .refl _⟩
  | settle => exact ⟨s.positions, _, s.window, s.awaiting, .refl _⟩
  | walk => exact ⟨s.positions, _, _, _, .refl (walkRecords s)⟩
  | place offered rest =>
    exact ⟨s.positions, s.batch, (placeSome offered rest s).window, (placeSome offered rest s).awaiting, rfl⟩

/-! ### The queue of waiting commands and the clock -/

theorem RunChange.pending (change : RunChange i s u) : u.pending = s.pending := by
  cases change <;> rfl

/-- No command touches the queue of waiting commands. -/
theorem Change.pending (change : Change i s u) : u.pending = s.pending := by
  cases change with
  | stay => rfl
  | clock => rfl
  | till change =>
    obtain ⟨_, _, _, _, _, _, _, _, same⟩ := change.frame
    rw [same.eq]
  | card _ change =>
    obtain ⟨_, _, _, _, rfl⟩ := change.frame
    rfl
  | directory change =>
    obtain ⟨_, _, _, rfl⟩ := change.frame
    rfl
  | table change =>
    obtain ⟨_, _, rfl⟩ := change.frame
    rfl
  | batch change =>
    obtain ⟨_, _, _, _, _, _, _, _, rfl⟩ := change.frame
    rfl
  | run change => exact change.pending

/-- Settles O2: each arm answers a next state, and its path leaves the queue. -/
theorem everyCommandCompletesAndKeepsTheQueue : Obligations.EveryCommandCompletesAndKeepsTheQueue := by
  intro c s
  have completes : ∃ t, exec c s = .next t := by cases c <;> exact ⟨_, rfl⟩
  obtain ⟨t, answers⟩ := completes
  refine ⟨t, answers, ?_⟩
  refine (exec_path answers).keeps (P := fun u => u.pending = s.pending) (fun moves h => ?_) (fun change h => change.pending.trans h)
    (fun after h => ?_) rfl
  · rw [moves.stores.eq]
    exact h
  · obtain ⟨_, _, _, _, same⟩ := after.frame
    rw [same.eq]
    exact h

/-- What a change may do to the clock: nothing, one of the clock's own moves, or the loss that a reset makes (R179, R189). -/
theorem Change.clock_cases (change : Change i s u) : u.clock = s.clock ∨ ClockMoves s.clock u.clock := by
  cases change with
  | stay => exact .inl rfl
  | clock after moves => exact .inr moves
  | till change =>
    obtain ⟨_, _, _, _, _, _, _, _, same⟩ := change.frame
    rw [same.eq]
    exact .inl rfl
  | card _ change =>
    obtain ⟨_, _, _, _, rfl⟩ := change.frame
    exact .inl rfl
  | directory change =>
    obtain ⟨_, _, _, rfl⟩ := change.frame
    exact .inl rfl
  | table change =>
    obtain ⟨_, _, rfl⟩ := change.frame
    exact .inl rfl
  | batch change =>
    obtain ⟨_, _, _, _, _, _, _, _, rfl⟩ := change.frame
    exact .inl rfl
  | run change =>
    cases change with
    | reset => exact .inr .loss
    | erasing => exact .inl rfl
    | recovered => exact .inl rfl
    | begun => exact .inl rfl
    | erased => exact .inl rfl

/-- A clock in range: `clockInRange` reads nothing else of the state. -/
def Clock.inRange : Clock → Prop
  | .unset => True
  | .running t => t < 2 ^ 40
  | .holding t held => t < 2 ^ 40 ∧ held ≤ 300

theorem clockInRange_iff (s : State) : clockInRange s = true ↔ s.clock.inRange := by
  unfold clockInRange Clock.inRange
  cases s.clock <;> simp

/-- A move keeps the clock in range, and T does not fall (R188, R189). -/
theorem ClockMoves.keeps {c d : Clock} (moves : ClockMoves c d) (ranged : c.inRange) :
    d.inRange ∧ ∀ before after, timeOf c = some before → timeOf d = some after → before ≤ after := by
  cases moves with
  | second =>
    cases c with
    | unset => simp [Clock.second, Clock.inRange, timeOf]
    | running t =>
      simp only [Clock.second, Clock.inRange, riseTime, timeOf, Config.maxTime, Option.some.injEq] at ranged ⊢
      exact ⟨by omega, fun _ _ a b => by omega⟩
    | holding t held =>
      simp only [Clock.second, riseTime, Config.maxTime]
      split
      all_goals
        simp only [Clock.inRange, timeOf, Option.some.injEq] at ranged ⊢
        exact ⟨by omega, fun _ _ a b => by omega⟩
  | endHold =>
    cases c with
    | unset => simp [Clock.endHold, Clock.inRange, timeOf]
    | running t =>
      simp only [Clock.endHold, timeOf, Option.some.injEq]
      exact ⟨ranged, fun _ _ a b => by omega⟩
    | holding t held =>
      simp only [Clock.endHold]
      split
      all_goals
        simp only [Clock.inRange, timeOf, Option.some.injEq] at ranged ⊢
        exact ⟨by omega, fun _ _ a b => by omega⟩
  | loss => simp [Clock.inRange, timeOf]
  | set v _ accepted =>
    unfold Clock.set at accepted
    split_ifs at accepted with top
    simp only [Config.maxTime] at top
    split at accepted
    · rename_i unset
      cases accepted
      exact ⟨Nat.lt_of_le_of_lt top (by decide), fun _ _ a => by simp [unset] at a⟩
    · rename_i t set
      have below : t < 2 ^ 40 := by
        cases c <;> simp [timeOf, Clock.inRange] at set ranged <;> omega
      split_ifs at accepted with forward near
      all_goals
        cases accepted
        rw [set]
        simp only [Clock.inRange, timeOf, Option.some.injEq]
        exact ⟨by omega, fun _ _ a b => by omega⟩

theorem aftermath_clock (after : Relation.ReflTransGen Aftermath u t) : t.clock = u.clock := by
  induction after with
  | refl => rfl
  | tail _ next ih =>
    obtain ⟨_, _, _, _, stores⟩ := next.frame
    rw [stores.eq]
    exact ih

/-- Settles O51: only the change of a step moves the clock, by one of the clock's moves. -/
theorem timeNeverMovesBackward : Obligations.TimeNeverMovesBackward := by
  intro s t ranged stepped
  rw [clockInRange_iff] at ranged ⊢
  have same : ∀ before after, timeOf s.clock = some before → timeOf s.clock = some after → before ≤ after :=
    fun _ _ a b => (Option.some.inj (a.symm.trans b)).le
  obtain rfl | ⟨c, rest, -, before, u, moves, change, after⟩ := step_path stepped
  · exact ⟨ranged, same⟩
  have started : before.clock = s.clock := by rw [moves.stores.eq]
  have ended := aftermath_clock after
  rw [ended]
  obtain still | moved := change.clock_cases
  · rw [still, started]
    exact ⟨ranged, same⟩
  · rw [started] at moved
    exact moved.keeps ranged

end Sys2Proof.Machine
end

