-- ==== Sys2Proof/Proofs/CycleInvariants.lean ====
section
/-! The invariants of the settlement cycle: the cycle a batch settles (R127) and the computed marks (R114, R128). -/

namespace Sys2Proof.Machine

variable {i : Instr} {s t u : State}

theorem completionDue_iff (s : State) :
    completionDue s = true ↔ s.batch.state = .computing ∧ Config.merchantCount ≤ s.batch.cursor := by
  simp only [completionDue, Bool.and_eq_true, decide_eq_true_eq]

/-! ### The cycle of the batch -/

theorem batchNamesClosedCycle_iff (s : State) : batchNamesClosedCycle s = true ↔
    s.cycle < 65536 ∧ (s.batch.state ≠ .empty → s.batch.cycle = (s.cycle + 65535) % 65536) := by
  simp only [batchNamesClosedCycle, Bool.and_eq_true, Bool.or_eq_true, decide_eq_true_eq, ne_eq, or_iff_not_imp_left]

/-- A batch that keeps its cycle and was not EMPTY keeps naming the cycle before the current one. -/
theorem batchNamesClosedCycle_congr (h : batchNamesClosedCycle s = true) (cycle : t.cycle = s.cycle)
    (named : t.batch.cycle = s.batch.cycle) (started : s.batch.state = .empty → t.batch.state = .empty) :
    batchNamesClosedCycle t = true := by
  rw [batchNamesClosedCycle_iff] at h ⊢
  rw [cycle, named]
  exact ⟨h.1, fun running => h.2 (mt started running)⟩

theorem Recovers.keepsCycle {b : Batch} (recovers : Recovers s b) :
    b.cycle = s.batch.cycle ∧ (s.batch.state = .empty → b.state = .empty) := by
  cases recovers with
  | completed due => exact ⟨rfl, fun empty => by simp [completionDue, empty] at due⟩
  | doubted => exact ⟨rfl, id⟩
  | stands => exact ⟨rfl, id⟩

theorem BatchChange.keepsClosedCycle (change : BatchChange s u) (h : batchNamesClosedCycle s = true) :
    batchNamesClosedCycle u = true := by
  cases change with
  | calculated => exact batchNamesClosedCycle_congr h rfl rfl id
  | completed due => exact batchNamesClosedCycle_congr h rfl rfl fun empty => by simp [completionDue, empty] at due
  | closed =>
    rw [batchNamesClosedCycle_iff] at h ⊢
    obtain ⟨bound, -⟩ := h
    exact ⟨Nat.mod_lt _ (by decide), fun _ => show s.cycle = ((s.cycle + 1) % 65536 + 65535) % 65536 by omega⟩
  | adjusted => exact h
  | granted mode budget computed => exact batchNamesClosedCycle_congr h rfl rfl fun empty => by simp [empty] at computed
  | funded => exact h
  | paid n r =>
    obtain ⟨_, _, freed⟩ := releaseSlot_frame r s
    rw [freed]
    exact h
  | returned n r =>
    obtain ⟨_, _, freed⟩ := releaseSlot_frame r s
    rw [freed]
    exact h
  | timedOut => exact h
  | abandoned => exact h

theorem Change.keepsClosedCycle (change : Change i s u) (h : batchNamesClosedCycle s = true) : batchNamesClosedCycle u = true := by
  cases change with
  | stay => exact h
  | clock => exact h
  | till change =>
    obtain ⟨_, _, _, _, _, _, _, _, same⟩ := change.frame
    rw [same.eq]
    exact h
  | card _ change =>
    obtain ⟨_, _, _, _, rfl⟩ := change.frame
    exact h
  | directory change =>
    obtain ⟨_, _, _, rfl⟩ := change.frame
    exact h
  | table change =>
    obtain ⟨_, _, rfl⟩ := change.frame
    exact h
  | batch change => exact change.keepsClosedCycle h
  | run change =>
    cases change with
    | reset => exact h
    | erasing => exact h
    | recovered batch _ recovers => exact batchNamesClosedCycle_congr h rfl recovers.keepsCycle.1 recovers.keepsCycle.2
    | begun => exact h
    | erased => rfl

theorem Aftermath.keepsClosedCycle (after : Aftermath s t) (h : batchNamesClosedCycle s = true) : batchNamesClosedCycle t = true := by
  cases after with
  | traffic moves =>
    rw [moves.stores.eq]
    exact h
  | carry => exact h
  | settle releasing => exact batchNamesClosedCycle_congr h rfl rfl fun empty => by simp [empty] at releasing
  | walk => exact h
  | place => exact h

/-- Settles O59: only a close and an erasure change a cycle, and the close changes both. -/
theorem batchSettlesTheCycleBeforeTheCurrentOne : Obligations.BatchSettlesTheCycleBeforeTheCurrentOne := fun _ _ holds stepped =>
  step_keeps (P := fun s => batchNamesClosedCycle s = true) stepped id
    (fun moves h => by rw [moves.stores.eq]; exact h) Change.keepsClosedCycle Aftermath.keepsClosedCycle holds

/-! ### The computed marks -/

theorem marksFollowCursor_iff (s : State) : marksFollowCursor s = true ↔
    ∀ m, m < Config.merchantCount → ((positionAt s m).computed = true ↔ (s.batch.state = .computing → m < s.batch.cursor)) := by
  unfold marksFollowCursor
  rw [List.all_eq_true]
  refine forall_congr' fun m => ?_
  refine imp_congr List.mem_range ?_
  rw [beq_iff_eq, Bool.eq_iff_iff, Bool.or_eq_true, decide_eq_true_eq, decide_eq_true_eq, ne_eq, imp_iff_not_or]

/-- Marks that stand, with a batch that computes as before. -/
theorem marksFollowCursor_congr (h : marksFollowCursor s = true) (marks : ∀ m, (positionAt t m).computed = (positionAt s m).computed)
    (state : t.batch.state = .computing ↔ s.batch.state = .computing) (cursor : t.batch.cursor = s.batch.cursor) :
    marksFollowCursor t = true := by
  rw [marksFollowCursor_iff] at h ⊢
  intro m bound
  rw [marks, state, cursor]
  exact h m bound

/-- A position written with the same mark leaves every mark. -/
theorem computed_write {m : Nat} {q : Position} (same : q.computed = (positionAt s m).computed)
    (written : t.positions = s.positions.write Position.zero m q) (n : Nat) :
    (positionAt t n).computed = (positionAt s n).computed := by
  unfold positionAt at same ⊢
  rw [written, Table.read_write]
  split
  · next here => rw [here, same]
  · rfl

theorem Moves.computed {h : Hand} {p : Position} (moves : Moves s h p) :
    p.computed = (positionAt s h.request.merchant).computed := by cases moves <;> rfl

theorem TillChange.keepsMarks (change : TillChange s u) (h : marksFollowCursor s = true) : marksFollowCursor u = true := by
  cases change with
  | await => exact h
  | respond => exact h
  | joint hand p _ moves =>
    rw [(acceptMovement_stores hand p s).eq]
    exact marksFollowCursor_congr h (computed_write moves.computed rfl) Iff.rfl rfl
  | hold => exact h

/-- Outside COMPUTING every closing bank is COMPUTED, and it stays so in every other state. -/
theorem marksFollowCursor_settled (h : marksFollowCursor s = true) (before : s.batch.state ≠ .computing) (positions : t.positions = s.positions)
    (after : t.batch.state ≠ .computing) : marksFollowCursor t = true := by
  rw [marksFollowCursor_iff] at h ⊢
  intro m bound
  have mark := (h m bound).2 fun computing => absurd computing before
  exact iff_of_true (by unfold positionAt at mark ⊢; rwa [positions]) fun computing => absurd computing after

/-- At the end of the walk every closing bank is COMPUTED (R140). -/
theorem marksFollowCursor_completed (h : marksFollowCursor s = true) (due : completionDue s = true) (positions : t.positions = s.positions)
    (after : t.batch.state ≠ .computing) : marksFollowCursor t = true := by
  obtain ⟨-, ended⟩ := (completionDue_iff s).1 due
  rw [marksFollowCursor_iff] at h ⊢
  intro m bound
  have mark := (h m bound).2 fun _ => by omega
  exact iff_of_true (by unfold positionAt at mark ⊢; rwa [positions]) fun computing => absurd computing after

/-- A close swaps the banks of every merchant (R121). -/
theorem positionAt_closeWrite {m : Nat} (bound : m < Config.merchantCount) :
    positionAt (closeWrite s) m = (positionAt s m).close := by
  unfold closeWrite positionAt
  rw [Table.read_build _ _ _ _ bound]

theorem BatchChange.keepsMarks (change : BatchChange s u) (h : marksFollowCursor s = true) : marksFollowCursor u = true := by
  cases change with
  | calculated q records totals computing below bank computed =>
    rw [marksFollowCursor_iff] at h ⊢
    intro m bound
    have mark := h m bound
    simp only [positionAt, Table.read_write, computing, true_implies] at mark ⊢
    split
    · next here => simp [here, computed]
    · rw [mark]
      omega
  | completed due => exact marksFollowCursor_completed h due rfl BatchState.noConfusion
  | closed =>
    rw [marksFollowCursor_iff]
    intro m bound
    have read : positionAt (closeWrite s) m = (positionAt s m).close := positionAt_closeWrite bound
    rw [read]
    exact iff_of_false Bool.noConfusion fun below => absurd (below rfl) (Nat.not_lt_zero m)
  | adjusted m amount => exact marksFollowCursor_congr h (computed_write (q := Machine.adjusted amount (positionAt s m)) rfl rfl) Iff.rfl rfl
  | granted mode budget computed => exact marksFollowCursor_settled h (by simp [computed]) rfl BatchState.noConfusion
  | funded => exact h
  | paid n r =>
    obtain ⟨_, _, freed⟩ := releaseSlot_frame r s
    rw [freed]
    exact h
  | returned n r =>
    obtain ⟨_, _, freed⟩ := releaseSlot_frame r s
    rw [freed]
    exact h
  | timedOut => exact h
  | abandoned => exact h

theorem Change.keepsMarks (change : Change i s u) (h : marksFollowCursor s = true) : marksFollowCursor u = true := by
  cases change with
  | stay => exact h
  | clock => exact h
  | till change => exact change.keepsMarks h
  | card _ change =>
    obtain ⟨_, _, _, _, rfl⟩ := change.frame
    exact h
  | directory change =>
    obtain ⟨_, _, _, rfl⟩ := change.frame
    exact h
  | table change =>
    obtain ⟨_, _, rfl⟩ := change.frame
    exact h
  | batch change => exact change.keepsMarks h
  | run change =>
    cases change with
    | reset => exact h
    | erasing => exact h
    | recovered batch _ recovers =>
      cases recovers with
      | completed due => exact marksFollowCursor_completed h due rfl BatchState.noConfusion
      | doubted => exact h
      | stands => exact h
    | begun => exact h
    | erased => exact (marksFollowCursor_iff _).2 fun m _ => iff_of_true rfl BatchState.noConfusion

theorem Aftermath.keepsMarks (after : Aftermath s t) (h : marksFollowCursor s = true) : marksFollowCursor t = true := by
  cases after with
  | traffic moves =>
    rw [moves.stores.eq]
    exact h
  | carry m amount => exact marksFollowCursor_congr h (computed_write (q := addCarry amount (positionAt s m)) rfl rfl) Iff.rfl rfl
  | settle releasing => exact marksFollowCursor_settled h (by simp [releasing]) rfl BatchState.noConfusion
  | walk => exact h
  | place => exact h

/-- Settles O58: a step of the walk moves mark and cursor together, and only a close clears a mark. -/
theorem computedMarksFollowTheCursor : Obligations.ComputedMarksFollowTheCursor := fun _ _ holds stepped =>
  step_keeps (P := fun s => marksFollowCursor s = true) stepped id
    (fun moves h => by rw [moves.stores.eq]; exact h) Change.keepsMarks Aftermath.keepsMarks holds

end Sys2Proof.Machine
end

