-- ==== Sys2Proof/Proofs/TableInvariants.lean ====
section
/-! The Program Table, the Lane Table and the Merchant Directory: no number range and no station is claimed twice, a clear stands on
CLEARING pages (R2, R3, R101, R106, R109, R110), and a FIXED page stays FIXED (R99). -/

namespace Sys2Proof.Machine

variable {i : Instr} {s t u : State}

/-! ### Reads that more than one invariant needs -/

/-- What a read finds is listed, but for the value of an unlisted number. -/
theorem Table.mem_of_read {α : Type} {d : α} {t : Table α} {k : Nat} (stored : t.read d k ≠ d) : (k, t.read d k) ∈ t := by
  induction t with
  | nil => exact absurd rfl stored
  | cons e rest ih =>
    obtain ⟨j, v⟩ := e
    unfold Table.read at stored ⊢
    split
    · next here => simp [here]
    · next elsewhere =>
      rw [if_neg elsewhere] at stored
      exact List.mem_cons_of_mem _ (ih stored)

/-- A change of a live-card count changes that entry alone (R6). -/
theorem read_changeLiveAt (change : LiveChange) (n : Nat) (programs : Table Program) (k : Nat) :
    (changeLiveAt change n programs).read Program.blank k =
      if k = n then changeLive change (programs.read Program.blank n) else programs.read Program.blank k := by
  cases change with
  | same => by_cases here : k = n <;> simp [changeLiveAt, changeLive, here]
  | rise => exact Table.read_write _ _ _ _ _
  | fall => exact Table.read_write _ _ _ _ _

theorem claims_changeLive (change : LiveChange) (p : Program) : (changeLive change p).claims = p.claims := by cases change <;> rfl

/-! ### Program ranges and lane stations -/

/-- No two of the sixteen entries claim one range of numbers: the first half of `tablesUnambiguous`. -/
def rangesApart (programs : Table Program) : Prop :=
  ∀ i j pre, i < 16 → j < 16 → i ≠ j → (programs.read Program.blank i).claims pre = true →
    (programs.read Program.blank j).claims pre = false

/-- No two lane records carry one station: the second half of `tablesUnambiguous`. -/
def stationsApart (lanes : Table Lane) : Prop :=
  ∀ i j, i ≠ j → (lanes.read Lane.unassigned i).station ≠ 0 →
    (lanes.read Lane.unassigned i).station ≠ (lanes.read Lane.unassigned j).station

theorem tablesUnambiguous_iff (s : State) : tablesUnambiguous s ↔ rangesApart s.programs ∧ stationsApart s.lanes := Iff.rfl

/-- A live-card count claims nothing. -/
theorem rangesApart_changeLiveAt {programs : Table Program} (h : rangesApart programs) (change : LiveChange) (n : Nat) :
    rangesApart (changeLiveAt change n programs) := by
  have claims : ∀ k, ((changeLiveAt change n programs).read Program.blank k).claims = (programs.read Program.blank k).claims := by
    intro k
    rw [read_changeLiveAt]
    split
    · next here => rw [claims_changeLive, here]
    · rfl
  intro i j pre iBound jBound apart claimed
  rw [claims] at claimed ⊢
  exact h i j pre iBound jBound apart claimed

/-- An entry that claims nothing another entry claims may be written. -/
theorem rangesApart_write {programs : Table Program} (h : rangesApart programs) {n : Nat} {p : Program}
    (free : ∀ k pre, k < 16 → k ≠ n → p.claims pre = true → (programs.read Program.blank k).claims pre = false) :
    rangesApart (programs.write Program.blank n p) := by
  intro i j pre iBound jBound apart claimed
  rw [Table.read_write] at claimed ⊢
  split at claimed
  · next own =>
    rw [if_neg (own ▸ apart.symm)]
    exact free j pre jBound (own ▸ apart.symm) claimed
  · next other =>
    split
    · exact Bool.eq_false_iff.2 fun both => by simp [free i pre iBound other both] at claimed
    · exact h i j pre iBound jBound apart claimed

theorem claims_iff (p : Program) (pre : Nat) :
    p.claims pre = true ↔ p.state ≠ .empty ∧ p.prefixLow ≤ pre ∧ pre ≤ p.prefixHigh := by
  simp only [Program.claims, Bool.and_eq_true, decide_eq_true_eq, and_assoc]

/-- An entry that a write leaves claims the written range, or nothing (R4). -/
theorem writtenProgram_claims {live : Nat} {w : ProgramWrite} {pre : Nat} (claimed : (writtenProgram live w).claims pre = true) :
    w.state ≠ 0 ∧ w.prefixLow ≤ pre ∧ pre ≤ w.prefixHigh := by
  have named : w.state ≠ 0 := by
    intro zero
    simp [claims_iff, writtenProgram, ProgramState.ofCode, zero, Program.blank] at claimed
  rw [claims_iff] at claimed
  unfold writtenProgram at claimed
  split at claimed
  · exact absurd rfl claimed.1
  · exact absurd rfl claimed.1
  · exact ⟨named, claimed.2⟩

/-- What an accepted WRITE_PROGRAM claims, no other entry claims (R3, check 4). -/
theorem programTests_apart {w : ProgramWrite} (tests : firstFailure (programTests s w) = none) (k pre : Nat) (bound : k < 16)
    (other : k ≠ w.index) (claimed : (writtenProgram (programAt s w.index).live w).claims pre = true) :
    (s.programs.read Program.blank k).claims pre = false := by
  obtain ⟨named, low, high⟩ := writtenProgram_claims claimed
  have free : overlapsOther s.programs w = false := by
    simpa [named] using (firstFailure_none _).1 tests (decide (w.state = 0) || !overlapsOther s.programs w, .conflict)
      (by simp [programTests])
  unfold overlapsOther at free
  have apart := List.any_eq_false.1 free k (List.mem_range.2 bound)
  rw [Bool.eq_false_iff, ne_eq, claims_iff]
  rintro ⟨stored, above, below⟩
  exact apart (by simp [other, stored, le_trans low below, le_trans above high])

/-- A record that keeps its station may be written. -/
theorem stationsApart_write {lanes : Table Lane} (h : stationsApart lanes) {n : Nat} {l : Lane}
    (free : l.station ≠ 0 → ∀ k, k ≠ n → (lanes.read Lane.unassigned k).station ≠ l.station) :
    stationsApart (lanes.write Lane.unassigned n l) := by
  intro i j apart carries
  simp only [Table.read_write] at carries ⊢
  split at carries
  · next own =>
    rw [if_pos own, if_neg (own ▸ apart.symm)]
    exact (free carries j (own ▸ apart.symm)).symm
  · next other =>
    rw [if_neg other]
    split
    · exact fun same => free (same ▸ carries) i other same
    · exact h i j apart carries

/-- A station that no other record carries is carried by no other record read (R110, check 3). -/
theorem read_of_not_stationTaken {lanes : Table Lane} {own station : Nat} (free : stationTaken lanes own station = false)
    (carries : station ≠ 0) (k : Nat) (other : k ≠ own) : (lanes.read Lane.unassigned k).station ≠ station := by
  intro same
  have stored : lanes.read Lane.unassigned k ≠ Lane.unassigned := fun blank => carries (by rw [← same, blank]; rfl)
  exact List.any_eq_false.1 free _ (Table.mem_of_read stored) (by simp [other, same])

theorem stationsApart_laneAfter (h : stationsApart s.lanes) (hand : Hand) :
    stationsApart (s.lanes.write Lane.unassigned (laneNumber hand.request.merchant hand.request.lane) (laneAfter hand s)) :=
  stationsApart_write h fun carries k other => (h _ k other.symm carries).symm

theorem Change.keepsTables (change : Change i s u) (h : tablesUnambiguous s) : tablesUnambiguous u := by
  rw [tablesUnambiguous_iff] at h ⊢
  obtain ⟨ranges, stations⟩ := h
  cases change with
  | stay => exact ⟨ranges, stations⟩
  | clock => exact ⟨ranges, stations⟩
  | till change =>
    cases change with
    | await => exact ⟨ranges, stations⟩
    | respond => exact ⟨ranges, stations⟩
    | joint hand p =>
      rw [(acceptMovement_stores hand p s).eq]
      exact ⟨rangesApart_changeLiveAt ranges _ _, stationsApart_laneAfter stations hand⟩
    | hold => exact ⟨ranges, stations⟩
  | card _ change =>
    cases change with
    | restate => exact ⟨ranges, stations⟩
    | retire slot c => exact ⟨rangesApart_changeLiveAt (programs := s.programs) ranges .fall c.program, stations⟩
    | purge => exact ⟨ranges, stations⟩
    | move => exact ⟨ranges, stations⟩
  | directory change =>
    obtain ⟨_, _, _, rfl⟩ := change.frame
    exact ⟨ranges, stations⟩
  | table change =>
    cases change with
    | program w tests => exact ⟨rangesApart_write ranges (programTests_apart tests), stations⟩
    | lane merchant lane enabled station record tests named =>
      refine ⟨ranges, stationsApart_write stations fun carries => ?_⟩
      rw [named] at carries ⊢
      refine read_of_not_stationTaken ?_ carries
      simpa [carries] using (firstFailure_none _).1 tests
        (decide (station = 0) || !stationTaken s.lanes (laneNumber merchant lane) station, .conflict) (by simp [laneTests])
  | batch change =>
    obtain ⟨_, _, _, _, _, _, _, _, rfl⟩ := change.frame
    exact ⟨ranges, stations⟩
  | run change =>
    cases change with
    | reset => exact ⟨ranges, stations⟩
    | erasing => exact ⟨ranges, stations⟩
    | recovered => exact ⟨ranges, stations⟩
    | begun => exact ⟨ranges, stations⟩
    | erased => exact ⟨fun _ _ _ _ _ _ claimed => Bool.noConfusion claimed, fun _ _ _ carries => absurd rfl carries⟩

/-! ### Clears in flight -/

/-- Nothing in flight stands anywhere. -/
theorem clearsStand_of_none (idle : s.clearOp = .none) : clearsStandOnClearingPages s := by
  unfold clearsStandOnClearingPages
  rw [idle]
  trivial

/-- In a reset no clear is in flight. -/
theorem clearOp_of_inReset (h : clearsStandOnClearingPages s) (held : s.inReset = true) : s.clearOp = .none := by
  unfold clearsStandOnClearingPages at h
  split at h
  · assumption
  · simp [held] at h
  · simp [held] at h

theorem DirectoryChange.keepsClears (change : DirectoryChange i s u) (h : clearsStandOnClearingPages s) : clearsStandOnClearingPages u := by
  cases change with
  | terms => exact h
  | clearPage page out => exact ⟨out, by simp [pageAt]⟩
  | pageCleared => exact clearsStand_of_none rfl
  | fixPage page opened =>
    have kept : ∀ p, pageAt s p = .clearing → pageAt { s with pages := s.pages.write .opened page .fixed } p = .clearing := by
      intro p stands
      have other : p ≠ page := fun same => by simp [same, opened] at stands
      unfold pageAt at stands ⊢
      rwa [Table.read_write_ne _ _ _ other]
    unfold clearsStandOnClearingPages at h ⊢
    dsimp only
    split at h
    · trivial
    · exact ⟨h.1, kept _ h.2⟩
    · exact ⟨h.1, fun p bound => kept p (h.2 p bound)⟩
  | clearDirectory _ out => exact ⟨out, fun p bound => Table.read_build _ _ _ p bound⟩
  | directoryCleared => exact clearsStand_of_none rfl

theorem Change.keepsClears (change : Change i s u) (h : clearsStandOnClearingPages s) : clearsStandOnClearingPages u := by
  cases change with
  | stay => exact h
  | clock => exact h
  | till change =>
    obtain ⟨_, _, _, _, _, _, _, _, same⟩ := change.frame
    rw [same.eq]
    exact h
  | card _ change =>
    obtain ⟨_, _, _, _, rfl⟩ := change.frame
    exact h
  | directory change => exact change.keepsClears h
  | table change =>
    obtain ⟨_, _, rfl⟩ := change.frame
    exact h
  | batch change =>
    obtain ⟨_, _, _, _, _, _, _, _, rfl⟩ := change.frame
    exact h
  | run change =>
    cases change with
    | reset => exact clearsStand_of_none rfl
    | erasing _ held =>
      have idle := clearOp_of_inReset h held
      exact clearsStand_of_none idle
    | recovered _ held =>
      have idle := clearOp_of_inReset h held
      exact clearsStand_of_none idle
    | begun => exact h
    | erased => exact clearsStand_of_none rfl

/-- Settles O60: the checks of the two table writes keep them unambiguous, and a reset leaves no clear in flight. -/
theorem stepsKeepTheTablesUnambiguous : Obligations.StepsKeepTheTablesUnambiguous := by
  intro s t stepped
  constructor
  · refine fun holds => step_keeps stepped id (fun moves h => ?_) Change.keepsTables (fun after h => ?_) holds
    · rw [moves.stores.eq]
      exact h
    · obtain ⟨_, _, _, _, same⟩ := after.frame
      rw [same.eq]
      exact h
  · refine fun holds => step_keeps stepped id (fun moves h => ?_) Change.keepsClears (fun after h => ?_) holds
    · rw [moves.stores.eq]
      exact h
    · obtain ⟨_, _, _, _, same⟩ := after.frame
      rw [same.eq]
      exact h

/-! ### FIXED pages -/

/-- On a FIXED page the terms are read as stored (R94). -/
theorem termsOf_fixed {m : Nat} (fixed : pageAt s (pageOf m) = .fixed) : termsOf s m = s.terms.read Terms.unenrolled m := by
  unfold termsOf
  rw [fixed]

/-- What a FIXED page promises of the next state: it stays FIXED and its entries are held. -/
def staysFixed (s u : State) (p : Nat) : Prop := pageAt u p = .fixed ∧ ∀ m, m / 32 = p → heldFixed (termsOf s m) (termsOf u m)

/-- A page that stays FIXED with its stored entries keeps its promise. -/
theorem staysFixed_of_same {p : Nat} (before : pageAt s p = .fixed) (after : pageAt u p = .fixed)
    (terms : ∀ m, m / 32 = p → u.terms.read Terms.unenrolled m = s.terms.read Terms.unenrolled m) : staysFixed s u p := by
  refine ⟨after, fun m onPage => .inl ?_⟩
  have here : pageOf m = p := onPage
  subst here
  rw [termsOf_fixed before, termsOf_fixed after, terms m onPage]

theorem staysFixed_refl {p : Nat} (fixed : pageAt s p = .fixed) : staysFixed s s p := staysFixed_of_same fixed fixed fun _ _ => rfl

/-- On a FIXED page an accepted WRITE_TERMS moves at most the state (R96 check 5, R99). -/
theorem termsTests_fixed {w : TermsWrite} (tests : firstFailure (termsTests s w) = none) (fixed : pageAt s (pageOf w.merchant) = .fixed) :
    fixedAgrees (termsOf s w.merchant) (writtenTerms w) = true := by
  simpa [fixed] using (firstFailure_none _).1 tests
    (decide (pageAt s (pageOf w.merchant) ≠ .fixed) || fixedAgrees (termsOf s w.merchant) (writtenTerms w), .fixed) (by simp [termsTests])

theorem DirectoryChange.keepsFixed (change : DirectoryChange i s u) (stands : clearsStandOnClearingPages s) (other : i ≠ .clearDirectory)
    {p : Nat} (bound : p < 16) (fixed : pageAt s p = .fixed) : staysFixed s u p := by
  have written : ∀ {v : State} page state, page ≠ p → v.pages = s.pages.write .opened page state → pageAt v p = .fixed := by
    intro v page state apart pages
    unfold pageAt at fixed ⊢
    rwa [pages, Table.read_write_ne _ _ _ apart.symm]
  cases change with
  | terms w tests =>
    refine ⟨fixed, fun m onPage => ?_⟩
    have here : pageAt s (pageOf m) = .fixed := by rwa [show pageOf m = p from onPage]
    unfold heldFixed
    rw [termsOf_fixed (s := { s with terms := s.terms.write Terms.unenrolled w.merchant (writtenTerms w) }) here, termsOf_fixed here]
    by_cases own : m = w.merchant
    · subst own
      have agrees := termsTests_fixed tests here
      rw [termsOf_fixed here] at agrees
      exact .inr (by simpa using agrees)
    · exact .inl (Table.read_write_ne _ s.terms _ own)
  | clearPage page _ tests =>
    refine staysFixed_of_same fixed (written page .clearing (fun same => ?_) rfl) fun _ _ => rfl
    subst same
    simpa [fixed] using (firstFailure_none _).1 tests (decide (pageAt s page ≠ .fixed), .fixed) (by simp [clearPageTests])
  | pageCleared page running =>
    have apart : page ≠ p := by
      rintro rfl
      unfold clearsStandOnClearingPages at stands
      simp [running, fixed] at stands
    refine staysFixed_of_same fixed (written page .opened apart rfl) fun m onPage => ?_
    have kept : pageOf m ≠ page := fun same => apart (same.symm.trans onPage)
    simp [Table.read_dropWhere, kept]
  | fixPage page opened => exact staysFixed_of_same fixed (written page .fixed (fun same => by simp [← same, opened] at fixed) rfl) fun _ _ => rfl
  | clearDirectory command => exact absurd command other
  | directoryCleared running =>
    unfold clearsStandOnClearingPages at stands
    rw [running] at stands
    simp [stands.2 p bound] at fixed

theorem Change.keepsFixed (change : Change i s u) (stands : clearsStandOnClearingPages s) (clears : i ≠ .clearDirectory)
    (erases : i ≠ .storeClearCompletion) (initialises : i ≠ .initialisationComplete) {p : Nat} (bound : p < 16)
    (fixed : pageAt s p = .fixed) : staysFixed s u p := by
  cases change with
  | stay => exact staysFixed_refl fixed
  | clock => exact staysFixed_refl fixed
  | till change =>
    obtain ⟨_, _, _, _, _, _, _, _, same⟩ := change.frame
    rw [same.eq]
    exact staysFixed_refl fixed
  | card _ change =>
    obtain ⟨_, _, _, _, rfl⟩ := change.frame
    exact staysFixed_refl fixed
  | directory change => exact change.keepsFixed stands clears bound fixed
  | table change =>
    obtain ⟨_, _, rfl⟩ := change.frame
    exact staysFixed_refl fixed
  | batch change =>
    obtain ⟨_, _, _, _, _, _, _, _, rfl⟩ := change.frame
    exact staysFixed_refl fixed
  | run change =>
    cases change with
    | reset => exact staysFixed_refl fixed
    | erasing => exact staysFixed_refl fixed
    | recovered =>
      have torn : pageAt { s with pages := tearPages s.pages } p = .fixed := by
        have read := Table.read_map PageState.opened (fun x => if x = .clearing then .torn else x) rfl s.pages p
        rw [show s.pages.read .opened p = .fixed from fixed] at read
        exact read
      exact staysFixed_of_same fixed torn fun _ _ => rfl
    | begun => exact staysFixed_refl fixed
    | erased command => exact absurd command (not_or.2 ⟨erases, initialises⟩)

/-- What follows a change leaves the Merchant Directory. -/
theorem aftermath_directory (after : Relation.ReflTransGen Aftermath u t) : t.pages = u.pages ∧ t.terms = u.terms := by
  induction after with
  | refl => exact ⟨rfl, rfl⟩
  | tail _ next ih =>
    obtain ⟨_, _, _, _, stores⟩ := next.frame
    rw [stores.eq]
    exact ih

/-- Settles O19: the tests of each directory request spare a FIXED page, and a clear in flight stands elsewhere. -/
theorem fixedPagesStayFixed : Obligations.FixedPagesStayFixed := by
  intro c s t stands ran clears erases initialises p bound fixed
  obtain ⟨before, u, moves, change, after⟩ := exec_path ran
  rw [moves.stores.eq] at change
  have kept : staysFixed s u p := change.keepsFixed stands clears erases initialises bound fixed
  obtain ⟨pages, terms⟩ := aftermath_directory after
  unfold staysFixed termsOf pageAt at kept
  unfold termsOf pageAt
  rw [pages, terms]
  exact kept

end Sys2Proof.Machine
end

