-- ==== Sys2Proof/Proofs/FormInvariants.lean ====
section
/-! Form: no queue passes its capacity (R172, R174, R175, R183), every store keeps its canonical form (log 18), and write position
and counters stay in range (R30, R71). -/

namespace Sys2Proof.Machine

variable {i : Instr} {s t u : State}

/-! ### Queues -/

/-- A response takes the place reserved for it (R27). -/
theorem placeResponse_capacities (r : TillRequest) (outcome : TillOutcome) (c : Conditions) (grant : Nat) (view : CardView)
    (ref : Option JournalRef) (reserved : responseReserved s) (h : withinCapacities s = true) :
    withinCapacities (placeResponse r outcome c grant view ref s) = true := by
  rw [withinCapacities_iff] at h ⊢
  obtain ⟨toOffice, toShop, shop, rest⟩ := h
  refine ⟨toOffice, toShop, ?_, rest⟩
  have room : s.shopOut.length < 16 := by
    unfold shopPlaces at shop
    obtain ⟨idle, free⟩ | ⟨hand, held⟩ := reserved
    · simpa [shopPlaces, idle] using free
    · rw [held] at shop
      exact shop
  exact length_append_if room.le fun _ => room

theorem TillChange.keepsCapacities (change : TillChange s u) (h : withinCapacities s = true) : withinCapacities u = true := by
  cases change with
  | await hand idle room =>
    rw [withinCapacities_iff] at h ⊢
    obtain ⟨toOffice, toShop, -, rest⟩ := h
    exact ⟨toOffice, toShop, by simpa [shopPlaces, idle] using room, rest⟩
  | respond _ _ _ _ _ _ reserved => exact placeResponse_capacities _ _ _ _ _ _ reserved h
  | joint hand p held =>
    refine placeResponse_capacities _ _ _ _ _ _ (.inr ⟨hand, ?_⟩) ((traffic_handNotices _ (jointWrite hand p s)).capacities h)
    exact (handNotices_posting _ _).trans held
  | hold r outcome c grant view ref slot _ d j idle room =>
    exact placeResponse_capacities (s := holdWrite slot d j s) _ _ _ _ _ _ (.inl ⟨idle, room⟩) h

theorem Change.keepsCapacities (change : Change i s u) (h : withinCapacities s = true) : withinCapacities u = true := by
  cases change with
  | stay => exact h
  | clock => exact h
  | till change => exact change.keepsCapacities h
  | card _ change =>
    obtain ⟨_, _, _, _, rfl⟩ := change.frame
    exact h
  | directory change =>
    obtain ⟨_, _, _, rfl⟩ := change.frame
    exact h
  | table change =>
    obtain ⟨_, _, rfl⟩ := change.frame
    exact h
  | batch change =>
    obtain ⟨_, _, _, _, _, _, _, _, rfl⟩ := change.frame
    exact h
  | run change =>
    cases change with
    | reset => rfl
    | erasing => exact h
    | recovered => exact h
    | begun => exact h
    | erased => exact h

theorem Aftermath.keepsCapacities (after : Aftermath s t) (h : withinCapacities s = true) : withinCapacities t = true := by
  cases after with
  | traffic moves => exact moves.capacities h
  | carry => exact h
  | settle => exact h
  | walk => exact h
  | place offered rest =>
    rw [withinCapacities_iff] at h ⊢
    obtain ⟨toOffice, toShop, shop, office, others⟩ := h
    exact ⟨toOffice, toShop, shop, drainGo_queue _ _ offered s.window _ _ office, others⟩

/-! ### Stores -/

/-- `storesCanonical`, `writePositionInRange` and `countersInRange` of one state, by name. -/
structure StoresInForm (s : State) : Prop where
  programs : s.programs.wf Program.blank = true
  cards : s.cards.wf none = true
  journal : s.journal.wf none = true
  lanes : s.lanes.wf Lane.unassigned = true
  terms : s.terms.wf Terms.unenrolled = true
  pages : s.pages.wf .opened = true
  positions : s.positions.wf Position.zero = true
  window : s.window.wf .free = true
  writePos : refInRange s.writePos = true
  counters : s.counters.sound

theorem storesInForm_iff (s : State) :
    StoresInForm s ↔ storesCanonical s = true ∧ writePositionInRange s = true ∧ countersInRange s = true := by
  simp only [storesCanonical, Bool.and_eq_true, writePositionInRange]
  constructor
  · rintro ⟨programs, cards, journal, lanes, terms, pages, positions, window, writePos, counters⟩
    rw [countersSound_iff] at counters
    exact ⟨⟨⟨⟨⟨⟨⟨⟨⟨programs, cards⟩, journal⟩, lanes⟩, terms⟩, pages⟩, positions⟩, window⟩, counters.2⟩, writePos, counters.1⟩
  · rintro ⟨⟨⟨⟨⟨⟨⟨⟨⟨programs, cards⟩, journal⟩, lanes⟩, terms⟩, pages⟩, positions⟩, window⟩, declines⟩, writePos, ranged⟩
    exact ⟨programs, cards, journal, lanes, terms, pages, positions, window, writePos, (countersSound_iff s).2 ⟨ranged, declines⟩⟩

/-- Stores stand, and the counters are sound. -/
theorem StoresInForm.same (h : StoresInForm s) (same : SameStores s t) (counters : t.counters.sound) : StoresInForm t := by
  rw [same.eq]
  exact { h with counters := counters }

theorem placeResponse_counters (r : TillRequest) (outcome : TillOutcome) (c : Conditions) (grant : Nat) (view : CardView)
    (ref : Option JournalRef) (h : s.counters.sound) : (placeResponse r outcome c grant view ref s).counters.sound := by
  simp only [placeResponse]
  split
  · exact countOutcome_sound outcome h
  · exact (countOutcome_sound outcome h).shopLinkDrops (bump_le _)

theorem StoresInForm.placeResponse (h : StoresInForm s) (r : TillRequest) (outcome : TillOutcome) (c : Conditions) (grant : Nat)
    (view : CardView) (ref : Option JournalRef) : StoresInForm (placeResponse r outcome c grant view ref s) :=
  StoresInForm.same (s := { s with posting := .idle }) { h with } (placeResponse_stores r outcome c grant view ref s)
    (placeResponse_counters _ _ _ _ _ _ h.counters)

theorem wf_journalEdits (hand : Hand) (written : JournalRef) {j : Table (Option JournalEntry)} (h : j.wf none = true) :
    (journalEdits hand written j).wf none = true := by
  unfold journalEdits
  split
  · exact wf_editLinked _ _ _ h
  · exact wf_editLinked _ _ _ h
  · exact wf_editLinked _ _ _ (wf_editLinked _ _ _ h)
  all_goals exact h

theorem StoresInForm.jointWrite (h : StoresInForm s) (hand : Hand) (p : Position) : StoresInForm (jointWrite hand p s) :=
  { h with
    positions := Table.wf_write _ _ _ _ h.positions
    cards := Table.wf_write _ _ _ _ h.cards
    programs := wf_changeLiveAt _ _ _ h.programs
    journal := wf_appendAt _ _ _ (wf_journalEdits hand _ h.journal)
    writePos := advance_inRange h.writePos
    lanes := Table.wf_write _ _ _ _ h.lanes }

theorem TillChange.keepsForm (change : TillChange s u) (h : StoresInForm s) : StoresInForm u := by
  cases change with
  | await => exact { h with }
  | respond => exact h.placeResponse _ _ _ _ _ _
  | joint hand p =>
    have notices := traffic_handNotices (saturationNotices hand.request.merchant s.cycle (positionAt s hand.request.merchant) p)
      (Machine.jointWrite hand p s)
    have written := h.jointWrite hand p
    exact (written.same notices.stores (notices.counters written.counters)).placeResponse _ _ _ _ _ _
  | hold r outcome c grant view ref slot _ d j _ _ _ _ _ _ _ _ form =>
    have written : StoresInForm (holdWrite slot d j s) :=
      { h with
        cards := Table.wf_write none s.cards slot (some d) h.cards
        journal := form h.journal
        writePos := advance_inRange h.writePos }
    exact written.placeResponse _ _ _ _ _ _

theorem CardChange.keepsForm (change : CardChange s u) (h : StoresInForm s) : StoresInForm u := by
  cases change with
  | restate slot c d => exact { h with cards := Table.wf_write none s.cards slot (some d) h.cards }
  | retire slot c d =>
    exact { h with
      cards := Table.wf_write none s.cards slot (some d) h.cards, programs := wf_changeLiveAt .fall c.program s.programs h.programs }
  | purge slot => exact { h with cards := Table.wf_write none s.cards slot none h.cards }
  | move slot slot' c d c' d' j amount _ _ _ _ _ _ _ _ _ _ _ _ _ _ form =>
    exact { h with
      cards := Table.wf_write none _ slot' (some d') (Table.wf_write none s.cards slot (some c') h.cards)
      journal := form h.journal
      writePos := advance_inRange h.writePos }

theorem DirectoryChange.keepsForm (change : DirectoryChange i s u) (h : StoresInForm s) : StoresInForm u := by
  cases change with
  | terms => exact { h with terms := Table.wf_write _ _ _ _ h.terms }
  | clearPage page => exact { h with pages := Table.wf_write _ s.pages page .clearing h.pages }
  | pageCleared page =>
    exact { h with
      terms := Table.wf_dropWhere _ s.terms (fun m => decide (pageOf m = page)) h.terms, pages := Table.wf_write _ s.pages page .opened h.pages }
  | fixPage page => exact { h with pages := Table.wf_write _ s.pages page .fixed h.pages }
  | clearDirectory => exact { h with pages := Table.wf_build _ _ _ }
  | directoryCleared => exact { h with terms := rfl, pages := rfl }

theorem wf_releaseSlot (r : BatchRecord) (h : s.window.wf .free = true) : (releaseSlot r s).window.wf .free = true := by
  unfold releaseSlot
  split
  · exact Table.wf_filter _ _ _ h
  · exact h

theorem StoresInForm.releaseSlot (h : StoresInForm s) (r : BatchRecord) : StoresInForm (releaseSlot r s) := by
  have window := wf_releaseSlot r h.window
  obtain ⟨_, _, freed⟩ := releaseSlot_frame r s
  rw [freed] at window ⊢
  exact { h with window := window }

theorem closeWrite_frame (s : State) : ∃ positions cycle openingLiability batch, closeWrite s =
    { s with positions := positions, cycle := cycle, openingLiability := openingLiability, batch := batch } := ⟨_, _, _, _, rfl⟩

theorem wf_closeWrite (s : State) : (closeWrite s).positions.wf Position.zero = true := by
  simp only [closeWrite]
  exact Table.wf_build _ _ _

theorem BatchChange.keepsForm (change : BatchChange s u) (h : StoresInForm s) : StoresInForm u := by
  cases change with
  | calculated => exact { h with positions := Table.wf_write _ _ _ _ h.positions }
  | completed => exact { h with }
  | closed =>
    have positions := wf_closeWrite s
    obtain ⟨_, _, _, _, written⟩ := closeWrite_frame s
    rw [written] at positions ⊢
    exact { h with positions := positions }
  | adjusted =>
    exact { h with
      positions := Table.wf_write _ _ _ _ h.positions
      journal := wf_appendAt _ _ _ h.journal
      writePos := advance_inRange h.writePos }
  | granted => exact { h with }
  | funded => exact { h with }
  | paid n r => exact { h.releaseSlot r with }
  | returned n r => exact { h.releaseSlot r with }
  | timedOut slot => exact { h with window := Table.wf_write _ s.window slot .free h.window }
  | abandoned => exact { h with }

theorem wf_tearPages {pages : Table PageState} (h : pages.wf .opened = true) : (tearPages pages).wf .opened = true :=
  Table.wf_map PageState.opened (fun x => if x = .clearing then .torn else x) (fun _ stored => by
    split
    · exact PageState.noConfusion
    · exact stored) pages h

theorem RunChange.keepsForm (change : RunChange i s u) (h : StoresInForm s) : StoresInForm u := by
  cases change with
  | reset => exact { h with window := rfl, counters := Counters.zero_sound }
  | erasing => exact { h with }
  | recovered => exact { h with pages := wf_tearPages h.pages }
  | begun => exact { h with }
  | erased =>
    exact
      { programs := rfl, cards := rfl, journal := rfl, lanes := rfl, terms := rfl, pages := rfl, positions := rfl, window := rfl,
        writePos := rfl, counters := (h.counters.strays (Nat.zero_le _)).lateConfirms (Nat.zero_le _) }

theorem Change.keepsForm (change : Change i s u) (h : StoresInForm s) : StoresInForm u := by
  cases change with
  | stay => exact h
  | clock => exact { h with }
  | till change => exact change.keepsForm h
  | card _ change => exact change.keepsForm h
  | directory change => exact change.keepsForm h
  | table change =>
    cases change with
    | program => exact { h with programs := Table.wf_write _ _ _ _ h.programs }
    | lane => exact { h with lanes := Table.wf_write _ _ _ _ h.lanes }
  | batch change => exact change.keepsForm h
  | run change => exact change.keepsForm h

/-- A walk only writes to the window (R155). -/
theorem wf_walkRecords (h : s.window.wf .free = true) : (walkRecords s).window.wf .free = true :=
  walkGo_induction s (fun w => w.window.wf .free = true) (fun _ _ _ form _ _ _ => form)
    (fun w _ r slot form _ _ _ _ _ => Table.wf_write .free w.window slot (.awaiting r.merchant (instructionFrame s r slot)) form) _ _ h

theorem Aftermath.keepsForm (after : Aftermath s t) (h : StoresInForm s) : StoresInForm t := by
  cases after with
  | traffic moves => exact h.same moves.stores (moves.counters h.counters)
  | carry => exact { h with positions := Table.wf_write _ _ _ _ h.positions }
  | settle => exact { h with }
  | walk => exact { h with window := wf_walkRecords h.window }
  | place offered rest =>
    have bound := bumpBy_le (drainGo s.officeLink s.settings.confirmationTimeout offered s.window s.officeOut 0).2.2.2 _
      ((Counters.sound_iff _).1 h.counters).2.2.2.1.2
    exact { h with window := drainGo_wf _ _ _ _ _ _ h.window, counters := h.counters.officeLinkDrops bound }

/-- Settles O50: each queue takes a frame only below its capacity, and each write keeps the form of its store. -/
theorem stepsKeepTheQueuesAndStoresInForm : Obligations.StepsKeepTheQueuesAndStoresInForm := by
  constructor
  · exact fun s t holds stepped => step_keeps (P := fun s => withinCapacities s = true) stepped id
      (fun moves h => moves.capacities h) Change.keepsCapacities Aftermath.keepsCapacities holds
  · intro s t canonical position ranged stepped
    have holds : StoresInForm s := (storesInForm_iff s).2 ⟨canonical, position, ranged⟩
    exact (storesInForm_iff t).1 (step_keeps stepped (fun h => { h with }) (fun moves h => h.same moves.stores (moves.counters h.counters))
      Change.keepsForm Aftermath.keepsForm holds)

end Sys2Proof.Machine
end

