-- ==== Sys2Proof/Proofs/CardLimits.lean ====
section
/-! The limits of the cards: four holds at most, and no more money than the largest ceiling (R1, R8, R9). -/

namespace Sys2Proof.Machine

variable {i : Instr} {s t u : State}

/-! ### Tables by member and by read -/

section
variable {α : Type} {d : α} {t : Table α}

/-- In canonical form an entry is what its number reads as. -/
theorem Table.read_of_mem [DecidableEq α] (form : t.wf d = true) {e : Nat × α} (member : e ∈ t) : t.read d e.1 = e.2 := by
  have listed : ∀ low, Table.wfFrom d low t = true → e ∈ t → (∀ l, low = some l → l < e.1) ∧ t.read d e.1 = e.2 := by
    induction t with
    | nil => simp
    | cons a rest ih =>
      obtain ⟨k, v⟩ := a
      intro low ordered there
      rw [Table.wfFrom_cons] at ordered
      obtain ⟨above, -, later⟩ := ordered
      rcases List.mem_cons.1 there with rfl | there
      · exact ⟨above, if_pos rfl⟩
      · have rises := (ih (Table.wfFrom_weaken d later fun _ _ _ none => by cases none) there (some k) later there)
        have higher : k < e.1 := rises.1 k rfl
        exact ⟨fun l bound => (above l bound).trans higher, (if_neg higher.ne).trans rises.2⟩
  exact (listed none form member).2

/-- What holds of every entry, and of the value of an unlisted number, holds of every read. -/
theorem Table.forall_read {P : α → Prop} (all : ∀ e ∈ t, P e.2) (unlisted : P d) (k : Nat) : P (t.read d k) := by
  by_cases stored : t.read d k = d
  · rw [stored]
    exact unlisted
  · exact all _ (Table.mem_of_read stored)

theorem Table.forall_mem_iff [DecidableEq α] {P : α → Prop} (form : t.wf d = true) (unlisted : P d) :
    (∀ e ∈ t, P e.2) ↔ ∀ k, P (t.read d k) :=
  ⟨fun all => Table.forall_read all unlisted, fun reads e member => Table.read_of_mem form member ▸ reads e.1⟩

/-- What holds of every entry and of the value written holds of every entry after the write. -/
theorem Table.forall_write [DecidableEq α] {P : α → Prop} (all : ∀ e ∈ t, P e.2) {v : α} (written : P v) (k : Nat) :
    ∀ e ∈ t.write d k v, P e.2 := by
  intro e member
  obtain ⟨rfl, -⟩ | ⟨old, -⟩ := Table.mem_write d t k v member
  · exact written
  · exact all e old

end

/-! ### Limits -/

/-- The limits of a program entry that `cardsWithinLimits` asks for (R1). -/
def Program.withinLimits (p : Program) : Prop := p.holdLimit ≤ 4 ∧ p.ceiling ≤ 10000000

/-- The card of a request in hand, as the table's acceptance would write it. -/
def preparedCard : PostingUnit → Option CardRecord
  | .till h => h.cardAfter
  | .idle => none
  | .card _ => none

theorem cardsWithinLimits_iff (s : State) : cardsWithinLimits s = true ↔
    (∀ e ∈ s.programs, e.2.withinLimits) ∧ (∀ e ∈ s.cards, cardWithinLimits e.2 = true) ∧ cardWithinLimits (preparedCard s.posting) = true := by
  unfold cardsWithinLimits preparedCard
  cases s.posting <;> simp [Program.withinLimits, cardWithinLimits, and_assoc]

theorem cardWithinLimits_some (c : CardRecord) : cardWithinLimits (some c) = true ↔ c.holds.length ≤ 4 ∧ c.balance ≤ 10000000 := by
  simp [cardWithinLimits]

theorem lookupCard_read {number slot : Nat} {c : CardRecord} (found : lookupCard s number = some (slot, c)) :
    s.cards.read none slot = some c := (lookupCard_some found).2.1

/-- Cards of two numbers stand in two slots. -/
theorem slots_apart {m n slot slot' : Nat} {c d : CardRecord} (source : lookupCard s m = some (slot, c))
    (target : lookupCard s n = some (slot', d)) (apart : c.number ≠ d.number) : slot' ≠ slot := by
  rintro rfl
  have same := (lookupCard_read source).symm.trans (lookupCard_read target)
  exact apart (by rw [Option.some.inj same])

/-- The cards and programs of one state within their limits, by name. -/
structure WithinLimits (programs : Table Program) (cards : Table (Option CardRecord)) : Prop where
  programs : ∀ e ∈ programs, e.2.withinLimits
  cards : ∀ e ∈ cards, cardWithinLimits e.2 = true

section
variable {programs : Table Program} {cards : Table (Option CardRecord)} (h : WithinLimits programs cards)
include h

theorem WithinLimits.program (k : Nat) : (programs.read Program.blank k).withinLimits :=
  Table.forall_read h.programs ⟨Nat.zero_le _, Nat.zero_le _⟩ k

theorem WithinLimits.card (k : Nat) : cardWithinLimits (cards.read none k) = true :=
  Table.forall_read (P := (cardWithinLimits · = true)) h.cards rfl k

theorem WithinLimits.writeCard {c : Option CardRecord} (within : cardWithinLimits c = true) (k : Nat) :
    WithinLimits programs (cards.write none k c) := ⟨h.programs, Table.forall_write (P := (cardWithinLimits · = true)) h.cards within k⟩

theorem WithinLimits.writeProgram {p : Program} (within : p.withinLimits) (k : Nat) :
    WithinLimits (programs.write Program.blank k p) cards := ⟨Table.forall_write h.programs within k, h.cards⟩

theorem WithinLimits.changeLive (change : LiveChange) (n : Nat) : WithinLimits (changeLiveAt change n programs) cards := by
  cases change with
  | same => exact h
  | rise => exact h.writeProgram (p := Machine.changeLive .rise (programs.read Program.blank n)) (h.program n) n
  | fall => exact h.writeProgram (p := Machine.changeLive .fall (programs.read Program.blank n)) (h.program n) n

end

/-- The same card with no more money, or no more than its program admits, stays within the limits. -/
theorem SameCard.withinLimits {c d : CardRecord} (same : SameCard s c d) (h : WithinLimits s.programs s.cards)
    (before : cardWithinLimits (some c) = true) (balance : d.balance ≤ max c.balance (programAt s c.program).ceiling) :
    cardWithinLimits (some d) = true := by
  rw [cardWithinLimits_some] at before ⊢
  have limits := h.program c.program
  exact ⟨same.fewHolds before.1 limits.1, balance.trans (max_le before.2 limits.2)⟩

theorem Prepares.withinLimits {hand : Hand} (prepared : Prepares s hand) (h : WithinLimits s.programs s.cards) :
    cardWithinLimits hand.cardAfter = true := by
  have stored : ∀ {number slot c}, lookupCard s number = some (slot, c) → cardWithinLimits (some c) = true :=
    fun {_ slot _} found => lookupCard_read found ▸ h.card slot
  cases prepared with
  | issue index c _ _ _ _ after _ _ holds _ fits =>
    rw [after, cardWithinLimits_some, holds]
    exact ⟨Nat.zero_le _, fits.trans (h.program index).2⟩
  | rise c d found _ after same _ _ fits => exact after ▸ same.withinLimits h (stored found) fits
  | fall c d found _ after same _ balance => exact after ▸ same.withinLimits h (stored found) (by omega)
  | remove _ _ _ after => rw [after]; rfl

/-- An accepted WRITE_PROGRAM writes an entry in the range of R1. -/
theorem programTests_range {w : ProgramWrite} (tests : firstFailure (programTests s w) = none) : w.state = 0 ∨ programInRange w = true := by
  simpa using (firstFailure_none _).1 tests (decide (w.state = 0) || programInRange w, .range) (by simp [programTests])

theorem writtenProgram_empty {w : ProgramWrite} (live : Nat) (empty : w.state = 0) : writtenProgram live w = { Program.blank with live := live } := by
  simp [writtenProgram, ProgramState.ofCode, empty]

/-- The state of an entry in range that is not EMPTY. -/
theorem ofCode_written {w : ProgramWrite} (range : programInRange w = true) (named : w.state ≠ 0) :
    ProgramState.ofCode w.state = some .opened ∨ ProgramState.ofCode w.state = some .closed := by
  have bound : w.state ≤ 2 := by
    simp only [programInRange, Bool.and_eq_true, decide_eq_true_eq] at range
    omega
  obtain one | two : w.state = 1 ∨ w.state = 2 := by omega
  · exact .inl (by rw [one]; rfl)
  · exact .inr (by rw [two]; rfl)

theorem writtenProgram_ceiling {w : ProgramWrite} (live : Nat) (range : programInRange w = true) (named : w.state ≠ 0) :
    (writtenProgram live w).ceiling = w.ceiling ∧ (writtenProgram live w).holdLimit = w.holdLimit := by
  obtain state | state := ofCode_written range named <;> simp [writtenProgram, state]

theorem writtenProgram_withinLimits {w : ProgramWrite} (live : Nat) (tests : firstFailure (programTests s w) = none) :
    (writtenProgram live w).withinLimits := by
  by_cases empty : w.state = 0
  · rw [writtenProgram_empty live empty]
    exact ⟨Nat.zero_le _, Nat.zero_le _⟩
  · have range := (programTests_range tests).resolve_left empty
    obtain ⟨ceiling, holdLimit⟩ := writtenProgram_ceiling live range empty
    unfold Program.withinLimits
    rw [ceiling, holdLimit]
    have top : Config.maxCeiling = 10000000 := rfl
    simp only [programInRange, Bool.and_eq_true, decide_eq_true_eq] at range
    omega

/-- The prepared card of a Posting Unit that is not TILL. -/
theorem preparedCard_idle (idle : s.posting = .idle) : preparedCard s.posting = none := by rw [idle]; rfl

theorem CardChange.keepsLimits (change : CardChange s u) (h : WithinLimits s.programs s.cards) : WithinLimits u.programs u.cards := by
  have stored : ∀ {number slot c}, lookupCard s number = some (slot, c) → cardWithinLimits (some c) = true :=
    fun {_ slot _} found => lookupCard_read found ▸ h.card slot
  cases change with
  | restate slot c d found _ same _ balance => exact h.writeCard (same.withinLimits h (stored found) (by omega)) slot
  | retire slot c d found _ same _ zero balance =>
    exact (h.writeCard (same.withinLimits h (stored found) (by omega)) slot).changeLive .fall c.program
  | purge slot => exact h.writeCard (c := none) rfl slot
  | move slot slot' c d c' d' j amount source target _ _ _ same same' _ _ balance _ fits =>
    exact (h.writeCard (same.withinLimits h (stored source) (by omega)) slot).writeCard
      (same'.withinLimits h (stored target) (fits.trans (le_max_right _ _))) slot'

theorem Change.keepsLimits (change : Change i s u) (holds : cardsWithinLimits s = true) : cardsWithinLimits u = true := by
  rw [cardsWithinLimits_iff] at holds ⊢
  obtain ⟨programs, cards, hand⟩ := holds
  have h : WithinLimits s.programs s.cards := ⟨programs, cards⟩
  cases change with
  | stay => exact ⟨programs, cards, hand⟩
  | clock => exact ⟨programs, cards, hand⟩
  | till change =>
    cases change with
    | await _ _ _ prepared => exact ⟨programs, cards, prepared.withinLimits h⟩
    | respond => exact ⟨programs, cards, rfl⟩
    | joint h' p held =>
      rw [(acceptMovement_stores h' p s).eq]
      rw [held] at hand
      have written := (h.writeCard hand h'.slot).changeLive h'.liveChange h'.program
      exact ⟨written.programs, written.cards, rfl⟩
    | hold r outcome cs grant view ref slot c d j _ _ found _ same _ balance =>
      have stored : cardWithinLimits (some c) = true := lookupCard_read found ▸ h.card slot
      exact ⟨programs, (h.writeCard (same.withinLimits h stored (by omega)) slot).cards, rfl⟩
  | card idle change =>
    have kept := change.keepsLimits h
    obtain ⟨_, _, _, _, rfl⟩ := change.frame
    exact ⟨kept.programs, kept.cards, hand⟩
  | directory change =>
    obtain ⟨_, _, _, rfl⟩ := change.frame
    exact ⟨programs, cards, hand⟩
  | table change =>
    cases change with
    | program w tests => exact ⟨(h.writeProgram (writtenProgram_withinLimits _ tests) w.index).programs, cards, hand⟩
    | lane => exact ⟨programs, cards, hand⟩
  | batch change =>
    obtain ⟨_, _, _, _, _, _, _, _, rfl⟩ := change.frame
    exact ⟨programs, cards, hand⟩
  | run change =>
    cases change with
    | reset => exact ⟨programs, cards, rfl⟩
    | erasing => exact ⟨programs, cards, hand⟩
    | recovered => exact ⟨programs, cards, hand⟩
    | begun => exact ⟨programs, cards, hand⟩
    | erased => exact ⟨fun _ none => absurd none List.not_mem_nil, fun _ none => absurd none List.not_mem_nil, hand⟩

end Sys2Proof.Machine
end

