-- ==== Sys2Proof/Proofs/CardCounts.lean ====
section
/-! The live-card counts (R6), and with them the ceiling of each card's own program (R3, R8). -/

namespace Sys2Proof.Machine

variable {i : Instr} {s t u : State}


/-- A card written to a slot with a change of one program's count moves the count of each program with the card. -/
def countsMove (cards : Table (Option CardRecord)) (slot : Nat) (after : Option CardRecord) (change : LiveChange) (program : Nat) : Prop :=
  ∀ n, n < Config.programCount → liveIn n after + (if change = .fall ∧ program = n then 1 else 0) =
    liveIn n (cards.read none slot) + (if change = .rise ∧ program = n then 1 else 0)

/-- The request in hand moves the counts with its card. -/
def countsHand (cards : Table (Option CardRecord)) (h : Hand) : Prop := countsMove cards h.slot h.cardAfter h.liveChange h.program

/-- Each count is the number of live cards, and the Card Store is in canonical form. -/
structure CountsMatch (programs : Table Program) (cards : Table (Option CardRecord)) : Prop where
  form : cards.wf none = true
  counts : ∀ n, n < Config.programCount → (programs.read Program.blank n).live = liveCards n cards

theorem liveCountsMatch_iff (s : State) : liveCountsMatch s = true ↔
    CountsMatch s.programs s.cards ∧ ∀ h, s.posting = .till h → countsHand s.cards h := by
  unfold liveCountsMatch countsHand countsMove
  rw [Bool.and_eq_true, List.all_eq_true]
  constructor
  · rintro ⟨form, all⟩
    have both := fun n (bound : n < Config.programCount) => Bool.and_eq_true_iff.1 (all n (List.mem_range.2 bound))
    refine ⟨⟨form, fun n bound => of_decide_eq_true (both n bound).1⟩, fun h held n bound => ?_⟩
    have moved := (both n bound).2
    rw [held] at moved
    exact of_decide_eq_true moved
  · rintro ⟨⟨form, counts⟩, hand⟩
    refine ⟨form, fun n inRange => ?_⟩
    have bound := List.mem_range.1 inRange
    refine Bool.and_eq_true_iff.2 ⟨decide_eq_true (counts n bound), ?_⟩
    split
    · next h held => exact decide_eq_true (hand h held n bound)
    · rfl
    · rfl

/-- One card write counts in place of the card that stood there. -/
theorem liveCards_write {cards : Table (Option CardRecord)} (form : cards.wf none = true) (n k : Nat) (v : Option CardRecord) :
    liveCards n (cards.write none k v) + liveIn n (cards.read none k) = liveCards n cards + liveIn n v :=
  Table.sum_write none (liveIn n) rfl cards k v form

theorem liveIn_same {n : Nat} {c d : CardRecord} (program : d.program = c.program) (state : d.state ≠ .retired ↔ c.state ≠ .retired) :
    liveIn n (some d) = liveIn n (some c) := by
  simp only [liveIn, program, state]

theorem CountsMatch.write {programs : Table Program} {cards : Table (Option CardRecord)} (h : CountsMatch programs cards) (k : Nat)
    (v : Option CardRecord) (same : ∀ n, liveIn n v = liveIn n (cards.read none k)) : CountsMatch programs (cards.write none k v) := by
  refine ⟨Table.wf_write none cards k v h.form, fun n bound => (h.counts n bound).trans ?_⟩
  have written := liveCards_write h.form n k v
  rw [same] at written
  omega

/-- A card write with the change of count that goes with it. -/
theorem CountsMatch.joint {cards : Table (Option CardRecord)} {programs : Table Program} (h : CountsMatch programs cards) {slot : Nat}
    {after : Option CardRecord} {change : LiveChange} {program : Nat} (moves : countsMove cards slot after change program) :
    CountsMatch (changeLiveAt change program programs) (cards.write none slot after) := by
  refine ⟨Table.wf_write none cards _ _ h.form, fun n bound => ?_⟩
  have written := liveCards_write h.form n slot after
  have moved := moves n bound
  have count := h.counts n bound
  rw [read_changeLiveAt]
  split
  · next own =>
    subst own
    cases change with
    | same =>
      simp only [changeLive, reduceCtorEq, false_and, if_false] at moved ⊢
      omega
    | rise =>
      simp only [changeLive, reduceCtorEq, false_and, true_and, if_false, if_true] at moved ⊢
      omega
    | fall =>
      simp only [changeLive, reduceCtorEq, false_and, true_and, if_false, if_true] at moved ⊢
      omega
  · next other =>
    simp only [Ne.symm other, and_false, if_false] at moved
    omega

theorem Prepares.countsHand {hand : Hand} (prepared : Prepares s hand) : countsHand s.cards hand := by
  intro n _
  cases prepared with
  | issue index c _ _ _ empty after program active _ _ _ counted entry =>
    rw [after, show s.cards.read none hand.slot = none from empty, counted, entry]
    simp [liveIn, program, active]
  | rise c d found _ after same state _ _ _ counted =>
    rw [after, lookupCard_read found, counted, liveIn_same same.program (by rw [state])]
    simp
  | fall c d found _ after same state _ _ counted =>
    rw [after, lookupCard_read found, counted, liveIn_same same.program (by rw [state])]
    simp
  | remove c found live after _ counted entry =>
    rw [after, lookupCard_read found, counted, entry]
    simp [liveIn, live]

theorem CardChange.keepsCounts (change : CardChange s u) (h : CountsMatch s.programs s.cards) : CountsMatch u.programs u.cards := by
  cases change with
  | restate slot c d found live same state =>
    refine h.write slot (some d) fun n => ?_
    rw [lookupCard_read found, liveIn_same same.program (iff_of_true state live)]
  | retire slot c d found live same state =>
    refine h.joint (slot := slot) (after := some d) (change := .fall) (program := c.program) fun n _ => ?_
    simp [lookupCard_read found, liveIn, state, live]
  | purge slot c found retired =>
    refine h.write slot none fun n => ?_
    rw [lookupCard_read found]
    simp [liveIn, retired]
  | move slot slot' c d c' d' j amount source target apart live active same same' state state' =>
    refine (h.write slot (some c') fun n => ?_).write slot' (some d') fun n => ?_
    · rw [lookupCard_read source, liveIn_same same.program (by rw [state])]
    · rw [Table.read_write_ne _ _ _ (slots_apart source target apart), lookupCard_read target,
        liveIn_same same'.program (by rw [state'])]

/-- The entry a WRITE_PROGRAM leaves keeps the count (R4). -/
theorem writtenProgram_live (live : Nat) (w : ProgramWrite) : (writtenProgram live w).live = live := by
  unfold writtenProgram
  split <;> rfl

/-- Other commands leave no request in hand, or the one that was there. -/
theorem Change.keepsCounts (change : Change i s u) (holds : liveCountsMatch s = true) : liveCountsMatch u = true := by
  rw [liveCountsMatch_iff] at holds ⊢
  obtain ⟨h, hand⟩ := holds
  cases change with
  | stay => exact ⟨h, hand⟩
  | clock => exact ⟨h, hand⟩
  | till change =>
    cases change with
    | await h' _ _ prepared =>
      refine ⟨h, fun taken held => ?_⟩
      cases held
      exact prepared.countsHand
    | respond => exact ⟨h, fun _ held => PostingUnit.noConfusion held⟩
    | joint h' p held =>
      rw [(acceptMovement_stores h' p s).eq]
      exact ⟨h.joint (hand h' held), fun _ held => PostingUnit.noConfusion held⟩
    | hold r outcome cs grant view ref slot c d j _ _ found _ same state =>
      refine ⟨h.write slot (some d) fun n => ?_, fun _ held => PostingUnit.noConfusion held⟩
      rw [lookupCard_read found, liveIn_same same.program (by rw [state])]
  | card idle change =>
    have kept := change.keepsCounts h
    obtain ⟨_, _, _, _, rfl⟩ := change.frame
    exact ⟨kept, fun _ held => PostingUnit.noConfusion (idle.symm.trans held)⟩
  | directory change =>
    obtain ⟨_, _, _, rfl⟩ := change.frame
    exact ⟨h, hand⟩
  | table change =>
    cases change with
    | program w =>
      refine ⟨⟨h.form, fun n bound => ?_⟩, hand⟩
      rw [← h.counts n bound]
      simp only [Table.read_write]
      split
      · next own => rw [own, writtenProgram_live]; rfl
      · rfl
    | lane => exact ⟨h, hand⟩
  | batch change =>
    obtain ⟨_, _, _, _, _, _, _, _, rfl⟩ := change.frame
    exact ⟨h, hand⟩
  | run change =>
    cases change with
    | reset => exact ⟨h, fun _ held => PostingUnit.noConfusion held⟩
    | erasing => exact ⟨h, hand⟩
    | recovered => exact ⟨h, hand⟩
    | begun => exact ⟨h, hand⟩
    | erased _ idle => exact ⟨⟨rfl, fun _ _ => rfl⟩, fun _ held => PostingUnit.noConfusion (idle.symm.trans held)⟩

theorem liveCountsMatch_step (holds : liveCountsMatch s = true) (stepped : step s = .next t) : liveCountsMatch t = true := by
  refine step_keeps (P := fun s => liveCountsMatch s = true) stepped id (fun moves h => ?_) Change.keepsCounts (fun after h => ?_) holds
  · rw [moves.stores.eq]
    exact h
  · obtain ⟨_, _, _, _, same⟩ := after.frame
    rw [same.eq]
    exact h

/-! ### The ceiling of each card's own program (R3, R8) -/

theorem balanceWithinCeiling_some (programs : Table Program) (c : CardRecord) : balanceWithinCeiling programs (some c) = true ↔
    c.program < Config.programCount ∧ c.balance ≤ (programs.read Program.blank c.program).ceiling ∧ (c.state = .retired → c.balance = 0) := by
  simp only [balanceWithinCeiling, Bool.and_eq_true, Bool.or_eq_true, decide_eq_true_eq, and_assoc, ne_eq, ← imp_iff_not_or]

theorem balancesWithinCeilings_iff (s : State) : balancesWithinCeilings s = true ↔
    (∀ e ∈ s.cards, balanceWithinCeiling s.programs e.2 = true) ∧ balanceWithinCeiling s.programs (preparedCard s.posting) = true := by
  unfold balancesWithinCeilings preparedCard
  cases s.posting <;> simp [balanceWithinCeiling]

/-- A card stays within its ceiling where the entry of its program keeps its own. -/
theorem balanceWithinCeiling_congr {programs after : Table Program} {c : Option CardRecord}
    (ceiling : ∀ k, (after.read Program.blank k).ceiling = (programs.read Program.blank k).ceiling) :
    balanceWithinCeiling after c = balanceWithinCeiling programs c := by
  cases c with
  | none => rfl
  | some c => simp only [balanceWithinCeiling, ceiling]

theorem ceiling_changeLiveAt (change : LiveChange) (n : Nat) (programs : Table Program) (k : Nat) :
    ((changeLiveAt change n programs).read Program.blank k).ceiling = (programs.read Program.blank k).ceiling := by
  rw [read_changeLiveAt]
  split
  · next own =>
    rw [own]
    cases change <;> rfl
  · rfl

section
variable (cards : ∀ e ∈ s.cards, balanceWithinCeiling s.programs e.2 = true)
include cards

/-- A card found lies within its ceiling. -/
theorem found_within {number slot : Nat} {c : CardRecord} (found : lookupCard s number = some (slot, c)) :
    balanceWithinCeiling s.programs (some c) = true := by
  have read := Table.forall_read (d := none) (P := fun c => balanceWithinCeiling s.programs c = true) cards rfl slot
  rwa [lookupCard_read found] at read

theorem Prepares.withinCeiling {hand : Hand} (prepared : Prepares s hand) : balanceWithinCeiling s.programs hand.cardAfter = true := by
  cases prepared with
  | issue index c bound _ _ _ after program active _ _ fits =>
    subst program
    rw [after, balanceWithinCeiling_some]
    exact ⟨bound, fits, fun retired => by simp [active] at retired⟩
  | rise c d found live after same state _ fits =>
    have before := (balanceWithinCeiling_some _ _).1 (found_within cards found)
    rw [after, balanceWithinCeiling_some, same.program, state]
    exact ⟨before.1, fits.trans (max_le before.2.1 le_rfl), fun retired => absurd retired live⟩
  | fall c d found live after same state balance =>
    have before := (balanceWithinCeiling_some _ _).1 (found_within cards found)
    rw [after, balanceWithinCeiling_some, same.program, state]
    exact ⟨before.1, le_trans (by omega) before.2.1, fun retired => absurd retired live⟩
  | remove _ _ _ after => rw [after]; rfl

end

/-- The cards and the card prepared in hand after a write that leaves every ceiling. -/
theorem ceilings_write {programs after : Table Program} {cards : Table (Option CardRecord)} {slot : Nat} {v : Option CardRecord}
    (holds : ∀ e ∈ cards, balanceWithinCeiling programs e.2 = true) (within : balanceWithinCeiling programs v = true)
    (ceiling : ∀ k, (after.read Program.blank k).ceiling = (programs.read Program.blank k).ceiling) :
    ∀ e ∈ cards.write none slot v, balanceWithinCeiling after e.2 = true := by
  intro e member
  rw [balanceWithinCeiling_congr ceiling]
  exact Table.forall_write (P := fun c => balanceWithinCeiling programs c = true) holds within slot e member

theorem CardChange.keepsCeilings (change : CardChange s u) (cards : ∀ e ∈ s.cards, balanceWithinCeiling s.programs e.2 = true) :
    ∀ e ∈ u.cards, balanceWithinCeiling u.programs e.2 = true := by
  cases change with
  | restate slot c d found live same state balance =>
    have before := (balanceWithinCeiling_some _ _).1 (found_within cards found)
    refine ceilings_write (v := some d) cards ?_ fun _ => rfl
    rw [balanceWithinCeiling_some, same.program, balance]
    exact ⟨before.1, before.2.1, fun retired => absurd retired state⟩
  | retire slot c d found live same state zero balance =>
    have before := (balanceWithinCeiling_some _ _).1 (found_within cards found)
    refine ceilings_write (v := some d) cards ?_ (ceiling_changeLiveAt .fall c.program s.programs)
    rw [balanceWithinCeiling_some, same.program, balance]
    exact ⟨before.1, Nat.zero_le _, fun _ => rfl⟩
  | purge slot => exact ceilings_write (v := none) cards rfl fun _ => rfl
  | move slot slot' c d c' d' j amount source target _ live active same same' state state' balance _ fits =>
    have before := (balanceWithinCeiling_some _ _).1 (found_within cards source)
    have before' := (balanceWithinCeiling_some _ _).1 (found_within cards target)
    refine ceilings_write (v := some d') (ceilings_write (v := some c') cards ?_ fun _ => rfl) ?_ fun _ => rfl
    · rw [balanceWithinCeiling_some, same.program, state, live, balance]
      exact ⟨before.1, (Nat.sub_le _ _).trans before.2.1, fun retired => CardState.noConfusion retired⟩
    · rw [balanceWithinCeiling_some, same'.program, state', active]
      exact ⟨before'.1, fits, fun retired => CardState.noConfusion retired⟩

/-- An entry without live cards has only RETIRED ones, and they hold nothing. -/
theorem retired_of_liveIn_zero {n : Nat} {c : CardRecord} (own : c.program = n) (none : liveIn n (some c) = 0) : c.state = .retired := by
  by_contra live
  simp [liveIn, own, live] at none

/-- A WRITE_PROGRAM lowers no ceiling over a live card, and an ISSUE in hand counts as one (R3, checks 5 to 7). -/
theorem programTests_ceiling {w : ProgramWrite} (tests : firstFailure (programTests s w) = none) (busy : liveCounted s w.index ≠ 0) :
    (programAt s w.index).ceiling ≤ (writtenProgram (programAt s w.index).live w).ceiling := by
  have all := (firstFailure_none _).1 tests
  have named : w.state ≠ 0 := by
    simpa [busy] using all (decide (liveCounted s w.index = 0) || !decide (w.state = 0), .conflict) (by simp [programTests])
  have raised : (programAt s w.index).ceiling ≤ w.ceiling := by
    simpa [busy] using all (decide (liveCounted s w.index = 0) || decide ((programAt s w.index).ceiling ≤ w.ceiling), .conflict)
      (by simp [programTests])
  rwa [(writtenProgram_ceiling _ ((programTests_range tests).resolve_left named) named).1]

/-- A card lies within its ceiling after a WRITE_PROGRAM that spares it: it holds nothing, or the ceiling has not fallen. -/
theorem balanceWithinCeiling_program {programs : Table Program} {n : Nat} {p : Program} {c : Option CardRecord}
    (holds : balanceWithinCeiling programs c = true)
    (spared : ∀ r, c = some r → r.program = n → r.balance = 0 ∨ (programs.read Program.blank n).ceiling ≤ p.ceiling) :
    balanceWithinCeiling (programs.write Program.blank n p) c = true := by
  cases c with
  | none => rfl
  | some c =>
    rw [balanceWithinCeiling_some] at holds ⊢
    obtain ⟨bound, within, retired⟩ := holds
    refine ⟨bound, ?_, retired⟩
    rw [Table.read_write]
    split
    · next own =>
      rw [own] at within
      obtain zero | raised := spared c rfl own
      · omega
      · exact within.trans raised
    · exact within

/-- A card that counts to no live card of its program holds nothing. -/
theorem balance_of_liveIn_zero {programs : Table Program} {n : Nat} {c : CardRecord} (holds : balanceWithinCeiling programs (some c) = true)
    (own : c.program = n) (none : liveIn n (some c) = 0) : c.balance = 0 :=
  ((balanceWithinCeiling_some _ _).1 holds).2.2 (retired_of_liveIn_zero own none)

/-- With no live card counted, neither a stored card of the program nor the one in hand is live. -/
theorem liveIn_of_uncounted {n : Nat} (counts : liveCountsMatch s = true) (bound : n < Config.programCount) (free : liveCounted s n = 0) :
    (∀ e ∈ s.cards, liveIn n e.2 = 0) ∧ liveIn n (preparedCard s.posting) = 0 := by
  rw [liveCountsMatch_iff] at counts
  obtain ⟨h, hand⟩ := counts
  have both := Nat.add_eq_zero_iff.1 free
  have none : (s.cards.map fun e => liveIn n e.2).sum = 0 := (h.counts n bound).symm.trans both.1
  have stored : ∀ e ∈ s.cards, liveIn n e.2 = 0 := fun e member =>
    Nat.le_zero.1 (none ▸ List.single_le_sum (fun _ _ => Nat.zero_le _) _ (List.mem_map.2 ⟨e, member, rfl⟩))
  refine ⟨stored, ?_⟩
  cases posting : s.posting with
  | idle => rfl
  | card => rfl
  | till taken =>
    have moved := hand taken posting n bound
    have still := both.2
    rw [Table.forall_read (P := fun c => liveIn n c = 0) stored rfl taken.slot] at moved
    rw [posting] at still
    simp only at still
    simp only [preparedCard]
    omega

theorem Change.keepsCeilings (change : Change i s u) (counts : liveCountsMatch s = true) (holds : balancesWithinCeilings s = true) :
    balancesWithinCeilings u = true := by
  rw [balancesWithinCeilings_iff] at holds ⊢
  obtain ⟨cards, hand⟩ := holds
  cases change with
  | stay => exact ⟨cards, hand⟩
  | clock => exact ⟨cards, hand⟩
  | till change =>
    cases change with
    | await _ _ _ prepared => exact ⟨cards, prepared.withinCeiling cards⟩
    | respond => exact ⟨cards, rfl⟩
    | joint h p held =>
      rw [(acceptMovement_stores h p s).eq]
      rw [held] at hand
      exact ⟨ceilings_write cards hand (ceiling_changeLiveAt h.liveChange h.program s.programs), rfl⟩
    | hold r outcome cs grant view ref slot c d j _ _ found live same state balance =>
      have before := (balanceWithinCeiling_some _ _).1 (found_within cards found)
      refine ⟨ceilings_write (v := some d) cards ?_ fun _ => rfl, rfl⟩
      rw [balanceWithinCeiling_some, same.program, state, balance]
      exact before
  | card idle change =>
    have kept := change.keepsCeilings cards
    obtain ⟨_, _, _, _, rfl⟩ := change.frame
    exact ⟨kept, by rw [preparedCard_idle idle]; rfl⟩
  | directory change =>
    obtain ⟨_, _, _, rfl⟩ := change.frame
    exact ⟨cards, hand⟩
  | table change =>
    cases change with
    | program w tests =>
      have bound : w.index < Config.programCount := by
        simpa using (firstFailure_none _).1 tests (decide (w.index < Config.programCount), .range) (by simp [programTests])
      have spared : ∀ c, balanceWithinCeiling s.programs c = true → (liveCounted s w.index = 0 → liveIn w.index c = 0) →
          balanceWithinCeiling (s.programs.write Program.blank w.index (writtenProgram (programAt s w.index).live w)) c = true := by
        refine fun c within uncounted => balanceWithinCeiling_program within fun r stored own => ?_
        by_cases free : liveCounted s w.index = 0
        · subst stored
          exact .inl (balance_of_liveIn_zero within own (uncounted free))
        · exact .inr (programTests_ceiling tests free)
      exact ⟨fun e member => spared e.2 (cards e member) fun free => (liveIn_of_uncounted counts bound free).1 e member,
        spared _ hand fun free => (liveIn_of_uncounted counts bound free).2⟩
    | lane => exact ⟨cards, hand⟩
  | batch change =>
    obtain ⟨_, _, _, _, _, _, _, _, rfl⟩ := change.frame
    exact ⟨cards, hand⟩
  | run change =>
    cases change with
    | reset => exact ⟨cards, rfl⟩
    | erasing => exact ⟨cards, hand⟩
    | recovered => exact ⟨cards, hand⟩
    | begun => exact ⟨cards, hand⟩
    | erased _ idle => exact ⟨fun _ none => absurd none List.not_mem_nil, by rw [preparedCard_idle (s := clearStores s) idle]; rfl⟩

/-- Settles O54: no request above a limit passes the checks, and a ceiling falls only where no live card stands under it. -/
theorem cardsStayWithinTheirLimits : Obligations.CardsStayWithinTheirLimits := by
  constructor
  · intro s t holds stepped
    refine step_keeps (P := fun s => cardsWithinLimits s = true) stepped id (fun moves h => ?_) Change.keepsLimits (fun after h => ?_) holds
    · rw [moves.stores.eq]
      exact h
    · obtain ⟨_, _, _, _, same⟩ := after.frame
      rw [same.eq]
      exact h
  · intro s t counts holds stepped
    have kept := step_keeps (P := fun s => liveCountsMatch s = true ∧ balancesWithinCeilings s = true) stepped id
      (fun moves h => by
        rw [moves.stores.eq]
        exact h)
      (fun change h => ⟨change.keepsCounts h.1, change.keepsCeilings h.1 h.2⟩)
      (fun after h => by
        obtain ⟨_, _, _, _, same⟩ := after.frame
        rw [same.eq]
        exact h)
      ⟨counts, holds⟩
    refine ⟨kept.2, fun k c stored => ?_⟩
    have within := Table.forall_read (d := none) (P := fun c => balanceWithinCeiling t.programs c = true)
      ((balancesWithinCeilings_iff t).1 kept.2).1 rfl k
    rw [show t.cards.read none k = some c from stored, balanceWithinCeiling_some] at within
    exact within.2.1

end Sys2Proof.Machine
end

