-- ==== Sys2Proof/Proofs/CardNumbers.lean ====
section
/-! Each card stands in the probe window of its number, and its number in no other slot (R10, R11). -/

namespace Sys2Proof.Machine

variable {i : Instr} {s t u : State}

/-- No slot but this one reads as a card of the number. -/
def aloneIn (cards : Table (Option CardRecord)) (slot number : Nat) : Prop :=
  ∀ k c, k ≠ slot → cards.read none k = some c → c.number ≠ number

/-- A card stands in its probe window and alone, as `numbersStandOnce` asks of it. -/
def Placed (cards : Table (Option CardRecord)) (slot : Nat) (card : Option CardRecord) : Prop :=
  ∀ c, card = some c → slot ∈ probeWindow c.number ∧ aloneIn cards slot c.number

theorem placed_none {cards : Table (Option CardRecord)} {slot : Nat} : Placed cards slot none := fun _ stored => by cases stored

theorem placed_some {cards : Table (Option CardRecord)} {slot : Nat} {c : CardRecord} :
    Placed cards slot (some c) ↔ slot ∈ probeWindow c.number ∧ aloneIn cards slot c.number := by
  unfold Placed
  simp

theorem standsOnlyIn_iff {cards : Table (Option CardRecord)} (form : cards.wf none = true) (slot number : Nat) :
    standsOnlyIn cards slot number = true ↔ aloneIn cards slot number := by
  unfold standsOnlyIn aloneIn
  rw [List.all_eq_true]
  constructor
  · intro all k c elsewhere stored same
    have member : (k, some c) ∈ cards := stored ▸ Table.mem_of_read (by rw [stored]; exact Option.some_ne_none c)
    simpa [elsewhere, same] using all _ member
  · intro reads e member
    have read := Table.read_of_mem form member
    by_cases own : e.1 = slot
    · simp [own]
    · cases stored : e.2 with
      | none => simp
      | some c => simpa [own] using reads e.1 c own (read.trans stored)

/-- The Boolean of `numbersStandOnce` for one card, as a proposition. -/
theorem placed_iff {cards : Table (Option CardRecord)} (form : cards.wf none = true) (slot : Nat) (card : Option CardRecord) :
    (match card with
      | some c => decide (slot ∈ probeWindow c.number) && standsOnlyIn cards slot c.number
      | none => true) = true ↔ Placed cards slot card := by
  cases card with
  | none => simp [Placed]
  | some c => simp [Placed, standsOnlyIn_iff form]

/-- The Card Store with every card in its place. -/
structure AllPlaced (cards : Table (Option CardRecord)) : Prop where
  form : cards.wf none = true
  placed : ∀ k, Placed cards k (cards.read none k)

theorem numbersStandOnce_iff (s : State) : numbersStandOnce s = true ↔
    AllPlaced s.cards ∧ ∀ h, s.posting = .till h → Placed s.cards h.slot h.cardAfter := by
  unfold numbersStandOnce
  simp only [Bool.and_eq_true, List.all_eq_true]
  constructor
  · rintro ⟨⟨form, all⟩, hand⟩
    refine ⟨⟨form, fun k c stored => ?_⟩, fun h held => ?_⟩
    · have member : (k, some c) ∈ s.cards := stored ▸ Table.mem_of_read (by rw [stored]; exact Option.some_ne_none c)
      exact (placed_iff form k (some c)).1 (all _ member) c rfl
    · rw [held] at hand
      exact (placed_iff form h.slot h.cardAfter).1 hand
  · rintro ⟨⟨form, placed⟩, hand⟩
    refine ⟨⟨form, fun e member => (placed_iff form e.1 e.2).2 ?_⟩, ?_⟩
    · rw [← Table.read_of_mem form member]
      exact placed e.1
    · split
      · next h held => exact (placed_iff form h.slot h.cardAfter).2 (hand h held)
      · rfl
      · rfl

/-- A card in its place may be written there. -/
theorem AllPlaced.write {cards : Table (Option CardRecord)} (all : AllPlaced cards) {slot : Nat} {v : Option CardRecord}
    (own : Placed cards slot v) : AllPlaced (cards.write none slot v) := by
  refine ⟨Table.wf_write none cards slot v all.form, fun k c stored => ?_⟩
  rw [Table.read_write] at stored
  split at stored
  · next here =>
    obtain ⟨window, alone⟩ := own c stored
    subst here
    refine ⟨window, fun j d apart other => ?_⟩
    rw [Table.read_write_ne _ _ _ apart] at other
    exact alone j d apart other
  · next there =>
    obtain ⟨window, alone⟩ := all.placed k c stored
    refine ⟨window, fun j d apart other => ?_⟩
    rw [Table.read_write] at other
    split at other
    · exact fun same => (own d other).2 k c there stored same.symm
    · exact alone j d apart other

/-- A record of the same number may take the place of the one that stands there. -/
theorem AllPlaced.replace {cards : Table (Option CardRecord)} (all : AllPlaced cards) {slot : Nat} {c d : CardRecord}
    (stored : cards.read none slot = some c) (same : d.number = c.number) : Placed cards slot (some d) := by
  rw [placed_some, same]
  exact all.placed slot c stored

/-- A lookup that finds nothing: no slot of the window holds the number (R10). -/
theorem lookupCard_none {number slot : Nat} {c : CardRecord} (missing : lookupCard s number = none) (window : slot ∈ probeWindow number)
    (stored : s.cards.read none slot = some c) : c.number ≠ number := by
  intro same
  have tried := List.findSome?_eq_none_iff.1 missing slot window
  simp [cardAt, stored, same] at tried

/-- A number that the lookup does not find stands nowhere, every card being in its window. -/
theorem AllPlaced.absent (all : AllPlaced s.cards) {number : Nat} (missing : lookupCard s number = none) (slot : Nat) :
    aloneIn s.cards slot number := by
  intro k c _ stored same
  have window := (all.placed k c stored).1
  rw [same] at window
  exact lookupCard_none missing window stored same

theorem Prepares.placed {hand : Hand} (prepared : Prepares s hand) (all : AllPlaced s.cards) : Placed s.cards hand.slot hand.cardAfter := by
  cases prepared with
  | issue index c _ unused window _ after =>
    rw [after]
    exact placed_some.2 ⟨window, all.absent unused hand.slot⟩
  | rise c d found _ after same => exact after ▸ all.replace (lookupCard_read found) same.number
  | fall c d found _ after same => exact after ▸ all.replace (lookupCard_read found) same.number
  | remove _ _ _ after =>
    rw [after]
    exact placed_none

theorem CardChange.keepsPlaces (change : CardChange s u) (all : AllPlaced s.cards) : AllPlaced u.cards := by
  cases change with
  | restate slot c d found _ same => exact all.write (v := some d) (all.replace (lookupCard_read found) same.number)
  | retire slot c d found _ same => exact all.write (v := some d) (all.replace (lookupCard_read found) same.number)
  | purge slot => exact all.write (v := none) placed_none
  | move slot slot' c d c' d' _ _ source target apart _ _ same same' =>
    have first := all.write (v := some c') (all.replace (lookupCard_read source) same.number)
    refine first.write (v := some d') (first.replace ?_ same'.number)
    rw [Table.read_write_ne _ _ _ (slots_apart source target apart)]
    exact lookupCard_read target

theorem Change.keepsNumbers (change : Change i s u) (holds : numbersStandOnce s = true) : numbersStandOnce u = true := by
  rw [numbersStandOnce_iff] at holds ⊢
  obtain ⟨all, hand⟩ := holds
  cases change with
  | stay => exact ⟨all, hand⟩
  | clock => exact ⟨all, hand⟩
  | till change =>
    cases change with
    | await h' _ _ prepared =>
      refine ⟨all, fun taken held => ?_⟩
      cases held
      exact prepared.placed all
    | respond => exact ⟨all, fun _ held => PostingUnit.noConfusion held⟩
    | joint h' p held =>
      rw [(acceptMovement_stores h' p s).eq]
      exact ⟨all.write (hand h' held), fun _ held => PostingUnit.noConfusion held⟩
    | hold r outcome cs grant view ref slot c d j _ _ found _ same =>
      exact ⟨all.write (v := some d) (all.replace (lookupCard_read found) same.number), fun _ held => PostingUnit.noConfusion held⟩
  | card idle change =>
    have kept := change.keepsPlaces all
    obtain ⟨_, _, _, _, rfl⟩ := change.frame
    exact ⟨kept, fun _ held => PostingUnit.noConfusion (idle.symm.trans held)⟩
  | directory change =>
    obtain ⟨_, _, _, rfl⟩ := change.frame
    exact ⟨all, hand⟩
  | table change =>
    obtain ⟨_, _, rfl⟩ := change.frame
    exact ⟨all, hand⟩
  | batch change =>
    obtain ⟨_, _, _, _, _, _, _, _, rfl⟩ := change.frame
    exact ⟨all, hand⟩
  | run change =>
    cases change with
    | reset => exact ⟨all, fun _ held => PostingUnit.noConfusion held⟩
    | erasing => exact ⟨all, hand⟩
    | recovered => exact ⟨all, hand⟩
    | begun => exact ⟨all, hand⟩
    | erased _ idle =>
      exact ⟨⟨rfl, fun _ => placed_none⟩, fun _ held => PostingUnit.noConfusion (idle.symm.trans held)⟩

/-- Settles O55: every card write counts with its program and stays in its place; a new number is one the lookup did not find. -/
theorem cardsAreCountedAndStandOnce : Obligations.CardsAreCountedAndStandOnce := by
  refine fun s t stepped => ⟨fun holds => liveCountsMatch_step holds stepped, fun holds => ?_⟩
  refine step_keeps (P := fun s => numbersStandOnce s = true) stepped id (fun moves h => ?_) Change.keepsNumbers (fun after h => ?_) holds
  · rw [moves.stores.eq]
    exact h
  · obtain ⟨_, _, _, _, same⟩ := after.frame
    rw [same.eq]
    exact h

end Sys2Proof.Machine
end

