-- ==== Sys2Proof/Proofs/CardMoney.lean ====
section
/-! The money on the cards: the liability counter is the sum of the live balances (R53), and while no bank is SATURATED it is the
opening liability plus S + F - R of the current banks (R115). -/

namespace Sys2Proof.Machine

variable {i : Instr} {s t u : State}

/-! ### The counter and the cards -/

/-- The liability is the money on the live cards, and each card covers its holds. -/
structure Funded (liability : Nat) (cards : Table (Option CardRecord)) : Prop where
  form : cards.wf none = true
  total : liability = liveTotal cards
  covered : ∀ e ∈ cards, holdsCovered e.2 = true

/-- A card that takes the place of another moves the counter with it. -/
def movesMoney (rises : Bool) (amount : Nat) (before after : Option CardRecord) : Prop :=
  if rises then liveBalance after = liveBalance before + amount else liveBalance after + amount = liveBalance before

/-- The request in hand is prepared to keep the cards funded. -/
def handFunds (cards : Table (Option CardRecord)) (h : Hand) : Prop :=
  holdsCovered h.cardAfter = true ∧ movesMoney h.liabilityRises h.amount (cards.read none h.slot) h.cardAfter

theorem handBalances_iff (s : State) : handBalances s = true ↔
    (∀ h, s.posting = .till h → handFunds s.cards h) ∧ ∀ q, s.posting ≠ .card q := by
  unfold handBalances handFunds movesMoney cardAt
  cases s.posting with
  | till h => cases rises : h.liabilityRises <;> simp [rises]
  | idle => simp
  | card q => simp

theorem moneyOnCards_iff (s : State) : moneyOnCards s = true ↔ Funded s.liability s.cards ∧ handBalances s = true := by
  unfold moneyOnCards
  simp only [Bool.and_eq_true, decide_eq_true_eq, List.all_eq_true]
  constructor
  · rintro ⟨⟨⟨total, form⟩, covered⟩, hand⟩
    exact ⟨⟨form, total, covered⟩, hand⟩
  · rintro ⟨⟨form, total, covered⟩, hand⟩
    exact ⟨⟨⟨total, form⟩, covered⟩, hand⟩

theorem handBalances_idle (idle : s.posting = .idle) : handBalances s = true := by
  unfold handBalances
  rw [idle]

theorem holdsCovered_some (c : CardRecord) : holdsCovered (some c) = true ↔ heldSum c.holds ≤ c.balance := by simp [holdsCovered]

theorem liveBalance_some {c : CardRecord} (live : c.state ≠ .retired) : liveBalance (some c) = c.balance := by
  simp [liveBalance, live]

theorem liveBalance_retired {c : CardRecord} (retired : c.state = .retired) : liveBalance (some c) = 0 := by
  simp [liveBalance, retired]

section
variable {liability : Nat} {cards : Table (Option CardRecord)} (h : Funded liability cards)
include h

/-- One card write counts in place of the card that stood there. -/
theorem Funded.write {after : Nat} {slot : Nat} {v : Option CardRecord} (covered : holdsCovered v = true)
    (moved : after + liveBalance (cards.read none slot) = liability + liveBalance v) : Funded after (cards.write none slot v) := by
  have written := Table.sum_write none liveBalance rfl cards slot v h.form
  have total := h.total
  refine ⟨Table.wf_write none cards slot v h.form, ?_, Table.forall_write (P := (holdsCovered · = true)) h.covered covered slot⟩
  unfold liveTotal at total ⊢
  omega

/-- No card holds more than the counter. -/
theorem Funded.balance_le (slot : Nat) : liveBalance (cards.read none slot) ≤ liability := by
  have written := Table.sum_write none liveBalance rfl cards slot none h.form
  have total := h.total
  have nothing : liveBalance none = 0 := rfl
  unfold liveTotal at total
  omega

theorem Funded.found_covered {slot : Nat} {c : CardRecord} (stored : cards.read none slot = some c) : heldSum c.holds ≤ c.balance := by
  have read := Table.forall_read (d := none) (P := (holdsCovered · = true)) h.covered rfl slot
  rwa [stored, holdsCovered_some] at read

/-- The joint write moves card and counter alike (R50, R53). -/
theorem Funded.joint {hand : Hand} (funds : handFunds cards hand) :
    Funded (liabilityAfter hand liability) (cards.write none hand.slot hand.cardAfter) := by
  obtain ⟨covered, moved⟩ := funds
  refine h.write covered ?_
  have bound := h.balance_le hand.slot
  unfold movesMoney at moved
  unfold liabilityAfter
  split at moved
  · next rises =>
    rw [if_pos rises]
    omega
  · next falls =>
    rw [if_neg falls]
    omega

end

theorem Prepares.funds {hand : Hand} (prepared : Prepares s hand) (h : Funded s.liability s.cards) : handFunds s.cards hand := by
  unfold handFunds movesMoney
  cases prepared with
  | issue index c _ _ _ empty after _ active holds balance _ _ _ rises =>
    rw [after, holdsCovered_some, rises, liveBalance_some (by simp [active]), show s.cards.read none hand.slot = none from empty, holds]
    exact ⟨Nat.zero_le _, balance.trans (Nat.zero_add _).symm⟩
  | rise c d found live after _ state balance _ holds _ rises =>
    have covered := h.found_covered (lookupCard_read found)
    rw [after, holdsCovered_some, rises, lookupCard_read found, liveBalance_some live, liveBalance_some (state ▸ live)]
    exact ⟨by omega, balance⟩
  | fall c d found live after _ state balance holds _ falls =>
    have kept := holds (h.found_covered (lookupCard_read found))
    rw [after, holdsCovered_some, falls, lookupCard_read found, liveBalance_some live, liveBalance_some (state ▸ live)]
    exact ⟨by omega, show d.balance + hand.amount = c.balance by omega⟩
  | remove c found live after balance _ _ falls =>
    rw [after, falls, lookupCard_read found, liveBalance_some live]
    exact ⟨rfl, (Nat.zero_add _).trans balance.symm⟩

theorem CardChange.keepsFunded (change : CardChange s u) (h : Funded s.liability s.cards) : Funded u.liability u.cards := by
  cases change with
  | restate slot c d found live same state balance holds =>
    have covered := h.found_covered (lookupCard_read found)
    refine h.write (v := some d) ((holdsCovered_some d).2 (by omega)) ?_
    rw [lookupCard_read found, liveBalance_some live, liveBalance_some state, balance]
  | retire slot c d found live same state zero balance holds =>
    have covered := h.found_covered (lookupCard_read found)
    refine h.write (v := some d) ((holdsCovered_some d).2 (by omega)) ?_
    rw [lookupCard_read found, liveBalance_some live, liveBalance_retired state, zero]
  | purge slot c found retired =>
    refine h.write (v := none) rfl ?_
    rw [lookupCard_read found, liveBalance_retired retired]
    rfl
  | move slot slot' c d c' d' _ amount source target apart live active _ _ state state' balance balance' _ holds holds' =>
    have coveredSource := h.found_covered (lookupCard_read source)
    have coveredTarget := h.found_covered (lookupCard_read target)
    have kept := holds coveredSource
    have total := h.balance_le slot
    rw [lookupCard_read source, liveBalance_some (by simp [live])] at total
    have taken : Funded (s.liability - amount) (s.cards.write none slot (some c')) := by
      refine h.write ((holdsCovered_some c').2 (by omega)) ?_
      rw [lookupCard_read source, liveBalance_some (by simp [live]), liveBalance_some (by simp [state, live])]
      omega
    refine taken.write (after := s.liability) (v := some d') ((holdsCovered_some d').2 (by omega)) ?_
    rw [Table.read_write_ne _ _ _ (slots_apart source target apart), lookupCard_read target, liveBalance_some (by simp [active]),
      liveBalance_some (by simp [state', active])]
    omega

theorem Change.keepsMoney (change : Change i s u) (holds : moneyOnCards s = true) : moneyOnCards u = true := by
  rw [moneyOnCards_iff] at holds ⊢
  obtain ⟨h, hand⟩ := holds
  cases change with
  | stay => exact ⟨h, hand⟩
  | clock => exact ⟨h, hand⟩
  | till change =>
    cases change with
    | await h' _ _ prepared =>
      refine ⟨h, (handBalances_iff _).2 ⟨fun taken held => ?_, fun _ held => PostingUnit.noConfusion held⟩⟩
      cases held
      exact prepared.funds h
    | respond => exact ⟨h, rfl⟩
    | joint h' p held =>
      rw [(acceptMovement_stores h' p s).eq]
      exact ⟨h.joint (((handBalances_iff s).1 hand).1 h' held), rfl⟩
    | hold r outcome cs grant view ref slot c d j _ _ found live same state balance holds =>
      have covered := holds (h.found_covered (lookupCard_read found))
      refine ⟨h.write (v := some d) ((holdsCovered_some d).2 (by omega)) ?_, rfl⟩
      rw [lookupCard_read found, liveBalance_some live, liveBalance_some (state ▸ live), balance]
      rfl
  | card idle change =>
    have kept := change.keepsFunded h
    obtain ⟨_, _, _, _, rfl⟩ := change.frame
    exact ⟨kept, handBalances_idle idle⟩
  | directory change =>
    obtain ⟨_, _, _, rfl⟩ := change.frame
    exact ⟨h, hand⟩
  | table change =>
    obtain ⟨_, _, rfl⟩ := change.frame
    exact ⟨h, hand⟩
  | batch change =>
    obtain ⟨_, _, _, _, _, _, _, _, rfl⟩ := change.frame
    exact ⟨h, hand⟩
  | run change =>
    cases change with
    | reset => exact ⟨h, rfl⟩
    | erasing => exact ⟨h, hand⟩
    | recovered => exact ⟨h, hand⟩
    | begun => exact ⟨h, hand⟩
    | erased _ idle => exact ⟨⟨rfl, rfl, fun _ none => absurd none List.not_mem_nil⟩, handBalances_idle (s := clearStores s) idle⟩

theorem Aftermath.keepsMoney (after : Aftermath s t) (h : moneyOnCards s = true) : moneyOnCards t = true := by
  obtain ⟨_, _, _, _, same⟩ := after.frame
  rw [same.eq]
  exact h

/-- Settles O52: a posting moves one card and the counter by the amount in hand, and each hold is prepared within the balance. -/
theorem liabilityEqualsTheMoneyOnCards : Obligations.LiabilityEqualsTheMoneyOnCards := fun _ _ holds stepped =>
  step_keeps (P := fun s => moneyOnCards s = true) stepped id
    (fun moves h => by rw [moves.stores.eq]; exact h) Change.keepsMoney Aftermath.keepsMoney holds

/-! ### The counter and the banks -/

/-- The liability follows the current banks while none is SATURATED. -/
def Balanced (liability opening : Nat) (positions : Table Position) : Prop :=
  (∀ m, (positions.read Position.zero m).saturated = false) →
    (liability : Int) = opening + (positions.map fun e => e.2.current.outstanding).sum

theorem nothingSaturated_iff (form : s.positions.wf Position.zero = true) :
    nothingSaturated s = true ↔ ∀ m, (s.positions.read Position.zero m).saturated = false := by
  unfold nothingSaturated
  rw [List.all_eq_true]
  simp only [Bool.not_eq_true']
  exact Table.forall_mem_iff (P := fun p => p.saturated = false) form rfl

theorem cycleBalances_iff (s : State) : cycleBalances s = true ↔ moneyOnCards s = true ∧ s.positions.wf Position.zero = true ∧
    handDirection s = true ∧ Balanced s.liability s.openingLiability s.positions := by
  unfold cycleBalances
  rw [Bool.and_eq_true, Bool.and_eq_true, Bool.and_eq_true, and_assoc, and_assoc, Bool.or_eq_true, Bool.not_eq_true',
    decide_eq_true_eq]
  refine and_congr_right fun _ => and_congr_right fun form => and_congr_right fun _ => ?_
  unfold Balanced
  rw [← nothingSaturated_iff form, ← Bool.not_eq_true, ← imp_iff_not_or]
  exact Iff.rfl

/-- One position written: the outstanding sum counts it in place of the one that stood there. -/
theorem Balanced.write {liability after opening : Nat} {positions : Table Position} (h : Balanced liability opening positions)
    (form : positions.wf Position.zero = true) {m : Nat} {q : Position}
    (moved : q.saturated = false → (positions.read Position.zero m).saturated = false ∧
      (after : Int) + (positions.read Position.zero m).current.outstanding = liability + q.current.outstanding) :
    Balanced after opening (positions.write Position.zero m q) := by
  intro clear
  have own := clear m
  rw [Table.read_write_same] at own
  obtain ⟨before, equal⟩ := moved own
  have balance := h fun k => by
    by_cases here : k = m
    · rw [here, before]
    · rw [← clear k, Table.read_write_ne _ _ _ here]
  have written := Table.sum_write Position.zero (fun p => p.current.outstanding) rfl positions m q form
  omega

/-- A position that keeps its current bank may be written. -/
theorem Balanced.keep {liability opening : Nat} {positions : Table Position} (h : Balanced liability opening positions)
    (form : positions.wf Position.zero = true) {m : Nat} {q : Position} (bank : KeepsBank (positions.read Position.zero m) q) :
    Balanced liability opening (positions.write Position.zero m q) :=
  h.write form fun clear => ⟨bank.saturated ▸ clear, by rw [bank.current]⟩

/-- An addition that passes no range raises S + F - R by the amount, or lowers it for R (R118). -/
theorem outstanding_add {b : Bank} {field : BankField} {amount : Nat} (fits : b.saturates field amount = false) :
    (b.add field amount).outstanding = b.outstanding + (if field = .redeemed then -(amount : Int) else amount) := by
  cases field with
  | sold =>
    simp only [Bank.saturates, Bool.or_eq_false_iff, decide_eq_false_iff_not, not_lt] at fits
    simp only [Bank.add, Bank.outstanding, min_eq_left fits.1, reduceCtorEq, if_false]
    omega
  | refunded =>
    simp only [Bank.saturates, Bool.or_eq_false_iff, decide_eq_false_iff_not, not_lt] at fits
    simp only [Bank.add, Bank.outstanding, min_eq_left fits.1, reduceCtorEq, if_false]
    omega
  | redeemed =>
    simp only [Bank.saturates, Bool.or_eq_false_iff, decide_eq_false_iff_not, not_lt] at fits
    simp only [Bank.add, Bank.outstanding, min_eq_left fits.1, if_true]
    omega

/-- A reversal takes the amount back, where the bank holds it (R119). -/
theorem outstanding_subtract {b : Bank} {field : BankField} {amount : Nat} (covered : amount ≤ b.amountOf field) :
    (b.subtract field amount).outstanding = b.outstanding + (if field = .redeemed then (amount : Int) else -amount) := by
  cases field with
  | sold =>
    simp only [Bank.amountOf] at covered
    simp only [Bank.subtract, Bank.outstanding, reduceCtorEq, if_false]
    omega
  | refunded =>
    simp only [Bank.amountOf] at covered
    simp only [Bank.subtract, Bank.outstanding, reduceCtorEq, if_false]
    omega
  | redeemed =>
    simp only [Bank.amountOf] at covered
    simp only [Bank.subtract, Bank.outstanding, if_true]
    omega

/-- The counter after a posting whose amount it covers where it falls. -/
theorem liabilityAfter_eq {h : Hand} {liability : Nat} (covered : h.liabilityRises = false → h.amount ≤ liability) :
    (liabilityAfter h liability : Int) = liability + (if h.liabilityRises then (h.amount : Int) else -h.amount) := by
  unfold liabilityAfter
  cases rises : h.liabilityRises with
  | true => simp
  | false =>
    have := covered rises
    simp only [Bool.false_eq_true, if_false]
    omega

theorem Moves.balanced {h : Hand} {p : Position} (moves : Moves s h p) (held : s.posting = .till h) (direction : handDirection s = true)
    (covered : reversalCovered s) (lowers : h.liabilityRises = false → h.amount ≤ s.liability) (clear : p.saturated = false) :
    (positionAt s h.request.merchant).saturated = false ∧
      (liabilityAfter h s.liability : Int) + (positionAt s h.request.merchant).current.outstanding =
        s.liability + p.current.outstanding := by
  unfold handDirection at direction
  rw [held] at direction
  rw [liabilityAfter_eq lowers]
  cases moves with
  | post field gated limit movement =>
    simp only [movement, beq_iff_eq] at direction
    obtain ⟨before, fits⟩ := Bool.or_eq_false_iff.1 clear
    refine ⟨before, ?_⟩
    simp only [Position.post, outstanding_add fits, direction, decide_eq_true_eq, ne_eq, ite_not]
    omega
  | reverse field movement =>
    simp only [movement, beq_iff_eq] at direction
    refine ⟨clear, ?_⟩
    simp only [Position.reverse, outstanding_subtract (covered h field held movement), direction, decide_eq_true_eq]
    omega

theorem addCarry_keepsBank (amount : Int) (p : Position) : KeepsBank p (addCarry amount p) := ⟨rfl, rfl⟩

/-- At a close every current bank is zero, and the opening liability is the counter (R121). -/
theorem balanced_closeWrite (s : State) : Balanced (closeWrite s).liability (closeWrite s).openingLiability (closeWrite s).positions := by
  intro _
  have zero : ∀ e ∈ (closeWrite s).positions, e.2.current.outstanding = 0 := by
    intro e member
    simp only [closeWrite, Table.build] at member
    obtain ⟨m, -, rfl⟩ := List.mem_map.1 (List.mem_of_mem_filter member)
    rfl
  rw [List.sum_eq_zero fun x member => ?_]
  · exact (add_zero _).symm
  · obtain ⟨e, stored, rfl⟩ := List.mem_map.1 member
    exact zero e stored

theorem BatchChange.keepsBalances (change : BatchChange s u) (form : s.positions.wf Position.zero = true)
    (h : Balanced s.liability s.openingLiability s.positions) : Balanced u.liability u.openingLiability u.positions := by
  cases change with
  | calculated q _ _ _ _ bank => exact h.keep form bank
  | completed => exact h
  | closed => exact balanced_closeWrite s
  | adjusted m amount => exact h.keep form (q := Machine.adjusted amount (positionAt s m)) ⟨rfl, rfl⟩
  | granted => exact h
  | funded => exact h
  | paid n r =>
    obtain ⟨_, _, freed⟩ := releaseSlot_frame r s
    rw [freed]
    exact h
  | returned n r =>
    obtain ⟨_, _, freed⟩ := releaseSlot_frame r s
    rw [freed]
    exact h
  | timedOut => exact h
  | abandoned => exact h

theorem BatchChange.keepsPositions (change : BatchChange s u) (form : s.positions.wf Position.zero = true) :
    u.positions.wf Position.zero = true := by
  cases change with
  | calculated => exact Table.wf_write _ _ _ _ form
  | closed => exact wf_closeWrite s
  | adjusted => exact Table.wf_write _ _ _ _ form
  | paid n r =>
    obtain ⟨_, _, freed⟩ := releaseSlot_frame r s
    rw [freed]
    exact form
  | returned n r =>
    obtain ⟨_, _, freed⟩ := releaseSlot_frame r s
    rw [freed]
    exact form
  | completed | granted | funded | timedOut | abandoned => exact form

theorem Change.keepsBalances (change : Change i s u) (holds : cycleBalances s = true) (covered : reversalCovered s) :
    cycleBalances u = true := by
  rw [cycleBalances_iff] at holds ⊢
  obtain ⟨money, form, direction, h⟩ := holds
  refine ⟨change.keepsMoney money, ?_⟩
  obtain ⟨funded, hand⟩ := (moneyOnCards_iff s).1 money
  cases change with
  | stay => exact ⟨form, direction, h⟩
  | clock => exact ⟨form, direction, h⟩
  | till change =>
    cases change with
    | await _ _ _ _ aligned => exact ⟨form, aligned, h⟩
    | respond => exact ⟨form, rfl, h⟩
    | joint h' p held moves =>
      rw [(acceptMovement_stores h' p s).eq]
      have lowers : h'.liabilityRises = false → h'.amount ≤ s.liability := by
        intro falls
        have moved := (((handBalances_iff s).1 hand).1 h' held).2
        have bound := funded.balance_le h'.slot
        rw [movesMoney, falls] at moved
        simp only [Bool.false_eq_true, if_false] at moved
        omega
      exact ⟨Table.wf_write _ _ _ _ form, rfl, h.write form (moves.balanced held direction covered lowers)⟩
    | hold => exact ⟨form, rfl, h⟩
  | card idle change =>
    obtain ⟨_, _, _, _, rfl⟩ := change.frame
    exact ⟨form, direction, h⟩
  | directory change =>
    obtain ⟨_, _, _, rfl⟩ := change.frame
    exact ⟨form, direction, h⟩
  | table change =>
    obtain ⟨_, _, rfl⟩ := change.frame
    exact ⟨form, direction, h⟩
  | batch change =>
    have kept := change.keepsBalances form h
    have written := change.keepsPositions form
    obtain ⟨_, _, _, _, _, _, _, _, rfl⟩ := change.frame
    exact ⟨written, direction, kept⟩
  | run change =>
    cases change with
    | reset => exact ⟨form, rfl, h⟩
    | erasing => exact ⟨form, direction, h⟩
    | recovered => exact ⟨form, direction, h⟩
    | begun => exact ⟨form, direction, h⟩
    | erased _ idle => exact ⟨rfl, by unfold handDirection; rw [show (clearStores s).posting = .idle from idle], fun _ => rfl⟩

theorem Aftermath.keepsBalances (after : Aftermath s t) (holds : cycleBalances s = true) : cycleBalances t = true := by
  rw [cycleBalances_iff] at holds ⊢
  obtain ⟨money, form, direction, h⟩ := holds
  refine ⟨after.keepsMoney money, ?_⟩
  cases after with
  | traffic moves =>
    rw [moves.stores.eq]
    exact ⟨form, direction, h⟩
  | carry m amount => exact ⟨Table.wf_write _ _ _ _ form, direction, h.keep form (addCarry_keepsBank amount (positionAt s m))⟩
  | settle => exact ⟨form, direction, h⟩
  | walk => exact ⟨form, direction, h⟩
  | place => exact ⟨form, direction, h⟩

/-- Settles O53: an accepted movement moves the counter and the bank's S + F - R alike, and a close begins both anew. -/
theorem liabilityEqualsTheOpeningOnePlusTheBanks : Obligations.LiabilityEqualsTheOpeningOnePlusTheBanks := by
  intro s t holds covered stepped
  have kept : cycleBalances t = true := by
    obtain rfl | ⟨c, rest, -, before, u, moves, change, after⟩ := step_path stepped
    · exact holds
    have changed : cycleBalances u = true := by
      refine change.keepsBalances ?_ ?_
      · rw [moves.stores.eq]
        exact holds
      · rw [moves.stores.eq]
        exact covered
    exact after.rec changed fun _ next ih => next.keepsBalances ih
  refine ⟨kept, fun clear => ?_⟩
  obtain ⟨-, form, -, balanced⟩ := (cycleBalances_iff t).1 kept
  exact balanced ((nothingSaturated_iff form).1 clear)

end Sys2Proof.Machine
end

