-- ==== Sys2Proof/Proofs/BudgetInvariant.lean ====
section
/-! The budget of a batch in release (R146, R148): what was granted is what remains and what the records have committed. -/

namespace Sys2Proof.Machine

variable {i : Instr} {s t u : State}

/-! ### Records after a change of one release state -/

/-- A measure summed over the records after one release state changed. -/
theorem sum_setRelease {β : Type} [AddCommMonoid β] (f : BatchRecord → β) {records : List BatchRecord} {n : Nat} {r : BatchRecord}
    (found : records[n]? = some r) (x : ReleaseState) :
    ((setRelease n x records).map f).sum + f r = (records.map f).sum + f { r with release := some x } := by
  unfold setRelease
  induction records generalizing n with
  | nil => simp at found
  | cons a rest ih =>
    cases n with
    | zero =>
      obtain rfl : a = r := by simpa using found
      simp only [modifyAt, List.map_cons, List.sum_cons]
      abel
    | succ n =>
      have later := ih (n := n) (by simpa using found)
      simp only [modifyAt, List.map_cons, List.sum_cons, add_assoc, later]

/-- The payout that a record holds of the budget: SENT, PAID and UNCONFIRMED records do (R148). -/
def BatchRecord.committed (r : BatchRecord) : Nat :=
  if r.release = some .sent ∨ r.release = some .paid ∨ r.release = some .unconfirmed then r.payout else 0

theorem committedPayouts_eq (records : List BatchRecord) : committedPayouts records = (records.map BatchRecord.committed).sum := by
  induction records with
  | nil => rfl
  | cons r rest ih =>
    simp only [committedPayouts, List.filter_cons, List.map_cons, List.sum_cons, BatchRecord.committed, Bool.or_eq_true,
      decide_eq_true_eq, or_assoc] at ih ⊢
    split
    · simp [ih]
    · simp [ih]

theorem committed_of {r : BatchRecord} {x : ReleaseState} (held : x = .sent ∨ x = .paid ∨ x = .unconfirmed) (own : r.release = some x) :
    r.committed = r.payout := by
  unfold BatchRecord.committed
  rw [own]
  obtain rfl | rfl | rfl := held <;> simp

theorem committed_set (r : BatchRecord) {x : ReleaseState} (held : x = .sent ∨ x = .paid ∨ x = .unconfirmed) :
    ({ r with release := some x } : BatchRecord).committed = r.payout := committed_of held rfl

theorem committed_fresh {r : BatchRecord} (fresh : r.release = none ∨ r.release = some .pending) : r.committed = 0 := by
  obtain none | pending := fresh
  · simp [BatchRecord.committed, none]
  · simp [BatchRecord.committed, pending]

theorem committed_awaiting {r : BatchRecord} (awaits : r.awaitsSending = true) : r.committed = 0 := by
  simp only [BatchRecord.awaitsSending, Bool.and_eq_true, Bool.or_eq_true, decide_eq_true_eq] at awaits
  obtain ⟨-, pending | waiting⟩ := awaits
  · simp [BatchRecord.committed, pending]
  · simp [BatchRecord.committed, waiting]

/-! ### The account -/

/-- A batch before its release: nothing granted, and no record has moved on from PENDING. -/
def Batch.ungranted (b : Batch) : Prop := b.granted = 0 ∧ ∀ r ∈ b.records, r.release = Option.none ∨ r.release = some .pending

/-- `budgetAccounts` reads nothing of the state but its batch. -/
def Batch.accounts (b : Batch) : Prop :=
  b.remaining + (b.records.map BatchRecord.committed).sum = b.granted ∧ (b.state = .releasing ∨ b.state = .settled ∨ b.ungranted)

theorem budgetAccounts_iff (s : State) : budgetAccounts s = true ↔ s.batch.accounts := by
  unfold budgetAccounts Batch.accounts Batch.ungranted
  simp only [← committedPayouts_eq, Bool.and_eq_true, Bool.or_eq_true, decide_eq_true_eq, List.all_eq_true, or_assoc]

theorem Batch.accounts.ungranted {b : Batch} (h : b.accounts) (running : b.state ≠ .releasing) (unsettled : b.state ≠ .settled) :
    b.ungranted := (h.2.resolve_left running).resolve_left unsettled

/-- A fresh batch has committed nothing. -/
theorem Batch.ungranted.committed {b : Batch} (h : b.ungranted) : (b.records.map BatchRecord.committed).sum = 0 := by
  refine List.sum_eq_zero fun x member => ?_
  obtain ⟨r, stored, rfl⟩ := List.mem_map.1 member
  exact committed_fresh (h.2 r stored)

/-- A release state that changes with its payment keeps the account. -/
theorem Batch.accounts.setRelease {b : Batch} (h : b.accounts) (releasing : b.state = .releasing) {n : Nat} {r : BatchRecord}
    (found : b.records[n]? = some r) (x : ReleaseState) {remaining : Nat}
    (moved : remaining + BatchRecord.committed { r with release := some x } = b.remaining + r.committed) :
    Batch.accounts { b with records := setRelease n x b.records, remaining := remaining } := by
  have sum := sum_setRelease BatchRecord.committed found x
  have account := h.1
  exact ⟨show remaining + ((Machine.setRelease n x b.records).map BatchRecord.committed).sum = b.granted by omega, .inl releasing⟩

theorem committed_open {r : BatchRecord} (awaited : r.release = some .sent ∨ r.release = some .unconfirmed) : r.committed = r.payout := by
  obtain sent | doubtful := awaited
  · exact committed_of (.inl rfl) sent
  · exact committed_of (.inr (.inr rfl)) doubtful

/-- A record changed in place without a change of what it has committed. -/
theorem Batch.accounts.map {b : Batch} (h : b.accounts) (releasing : b.state = .releasing) {f : BatchRecord → BatchRecord}
    (same : ∀ r, (f r).committed = r.committed) : Batch.accounts { b with records := b.records.map f } := by
  refine ⟨?_, .inl releasing⟩
  have kept : (b.records.map f).map BatchRecord.committed = b.records.map BatchRecord.committed := by simp [same]
  exact kept.symm ▸ h.1

theorem committed_abandonRecord (r : BatchRecord) : (abandonRecord r).committed = r.committed := by
  unfold abandonRecord
  split
  · next awaits => rw [committed_awaiting awaits]; rfl
  · rfl

/-- One record of the recovery: SENT becomes UNCONFIRMED (R166). -/
theorem Recovers.accounts {b : Batch} (recovers : Recovers s b) (h : s.batch.accounts) : b.accounts := by
  cases recovers with
  | completed due =>
    have computing := ((completionDue_iff s).1 due).1
    exact ⟨h.1, .inr (.inr (h.ungranted (by simp [computing]) (by simp [computing])))⟩
  | doubted releasing =>
    refine h.map (f := fun r => if r.release = some .sent then { r with release := some .unconfirmed } else r) releasing fun r => ?_
    split
    · next sent => exact (committed_set r (.inr (.inr rfl))).trans (committed_of (.inl rfl) sent).symm
    · rfl
  | stands => exact h

theorem BatchChange.keepsAccount (change : BatchChange s u) (h : s.batch.accounts) : u.batch.accounts := by
  cases change with
  | calculated q records totals computing below _ _ added =>
    obtain ⟨granted, fresh⟩ := h.ungranted (by simp [computing]) (by simp [computing])
    obtain rfl | ⟨r, rfl, -, new⟩ := added
    · exact ⟨h.1, .inr (.inr ⟨granted, fresh⟩)⟩
    · refine ⟨?_, .inr (.inr ⟨granted, fun x member => ?_⟩)⟩
      · simpa [committed_fresh new] using h.1
      · obtain old | rfl : x ∈ s.batch.records ∨ x = r := by simpa using member
        · exact fresh x old
        · exact new
  | completed due =>
    have computing := ((completionDue_iff s).1 due).1
    exact ⟨h.1, .inr (.inr (h.ungranted (by simp [computing]) (by simp [computing])))⟩
  | closed => exact ⟨rfl, .inr (.inr ⟨rfl, fun _ none => absurd none List.not_mem_nil⟩)⟩
  | adjusted => exact h
  | granted mode budget computed =>
    have fresh := h.ungranted (by simp [computed]) (by simp [computed])
    exact ⟨show budget + (s.batch.records.map BatchRecord.committed).sum = budget by rw [fresh.committed, add_zero], .inl rfl⟩
  | funded amount releasing =>
    have account := h.1
    exact ⟨show s.batch.remaining + amount + (s.batch.records.map BatchRecord.committed).sum = s.batch.granted + amount by omega,
      .inl releasing⟩
  | paid n r releasing found awaited =>
    have kept := h.setRelease releasing found .paid (remaining := s.batch.remaining)
      (by rw [committed_open awaited, committed_set r (.inr (.inl rfl))])
    simpa only [recordPaid, releaseSlot_batch] using kept
  | returned n r releasing found awaited =>
    exact h.setRelease releasing found .returned (by rw [committed_open awaited]; simp [BatchRecord.committed])
  | timedOut slot n m length r _ found _ sent =>
    have releasing : s.batch.state = .releasing ∨ s.batch.state = .settled := by
      refine or_iff_not_imp_left.2 fun running => by_contra fun unsettled => ?_
      have fresh := (h.ungranted running unsettled).2 r (List.mem_of_getElem? found)
      simp [sent] at fresh
    have sum := sum_setRelease BatchRecord.committed found .unconfirmed
    rw [committed_of (.inl rfl) sent, committed_set r (.inr (.inr rfl))] at sum
    have account := h.1
    exact ⟨show s.batch.remaining + ((setRelease n .unconfirmed s.batch.records).map BatchRecord.committed).sum = s.batch.granted by omega,
      releasing.imp_right .inl⟩
  | abandoned releasing => exact h.map releasing committed_abandonRecord

theorem Change.keepsAccount (change : Change i s u) (h : s.batch.accounts) : u.batch.accounts := by
  cases change with
  | stay => exact h
  | clock => exact h
  | till change =>
    obtain ⟨_, _, _, _, _, _, _, _, same⟩ := change.frame
    rw [same.eq]
    exact h
  | card _ change =>
    obtain ⟨_, _, _, _, rfl⟩ := change.frame
    exact h
  | directory change =>
    obtain ⟨_, _, _, rfl⟩ := change.frame
    exact h
  | table change =>
    obtain ⟨_, _, rfl⟩ := change.frame
    exact h
  | batch change => exact change.keepsAccount h
  | run change =>
    cases change with
    | reset => exact h
    | erasing => exact h
    | recovered _ _ recovers => exact recovers.accounts h
    | begun => exact h
    | erased => exact ⟨rfl, .inr (.inr ⟨rfl, fun _ none => absurd none List.not_mem_nil⟩)⟩

/-- A walk moves what it sends from the remaining budget to the committed payouts (R155). -/
theorem walkRecords_accounts (h : s.batch.accounts) (releasing : s.batch.state = .releasing) : (walkRecords s).batch.accounts := by
  let account : WalkState → Prop := fun w => w.remaining + (w.records.map BatchRecord.committed).sum = s.batch.granted
  have walked : account (walkGo s (releaseOrder s.batch.records)
      { records := s.batch.records, remaining := s.batch.remaining, window := s.window, awaiting := s.awaiting }) := by
    refine walkGo_induction s account (fun w n r before found awaits _ => ?_) (fun w n r slot before found awaits _ _ fits => ?_) _ _ h.1
    · have sum := sum_setRelease BatchRecord.committed found .waiting
      have free : ({ r with release := some .waiting } : BatchRecord).committed = 0 := by simp [BatchRecord.committed]
      rw [committed_awaiting awaits, free] at sum
      simp only [account] at before ⊢
      omega
    · have sum := sum_setRelease BatchRecord.committed found .sent
      rw [committed_awaiting awaits, committed_set r (.inl rfl)] at sum
      simp only [account, sendRecord] at before ⊢
      omega
  exact ⟨walked, .inl releasing⟩

theorem Aftermath.keepsAccount (after : Aftermath s t) (h : s.batch.accounts) : t.batch.accounts := by
  cases after with
  | traffic moves =>
    rw [moves.stores.eq]
    exact h
  | carry => exact h
  | settle => exact ⟨h.1, .inr (.inl rfl)⟩
  | walk _ releasing => exact walkRecords_accounts h releasing
  | place => exact h

/-- Settles O56: each change of a release state moves its payout between the remaining budget and the committed payouts. -/
theorem budgetAccountsForEveryPayout : Obligations.BudgetAccountsForEveryPayout := by
  intro s t holds stepped
  rw [budgetAccounts_iff] at holds ⊢
  exact step_keeps (P := fun s => s.batch.accounts) stepped id (fun moves h => by rw [moves.stores.eq]; exact h) Change.keepsAccount
    Aftermath.keepsAccount holds

end Sys2Proof.Machine
end

