-- ==== Sys2Proof/Proofs/WindowInvariant.lean ====
section
/-! The window of the Release Unit (R155, R156, R157): it holds exactly the SENT records, each in one slot. The merchants of the
window and of the SENT records are compared as multisets, so that one write and one change of state each move one merchant. -/

namespace Sys2Proof.Machine

variable {i : Instr} {s t u : State}

/-! ### The merchants as multisets -/

/-- The merchant of a slot, as often as the slot holds one. -/
def slotBag (slot : WindowSlot) : Multiset Nat := (slotMerchant slot).elim 0 fun m => {m}

def windowBag (w : Table WindowSlot) : Multiset Nat := (w.map fun e => slotBag e.2).sum

/-- The merchant of a record, if it is SENT. -/
def BatchRecord.sentBag (r : BatchRecord) : Multiset Nat := if r.release = some .sent then {r.merchant} else 0

def sentBag (records : List BatchRecord) : Multiset Nat := (records.map BatchRecord.sentBag).sum

theorem windowBag_eq (w : Table WindowSlot) : windowBag w = windowMerchants w := by
  induction w with
  | nil => rfl
  | cons e rest ih =>
    unfold windowBag windowMerchants at ih ⊢
    rw [List.map_cons, List.sum_cons, ih, List.filterMap_cons]
    cases merchant : slotMerchant e.2 with
    | none => simp [slotBag, merchant]
    | some m => simp [slotBag, merchant]

theorem sentBag_eq (records : List BatchRecord) : sentBag records = sentMerchants records := by
  induction records with
  | nil => rfl
  | cons r rest ih =>
    unfold sentBag sentMerchants at ih ⊢
    rw [List.map_cons, List.sum_cons, ih, List.filter_cons]
    by_cases sent : r.release = some .sent <;> simp [BatchRecord.sentBag, sent]

theorem sentBag_le (records : List BatchRecord) : sentBag records ≤ (records.map BatchRecord.merchant : List Nat) := by
  rw [sentBag_eq]
  exact (List.Sublist.map _ List.filter_sublist).subperm

theorem windowBag_write {w : Table WindowSlot} (form : w.wf .free = true) (k : Nat) (slot : WindowSlot) :
    windowBag (w.write .free k slot) + slotBag (w.read .free k) = windowBag w + slotBag slot := by
  unfold windowBag
  exact Table.sum_write .free slotBag rfl w k slot form

/-- The slots that hold a merchant's record leave the bag without that merchant. -/
theorem windowBag_vacate (w : Table WindowSlot) (m : Nat) :
    windowBag (w.filter fun e => decide (slotMerchant e.2 ≠ some m)) = (windowBag w).filter (· ≠ m) := by
  rw [windowBag_eq, windowBag_eq, Multiset.filter_coe]
  congr 1
  unfold windowMerchants
  induction w with
  | nil => rfl
  | cons e rest ih =>
    simp only [List.filter_cons, List.filterMap_cons]
    cases merchant : slotMerchant e.2 with
    | none => simpa [merchant] using ih
    | some n => by_cases own : n = m <;> simpa [merchant, own] using ih

/-! ### A store whose entries are kept by value -/

theorem Table.read_filter {α : Type} [DecidableEq α] {d : α} {t : Table α} (form : t.wf d = true) (p : α → Bool) (k : Nat) :
    Table.read d (t.filter fun e => p e.2) k = if p (t.read d k) then t.read d k else d := by
  have ordered : ∀ low, Table.wfFrom d low t = true →
      Table.read d (t.filter fun e => p e.2) k = if p (t.read d k) then t.read d k else d := by
    induction t with
    | nil => intro _ _; exact (ite_self d).symm
    | cons e rest ih =>
      obtain ⟨j, v⟩ := e
      intro low ordered
      rw [Table.wfFrom_cons] at ordered
      have later := ih (Table.wfFrom_weaken d ordered.2.2 fun _ _ _ none => by cases none) (some j) ordered.2.2
      rw [List.filter_cons]
      by_cases here : j = k
      · subst here
        have gone := Table.read_of_wfFrom_le d j j _ (Table.wfFrom_filter d (fun e => p e.2) (some j) rest ordered.2.2) le_rfl
        cases keeps : p v <;> simp [Table.read, keeps, gone]
      · cases keeps : p v <;> simp [Table.read, here, later]
  exact ordered none form

/-- No entry of a canonical store holds the value of an unlisted number. -/
theorem Table.ne_of_mem {α : Type} [DecidableEq α] {d : α} {t : Table α} (form : t.wf d = true) {e : Nat × α} (member : e ∈ t) : e.2 ≠ d := by
  have ordered : ∀ low, Table.wfFrom d low t = true → e ∈ t → e.2 ≠ d := by
    induction t with
    | nil => simp
    | cons a rest ih =>
      obtain ⟨k, v⟩ := a
      intro low ordered there
      rw [Table.wfFrom_cons] at ordered
      rcases List.mem_cons.1 there with rfl | there
      · exact ordered.2.1
      · exact ih (Table.wfFrom_weaken d ordered.2.2 fun _ _ _ none => by cases none) there (some k) ordered.2.2 there
  exact ordered none form member

/-- The numbers of a canonical store are distinct. -/
theorem Table.nodup_of_wf {α : Type} [DecidableEq α] {d : α} {t : Table α} (form : t.wf d = true) : (t.map Prod.fst).Nodup := by
  have ordered : ∀ low, Table.wfFrom d low t = true → (t.map Prod.fst).Nodup ∧ ∀ k ∈ t.map Prod.fst, ∀ l, low = some l → l < k := by
    induction t with
    | nil => simp
    | cons a rest ih =>
      obtain ⟨k, v⟩ := a
      intro low ordered
      rw [Table.wfFrom_cons] at ordered
      obtain ⟨above, -, later⟩ := ordered
      obtain ⟨once, higher⟩ := ih (Table.wfFrom_weaken d later fun _ _ _ none => by cases none) (some k) later
      refine ⟨List.nodup_cons.2 ⟨fun again => (higher k again k rfl).false, once⟩, fun j member l bound => ?_⟩
      obtain rfl | there := List.mem_cons.1 member
      · exact above l bound
      · exact (above l bound).trans (higher j there k rfl)
  exact (ordered none form).1

/-! ### Slots -/

/-- The window in canonical form over slots 0 to 15, and the slots that await egress, each once. -/
structure SlotsSound (window : Table WindowSlot) (awaiting : List Nat) : Prop where
  form : window.wf .free = true
  slots : ∀ k, window.read .free k ≠ .free → k < 16
  once : awaiting.Nodup
  awaits : ∀ k ∈ awaiting, ∃ m f, window.read .free k = .awaiting m f

theorem slotsSound_empty : SlotsSound [] [] :=
  ⟨rfl, fun _ filled => absurd rfl filled, List.nodup_nil, fun _ none => absurd none List.not_mem_nil⟩

section
variable {window : Table WindowSlot} {awaiting : List Nat} (h : SlotsSound window awaiting)
include h

/-- Fewer slots may await egress. -/
theorem SlotsSound.sublist {fewer : List Nat} (part : fewer.Sublist awaiting) : SlotsSound window fewer :=
  ⟨h.form, h.slots, h.once.sublist part, fun k member => h.awaits k (part.subset member)⟩

/-- A slot that does not await egress may be written. -/
theorem SlotsSound.write {k : Nat} (bound : k < 16) (other : k ∉ awaiting) (slot : WindowSlot) :
    SlotsSound (window.write .free k slot) awaiting := by
  refine ⟨Table.wf_write _ _ _ _ h.form, fun j filled => ?_, h.once, fun j member => ?_⟩
  · by_cases here : j = k
    · exact here ▸ bound
    · rw [Table.read_write_ne _ _ _ here] at filled
      exact h.slots j filled
  · have apart : j ≠ k := fun here => other (here ▸ member)
    rw [Table.read_write_ne _ _ _ apart]
    exact h.awaits j member

/-- A free slot takes an instruction that awaits egress (R155). -/
theorem SlotsSound.send {k : Nat} (bound : k < 16) (free : window.read .free k = .free) (m : Nat) (f : Frame) :
    SlotsSound (window.write .free k (.awaiting m f)) (awaiting ++ [k]) := by
  have fresh : k ∉ awaiting := fun member => by
    obtain ⟨_, _, filled⟩ := h.awaits k member
    simp [free] at filled
  have written := h.write bound fresh (.awaiting m f)
  refine ⟨written.form, written.slots, ?_, fun j member => ?_⟩
  · exact List.nodup_append.2 ⟨h.once, List.nodup_singleton k, fun a inOld b inNew same => fresh (List.mem_singleton.1 inNew ▸ same ▸ inOld)⟩
  · obtain old | new := List.mem_append.1 member
    · exact written.awaits j old
    · exact ⟨m, f, List.mem_singleton.1 new ▸ Table.read_write_same _ _ _ _⟩

/-- The slots of a merchant are freed (R160, R161). -/
theorem SlotsSound.vacate (m : Nat) :
    SlotsSound (window.filter fun e => decide (slotMerchant e.2 ≠ some m))
      (awaiting.filter fun k => decide (slotMerchant (window.read .free k) ≠ some m)) := by
  have read := Table.read_filter h.form fun slot => decide (slotMerchant slot ≠ some m)
  refine ⟨Table.wf_filter _ _ _ h.form, fun k filled => ?_, h.once.filter _, fun k member => ?_⟩
  · refine h.slots k fun free => filled ?_
    rw [read, free]
    exact ite_self _
  · obtain ⟨old, kept⟩ := List.mem_filter.1 member
    rw [read, if_pos kept]
    exact h.awaits k old

/-- In an empty window nothing awaits egress. -/
theorem SlotsSound.none_awaits (empty : window = []) : awaiting = [] := by
  refine List.eq_nil_iff_forall_not_mem.2 fun k member => ?_
  obtain ⟨_, _, filled⟩ := h.awaits k member
  rw [empty] at filled
  cases filled

end

/-- The placing of instructions turns slots that await egress to TIMING, each with its merchant (R157). -/
theorem drainGo_sound (link : Link) (timeout : Nat) (ks rest : List Nat) : ∀ w q n, SlotsSound w (ks ++ rest) →
    SlotsSound (drainGo link timeout ks w q n).2.1 ((drainGo link timeout ks w q n).1 ++ rest) ∧
      windowBag (drainGo link timeout ks w q n).2.1 = windowBag w := by
  induction ks with
  | nil => exact fun w q n h => ⟨h, rfl⟩
  | cons k ks ih =>
    intro w q n h
    have later := h.sublist (List.sublist_cons_self k (ks ++ rest))
    unfold drainGo
    split
    · next m f filled =>
      have fresh : k ∉ ks ++ rest := (List.nodup_cons.1 h.once).1
      have written := later.write (h.slots k (by simp [filled])) fresh (.timing m timeout)
      have same : windowBag (w.write .free k (.timing m timeout)) = windowBag w := by
        have bag := windowBag_write h.form k (.timing m timeout)
        rw [filled] at bag
        exact add_right_cancel bag
      split
      · exact (ih _ _ _ written).imp_right (·.trans same)
      · split
        · exact (ih _ _ _ written).imp_right (·.trans same)
        · exact ⟨h, rfl⟩
    · exact ih _ _ _ later
    · exact ih _ _ _ later

/-! ### Records -/

/-- Merchants rise along the batch, and below the cursor while it computes; only PAY records of a batch in release are SENT. -/
structure RecordsSound (state : BatchState) (cursor : Nat) (records : List BatchRecord) : Prop where
  rising : (records.map BatchRecord.merchant).Pairwise (· < ·)
  below : state = .computing → ∀ r ∈ records, r.merchant < cursor
  sent : ∀ r ∈ records, r.release = some .sent → r.isPay = true ∧ state = .releasing

theorem recordsSound_nil (state : BatchState) (cursor : Nat) : RecordsSound state cursor [] :=
  ⟨List.Pairwise.nil, fun _ _ none => absurd none List.not_mem_nil, fun _ none => absurd none List.not_mem_nil⟩

theorem mem_setRelease {n : Nat} {x : ReleaseState} {records : List BatchRecord} {r : BatchRecord} (member : r ∈ setRelease n x records) :
    (∃ a, records[n]? = some a ∧ r = { a with release := some x }) ∨ r ∈ records := by
  obtain ⟨j, stored⟩ := List.mem_iff_getElem?.1 member
  rw [setRelease, modifyAt_getElem?] at stored
  split at stored
  · next here =>
    obtain ⟨a, found, rfl⟩ := Option.map_eq_some_iff.1 stored
    exact .inl ⟨a, here ▸ found, rfl⟩
  · exact .inr (List.mem_of_getElem? stored)

theorem merchants_setRelease (n : Nat) (x : ReleaseState) (records : List BatchRecord) :
    (setRelease n x records).map BatchRecord.merchant = records.map BatchRecord.merchant := by
  unfold setRelease
  induction records generalizing n with
  | nil => rfl
  | cons r rest ih =>
    cases n with
    | zero => rfl
    | succ n => exact congrArg (r.merchant :: ·) (ih n)

section
variable {state : BatchState} {cursor : Nat} {records : List BatchRecord} (h : RecordsSound state cursor records)
include h

/-- Each SENT record is of another merchant (R136). -/
theorem RecordsSound.nodup : (sentBag records).Nodup :=
  Multiset.nodup_of_le (sentBag_le records) (Multiset.coe_nodup.2 (h.rising.imp ne_of_lt))

/-- Outside a release no record is SENT. -/
theorem RecordsSound.none_sent (calm : state ≠ .releasing) : ∀ r ∈ records, r.release ≠ some .sent :=
  fun r member sent => calm (h.sent r member sent).2

theorem RecordsSound.setRelease {n : Nat} {r : BatchRecord} (found : records[n]? = some r) (x : ReleaseState)
    (sends : x = .sent → r.isPay = true ∧ state = .releasing) : RecordsSound state cursor (setRelease n x records) := by
  refine ⟨by rw [merchants_setRelease]; exact h.rising, fun computing a member => ?_, fun a member sent => ?_⟩
  · obtain ⟨b, stored, rfl⟩ | old := mem_setRelease member
    · exact h.below computing b (List.mem_of_getElem? stored)
    · exact h.below computing a old
  · obtain ⟨b, stored, rfl⟩ | old := mem_setRelease member
    · obtain rfl : r = b := Option.some.inj (found.symm.trans stored)
      exact sends (Option.some.inj sent)
    · exact h.sent a old sent

/-- A batch that leaves or enters a release while nothing is SENT. -/
theorem RecordsSound.restate {state' : BatchState} (none : ∀ r ∈ records, r.release ≠ some .sent) (computes : state' ≠ .computing) :
    RecordsSound state' cursor records :=
  ⟨h.rising, fun computing => absurd computing computes, fun r member sent => absurd sent (none r member)⟩

/-- Records changed in place, none of them SENT by the change. -/
theorem RecordsSound.map {f : BatchRecord → BatchRecord} (merchant : ∀ r, (f r).merchant = r.merchant)
    (sends : ∀ r, (f r).release = some .sent → f r = r) : RecordsSound state cursor (records.map f) := by
  refine ⟨?_, fun computing a member => ?_, fun a member sent => ?_⟩
  · rw [List.map_map, show BatchRecord.merchant ∘ f = BatchRecord.merchant from funext merchant]
    exact h.rising
  · obtain ⟨r, stored, rfl⟩ := List.mem_map.1 member
    exact merchant r ▸ h.below computing r stored
  · obtain ⟨r, stored, rfl⟩ := List.mem_map.1 member
    have same := sends r sent
    rw [same] at sent ⊢
    exact h.sent r stored sent

end

theorem sentBag_of_none {records : List BatchRecord} (none : ∀ r ∈ records, r.release ≠ some .sent) : sentBag records = 0 := by
  refine List.sum_eq_zero fun x member => ?_
  obtain ⟨r, stored, rfl⟩ := List.mem_map.1 member
  exact if_neg (none r stored)

theorem sentBag_setRelease {records : List BatchRecord} {n : Nat} {r : BatchRecord} (found : records[n]? = some r) (x : ReleaseState) :
    sentBag (setRelease n x records) + r.sentBag = sentBag records + BatchRecord.sentBag { r with release := some x } :=
  sum_setRelease BatchRecord.sentBag found x

/-- The SENT record that ends leaves its merchant out of the bag, and no other record is of that merchant. -/
theorem sentBag_filter {state : BatchState} {cursor : Nat} {records : List BatchRecord} (h : RecordsSound state cursor records) {n : Nat}
    {r : BatchRecord} (found : records[n]? = some r) (sent : r.release = some .sent) {x : ReleaseState} (ends : x ≠ .sent) :
    (sentBag records).filter (· ≠ r.merchant) = sentBag (setRelease n x records) := by
  have bag := sentBag_setRelease found x
  have own : r.sentBag = {r.merchant} := if_pos sent
  have none : BatchRecord.sentBag { r with release := some x } = 0 := if_neg (by simpa using ends)
  rw [own, none, add_zero] at bag
  have apart : r.merchant ∉ sentBag (setRelease n x records) := by
    have nodup := h.nodup
    rw [← bag, add_comm, Multiset.singleton_add] at nodup
    exact (Multiset.nodup_cons.1 nodup).1
  rw [← bag, add_comm, Multiset.singleton_add, Multiset.filter_cons_of_neg _ (by simp)]
  exact Multiset.filter_eq_self.2 fun a member same => apart (same ▸ member)

/-- A record that was not SENT and is not made SENT leaves the bag. -/
theorem sentBag_same {records : List BatchRecord} {n : Nat} {r : BatchRecord} (found : records[n]? = some r) {x : ReleaseState}
    (before : r.release ≠ some .sent) (after : x ≠ .sent) : sentBag (setRelease n x records) = sentBag records := by
  have bag := sentBag_setRelease found x
  rw [show r.sentBag = 0 from if_neg before,
    show BatchRecord.sentBag { r with release := some x } = 0 from if_neg (by simpa using after)] at bag
  simpa using bag

/-! ### The state -/

/-- The window is compared with the records: not in a reset, nor in an erasure that began in one. -/
def comparesWindow (s : State) : Prop := s.inReset = false ∧ s.clearRun ≠ .repeated ∧ s.clearRun ≠ .initialising

/-- `windowHoldsSent` by name. -/
structure WindowSound (s : State) : Prop where
  slots : SlotsSound s.window s.awaiting
  records : RecordsSound s.batch.state s.batch.cursor s.batch.records
  empty : s.inReset = true → s.window = []
  matched : comparesWindow s → windowBag s.window = sentBag s.batch.records

theorem slotsSound_iff (window : Table WindowSlot) (awaiting : List Nat) : SlotsSound window awaiting ↔
    window.wf .free = true ∧ (∀ e ∈ window, e.1 < Config.windowSlots) ∧ awaiting.Nodup ∧
      ∀ k ∈ awaiting, ∃ m f, window.read .free k = .awaiting m f := by
  constructor
  · rintro ⟨form, slots, once, awaits⟩
    refine ⟨form, fun e member => slots e.1 ?_, once, awaits⟩
    rw [Table.read_of_mem form member]
    exact Table.ne_of_mem form member
  · rintro ⟨form, slots, once, awaits⟩
    exact ⟨form, fun k filled => slots _ (Table.mem_of_read filled), once, awaits⟩

end Sys2Proof.Machine
end

