-- ==== Sys2Proof/Proofs/WindowSteps.lean ====
section
/-! Each change keeps the window on the SENT records (R156), and there they are as many as the occupied slots. -/

namespace Sys2Proof.Machine

variable {i : Instr} {s t u : State}

theorem isPerm_iff_bags (w : Table WindowSlot) (records : List BatchRecord) :
    (windowMerchants w).isPerm (sentMerchants records) = true ↔ windowBag w = sentBag records := by
  rw [List.isPerm_iff, windowBag_eq, sentBag_eq, Multiset.coe_eq_coe]

theorem comparesWindow_iff (s : State) : comparesWindow s ↔
    ¬((s.inReset || decide (s.clearRun = .repeated) || decide (s.clearRun = .initialising)) = true) := by
  simp [comparesWindow, and_assoc]

theorem windowHoldsSent_iff (s : State) : windowHoldsSent s = true ↔ WindowSound s := by
  have awaits : (s.awaiting.all fun k => match s.window.read .free k with
      | .awaiting _ _ => true | .free => false | .timing _ _ => false) = true ↔
      ∀ k ∈ s.awaiting, ∃ m f, s.window.read .free k = .awaiting m f := by
    rw [List.all_eq_true]
    refine forall₂_congr fun k _ => ?_
    cases s.window.read .free k <;> simp
  have empty : (!s.inReset || decide (s.window = [])) = true ↔ (s.inReset = true → s.window = []) := by
    simp [imp_iff_not_or]
  have below : (decide (s.batch.state ≠ .computing) || s.batch.records.all fun r => decide (r.merchant < s.batch.cursor)) = true ↔
      (s.batch.state = .computing → ∀ r ∈ s.batch.records, r.merchant < s.batch.cursor) := by
    simp [imp_iff_not_or]
  have sent : (s.batch.records.all fun r => decide (r.release ≠ some .sent) || (r.isPay && decide (s.batch.state = .releasing))) = true ↔
      ∀ r ∈ s.batch.records, r.release = some .sent → r.isPay = true ∧ s.batch.state = .releasing := by
    simp [imp_iff_not_or]
  have matched : (s.inReset || decide (s.clearRun = .repeated) || decide (s.clearRun = .initialising) ||
      (windowMerchants s.window).isPerm (sentMerchants s.batch.records)) = true ↔
      (comparesWindow s → windowBag s.window = sentBag s.batch.records) := by
    rw [Bool.or_eq_true, isPerm_iff_bags, comparesWindow_iff]
    exact or_iff_not_imp_left
  have slots : (s.window.all fun e => decide (e.1 < Config.windowSlots)) = true ↔ ∀ e ∈ s.window, e.1 < Config.windowSlots := by
    simp [List.all_eq_true]
  unfold windowHoldsSent
  simp only [Bool.and_eq_true, empty, below, sent, matched, slots, decide_eq_true_eq]
  constructor
  · rintro ⟨⟨⟨⟨⟨⟨⟨⟨form, bound⟩, once⟩, egress⟩, held⟩, rising⟩, computing⟩, paying⟩, same⟩
    exact ⟨(slotsSound_iff _ _).2 ⟨form, bound, once, awaits.1 egress⟩, ⟨rising, computing, paying⟩, held, same⟩
  · rintro ⟨slotsSound, ⟨rising, computing, paying⟩, held, same⟩
    obtain ⟨form, bound, once, egress⟩ := (slotsSound_iff _ _).1 slotsSound
    exact ⟨⟨⟨⟨⟨⟨⟨⟨form, bound⟩, once⟩, awaits.2 egress⟩, held⟩, rising⟩, computing⟩, paying⟩, same⟩

theorem WindowSound.bags_of_calm (h : WindowSound s) (calm : s.batch.state ≠ .releasing) (compares : comparesWindow s) :
    windowBag s.window = 0 := (h.matched compares).trans (sentBag_of_none (h.records.none_sent calm))

/-! ### One record that ends -/

/-- A SENT or UNCONFIRMED record ends in another state and its slot, if it has one, is freed (R160, R161). -/
theorem WindowSound.endRecord (h : WindowSound s) {n : Nat} {r : BatchRecord} (found : s.batch.records[n]? = some r) {x : ReleaseState}
    (ends : x ≠ .sent) {remaining : Nat} : WindowSound { releaseSlot r s with
      batch := { s.batch with records := setRelease n x s.batch.records, remaining := remaining } } := by
  have records := h.records.setRelease found x fun same => absurd same ends
  unfold releaseSlot
  split
  · next sent =>
    refine ⟨h.slots.vacate r.merchant, records, fun held => ?_, fun compares => ?_⟩
    · show s.window.filter _ = []
      rw [h.empty held]
      rfl
    · show windowBag (s.window.filter _) = _
      rw [windowBag_vacate, h.matched compares]
      exact sentBag_filter h.records found sent ends
  · next other =>
    exact ⟨h.slots, records, h.empty, fun compares => (h.matched compares).trans (sentBag_same found other ends).symm⟩

/-- The expiry of a timer frees the slot of a record that becomes UNCONFIRMED (R158). -/
theorem WindowSound.expire (h : WindowSound s) {slot n m length : Nat} {r : BatchRecord} (timing : s.window.read .free slot = .timing m length)
    (found : s.batch.records[n]? = some r) (own : r.merchant = m) (sent : r.release = some .sent) : WindowSound { s with
      batch := { s.batch with records := setRelease n .unconfirmed s.batch.records }, window := s.window.write .free slot .free } := by
  have bound := h.slots.slots slot (by simp [timing])
  have other : slot ∉ s.awaiting := fun member => by
    obtain ⟨_, _, filled⟩ := h.slots.awaits slot member
    simp [timing] at filled
  refine ⟨h.slots.write bound other .free, h.records.setRelease found .unconfirmed fun same => ReleaseState.noConfusion same, fun held => ?_,
    fun compares => ?_⟩
  · have empty : s.window = [] := h.empty held
    rw [empty] at timing
    cases timing
  · have bag := windowBag_write h.slots.form slot .free
    have ended := sentBag_setRelease found .unconfirmed
    rw [timing, h.matched compares] at bag
    have one : r.sentBag = {r.merchant} := if_pos sent
    have none : BatchRecord.sentBag { r with release := some .unconfirmed } = 0 := if_neg (by simp)
    rw [one, none, own, add_zero] at ended
    exact add_right_cancel (b := ({m} : Multiset Nat)) ((bag.trans (add_zero _)).trans ended.symm)

/-! ### The batch -/

theorem BatchChange.keepsWindow (change : BatchChange s u) (h : WindowSound s) : WindowSound u := by
  cases change with
  | calculated q records totals computing below _ _ added =>
    obtain rfl | ⟨r, rfl, merchant, fresh⟩ := added
    · exact { h with records := { h.records with below := fun _ r member => (h.records.below computing r member).trans (Nat.lt_succ_self _) } }
    · have unsent : r.release ≠ some .sent := by
        obtain none | pending := fresh
        · simp [none]
        · simp [pending]
      refine ⟨h.slots, ⟨?_, fun _ a member => ?_, fun a member sent => ?_⟩, h.empty, fun compares => (h.matched compares).trans ?_⟩
      · rw [List.map_append, List.pairwise_append]
        refine ⟨h.records.rising, List.pairwise_singleton _ _, fun a old b new => ?_⟩
        obtain ⟨x, stored, rfl⟩ := List.mem_map.1 old
        rw [List.mem_singleton.1 new, merchant]
        exact h.records.below computing x stored
      · obtain old | new := List.mem_append.1 member
        · exact (h.records.below computing a old).trans (Nat.lt_succ_self _)
        · rw [List.mem_singleton.1 new, merchant]
          exact Nat.lt_succ_self _
      · obtain old | new := List.mem_append.1 member
        · exact h.records.sent a old sent
        · exact absurd (List.mem_singleton.1 new ▸ sent) unsent
      · simp [sentBag, BatchRecord.sentBag, unsent]
  | completed due =>
    have computing := ((completionDue_iff s).1 due).1
    exact { h with records := h.records.restate (h.records.none_sent (by simp [computing])) BatchState.noConfusion }
  | closed _ _ idle =>
    have calm : s.batch.state ≠ .releasing := by
      obtain empty | settled := idle
      · simp [empty]
      · simp [settled]
    have begun : (closeWrite s).batch = Batch.begun s.cycle := by simp only [closeWrite]
    obtain ⟨_, _, _, _, written⟩ := closeWrite_frame s
    rw [written] at begun ⊢
    dsimp only at begun
    subst begun
    exact ⟨h.slots, recordsSound_nil _ _, h.empty, fun compares => h.bags_of_calm calm compares⟩
  | adjusted => exact { h with }
  | granted mode budget computed =>
    exact { h with records := h.records.restate (h.records.none_sent (by simp [computed])) BatchState.noConfusion }
  | funded => exact { h with }
  | paid n r _ found =>
    have kept := h.endRecord found (x := .paid) ReleaseState.noConfusion (remaining := s.batch.remaining)
    simpa only [recordPaid, releaseSlot_batch] using kept
  | returned n r _ found => exact h.endRecord found ReleaseState.noConfusion
  | timedOut slot n m length r timing found own sent => exact h.expire timing found own sent
  | abandoned =>
    have kept : ∀ r, (abandonRecord r).sentBag = r.sentBag := by
      intro r
      unfold abandonRecord
      split
      · next awaits =>
        simp only [BatchRecord.awaitsSending, Bool.and_eq_true, Bool.or_eq_true, decide_eq_true_eq] at awaits
        obtain ⟨-, pending | waiting⟩ := awaits
        · simp [BatchRecord.sentBag, pending]
        · simp [BatchRecord.sentBag, waiting]
      · rfl
    refine ⟨h.slots, h.records.map (fun r => ?_) (fun r sent => ?_), h.empty, fun compares => (h.matched compares).trans ?_⟩
    · unfold abandonRecord
      split <;> rfl
    · unfold abandonRecord at sent ⊢
      split at sent
      · cases sent
      · rw [if_neg ‹_›]
    · simp only [sentBag, List.map_map, Function.comp_def, kept]

/-- The recovery leaves no record SENT, as a reset leaves no slot occupied (R166). -/
theorem Recovers.keepsWindow {batch : Batch} (recovers : Recovers s batch) (h : WindowSound s) :
    RecordsSound batch.state batch.cursor batch.records ∧ sentBag batch.records = 0 := by
  cases recovers with
  | completed due =>
    have computing := ((completionDue_iff s).1 due).1
    have none := h.records.none_sent (by simp [computing])
    exact ⟨h.records.restate none BatchState.noConfusion, sentBag_of_none none⟩
  | doubted =>
    refine ⟨h.records.map (fun r => by split <;> rfl) fun r sent => ?_, sentBag_of_none fun r member => ?_⟩
    · split at sent
      · cases sent
      · rw [if_neg ‹_›]
    · obtain ⟨a, -, rfl⟩ := List.mem_map.1 member
      split
      · simp
      · assumption
  | stands calm => exact ⟨h.records, sentBag_of_none (h.records.none_sent calm)⟩

theorem RunChange.keepsWindow (change : RunChange i s u) (h : WindowSound s) : WindowSound u := by
  cases change with
  | reset => exact ⟨slotsSound_empty, h.records, fun _ => rfl, fun compares => Bool.noConfusion compares.1⟩
  | erasing run _ kind =>
    refine ⟨h.slots, h.records, fun held => Bool.noConfusion held, fun compares => ?_⟩
    obtain repeated | first := kind
    · exact absurd repeated compares.2.1
    · exact absurd first compares.2.2
  | recovered batch held recovers =>
    obtain ⟨records, none⟩ := recovers.keepsWindow h
    refine ⟨h.slots, records, fun again => Bool.noConfusion again, fun _ => ?_⟩
    rw [show batch.records = ({ s with batch := batch } : State).batch.records from rfl] at none
    rw [none]
    show windowBag s.window = 0
    rw [h.empty held]
    rfl
  | begun calm =>
    have run : s.clearRun = .none := by simpa [clearing] using calm
    exact ⟨h.slots.sublist (List.nil_sublist _), h.records, h.empty, fun compares => h.matched ⟨compares.1, by simp [run], by simp [run]⟩⟩
  | erased =>
    exact ⟨slotsSound_empty, recordsSound_nil _ _, fun _ => rfl, fun _ => rfl⟩

theorem Change.keepsWindow (change : Change i s u) (h : WindowSound s) : WindowSound u := by
  cases change with
  | stay => exact h
  | clock => exact { h with }
  | till change =>
    obtain ⟨_, _, _, _, _, _, _, _, same⟩ := change.frame
    rw [same.eq]
    exact { h with }
  | card _ change =>
    obtain ⟨_, _, _, _, rfl⟩ := change.frame
    exact { h with }
  | directory change =>
    obtain ⟨_, _, _, rfl⟩ := change.frame
    exact { h with }
  | table change =>
    obtain ⟨_, _, rfl⟩ := change.frame
    exact { h with }
  | batch change => exact change.keepsWindow h
  | run change => exact change.keepsWindow h

/-! ### The walk and what follows -/

/-- What a walk keeps of the window and the records. -/
structure WalkSound (s : State) (w : WalkState) : Prop where
  slots : SlotsSound w.window w.awaiting
  records : RecordsSound s.batch.state s.batch.cursor w.records
  matched : comparesWindow s → windowBag w.window = sentBag w.records

/-- A record that is sent takes a free slot (R155). -/
theorem WalkSound.send {w : WalkState} (h : WalkSound s w) (releasing : s.batch.state = .releasing) {n slot : Nat} {r : BatchRecord}
    (found : w.records[n]? = some r) (awaits : r.awaitsSending = true) (free : freeSlot w.window = some slot) :
    WalkSound s (sendRecord s n r slot w) := by
  obtain ⟨bound, vacant⟩ := freeSlot_some free
  simp only [BatchRecord.awaitsSending, Bool.and_eq_true, Bool.or_eq_true, decide_eq_true_eq] at awaits
  obtain ⟨pays, waits⟩ := awaits
  refine ⟨h.slots.send bound vacant _ _, h.records.setRelease found .sent fun _ => ⟨pays, releasing⟩, fun compares => ?_⟩
  have bag := windowBag_write h.slots.form slot (.awaiting r.merchant (instructionFrame s r slot))
  have sent := sentBag_setRelease found .sent
  have before : r.sentBag = 0 := if_neg (by obtain pending | waiting := waits <;> simp [*])
  have after : BatchRecord.sentBag { r with release := some .sent } = {r.merchant} := if_pos rfl
  rw [before, after, add_zero] at sent
  rw [vacant, h.matched compares, show slotBag WindowSlot.free = 0 from rfl, add_zero] at bag
  exact bag.trans sent.symm

/-- A record that does not fit becomes WAITING, and the window stands (R152, R153). -/
theorem WalkSound.mark {w : WalkState} (h : WalkSound s w) {n : Nat} {r : BatchRecord} (found : w.records[n]? = some r)
    (awaits : r.awaitsSending = true) : WalkSound s { w with records := setRelease n .waiting w.records } := by
  have unsent : r.release ≠ some .sent := fun sent => by simp [BatchRecord.awaitsSending, sent] at awaits
  exact ⟨h.slots, h.records.setRelease found .waiting fun same => ReleaseState.noConfusion same,
    fun compares => (h.matched compares).trans (sentBag_same found unsent ReleaseState.noConfusion).symm⟩

theorem walkRecords_sound (h : WindowSound s) (out : s.inReset = false) (releasing : s.batch.state = .releasing) :
    WindowSound (walkRecords s) := by
  have walked := walkGo_induction s (WalkSound s) (fun w n r before found awaits _ => before.mark found awaits)
    (fun w n r slot before found awaits free _ _ => before.send releasing found awaits free) (releaseOrder s.batch.records)
    { records := s.batch.records, remaining := s.batch.remaining, window := s.window, awaiting := s.awaiting }
    ⟨h.slots, h.records, h.matched⟩
  exact ⟨walked.slots, walked.records, fun held => Bool.noConfusion (out.symm.trans held), walked.matched⟩

theorem placeSome_sound {offered rest : List Nat} (h : WindowSound s) (all : s.awaiting = offered ++ rest) :
    WindowSound (placeSome offered rest s) := by
  have drained := drainGo_sound s.officeLink s.settings.confirmationTimeout offered rest s.window s.officeOut 0 (all ▸ h.slots)
  refine ⟨drained.1, h.records, fun held => ?_, fun compares => drained.2.trans (h.matched compares)⟩
  have empty := h.empty held
  have none : offered = [] := (List.append_eq_nil_iff.1 (all ▸ h.slots.none_awaits empty)).1
  subst none
  exact empty

theorem Aftermath.keepsWindow (after : Aftermath s t) (h : WindowSound s) : WindowSound t := by
  cases after with
  | traffic moves =>
    rw [moves.stores.eq]
    exact { h with }
  | carry => exact { h with }
  | settle _ final =>
    refine { h with records := h.records.restate (fun r member sent => ?_) BatchState.noConfusion }
    have ended := List.all_eq_true.1 final r member
    simp [(h.records.sent r member sent).1, BatchRecord.isFinal, sent] at ended
  | walk out releasing => exact walkRecords_sound h out releasing
  | place offered rest all => exact placeSome_sound h all

/-! ### As many records as slots -/

/-- The occupied slots are the entries of the window (R156). -/
theorem SlotsSound.occupied {window : Table WindowSlot} {awaiting : List Nat} (h : SlotsSound window awaiting) :
    occupiedSlots window = (windowBag window).card := by
  have merchants : (windowMerchants window).length = window.length := by
    unfold windowMerchants
    rw [List.length_filterMap_eq_countP, List.countP_eq_length]
    intro e member
    have filled := Table.ne_of_mem h.form member
    cases stored : e.2 with
    | free => exact absurd stored filled
    | awaiting => rfl
    | timing => rfl
  have numbers : (window.map Prod.fst).Nodup := Table.nodup_of_wf h.form
  have same : ((List.range Config.windowSlots).filter fun k => decide (window.read .free k ≠ .free)).Perm (window.map Prod.fst) := by
    refine (List.perm_ext_iff_of_nodup (List.nodup_range.filter _) numbers).2 fun k => ?_
    rw [List.mem_filter, List.mem_range, decide_eq_true_eq]
    constructor
    · rintro ⟨-, filled⟩
      exact List.mem_map.2 ⟨_, Table.mem_of_read filled, rfl⟩
    · intro member
      obtain ⟨e, stored, rfl⟩ := List.mem_map.1 member
      have filled : window.read .free e.1 ≠ .free := Table.read_of_mem h.form stored ▸ Table.ne_of_mem h.form stored
      exact ⟨h.slots _ filled, filled⟩
  rw [windowBag_eq, Multiset.coe_card, merchants, occupiedSlots, List.countP_eq_length_filter, same.length_eq, List.length_map]

theorem card_sentBag (records : List BatchRecord) : (sentBag records).card = sentCount records := by
  rw [sentBag_eq, Multiset.coe_card, sentMerchants, List.length_map, sentCount, List.countP_eq_length_filter]

/-- Settles O57: a send takes a free slot and each end of a SENT record frees its own. -/
theorem windowHoldsExactlyTheSentRecords : Obligations.WindowHoldsExactlyTheSentRecords := by
  constructor
  · intro s t holds stepped
    rw [windowHoldsSent_iff] at holds ⊢
    exact step_keeps stepped (fun h => { h with }) (fun moves h => by rw [moves.stores.eq]; exact { h with }) Change.keepsWindow
      Aftermath.keepsWindow holds
  · intro s holds out run
    rw [windowHoldsSent_iff] at holds
    have compares : comparesWindow s := by
      refine ⟨out, ?_⟩
      obtain none | accepted := run
      · simp [none]
      · simp [accepted]
    refine ⟨?_, List.countP_le_length.trans (by simp [Config.windowSlots])⟩
    rw [holds.slots.occupied, ← card_sentBag, holds.matched compares]

end Sys2Proof.Machine
end

