-- ==== Sys2Proof/Proofs/Resets.lean ====
section
/-! The step, the state right after reset, what a reset leaves and what acts in it, and the completions of an erasure (R178 to R182,
R192, R193). -/

namespace Sys2Proof.Machine

variable {s t : State}

/-- Settles O1: a step is by definition the front command's effect on the rest of the queue. -/
theorem stepRunsTheFrontCommand : Obligations.StepRunsTheFrontCommand := fun _ _ _ => rfl

/-- Settles O3: each field of the reset state is the literal of its first-start column, and empty stores read as their default. -/
theorem resetIsAFirstStart : Obligations.ResetIsAFirstStart := by
  unfold Obligations.ResetIsAFirstStart
  refine ⟨rfl, rfl, rfl, rfl, rfl, rfl, rfl, rfl, rfl, rfl, rfl, rfl, rfl, rfl, rfl, rfl, rfl, rfl, rfl, rfl, rfl, rfl, rfl, rfl, ?_⟩
  exact ⟨fun _ => rfl, fun _ => rfl, fun _ => rfl, rfl, fun _ _ => rfl, fun _ => rfl, fun _ => rfl, fun _ => rfl, rfl, rfl, rfl, rfl,
    fun _ => rfl⟩

/-! ### In a reset nothing acts -/

section
variable (held : s.inReset = true)
include held

theorem outOfReset_held (f : State → State) : outOfReset f s = s := if_pos held

theorem arriving_held (link : Link) : arriving link s = false := by simp [arriving, held]

theorem serveManagement_held {α : Type} (mine : Request → Option α) (serve : α → Nat → State → State) :
    serveManagement mine serve s = s := outOfReset_held held _

theorem takeTill_held (kind : RequestKind) (serve : TillRequest → State → State) : takeTill kind serve s = s := outOfReset_held held _

theorem takeCard_held {α : Type} (mine : CardOp → Option α) (serve : α → CardRequest → State → State) : takeCard mine serve s = s :=
  outOfReset_held held _

theorem takeGateway_held (serve : Frame → State → State) : takeGateway serve s = s := outOfReset_held held _

theorem shopArrival_held (f : Frame) : shopArrival f s = s := by simp [shopArrival, arriving_held held]

theorem officeArrival_held (f : Frame) : officeArrival f s = s := by simp [officeArrival, arriving_held held]

theorem frameEgressStep_held (port : Port) : frameEgressStep port s = s := by cases port <;> simp [frameEgressStep, arriving_held held]

/-- R179: between a reset and its start-up a command other than a reset, the start-up and a change of a link does nothing. -/
theorem exec_held {c : Instr} (pin : c ≠ .pinReset) (start : c ≠ .startUp) (link : ∀ p, c ≠ .linkDown p ∧ c ≠ .linkUp p) :
    exec c s = .next s := by
  cases c with
  | pinReset => exact absurd rfl pin
  | startUp => exact absurd rfl start
  | linkDown p => exact absurd rfl (link p).1
  | linkUp p => exact absurd rfl (link p).2
  | shopFrameArrival f => exact congrArg _ (shopArrival_held held f)
  | officeFrameArrival f => exact congrArg _ (officeArrival_held held f)
  | frameEgress port => exact congrArg _ (frameEgressStep_held held port)
  | issue | topup | spend | ask | tryReq | reserve | claim | free | returnReq | cancel => exact congrArg _ (takeTill_held held _ _)
  | readCard | suspendCard | resumeCard | retireCard | purgeCard | extendCard | moveBalance => exact congrArg _ (takeCard_held held _ _)
  | cardSlotPlacement | setStations | setTiming | setClock | setMode | restart | storeClear | lockPrivacy | writeProgram | readProgram
  | readJournal | writeTerms | readTerms | clearPage | fixPage | clearDirectory | writeLane | readLane | closeCycle | adjustCarry
  | readPosition | readBatch | releaseBatch | addBudget | resolve | abandon => exact congrArg _ (serveManagement_held held _ _)
  | confirm | reject => exact congrArg _ ((congrArg (ite _ · s) (takeGateway_held held _)).trans (ite_self s))
  | stray => exact congrArg _ ((congrArg (ite _ s) (takeGateway_held held _)).trans (ite_self s))
  | restartReset | initialisationComplete | conditionalPost | conditionalReversal | readStatus | unknownRequest | timerExpiry
  | pageClearCompletion | directoryClearCompletion | storeClearCompletion | calculatorStep | computationCompletion | clockSecond
  | holdEnd | clockLoss => exact congrArg _ (outOfReset_held held _)

end

/-! ### Resets and start-ups -/

theorem restartDue_iff (pending : s.restartPending = true) : restartDue s = true ↔ ∀ e ∈ s.officeOut, e.origin ≠ .restartReply := by
  simp [restartDue, pending]

theorem exec_restartReset (out : s.inReset = false) :
    exec .restartReset s = .next (if restartDue s then resetState s else s) := congrArg _ (outOfReset_due _ s out)

theorem exec_startUp (held : s.inReset = true) : exec .startUp s = .next
    (if s.configured = false then { s with inReset := false, settings := Settings.default, clearRun := .initialising }
     else if s.storeClearMark then { s with inReset := false, clearRun := .repeated }
     else recover { s with inReset := false }) := congrArg _ (if_pos held)

/-- Settles O4: the reset's one write, the guard of every other command, and the two branches of the start-up. -/
theorem resetsEmptyTheVolatileStateAndErasuresBegin : Obligations.ResetsEmptyTheVolatileStateAndErasuresBegin := by
  refine ⟨fun s => ⟨rfl, fun out pending => ⟨fun gone => ?_, fun ⟨e, stored, reply⟩ => ?_⟩⟩,
    fun c s held pin start link => exec_held held pin start link, fun s held => ⟨fun bare => ?_, fun configured marked => ?_⟩⟩
  · rw [exec_restartReset out, if_pos ((restartDue_iff pending).2 gone)]
    rfl
  · rw [exec_restartReset out, if_neg fun due => (restartDue_iff pending).1 due e stored reply]
  · rw [exec_startUp held, if_pos bare]
  · rw [exec_startUp held, if_neg (by simp [configured]), if_pos marked]

/-! ### The completions of an erasure -/

theorem exec_storeClearCompletion (out : s.inReset = false) : exec .storeClearCompletion s = .next
    (if (s.clearRun = .accepted ∨ s.clearRun = .repeated) ∧ postingDone s = true then clearStores s else s) :=
  congrArg _ (outOfReset_due _ s out)

theorem exec_initialisationComplete (out : s.inReset = false) : exec .initialisationComplete s = .next
    (if s.clearRun = .initialising ∧ postingDone s = true then { clearStores s with settings := Settings.default, configured := true }
     else s) := congrArg _ (outOfReset_due _ s out)

theorem postingDone_iff (s : State) : postingDone s = true ↔ s.posting = .idle ∧ s.cardSlot = none := by simp [postingDone]

/-- Settles O6: both completions wait for the Posting Unit and its card slot, and write the cleared stores. -/
theorem erasureLeavesTheClearedStores : Obligations.ErasureLeavesTheClearedStores := by
  refine fun s out => ⟨fun busy => ?_, fun idle empty run => ?_, fun idle empty run => ?_⟩
  · have waits : ¬postingDone s = true := by
      rw [postingDone_iff]
      exact fun done => busy.elim (· done.1) (· done.2)
    rw [exec_storeClearCompletion out, exec_initialisationComplete out, if_neg fun due => waits due.2, if_neg fun due => waits due.2]
    exact ⟨rfl, rfl⟩
  · rw [exec_storeClearCompletion out, if_pos ⟨run, (postingDone_iff s).2 ⟨idle, empty⟩⟩]
    rfl
  · rw [exec_initialisationComplete out, if_pos ⟨run, (postingDone_iff s).2 ⟨idle, empty⟩⟩]
    rfl

end Sys2Proof.Machine
end

