-- ==== Sys2Proof/Proofs/Ports.lean ====
section
/-! The ports: the fate of an arrival (R170, R173), what is queued or counted (R30, R171, R174, R183, R194), egress (R157, R176) and
the changes of a link (R169). -/

namespace Sys2Proof.Machine

variable {s t : State}

/-! ### Arrivals -/

theorem arriving_up {link : Link} (out : s.inReset = false) (up : link = .up) : arriving link s = true := by simp [arriving, out, up]

theorem exec_shopFrameArrival (f : Frame) (out : s.inReset = false) (up : s.shopLink = .up) : exec (.shopFrameArrival f) s = .next
    (match shopFate s f with
     | .forward => forwardToOffice f s
     | .header => dropHeader s
     | .answered reason => answer reason f s
     | .taken request => { s with ingress := s.ingress ++ [request] }) := congrArg _ (if_pos (arriving_up out up))

theorem exec_officeFrameArrival (f : Frame) (out : s.inReset = false) (up : s.officeLink = .up) : exec (.officeFrameArrival f) s = .next
    (match officeFate s.settings f with
     | .forward => forwardToShop f s
     | .header => dropHeader s
     | .management => handManagement f s
     | .gateway => { s with gatewayIn := s.gatewayIn ++ [f] }
     | .foreign => { s with counters := { s.counters with foreignDrops := bump s.counters.foreignDrops } }) :=
  congrArg _ (if_pos (arriving_up out up))

theorem hasHeader_iff (f : Frame) : hasHeader f = true ↔ 8 ≤ f.payload.length := by simp [hasHeader]

theorem hasHeader_false_iff (f : Frame) : hasHeader f = false ↔ f.payload.length < 8 := by simp [hasHeader]

section
variable {f : Frame} (service : f.etherType = BitVec.ofNat 16 s.settings.serviceType)
include service

theorem shopFate_short (short : f.payload.length < 8) : shopFate s f = .header := by
  simp [shopFate, service, (hasHeader_false_iff f).2 short]

/-- Step 4 of R170 onward, for a transaction frame. -/
theorem shopFate_transaction (long : 8 ≤ f.payload.length) (kind : headerKind f = 1) : shopFate s f =
    match transactionCard (bodyOf f) with
    | none => .answered .format
    | some card =>
      match matchProgram (admissionPrograms s) card with
      | none => .forward
      | some _ =>
        match laneOfStation s.lanes (headerSource f) with
        | none => .answered .terminal
        | some (merchant, lane) =>
          match transactionKind f with
          | none => .answered .format
          | some kind =>
            if s.ingress.length < Config.ingressCapacity then .taken (transactionRequest f kind card merchant lane)
            else .answered .late := by
  unfold shopFate
  exact (if_neg (by simpa using service)).trans ((if_neg (by simp [(hasHeader_iff f).2 long])).trans
    (if_neg (by simp [kind, kindTransaction])))

theorem shopFate_otherKind (long : 8 ≤ f.payload.length) (kind : headerKind f ≠ 1) : shopFate s f = .forward := by
  simp [shopFate, service, (hasHeader_iff f).2 long, kind, kindTransaction]

end

/-- Settles O7: the two classifications, branch by branch. -/
theorem framesAreClassifiedInOrder : Obligations.FramesAreClassifiedInOrder := by
  constructor
  · intro s f out up
    rw [exec_shopFrameArrival f out up]
    refine ⟨fun other => by simp [shopFate, other], fun service => ⟨fun short => by rw [shopFate_short service short]; rfl,
      fun long => ⟨fun kind => by
      rw [shopFate_otherKind service long kind], fun kind => ?_⟩⟩⟩
    rw [shopFate_transaction service long kind]
    refine ⟨fun none => by rw [none], fun card read => ?_⟩
    simp only [read]
    refine ⟨fun none => by rw [none], fun i claimed => ?_⟩
    simp only [claimed]
    refine ⟨fun none => by rw [none], fun m l placed => ?_⟩
    simp only [placed]
    refine ⟨fun none => by rw [none], fun kind parsed => ?_⟩
    simp only [parsed, Config.ingressCapacity]
    exact ⟨fun full => by simp only [Nat.not_lt.2 full, if_false], fun room => by simp only [room, if_true]⟩
  · intro s f out up
    rw [exec_officeFrameArrival f out up]
    refine ⟨fun other => by simp [officeFate, other], fun service => ⟨fun short => by
      simp [officeFate, service, (hasHeader_false_iff f).2 short, dropHeader], fun long => ?_⟩⟩
    have header := (hasHeader_iff f).2 long
    refine ⟨fun elsewhere => by simp [officeFate, service, header, elsewhere], fun here => ⟨fun controller room => ?_, fun controller full => ?_,
      fun other => ⟨fun gateway => ?_, fun foreign => ?_⟩⟩⟩
    · simp [officeFate, service, header, here, controller, handManagement, Config.inputCapacity, room]
    · simp [officeFate, service, header, here, controller, handManagement, Config.inputCapacity, Nat.not_lt.2 full]
    · rw [gateway] at other
      simp [officeFate, service, header, here, other, gateway]
    · simp [officeFate, service, header, here, other, foreign]

/-! ### Queued, or dropped and counted -/

theorem bump_eq {n : Nat} (bound : n ≤ 2 ^ 32 - 1) : bump n = min (n + 1) (2 ^ 32 - 1) := by
  have top : Config.maxCount = 2 ^ 32 - 1 := rfl
  unfold bump
  split <;> omega

theorem bumpBy_add (a b : Nat) : ∀ n, bumpBy a (bumpBy b n) = bumpBy (b + a) n := by
  induction b with
  | zero => exact fun n => by rw [Nat.zero_add]; rfl
  | succ b ih =>
    intro n
    rw [Nat.succ_add]
    exact ih (bump n)

theorem countOutcome_shopLinkDrops (outcome : TillOutcome) (c : Counters) : (countOutcome outcome c).shopLinkDrops = c.shopLinkDrops := by
  cases outcome <;> rfl

/-- Settles O8: each queue operation by its link and its room. -/
theorem answersAndForwardedFramesAreQueuedOrCounted : Obligations.AnswersAndForwardedFramesAreQueuedOrCounted := by
  refine ⟨fun _ bound => bump_eq bound, fun r outcome c grant view ref s => ⟨fun up => ?_, fun down => ?_⟩,
    fun reason f s => ⟨fun _ room => ?_, fun _ full => ?_⟩, fun f s => ⟨?_, ?_, ?_, ?_, ?_, ?_⟩⟩
  · unfold placeResponse
    rw [if_pos up]
    simp only [if_pos up]
    cases outcome <;> rfl
  · unfold placeResponse
    rw [if_neg (by simp [down])]
    simp only [if_neg (show ¬s.shopLink = .up by simp [down]), countOutcome_shopLinkDrops]
    cases outcome <;> rfl
  · have places : shopPlaces s < Config.shopCapacity := room
    simp only [answer, if_pos places]
    rfl
  · have places : ¬shopPlaces s < Config.shopCapacity := Nat.not_lt.2 full
    simp only [answer, if_neg places]
    rfl
  · intro up room
    simp [forwardToOffice, up, Config.forwardCapacity, room]
  · intro up full
    simp [forwardToOffice, up, Config.forwardCapacity, Nat.not_lt.2 full]
  · intro down
    simp [forwardToOffice, down]
  · intro up room
    simp [forwardToShop, up, Config.forwardCapacity, room]
  · intro up full
    simp [forwardToShop, up, Config.forwardCapacity, Nat.not_lt.2 full]
  · intro down
    simp [forwardToShop, down]

section
variable {origin : Origin} {f : Frame}

theorem offerOffice_placed (up : s.officeLink = .up) (room : s.officeOut.length < 32) :
    offerOffice origin f s = { s with officeOut := s.officeOut ++ [{ frame := f, origin := origin }] } := by
  simp [offerOffice, officeTakes, up, Config.officeCapacity, room]

theorem offerOffice_full (up : s.officeLink = .up) (full : 32 ≤ s.officeOut.length) :
    offerOffice origin f s = { s with counters := { s.counters with officeFullDrops := bump s.counters.officeFullDrops } } := by
  simp [offerOffice, officeTakes, up, Config.officeCapacity, Nat.not_lt.2 full]

theorem offerOffice_down (down : s.officeLink = .down) :
    offerOffice origin f s = { s with counters := { s.counters with officeLinkDrops := bump s.counters.officeLinkDrops } } := by
  simp [offerOffice, officeTakes, down]

end

/-- Settles O11: a reply and a notice are one offer to the office queue, the notice under its number. -/
theorem repliesAndNoticesAreOfferedToTheOffice : Obligations.RepliesAndNoticesAreOfferedToTheOffice := by
  refine ⟨fun code tag reason block s =>
      ⟨fun up room => offerOffice_placed up room, fun up full => offerOffice_full up full, fun down => offerOffice_down down⟩,
    fun n s => ⟨fun up room => ?_, fun up full => ?_, fun down => ?_⟩⟩
  · exact offerOffice_placed (s := { s with noticeNumber := nextNotice s }) up room
  · exact offerOffice_full (s := { s with noticeNumber := nextNotice s }) up full
  · exact offerOffice_down (s := { s with noticeNumber := nextNotice s }) down

/-! ### The placing of instructions -/

/-- With no instruction waiting nothing is placed. -/
theorem placeInstructions_none (none : s.awaiting = []) : placeInstructions s = s := by
  unfold placeInstructions placeSome
  simp only [none, drainGo, List.append_nil, bumpBy]
  rw [← none]

/-- A slot that is not offered stands. -/
theorem read_drainGo_of_not_mem (link : Link) (timeout : Nat) {k : Nat} : ∀ (ks : List Nat) (w : Table WindowSlot) (q : List OutFrame) (n : Nat),
    k ∉ ks → (drainGo link timeout ks w q n).2.1.read .free k = w.read .free k := by
  intro ks
  induction ks with
  | nil => exact fun _ _ _ _ => rfl
  | cons j ks ih =>
    intro w q n outside
    obtain ⟨other, later⟩ := not_or.1 (mt List.mem_cons.2 outside)
    unfold drainGo
    split
    · split
      · rw [ih _ _ _ later, Table.read_write_ne _ _ _ other]
      · split
        · rw [ih _ _ _ later, Table.read_write_ne _ _ _ other]
        · rfl
    · exact ih _ _ _ later
    · exact ih _ _ _ later

/-- On a DOWN port no instruction goes on waiting, and the queue stands (R157, R169). -/
theorem drainGo_down (timeout : Nat) : ∀ (ks : List Nat) (w : Table WindowSlot) (q : List OutFrame) (n : Nat),
    (drainGo .down timeout ks w q n).1 = [] ∧ (drainGo .down timeout ks w q n).2.2.1 = q := by
  intro ks
  induction ks with
  | nil => exact fun _ _ _ => ⟨rfl, rfl⟩
  | cons k ks ih =>
    intro w q n
    unfold drainGo
    split
    · rw [if_pos rfl]
      exact ih _ _ _
    · exact ih _ _ _
    · exact ih _ _ _

/-- A TIMING slot stays so while instructions are placed. -/
theorem drainGo_timing (link : Link) (timeout : Nat) {k m length : Nat} : ∀ (ks : List Nat) (w : Table WindowSlot) (q : List OutFrame) (n : Nat),
    w.read .free k = .timing m length → (drainGo link timeout ks w q n).2.1.read .free k = .timing m length := by
  intro ks
  induction ks with
  | nil => exact fun _ _ _ h => h
  | cons j ks ih =>
    intro w q n timing
    unfold drainGo
    split
    · next awaits =>
      have other : k ≠ j := by
        rintro rfl
        rw [timing] at awaits
        cases awaits
      split
      · exact ih _ _ _ ((Table.read_write_ne _ _ _ other).trans timing)
      · split
        · exact ih _ _ _ ((Table.read_write_ne _ _ _ other).trans timing)
        · exact timing
    · exact ih _ _ _ timing
    · exact ih _ _ _ timing

/-- On a DOWN port the slot of each instruction that waits becomes TIMING. -/
theorem drainGo_down_slot (timeout : Nat) {k m : Nat} {f : Frame} : ∀ (ks : List Nat) (w : Table WindowSlot) (q : List OutFrame) (n : Nat),
    k ∈ ks → w.read .free k = .awaiting m f → (drainGo .down timeout ks w q n).2.1.read .free k = .timing m timeout := by
  intro ks
  induction ks with
  | nil => exact fun _ _ _ member => absurd member List.not_mem_nil
  | cons j ks ih =>
    intro w q n member awaits
    unfold drainGo
    by_cases here : k = j
    · subst here
      simp only [awaits, if_true]
      exact drainGo_timing .down timeout ks _ _ _ (Table.read_write_same _ _ _ _)
    · have later := (List.mem_cons.1 member).resolve_left here
      split
      · rw [if_pos rfl]
        exact ih _ _ _ later ((Table.read_write_ne _ _ _ here).trans awaits)
      · exact ih _ _ _ later awaits
      · exact ih _ _ _ later awaits

/-- On a DOWN port each instruction that waits is dropped once (R169). -/
theorem drainGo_down_dropped (timeout : Nat) : ∀ (ks : List Nat) (w : Table WindowSlot) (q : List OutFrame) (n : Nat), ks.Nodup →
    (∀ k ∈ ks, ∃ m f, w.read .free k = .awaiting m f) → (drainGo .down timeout ks w q n).2.2.2 = n + ks.length := by
  intro ks
  induction ks with
  | nil => exact fun _ _ _ _ _ => rfl
  | cons k ks ih =>
    intro w q n once awaits
    obtain ⟨m, f, awaiting⟩ := awaits k List.mem_cons_self
    obtain ⟨fresh, later⟩ := List.nodup_cons.1 once
    unfold drainGo
    simp only [awaiting, if_true]
    rw [ih _ _ _ later fun j member => ?_, List.length_cons]
    · omega
    · have apart : j ≠ k := fun same => fresh (same ▸ member)
      rw [Table.read_write_ne _ _ _ apart]
      exact awaits j (List.mem_cons_of_mem _ member)

/-- With one free place on an UP port the oldest instruction takes it, and the others go on waiting (R157). -/
theorem drainGo_one_place (timeout : Nat) {k m : Nat} {f : Frame} {ks : List Nat} {w : Table WindowSlot} {q : List OutFrame} (n : Nat)
    (place : q.length = 31) (awaits : w.read .free k = .awaiting m f) (fresh : k ∉ ks)
    (others : ∀ j ∈ ks, ∃ m' f', w.read .free j = .awaiting m' f') :
    drainGo .up timeout (k :: ks) w q n =
      (ks, w.write .free k (.timing m timeout), q ++ [{ frame := f, origin := .instruction }], n) := by
  have full : (q ++ [({ frame := f, origin := .instruction } : OutFrame)]).length = 32 := by simp [place]
  unfold drainGo
  simp only [awaits, reduceCtorEq, if_false, place, Config.officeCapacity, show 31 < 32 by decide, if_true]
  cases ks with
  | nil => rfl
  | cons j ks =>
    obtain ⟨m', f', waiting⟩ := others j List.mem_cons_self
    have still : (w.write .free k (.timing m timeout)).read .free j = .awaiting m' f' := by
      have apart : j ≠ k := fun same => fresh (same ▸ List.mem_cons_self)
      rw [Table.read_write_ne _ _ _ apart]
      exact waiting
    unfold drainGo
    simp only [still, reduceCtorEq, if_false, Config.officeCapacity, full, Nat.lt_irrefl]

/-! ### Egress and links -/

theorem exec_frameEgress_office (out : s.inReset = false) (up : s.officeLink = .up) :
    exec (.frameEgress .office) s = .next (officeEgress s) := congrArg _ (if_pos (arriving_up out up))

theorem exec_frameEgress_shop (out : s.inReset = false) (up : s.shopLink = .up) :
    exec (.frameEgress .shop) s = .next (shopEgress s) := congrArg _ (if_pos (arriving_up out up))

/-- Settles O9: an engine frame goes first, and the place it frees is offered to the instructions in their order. -/
theorem egressSendsEngineFramesAndPlacesInstructions : Obligations.EgressSendsEngineFramesAndPlacesInstructions := by
  constructor
  · refine fun s out => ⟨fun up => ?_, fun up => ?_⟩
    · rw [exec_frameEgress_shop out up]
      exact ⟨fun e rest front => by simp only [shopEgress, front], fun f rest empty front => by simp only [shopEgress, empty, front]⟩
    · rw [exec_frameEgress_office out up]
      refine ⟨fun e rest front none => ?_, fun f rest empty front => by simp only [officeEgress, empty, front]⟩
      simp only [officeEgress, front]
      exact congrArg _ (placeInstructions_none (s := { s with officeOut := rest, out := s.out ++ [(.office, e.frame)] }) none)
  · intro s e rest k ks m f out up front place waiting awaits fresh others
    refine ⟨_, exec_frameEgress_office out up, ?_⟩
    have placed := drainGo_one_place s.settings.confirmationTimeout 0 place awaits fresh others
    simp only [officeEgress, front, placeInstructions, placeSome, waiting, up, placed, List.append_nil, bumpBy]
    exact ⟨trivial, trivial, trivial, Table.read_write_same _ _ _ _, fun j other => Table.read_write_ne _ _ _ other, trivial⟩

theorem linkDown_office (up : s.officeLink = .up) : exec (.linkDown .office) s = .next (placeInstructions (flushOffice s)) :=
  congrArg _ (if_pos up)

/-- Settles O10: a flush empties and counts, and what a DOWN port does to the instructions that wait. -/
theorem linkChangesFlushTheQueues : Obligations.LinkChangesFlushTheQueues := by
  refine fun s => ⟨fun up => congrArg _ (if_pos up), fun up => ⟨_, linkDown_office up, ?_⟩, fun down => congrArg _ (if_pos down),
    fun down => congrArg _ (if_pos down), fun down => congrArg _ (if_neg (by simp [down])), fun down => congrArg _ (if_neg (by simp [down])),
    fun up => congrArg _ (if_neg (by simp [up])), fun up => congrArg _ (if_neg (by simp [up]))⟩
  obtain ⟨none, queue⟩ := drainGo_down s.settings.confirmationTimeout s.awaiting s.window [] 0
  have awaiting : (placeInstructions (flushOffice s)).awaiting = [] := by
    show _ ++ [] = []
    rw [List.append_nil]
    exact none
  refine ⟨rfl, rfl, queue, awaiting, fun k m f member awaits => drainGo_down_slot _ _ _ _ _ member awaits, ?_,
    fun k outside => read_drainGo_of_not_mem _ _ _ _ _ _ outside, fun empty => ?_, fun once awaits => ?_⟩
  · rw [← awaiting, ← queue]
    rfl
  · rw [placeInstructions_none (s := flushOffice s) empty]
    rfl
  · have dropped := drainGo_down_dropped s.settings.confirmationTimeout s.awaiting s.window [] 0 once awaits
    rw [Nat.zero_add] at dropped
    rw [← bumpBy_add, ← dropped]
    rfl

end Sys2Proof.Machine
end

