-- ==== Sys2Proof/Proofs/Serving.lean ====
section
/-! Which operation serves a management request that is due, and the requests of the Responder itself: configuration, clock, mode,
RESTART, STORE_CLEAR and the reads (chapter 10). -/

namespace Sys2Proof.Machine

variable {s t : State} {tag : Nat}

/-! ### The request that is due -/

/-- What serves a request, by its constructor. -/
def Request.serve (r : Request) (tag : Nat) (t : State) : State :=
  match r with
  | .setStations e c g y => serveSetStations (e, c, g, y) tag t
  | .setTiming timeout offset => serveSetTiming (timeout, offset) tag t
  | .setClock v => serveSetClock v tag t
  | .setMode mode => serveSetMode mode tag t
  | .readStatus => sendReply 0x05 tag .accepted (statusBlock t) t
  | .restart => serveRestart tag t
  | .storeClear => serveStoreClear tag t
  | .lockPrivacy => serveLockPrivacy tag t
  | .writeProgram w => serveWriteProgram w tag t
  | .readProgram index => serveReadProgram index tag t
  | .card op number => serveCardSlotPlacement (op, number) tag t
  | .readJournal r => serveReadJournal r tag t
  | .writeTerms w => serveWriteTerms w tag t
  | .readTerms m => serveReadTerms m tag t
  | .clearPage p => serveClearPage p tag t
  | .fixPage p => serveFixPage p tag t
  | .clearDirectory => serveClearDirectory tag t
  | .writeLane m l enabled station => serveWriteLane (m, l, enabled, station) tag t
  | .readLane m l => serveReadLane (m, l) tag t
  | .closeCycle => serveCloseCycle tag t
  | .adjustCarry m amount => serveAdjustCarry m amount tag t
  | .readPosition m => serveReadPosition m tag t
  | .readBatch n => serveReadBatch n tag t
  | .releaseBatch mode amount => serveReleaseBatch (mode, amount) tag t
  | .addBudget amount => serveAddBudget amount tag t
  | .resolve m verdict => serveResolve (m, verdict) tag t
  | .abandon => serveAbandon tag t

theorem cardRequestOf_code {op : CardOp} {ps : List Byte} {r : Request} (read : cardRequestOf op ps = some r) : r.code = op.code := by
  obtain ⟨number, -, rfl⟩ := Option.map_eq_some_iff.1 read
  rfl

/-- A parameter block is read as a request of its own code (R201). -/
theorem readParameters_code {code : Nat} {ps : List Byte} {r : Request} (read : readParameters code ps = some r) : r.code = code := by
  unfold readParameters at read
  split at read
  case h_11 | h_12 | h_13 | h_14 | h_15 | h_16 => exact cardRequestOf_code read
  case h_17 =>
    obtain ⟨_, -, read⟩ := Option.bind_eq_some_iff.1 read
    exact cardRequestOf_code read
  all_goals cases read <;> rfl

theorem parseManagement_code {f : Frame} {r : Request} (parsed : parseManagement f = .good r) : echoedCode f = r.code := by
  unfold parseManagement at parsed
  split at parsed
  · split at parsed
    · cases parsed
    · dsimp only at parsed
      split at parsed
      · split at parsed
        · next read =>
          cases parsed
          exact (readParameters_code read).symm
        · cases parsed
      · cases parsed
  · cases parsed

theorem readStatus_taken (taken : RequestTaken s .readStatus tag t) :
    exec .readStatus s = .next (sendReply 0x05 tag .accepted (statusBlock t) t) := by
  obtain ⟨out, f, rest, front, good, rfl, rfl⟩ := taken
  refine congrArg _ ((outOfReset_due _ _ out).trans ?_)
  simp only [takeManagement, front, good, parseManagement_code good]
  rfl

/-- A request that is due is served by the operation of its constructor. -/
theorem exec_due {r : Request} (due : RequestDue s r tag t) : exec r.command s = .next (r.serve tag t) := by
  cases r
  case readStatus => exact readStatus_taken due.1
  case writeLane m l enabled station => exact congrArg _ (serveManagement_due (a := (m, l, enabled, station)) _ _ due rfl)
  case adjustCarry m amount => exact congrArg _ (serveManagement_due (a := (m, amount)) _ _ due rfl)
  all_goals
    refine congrArg Host.Outcome.next ?_
    exact serveManagement_due _ _ due rfl

theorem serveManagement_busy {α : Type} (mine : Request → Option α) (serve : α → Nat → State → State) {r : Request} {a : α}
    (taken : RequestTaken s r tag t) (busy : clearing s = true ∨ s.restartPending = true) (own : mine r = some a) :
    serveManagement mine serve s = sendReply r.code tag .busy [] t := by
  obtain ⟨out, f, rest, front, good, rfl, rfl⟩ := taken
  refine (outOfReset_due _ _ out).trans ?_
  simp only [takeManagement, front, good, own, parseManagement_code good, if_pos (Bool.or_eq_true_iff.2 busy)]

/-- Settles O12: checks 3 and 4 for each constructor, and the frame that is no request. -/
theorem theCommonChecksRefuseInOrder : Obligations.TheCommonChecksRefuseInOrder := by
  refine ⟨fun s r tag t taken other busy => ?_, fun s f rest out front => ⟨fun malformed => ?_, fun unknown => ?_⟩⟩
  · cases r
    case readStatus => exact absurd rfl other
    all_goals
      refine congrArg Host.Outcome.next ?_
      exact serveManagement_busy _ _ taken busy rfl
  all_goals refine congrArg _ ((outOfReset_due _ _ out).trans ?_)
  · simp only [takeManagement, front, malformed]
  · simp only [takeManagement, front, unknown]

end Sys2Proof.Machine
end

