-- ==== Sys2Proof/Proofs/Responder.lean ====
section
/-! The Responder's own requests: configuration, mode, RESTART, STORE_CLEAR, the clock and the reads (chapter 10). -/

namespace Sys2Proof.Machine

variable {s t : State} {tag : Nat}

/-! ### Tests in order -/

/-- The first test of a table fails. -/
theorem firstFailure_fail {ρ : Type} {ok : Bool} {reason : ρ} {rest : List (Check ρ)} (fails : ok = false) :
    firstFailure ((ok, reason) :: rest) = some reason := by rw [fails]; rfl

/-- The first test of a table holds. -/
theorem firstFailure_pass {ρ : Type} {ok : Bool} {reason : ρ} {rest : List (Check ρ)} (holds : ok = true) :
    firstFailure ((ok, reason) :: rest) = firstFailure rest := by rw [holds]; rfl

theorem RequestDue.rest {r : Request} (due : RequestDue s r tag t) : ∃ rest, t = { s with mgmtIn := rest } := by
  obtain ⟨⟨-, _, rest, -, -, -, rfl⟩, -, -⟩ := due
  exact ⟨rest, rfl⟩

/-! ### Configuration, mode and erasure -/

section
variable {e c g y : Nat}

theorem stationTests_range (bad : ¬(1 ≤ e ∧ e ≤ 65535 ∧ 1 ≤ c ∧ c ≤ 65535 ∧ 1 ≤ g ∧ g ≤ 65535 ∧ 0x0600 ≤ y ∧ y ≤ 0xFFFF)) :
    firstFailure (stationTests e c g y) = some .range := firstFailure_fail (by simpa using bad)

variable (ranged : 1 ≤ e ∧ e ≤ 65535 ∧ 1 ≤ c ∧ c ≤ 65535 ∧ 1 ≤ g ∧ g ≤ 65535 ∧ 0x0600 ≤ y ∧ y ≤ 0xFFFF)
include ranged

theorem stationTests_conflict (same : e = c ∨ e = g) : firstFailure (stationTests e c g y) = some .conflict :=
  (firstFailure_pass (by simpa [and_assoc] using ranged)).trans (firstFailure_fail (by rcases same with rfl | rfl <;> simp))

theorem stationTests_none (other : e ≠ c) (third : e ≠ g) : firstFailure (stationTests e c g y) = none :=
  (firstFailure_pass (by simpa [and_assoc] using ranged)).trans (firstFailure_pass (by simp [other, third]))

end

theorem setStations_due {e c g y : Nat} (due : RequestDue s (.setStations e c g y) tag t) :
    let ranged := 1 ≤ e ∧ e ≤ 65535 ∧ 1 ≤ c ∧ c ≤ 65535 ∧ 1 ≤ g ∧ g ≤ 65535 ∧ 0x0600 ≤ y ∧ y ≤ 0xFFFF
    (¬ranged → exec .setStations s = .next (sendReply 0x01 tag .range [] t)) ∧
    (ranged → e = c ∨ e = g → exec .setStations s = .next (sendReply 0x01 tag .conflict [] t)) ∧
    (ranged → e ≠ c → e ≠ g → exec .setStations s =
      .next { sendReply 0x01 tag .accepted [] t with
        settings := { s.settings with engineStation := e, controllerStation := c, gatewayStation := g, serviceType := y } }) := by
  have run : exec .setStations s = .next (serveSetStations (e, c, g, y) tag t) := exec_due due
  obtain ⟨rest, rfl⟩ := due.rest
  rw [run]
  simp only [serveSetStations]
  exact ⟨fun bad => by rw [stationTests_range bad], fun ranged same => by rw [stationTests_conflict ranged same],
    fun ranged other third => by rw [stationTests_none ranged other third]; rfl⟩

theorem keepsToday_iff (cfg : Settings) (offset : Nat) (clock : Clock) : keepsToday cfg offset clock = true ↔
    ∀ now, timeOf clock = some now → (now - cfg.rollOffset) / 86400 ≤ (now - offset) / 86400 := by
  unfold keepsToday
  cases timeOf clock with
  | none => simp
  | some now =>
    simp only [decide_eq_true_eq, Option.some.injEq, forall_eq']
    exact Iff.rfl

section
variable {timeout offset : Nat}

theorem timingTests_range (bad : ¬(5 ≤ timeout ∧ timeout ≤ 3600 ∧ offset ≤ 86399)) :
    firstFailure (timingTests timeout offset s) = some .range := firstFailure_fail (by simpa using bad)

variable (ranged : 5 ≤ timeout ∧ timeout ≤ 3600 ∧ offset ≤ 86399)
include ranged

theorem timingTests_state (moved : offset ≠ s.settings.rollOffset) (service : s.mode = .service) :
    firstFailure (timingTests timeout offset s) = some .state :=
  (firstFailure_pass (by simpa [and_assoc] using ranged)).trans (firstFailure_fail (by simp [moved, service]))

theorem timingTests_day (moved : offset ≠ s.settings.rollOffset) (maintenance : s.mode = .maintenance)
    (falls : keepsToday s.settings offset s.clock = false) : firstFailure (timingTests timeout offset s) = some .range :=
  (firstFailure_pass (by simpa [and_assoc] using ranged)).trans ((firstFailure_pass (by simp [maintenance])).trans
    (firstFailure_fail (by simp [moved, falls])))

theorem timingTests_none (kept : offset = s.settings.rollOffset ∨ s.mode = .maintenance ∧ keepsToday s.settings offset s.clock = true) :
    firstFailure (timingTests timeout offset s) = none := by
  refine (firstFailure_pass (by simpa [and_assoc] using ranged)).trans ?_
  rcases kept with same | ⟨maintenance, day⟩
  · exact (firstFailure_pass (by simp [same])).trans (firstFailure_pass (by simp [same]))
  · exact (firstFailure_pass (by simp [maintenance])).trans (firstFailure_pass (by simp [day]))

end

theorem serveSetTiming_refused {timeout offset : Nat} {reason : ReplyReason}
    (fails : firstFailure (timingTests timeout offset s) = some reason) :
    serveSetTiming (timeout, offset) tag s = sendReply 0x02 tag reason [] s := by simp only [serveSetTiming, fails]

theorem serveSetTiming_accepted {timeout offset : Nat} (tests : firstFailure (timingTests timeout offset s) = none) :
    serveSetTiming (timeout, offset) tag s = sendReply 0x02 tag .accepted []
      { s with settings := { s.settings with confirmationTimeout := timeout, rollOffset := offset } } := by
  simp only [serveSetTiming, tests]

/-- Settles O13: each request by its tests in order. -/
theorem settingsAndModeRequestsAreServed : Obligations.SettingsAndModeRequestsAreServed := by
  refine ⟨fun s t e c g y tag due => setStations_due due, ⟨fun s t timeout offset tag due => ?_, fun s t tag due => ?_⟩,
    fun s t mode tag due => ?_, fun s t tag due => ?_, fun s t tag due => ?_⟩
  · have run : exec .setTiming s = .next (serveSetTiming (timeout, offset) tag t) := exec_due due
    obtain ⟨rest, rfl⟩ := due.rest
    rw [run]
    simp only [← keepsToday_iff]
    refine ⟨fun bad => ?_, fun ranged moved service => ?_, fun ranged moved maintenance falls => ?_, fun ranged kept => ?_⟩
    · exact congrArg _ (serveSetTiming_refused (timingTests_range bad))
    · exact congrArg _ (serveSetTiming_refused (timingTests_state ranged moved service))
    · exact congrArg _ (serveSetTiming_refused (timingTests_day ranged moved maintenance (Bool.eq_false_of_not_eq_true falls)))
    · exact congrArg _ (serveSetTiming_accepted (timingTests_none ranged kept))
  · obtain ⟨rest, rfl⟩ := due.rest
    exact exec_due due
  · have run : exec .setMode s = .next (serveSetMode mode tag t) := exec_due due
    obtain ⟨rest, rfl⟩ := due.rest
    rw [run]
    refine ⟨fun large => ?_, fun maintenance => by subst maintenance; rfl,
      fun service unset => by subst service; simp [serveSetMode, Mode.ofCode, unset, timeOf],
      fun service set => ?_⟩
    · obtain ⟨n, rfl⟩ := Nat.exists_eq_add_of_le' large
      rfl
    · subst service
      have known : timeOf s.clock ≠ none := by
        cases held : s.clock with
        | unset => exact absurd held set
        | running now => simp [timeOf]
        | holding now amount => simp [timeOf]
      simp [serveSetMode, Mode.ofCode, known, Mode.code]
  · obtain ⟨rest, rfl⟩ := due.rest
    exact exec_due due
  · have run : exec .storeClear s = .next (serveStoreClear tag t) := exec_due due
    obtain ⟨rest, rfl⟩ := due.rest
    rw [run]
    exact ⟨fun service => by rw [serveStoreClear, if_pos service], fun maintenance => by rw [serveStoreClear, if_neg (by simp [maintenance])]; rfl⟩

/-! ### The clock -/

/-- Settles O14: SET_CLOCK by the T in force, and the events by the clock's state. -/
theorem theClockFollowsItsRequestsAndEvents : Obligations.TheClockFollowsItsRequestsAndEvents := by
  have top : Config.maxTime = 2 ^ 40 - 1 := rfl
  constructor
  · intro s t v tag due
    have run : exec .setClock s = .next (serveSetClock v tag t) := exec_due due
    obtain ⟨rest, rfl⟩ := due.rest
    rw [run]
    simp only [serveSetClock, Clock.set]
    refine ⟨fun large => ?_, fun small unset => ?_, fun now small clock => ?_⟩
    · rw [if_neg (by omega)]
    · rw [if_pos (by omega), unset]
      rfl
    · rw [if_pos (by omega), clock]
      refine ⟨fun ahead => ?_, fun behind near => ?_, fun far => ?_⟩
      · simp only [if_pos ahead]
        rfl
      · simp only [if_neg (Nat.not_le.2 behind), if_pos near]
        rfl
      · simp only [if_neg (show ¬now ≤ v by omega), if_neg (Nat.not_le.2 far)]
  · intro s out
    have second : exec .clockSecond s = .next { s with clock := s.clock.second } := congrArg _ (outOfReset_due _ _ out)
    have ended : exec .holdEnd s = .next { s with clock := s.clock.endHold } := congrArg _ (outOfReset_due _ _ out)
    rw [second, ended]
    refine ⟨fun now running below => ?_, fun full => ?_, fun now held holding => ?_, fun now holding => ?_, fun now holding below => ?_,
      fun unset => ?_, congrArg _ (outOfReset_due _ _ out)⟩
    · rw [running]
      simp [Clock.second, riseTime, top]
      omega
    · have kept : s.clock.second = s.clock := by rw [full]; rfl
      rw [kept]
    · rw [holding]
      rfl
    · rw [holding]
      rfl
    · rw [holding]
      simp [Clock.second, riseTime, top]
      omega
    · rw [unset]
      simp only [Clock.second, Clock.endHold]
      rw [← unset]
      exact ⟨rfl, rfl⟩

/-! ### The reads -/

theorem laneExists_iff (m l : Nat) : laneExists m l = true ↔ m < 512 ∧ l < 8 := by
  simp only [laneExists, Bool.and_eq_true, decide_eq_true_eq]
  exact Iff.rfl

section
variable {b : Batch} {n : Nat}

theorem batchRead_range (large : 512 ≤ n) (other : n ≠ 0xFFFF) : batchRead b n = .error .range := by
  simp [batchRead, other, Config.merchantCount, Nat.not_lt.2 large]

theorem batchRead_record (bound : n < 512) : batchRead b n =
    if b.state = .empty then .error .state
    else match b.records[n]? with
      | some r => .ok (batchHeader b ++ recordBlock r)
      | none => .error .notFound :=
  (if_neg (by omega)).trans (if_pos bound)

theorem batchRead_trailer : batchRead b 0xFFFF =
    if b.state = .empty ∨ b.state = .computing then .error .state
    else .ok (batchHeader b ++ trailerBlock (b.trailer.getD Totals.zero) b.cycle) := if_pos rfl

theorem serveReadBatch_refused {reason : ReplyReason} (fails : batchRead s.batch n = .error reason) :
    serveReadBatch n tag s = sendReply 0x43 tag reason [] s := by simp only [serveReadBatch, fails]

theorem serveReadBatch_accepted {block : List Byte} (read : batchRead s.batch n = .ok block) :
    serveReadBatch n tag s = sendReply 0x43 tag .accepted block s := by simp only [serveReadBatch, read]

end

/-- Settles O15: each read by the branch its parameter selects. -/
theorem readsReplyAndWriteNothing : Obligations.ReadsReplyAndWriteNothing := by
  refine ⟨fun s t index tag due => ?_, fun s t r tag due => ?_, fun s t m tag due => ?_, fun s t m l tag due => ?_, fun s t m tag due => ?_,
    fun s t n tag due => ?_, fun s t tag taken => readStatus_taken taken⟩
  · have run : exec .readProgram s = .next (serveReadProgram index tag t) := exec_due due
    obtain ⟨rest, rfl⟩ := due.rest
    rw [run]
    exact ⟨fun bound => congrArg _ (if_pos bound), fun large => congrArg _ (if_neg (Nat.not_lt.2 large))⟩
  · have run : exec .readJournal s = .next (serveReadJournal r tag t) := exec_due due
    obtain ⟨rest, rfl⟩ := due.rest
    rw [run]
    refine ⟨fun outside => ?_, fun inside => ⟨fun e found lap => ?_, fun other => ?_⟩⟩
    · simp [serveReadJournal, outside]
    · simp [serveReadJournal, inside, resolveRef, show entryAt { s with mgmtIn := rest } r = some e from found, lap]
    · have same : entryAt { s with mgmtIn := rest } r = entryAt s r := rfl
      cases found : entryAt s r with
      | none => simp [serveReadJournal, inside, resolveRef, same, found]
      | some e => simp [serveReadJournal, inside, resolveRef, same, found, other e found]
  · have run : exec .readTerms s = .next (serveReadTerms m tag t) := exec_due due
    obtain ⟨rest, rfl⟩ := due.rest
    rw [run]
    exact ⟨fun bound => congrArg _ (if_pos bound), fun large => congrArg _ (if_neg (Nat.not_lt.2 large))⟩
  · have run : exec .readLane s = .next (serveReadLane (m, l) tag t) := exec_due due
    obtain ⟨rest, rfl⟩ := due.rest
    rw [run]
    exact ⟨fun bound lane => congrArg _ (if_pos ((laneExists_iff m l).2 ⟨bound, lane⟩)),
      fun outside => congrArg _ (if_neg fun exist => by have := (laneExists_iff m l).1 exist; omega)⟩
  · have run : exec .readPosition s = .next (serveReadPosition m tag t) := exec_due due
    obtain ⟨rest, rfl⟩ := due.rest
    rw [run]
    exact ⟨fun bound => congrArg _ (if_pos bound), fun large => congrArg _ (if_neg (Nat.not_lt.2 large))⟩
  · have run : exec .readBatch s = .next (serveReadBatch n tag t) := exec_due due
    obtain ⟨rest, rfl⟩ := due.rest
    rw [run]
    refine ⟨fun large other => ?_, fun bound empty => ?_, fun bound held => ⟨fun r found => ?_, fun beyond => ?_⟩,
      fun trailer => ⟨fun early => ?_, fun held done totals written => ?_⟩⟩
    · exact congrArg _ (serveReadBatch_refused (batchRead_range large other))
    · exact congrArg _ (serveReadBatch_refused ((batchRead_record bound).trans (if_pos empty)))
    · exact congrArg _ (serveReadBatch_accepted ((batchRead_record bound).trans ((if_neg held).trans (by simp only [found]))))
    · exact congrArg _ (serveReadBatch_refused ((batchRead_record bound).trans ((if_neg held).trans (by
        simp only [List.getElem?_eq_none beyond]))))
    · subst trailer
      exact congrArg _ (serveReadBatch_refused (batchRead_trailer.trans (if_pos early)))
    · subst trailer
      refine congrArg _ (serveReadBatch_accepted (batchRead_trailer.trans ((if_neg (not_or.2 ⟨held, done⟩)).trans ?_)))
      simp only [written, Option.getD_some]

end Sys2Proof.Machine
end

