-- ==== Sys2Proof/Proofs/TableWrites.lean ====
section
/-! The requests that write the Program Table, the Lane Table and the Merchant Directory, with their refusals in order (R3, R4, R96 to
R106, R110). -/

namespace Sys2Proof.Machine

variable {s t : State} {tag : Nat}

/-! ### WRITE_PROGRAM -/

theorem programInRange_iff (w : ProgramWrite) : programInRange w = true ↔
    w.state ≤ 2 ∧ w.renew ≤ 1 ∧ w.topup ≤ 1 ∧ 10000000 ≤ w.prefixLow ∧ w.prefixLow ≤ w.prefixHigh ∧
      w.prefixHigh ≤ 99999999 ∧ 1 ≤ w.ceiling ∧ w.ceiling ≤ 10000000 ∧ 1 ≤ w.issueMinimum ∧ w.issueMinimum ≤ w.ceiling ∧
      w.expiryDays ≤ 3650 ∧ w.dailyCap ≤ w.ceiling ∧ w.lowThreshold ≤ w.ceiling ∧ 1 ≤ w.holdLimit ∧ w.holdLimit ≤ 4 ∧
      1 ≤ w.holdHours ∧ w.holdHours ≤ 720 := by
  simp only [programInRange, Bool.and_eq_true, decide_eq_true_eq, and_assoc]
  exact Iff.rfl

theorem overlapsOther_iff (w : ProgramWrite) : overlapsOther s.programs w = true ↔
    ∃ i, i < 16 ∧ i ≠ w.index ∧ (programAt s i).state ≠ .empty ∧
      w.prefixLow ≤ (programAt s i).prefixHigh ∧ (programAt s i).prefixLow ≤ w.prefixHigh := by
  simp only [overlapsOther, List.any_eq_true, List.mem_range, Bool.and_eq_true, decide_eq_true_eq, and_assoc]
  exact Iff.rfl

theorem liveCounted_eq_zero_iff (i : Nat) : liveCounted s i = 0 ↔
    ¬((programAt s i).live ≠ 0 ∨ ∃ h, s.posting = .till h ∧ h.liveChange = .rise ∧ h.program = i) := by
  unfold liveCounted
  cases posting : s.posting with
  | idle => simp
  | card q => simp
  | till h => simp

section
variable {w : ProgramWrite} (maintenance : s.mode = .maintenance) (bound : w.index < 16)

theorem programTests_state (service : s.mode = .service) : firstFailure (programTests s w) = some .state :=
  firstFailure_fail (by simp [service])

include maintenance in
theorem programTests_index (large : 16 ≤ w.index) : firstFailure (programTests s w) = some .range :=
  (firstFailure_pass (by simp [maintenance])).trans (firstFailure_fail (decide_eq_false (Nat.not_lt.2 large)))

include maintenance bound

theorem programTests_fields (named : w.state ≠ 0) (outside : programInRange w = false) : firstFailure (programTests s w) = some .range :=
  (firstFailure_pass (by simp [maintenance])).trans ((firstFailure_pass (decide_eq_true bound)).trans
    (firstFailure_fail (by simp [named, outside])))

theorem programTests_overlap (named : w.state ≠ 0) (range : programInRange w = true) (overlaps : overlapsOther s.programs w = true) :
    firstFailure (programTests s w) = some .conflict :=
  (firstFailure_pass (by simp [maintenance])).trans ((firstFailure_pass (decide_eq_true bound)).trans
    ((firstFailure_pass (by simp [range])).trans (firstFailure_fail (by simp [named, overlaps]))))

theorem programTests_live (empty : w.state = 0) (live : liveCounted s w.index ≠ 0) : firstFailure (programTests s w) = some .conflict :=
  (firstFailure_pass (by simp [maintenance])).trans ((firstFailure_pass (decide_eq_true bound)).trans
    ((firstFailure_pass (by simp [empty])).trans ((firstFailure_pass (by simp [empty])).trans
      (firstFailure_fail (by simp [empty, live])))))

theorem programTests_moved (named : w.state ≠ 0) (range : programInRange w = true) (apart : overlapsOther s.programs w = false)
    (live : liveCounted s w.index ≠ 0)
    (moves : ¬(w.prefixLow = (programAt s w.index).prefixLow ∧ w.prefixHigh = (programAt s w.index).prefixHigh ∧
      (programAt s w.index).ceiling ≤ w.ceiling)) : firstFailure (programTests s w) = some .conflict := by
  refine (firstFailure_pass (by simp [maintenance])).trans ((firstFailure_pass (decide_eq_true bound)).trans
    ((firstFailure_pass (by simp [range])).trans ((firstFailure_pass (by simp [apart])).trans ((firstFailure_pass (by simp [named])).trans ?_))))
  by_cases same : w.prefixLow = (programAt s w.index).prefixLow ∧ w.prefixHigh = (programAt s w.index).prefixHigh
  · exact (firstFailure_pass (by simp [same])).trans (firstFailure_fail (by simpa [live, same] using moves))
  · exact firstFailure_fail (by simpa [live] using same)

theorem programTests_none (fields : w.state = 0 ∨ programInRange w = true ∧ overlapsOther s.programs w = false)
    (counted : liveCounted s w.index = 0 ∨ w.state ≠ 0 ∧ w.prefixLow = (programAt s w.index).prefixLow ∧
      w.prefixHigh = (programAt s w.index).prefixHigh ∧ (programAt s w.index).ceiling ≤ w.ceiling) :
    firstFailure (programTests s w) = none := by
  have sixteen : w.index < Config.programCount := bound
  refine (firstFailure_none _).2 ?_
  simp only [programTests, List.forall_mem_cons, List.not_mem_nil, false_implies, implies_true, and_true, maintenance, sixteen,
    decide_true, true_and]
  refine ⟨?_, ?_, ?_, ?_, ?_⟩
  · rcases fields with empty | ⟨range, -⟩
    · simp [empty]
    · simp [range]
  · rcases fields with empty | ⟨-, apart⟩
    · simp [empty]
    · simp [apart]
  all_goals
    rcases counted with none | ⟨named, low, high, ceiling⟩
    · simp [none]
    · simp [named, low, high, ceiling]

end

theorem serveWriteProgram_refused {w : ProgramWrite} {reason : ReplyReason} (fails : firstFailure (programTests s w) = some reason) :
    serveWriteProgram w tag s = sendReply 0x10 tag reason [] s := by simp only [serveWriteProgram, fails]

theorem serveWriteProgram_accepted {w : ProgramWrite} (tests : firstFailure (programTests s w) = none) :
    serveWriteProgram w tag s = sendReply 0x10 tag .accepted (programBlock (writtenProgram (programAt s w.index).live w))
      { s with programs := s.programs.write Program.blank w.index (writtenProgram (programAt s w.index).live w) } := by
  simp only [serveWriteProgram, tests]

/-- The fields an accepted WRITE_PROGRAM leaves in an entry that is not EMPTY (R4). -/
theorem writtenProgram_fields {w : ProgramWrite} (live : Nat) (range : programInRange w = true) (named : w.state ≠ 0) :
    writtenProgram live w = {
      state := if w.state = 1 then .opened else .closed, prefixLow := w.prefixLow, prefixHigh := w.prefixHigh,
      ceiling := w.ceiling, issueMinimum := w.issueMinimum, expiryDays := w.expiryDays,
      renewOnTopup := decide (w.renew = 1), dailyCap := w.dailyCap, lowThreshold := w.lowThreshold,
      holdLimit := w.holdLimit, holdHours := w.holdHours, topupPermitted := decide (w.topup = 1), live := live } := by
  have bound := ((programInRange_iff w).1 range).1
  obtain one | two : w.state = 1 ∨ w.state = 2 := by omega
  · simp [writtenProgram, ProgramState.ofCode, one]
  · simp [writtenProgram, ProgramState.ofCode, two]

/-! ### WRITE_LANE -/

section
variable {m l en st : Nat}

theorem laneTests_outside (outside : 512 ≤ m ∨ 8 ≤ l) : firstFailure (laneTests s m l en st) = some .range ∧ laneExists m l = false := by
  have none : laneExists m l = false := Bool.eq_false_of_not_eq_true fun exist => by
    have := (laneExists_iff m l).1 exist
    omega
  exact ⟨firstFailure_fail (by simp [none]), none⟩

variable (exist : laneExists m l = true)
include exist

theorem laneTests_range (bad : 2 ≤ en ∨ st = 0 ∧ en = 1) : firstFailure (laneTests s m l en st) = some .range := by
  by_cases flag : en ≤ 1
  · have idle : st = 0 ∧ en = 1 := bad.resolve_left (by omega)
    exact (firstFailure_pass (by simp [exist, flag])).trans (firstFailure_fail (by simp [idle]))
  · exact firstFailure_fail (by simp [flag])

theorem laneTests_conflict (flag : en ≤ 1) (assigned : st ≠ 0) (taken : stationTaken s.lanes (laneNumber m l) st = true) :
    firstFailure (laneTests s m l en st) = some .conflict :=
  (firstFailure_pass (by simp [exist, flag])).trans ((firstFailure_pass (by simp [assigned])).trans
    (firstFailure_fail (by simp [assigned, taken])))

theorem laneTests_none (flag : en ≤ 1) (fits : st = 0 ∧ en = 0 ∨ st ≠ 0 ∧ stationTaken s.lanes (laneNumber m l) st = false) :
    firstFailure (laneTests s m l en st) = none := by
  refine (firstFailure_pass (by simp [exist, flag])).trans ?_
  rcases fits with ⟨rfl, rfl⟩ | ⟨assigned, free⟩
  · rfl
  · exact (firstFailure_pass (by simp [assigned])).trans (firstFailure_pass (by simp [free]))

end

theorem serveWriteLane_missing {m l en st : Nat} {reason : ReplyReason} (missing : laneExists m l = false)
    (fails : firstFailure (laneTests s m l en st) = some reason) :
    serveWriteLane (m, l, en, st) tag s = sendReply 0x35 tag reason [] s := by simp [serveWriteLane, fails, missing]

theorem serveWriteLane_refused {m l en st : Nat} {reason : ReplyReason} (exist : laneExists m l = true)
    (fails : firstFailure (laneTests s m l en st) = some reason) :
    serveWriteLane (m, l, en, st) tag s = sendReply 0x35 tag reason (laneBlock (laneAt s m l)) s := by
  simp [serveWriteLane, fails, exist]

theorem serveWriteLane_accepted {m l en st : Nat} (tests : firstFailure (laneTests s m l en st) = none) :
    serveWriteLane (m, l, en, st) tag s = sendReply 0x35 tag .accepted (laneBlock ⟨st, decide (en = 1), none⟩)
      { s with lanes := s.lanes.write Lane.unassigned (laneNumber m l) ⟨st, decide (en = 1), none⟩ } := by
  simp only [serveWriteLane, tests]

/-- Settles O16: the tests of each request in order, and the record an accepted one leaves. -/
theorem programAndLaneWritesReplaceTheRecord : Obligations.ProgramAndLaneWritesReplaceTheRecord := by
  constructor
  · intro s t w tag due stored inRange overlaps live keeps refuses
    have run : exec .writeProgram s = .next (serveWriteProgram w tag t) := exec_due due
    obtain ⟨rest, rfl⟩ := due.rest
    have range : programInRange w = true ↔ inRange := programInRange_iff w
    have crossing : overlapsOther s.programs w = true ↔ overlaps := overlapsOther_iff w
    have free : liveCounted s w.index = 0 ↔ ¬live := liveCounted_eq_zero_iff w.index
    have refused {reason : ReplyReason} (fails : firstFailure (programTests s w) = some reason) : refuses reason :=
      run.trans (congrArg _ (serveWriteProgram_refused fails))
    refine ⟨fun service => refused (programTests_state service), fun maintenance =>
      ⟨fun large => refused (programTests_index maintenance large), fun bound => ⟨fun named outside => ?_, fun named inside overlap => ?_,
        fun empty lives => ?_, fun named inside apart lives moves => ?_, fun accepted => ?_⟩⟩⟩
    · exact refused (programTests_fields maintenance bound named (Bool.eq_false_of_not_eq_true (mt range.1 outside)))
    · exact refused (programTests_overlap maintenance bound named (range.2 inside) (crossing.2 overlap))
    · exact refused (programTests_live maintenance bound empty fun zero => free.1 zero lives)
    · exact refused (programTests_moved maintenance bound named (range.2 inside) (Bool.eq_false_of_not_eq_true (mt crossing.1 apart))
        (fun zero => free.1 zero lives) moves)
    · have fields : w.state = 0 ∨ programInRange w = true ∧ overlapsOther s.programs w = false :=
        accepted.imp And.left fun ⟨_, inside, apart, _⟩ => ⟨range.2 inside, Bool.eq_false_of_not_eq_true (mt crossing.1 apart)⟩
      have counted : liveCounted s w.index = 0 ∨ w.state ≠ 0 ∧ keeps := by
        rcases accepted with ⟨-, none⟩ | ⟨named, -, -, kept⟩
        · exact .inl (free.2 none)
        · by_cases lives : live
          · exact .inr ⟨named, kept lives⟩
          · exact .inl (free.2 lives)
      refine ⟨writtenProgram stored.live w, run.trans (congrArg _ (serveWriteProgram_accepted (programTests_none maintenance bound fields counted))),
        writtenProgram_live _ _, writtenProgram_empty _, fun named => writtenProgram_fields _ (fields.resolve_left named).1 named⟩
  · intro s t m l en st tag due
    have run : exec .writeLane s = .next (serveWriteLane (m, l, en, st) tag t) := exec_due due
    obtain ⟨rest, rfl⟩ := due.rest
    rw [run]
    refine ⟨fun outside => ?_, fun bound lane => ?_⟩
    · obtain ⟨fails, missing⟩ := laneTests_outside (s := s) (en := en) (st := st) outside
      exact congrArg _ (serveWriteLane_missing missing fails)
    · have exist := (laneExists_iff m l).2 ⟨bound, lane⟩
      refine ⟨fun bad => ?_, fun flag assigned taken => ?_, fun flag fits => ?_⟩
      · exact congrArg _ (serveWriteLane_refused exist (laneTests_range exist bad))
      · exact congrArg _ (serveWriteLane_refused exist (laneTests_conflict exist flag assigned taken))
      · exact congrArg _ (serveWriteLane_accepted (laneTests_none exist flag fits))

end Sys2Proof.Machine
end

