-- ==== Sys2Proof/Proofs/DirectoryWrites.lean ====
section
/-! The requests on the Merchant Directory: WRITE_TERMS, the page requests and the completions of a clear (R96 to R106). -/

namespace Sys2Proof.Machine

variable {s t : State} {tag : Nat}

/-! ### WRITE_TERMS -/

theorem termsInRange_iff (w : TermsWrite) : termsInRange w = true ↔
    1 ≤ w.state ∧ w.state ≤ 3 ∧ w.discount ≤ 1500 ∧ w.commission ≤ 1000 ∧ w.charge ≤ 500 ∧ w.minPayout ≤ 1000000 ∧
      w.debitLimit ≤ 100000000 ∧ w.returnWindow ≤ 365 ∧ w.tolerance ≤ 30 ∧ w.tier ≤ 3 := by
  simp only [termsInRange, Bool.and_eq_true, decide_eq_true_eq, and_assoc]

/-- The entry a write in range gives (R96). -/
theorem writtenTerms_eq {w : TermsWrite} (range : termsInRange w = true) : writtenTerms w = {
    state := if w.state = 1 then .enrolled else if w.state = 2 then .suspended else .withdrawn
    maySell := w.maySell, mayRefund := w.mayRefund, discount := w.discount, commission := w.commission, charge := w.charge,
    minPayout := w.minPayout, debitLimit := w.debitLimit, returnWindow := w.returnWindow, tolerance := w.tolerance, tier := w.tier,
    payee := w.payee } := by
  obtain ⟨low, high, -⟩ := (termsInRange_iff w).1 range
  obtain one | two | three : w.state = 1 ∨ w.state = 2 ∨ w.state = 3 := by omega
  · simp [writtenTerms, TermsState.ofCode, one]
  · simp [writtenTerms, TermsState.ofCode, two]
  · simp [writtenTerms, TermsState.ofCode, three]

/-- The written state is the stored one or forward of it (R98). -/
theorem stateForward_iff {w : TermsWrite} (range : termsInRange w = true) (stored : TermsState) :
    stateForward stored (writtenTerms w).state = true ↔
      stored = .enrolled ∨ (stored = .suspended ∧ 2 ≤ w.state) ∨ (stored = .withdrawn ∧ 3 ≤ w.state) := by
  obtain ⟨low, high, -⟩ := (termsInRange_iff w).1 range
  have code : (writtenTerms w).state.code = w.state := by
    obtain one | two | three : w.state = 1 ∨ w.state = 2 ∨ w.state = 3 := by omega
    · simp [writtenTerms, TermsState.ofCode, TermsState.code, one]
    · simp [writtenTerms, TermsState.ofCode, TermsState.code, two]
    · simp [writtenTerms, TermsState.ofCode, TermsState.code, three]
  simp only [stateForward, code, Bool.and_eq_true, decide_eq_true_eq]
  cases stored <;> simp [TermsState.code, low]

theorem fixedAgrees_iff (stored written : Terms) : fixedAgrees stored written = true ↔
    { written with state := stored.state } = stored ∧ stateForward stored.state written.state = true := by
  simp [fixedAgrees]

theorem tightens_iff (stored written : Terms) : tightens stored written = true ↔
    stateForward stored.state written.state = true ∧ (written.maySell = true → stored.maySell = true) ∧
      (written.mayRefund = true → stored.mayRefund = true) ∧
      written.debitLimit ≤ stored.debitLimit ∧ written.returnWindow ≤ stored.returnWindow ∧ written.tolerance ≤ stored.tolerance ∧
      stored.minPayout ≤ written.minPayout ∧ written.discount = stored.discount ∧ written.commission = stored.commission ∧
      written.charge = stored.charge ∧ written.tier = stored.tier ∧ written.payee = stored.payee := by
  have given (a b : Bool) : (a || !b) = true ↔ (b = true → a = true) := by cases a <;> cases b <;> simp
  simp only [tightens, Bool.and_eq_true, decide_eq_true_eq, given, and_assoc]

section
variable {w : TermsWrite}

theorem termsTests_merchant (large : 512 ≤ w.merchant) : firstFailure (termsTests s w) = some .range :=
  firstFailure_fail (decide_eq_false (Nat.not_lt.2 large))

variable (bound : w.merchant < 512)
include bound

theorem termsTests_busy (page : pageAt s (pageOf w.merchant) = .clearing) : firstFailure (termsTests s w) = some .busy :=
  (firstFailure_pass (decide_eq_true bound)).trans (firstFailure_fail (by simp [page]))

theorem termsTests_torn (page : pageAt s (pageOf w.merchant) = .torn) : firstFailure (termsTests s w) = some .torn :=
  (firstFailure_pass (decide_eq_true bound)).trans ((firstFailure_pass (by simp [page])).trans (firstFailure_fail (by simp [page])))

variable (page : pageAt s (pageOf w.merchant) = .opened ∨ pageAt s (pageOf w.merchant) = .fixed)
include page

/-- The tests of the fields, on a page that takes writes. -/
theorem termsTests_fields : firstFailure (termsTests s w) = firstFailure
    [ (termsInRange w, .range),
      (decide (pageAt s (pageOf w.merchant) ≠ .fixed) || fixedAgrees (termsOf s w.merchant) (writtenTerms w), .fixed),
      (decide (pageAt s (pageOf w.merchant) ≠ .opened) || decide ((termsOf s w.merchant).state = .unenrolled) ||
        tightens (termsOf s w.merchant) (writtenTerms w), .loosening) ] :=
  (firstFailure_pass (decide_eq_true bound)).trans ((firstFailure_pass (by rcases page with page | page <;> simp [page])).trans
    (firstFailure_pass (by rcases page with page | page <;> simp [page])))

end

theorem serveWriteTerms_refused {w : TermsWrite} {reason : ReplyReason} (fails : firstFailure (termsTests s w) = some reason) :
    serveWriteTerms w tag s = sendReply 0x30 tag reason (termsBlock s w.merchant) s := by simp only [serveWriteTerms, fails]

theorem serveWriteTerms_accepted {w : TermsWrite} (tests : firstFailure (termsTests s w) = none) :
    serveWriteTerms w tag s =
      sendReply 0x30 tag .accepted (termsBlock { s with terms := s.terms.write Terms.unenrolled w.merchant (writtenTerms w) } w.merchant)
        { s with terms := s.terms.write Terms.unenrolled w.merchant (writtenTerms w) } := by
  simp only [serveWriteTerms, tests]

theorem termsOf_written {m : Nat} (written : Terms) (page : pageAt s (pageOf m) = .opened ∨ pageAt s (pageOf m) = .fixed) :
    termsOf { s with terms := s.terms.write Terms.unenrolled m written } m = written := by
  have same : pageAt { s with terms := s.terms.write Terms.unenrolled m written } (pageOf m) = pageAt s (pageOf m) := rfl
  unfold termsOf
  rcases page with page | page
  · rw [same, page]
    exact Table.read_write_same _ _ _ _
  · rw [same, page]
    exact Table.read_write_same _ _ _ _

theorem termsOf_other {m other : Nat} (written : Terms) (apart : other ≠ m) :
    termsOf { s with terms := s.terms.write Terms.unenrolled m written } other = termsOf s other := by
  have same : pageAt { s with terms := s.terms.write Terms.unenrolled m written } (pageOf other) = pageAt s (pageOf other) := rfl
  unfold termsOf
  rw [same]
  simp only [Table.read_write_ne _ _ _ apart]

/-- Settles O17: the tests in order, and what the merchants read after an accepted write. -/
theorem writeTermsReplacesTheEntry : Obligations.WriteTermsReplacesTheEntry := by
  intro s t w tag due page stored written inRange forward agrees tighter refuses
  have run : exec .writeTerms s = .next (serveWriteTerms w tag t) := exec_due due
  obtain ⟨rest, rfl⟩ := due.rest
  have range : termsInRange w = true ↔ inRange := termsInRange_iff w
  have refused {reason : ReplyReason} (fails : firstFailure (termsTests s w) = some reason) : refuses reason :=
    run.trans (congrArg _ (serveWriteTerms_refused fails))
  refine ⟨fun large => refused (termsTests_merchant large), fun bound => ⟨fun clearing => refused (termsTests_busy bound clearing),
    fun torn => refused (termsTests_torn bound torn), fun takes => ?_⟩⟩
  have tests := termsTests_fields (s := s) bound takes
  have held (inside : inRange) : fixedAgrees stored (writtenTerms w) = true ↔ agrees ∧ forward := by
    rw [fixedAgrees_iff, stateForward_iff (range.2 inside), writtenTerms_eq (range.2 inside)]
  have tight (inside : inRange) : tightens stored (writtenTerms w) = true ↔ tighter := by
    rw [tightens_iff, stateForward_iff (range.2 inside)]
    exact Iff.rfl
  refine ⟨fun outside => ?_, fun inside fixed bad => ?_, fun inside opened enrolled loose => ?_, fun inside fits => ?_⟩
  · exact refused (tests.trans (firstFailure_fail (Bool.eq_false_of_not_eq_true (mt range.1 outside))))
  · have differs : fixedAgrees stored (writtenTerms w) = false := Bool.eq_false_of_not_eq_true (mt (held inside).1 bad)
    have page : pageAt s (pageOf w.merchant) = .fixed := fixed
    exact refused (tests.trans ((firstFailure_pass (range.2 inside)).trans (firstFailure_fail (by
      rw [differs]
      simp [page]))))
  · have loosens : tightens stored (writtenTerms w) = false := Bool.eq_false_of_not_eq_true (mt (tight inside).1 loose)
    have page : pageAt s (pageOf w.merchant) = .opened := opened
    exact refused (tests.trans ((firstFailure_pass (range.2 inside)).trans ((firstFailure_pass (by simp [page])).trans
      (firstFailure_fail (by
        rw [loosens, decide_eq_false enrolled]
        simp [page])))))
  · have passed : firstFailure (termsTests s w) = none := by
      refine tests.trans ((firstFailure_pass (range.2 inside)).trans ?_)
      rcases fits with ⟨fixed, same⟩ | ⟨opened, free⟩
      · have page : pageAt s (pageOf w.merchant) = .fixed := fixed
        exact (firstFailure_pass (by rw [(held inside).2 same, Bool.or_true])).trans (firstFailure_pass (by simp [page]))
      · have page : pageAt s (pageOf w.merchant) = .opened := opened
        refine (firstFailure_pass (by simp [page])).trans (firstFailure_pass ?_)
        rcases free with blank | tighter
        · rw [decide_eq_true blank, Bool.or_true, Bool.true_or]
        · rw [(tight inside).2 tighter, Bool.or_true]
    have entry : writtenTerms w = written := writtenTerms_eq (range.2 inside)
    rw [← entry]
    exact ⟨_, run.trans (congrArg _ (serveWriteTerms_accepted passed)), rfl, termsOf_written (s := { s with mgmtIn := rest }) _ takes,
      fun m apart => termsOf_other (s := { s with mgmtIn := rest }) _ apart⟩

/-! ### The pages -/

section
variable {p : Nat}

theorem serveClearPage_refused {reason : ReplyReason} (fails : firstFailure (clearPageTests s p) = some reason) :
    serveClearPage p tag s = sendReply 0x32 tag reason [] s := by simp only [serveClearPage, fails]

theorem serveClearPage_accepted (tests : firstFailure (clearPageTests s p) = none) :
    serveClearPage p tag s = sendReply 0x32 tag .accepted (beBytes 1 1)
      { s with pages := s.pages.write .opened p .clearing, clearOp := .page p } := by
  simp only [serveClearPage, tests]
  rfl

theorem clearPageTests_page (large : 16 ≤ p) : firstFailure (clearPageTests s p) = some .range :=
  firstFailure_fail (decide_eq_false (Nat.not_lt.2 large))

variable (bound : p < 16)
include bound

theorem clearPageTests_busy (running : s.clearOp ≠ .none) : firstFailure (clearPageTests s p) = some .busy :=
  (firstFailure_pass (decide_eq_true bound)).trans (firstFailure_fail (by simp [running]))

theorem clearPageTests_fixed (free : s.clearOp = .none) (fixed : pageAt s p = .fixed) : firstFailure (clearPageTests s p) = some .fixed :=
  (firstFailure_pass (decide_eq_true bound)).trans ((firstFailure_pass (by simp [free])).trans (firstFailure_fail (by simp [fixed])))

theorem clearPageTests_computing (free : s.clearOp = .none) (loose : pageAt s p ≠ .fixed) (computing : s.batch.state = .computing) :
    firstFailure (clearPageTests s p) = some .busy :=
  (firstFailure_pass (decide_eq_true bound)).trans ((firstFailure_pass (by simp [free])).trans ((firstFailure_pass (by simp [loose])).trans
    (firstFailure_fail (by simp [computing]))))

theorem clearPageTests_none (free : s.clearOp = .none) (loose : pageAt s p ≠ .fixed) (still : s.batch.state ≠ .computing) :
    firstFailure (clearPageTests s p) = none :=
  (firstFailure_pass (decide_eq_true bound)).trans ((firstFailure_pass (by simp [free])).trans ((firstFailure_pass (by simp [loose])).trans
    (firstFailure_pass (by simp [still]))))

theorem serveFixPage_by_page : serveFixPage p tag s =
    match fixRefusal (pageAt s p) with
    | some reason => sendReply 0x33 tag reason [] s
    | none => sendReply 0x33 tag .accepted (beBytes 1 3) { s with pages := s.pages.write .opened p .fixed } := if_pos bound

end

theorem serveClearDirectory_refused {reason : ReplyReason} (fails : firstFailure (clearDirectoryTests s) = some reason) :
    serveClearDirectory tag s = sendReply 0x34 tag reason [] s := by simp only [serveClearDirectory, fails]

theorem serveClearDirectory_accepted (tests : firstFailure (clearDirectoryTests s) = none) :
    serveClearDirectory tag s = sendReply 0x34 tag .accepted []
      { s with pages := Table.build .opened 16 fun _ => .clearing, clearOp := .directory } := by
  simp only [serveClearDirectory, tests]
  rfl

/-- With no clear in flight CLEAR_DIRECTORY meets its conditions, or is refused CONFLICT (R105). -/
theorem clearDirectoryTests_conflict (free : s.clearOp = .none) (unmet : ¬(s.mode = .maintenance ∧
    (s.batch.state = .empty ∨ s.batch.state = .settled) ∧ ∀ e ∈ s.positions, e.2.current = Bank.zero ∧ e.2.carry = 0)) :
    firstFailure (clearDirectoryTests s) = some .conflict := by
  refine (firstFailure_pass (by simp [free])).trans ?_
  by_cases mode : s.mode = .maintenance
  · refine (firstFailure_pass (by simp [mode])).trans ?_
    by_cases settled : s.batch.state = .empty ∨ s.batch.state = .settled
    · refine (firstFailure_pass (by simpa using settled)).trans ?_
      by_cases empty : ∀ e ∈ s.positions, e.2.current = Bank.zero
      · refine (firstFailure_pass (by simpa using empty)).trans (firstFailure_fail (Bool.eq_false_of_not_eq_true fun carries => ?_))
        refine unmet ⟨mode, settled, fun e member => ⟨empty e member, ?_⟩⟩
        simpa using List.all_eq_true.1 carries e member
      · exact firstFailure_fail (Bool.eq_false_of_not_eq_true fun all => empty fun e member => by simpa using List.all_eq_true.1 all e member)
    · exact firstFailure_fail (Bool.eq_false_of_not_eq_true fun holds => settled (by simpa using holds))
  · exact firstFailure_fail (decide_eq_false mode)

theorem clearDirectoryTests_none (free : s.clearOp = .none) (mode : s.mode = .maintenance)
    (settled : s.batch.state = .empty ∨ s.batch.state = .settled) (empty : ∀ e ∈ s.positions, e.2.current = Bank.zero ∧ e.2.carry = 0) :
    firstFailure (clearDirectoryTests s) = none :=
  (firstFailure_pass (by simp [free])).trans ((firstFailure_pass (by simp [mode])).trans ((firstFailure_pass (by simpa using settled)).trans
    ((firstFailure_pass (List.all_eq_true.2 fun e member => by simpa using (empty e member).1)).trans
      (firstFailure_pass (List.all_eq_true.2 fun e member => by simpa using (empty e member).2)))))

/-- Settles O18: the page requests by their tests, and the completions of a clear. -/
theorem pageRequestsAndCompletionsMoveThePages : Obligations.PageRequestsAndCompletionsMoveThePages := by
  refine ⟨⟨fun s t p tag due => ?_, fun s t p tag due => ?_, fun s t tag due => ?_⟩, fun s out calm => ⟨fun p running => ?_, fun running => ?_⟩⟩
  · have run : exec .clearPage s = .next (serveClearPage p tag t) := exec_due due
    obtain ⟨rest, rfl⟩ := due.rest
    rw [run]
    refine ⟨fun large => ?_, fun bound running => ?_, fun bound free fixed => ?_, fun bound free loose computing => ?_,
      fun bound free loose still => ?_⟩
    · exact congrArg _ (serveClearPage_refused (clearPageTests_page large))
    · exact congrArg _ (serveClearPage_refused (clearPageTests_busy bound running))
    · exact congrArg _ (serveClearPage_refused (clearPageTests_fixed bound free fixed))
    · exact congrArg _ (serveClearPage_refused (clearPageTests_computing bound free loose computing))
    · exact congrArg _ (serveClearPage_accepted (clearPageTests_none bound free loose still))
  · have run : exec .fixPage s = .next (serveFixPage p tag t) := exec_due due
    obtain ⟨rest, rfl⟩ := due.rest
    have same : pageAt { s with mgmtIn := rest } p = pageAt s p := rfl
    rw [run]
    refine ⟨fun large => congrArg _ (if_neg (Nat.not_lt.2 large)), fun bound page => ?_, fun bound page => ?_, fun bound page => ?_,
      fun bound page => ?_⟩
    all_goals
      rw [serveFixPage_by_page bound, same, page]
      rfl
  · have run : exec .clearDirectory s = .next (serveClearDirectory tag t) := exec_due due
    obtain ⟨rest, rfl⟩ := due.rest
    rw [run]
    refine ⟨fun running => ?_, fun free => ⟨fun ⟨mode, settled, empty⟩ => ?_, fun unmet => ?_⟩⟩
    · exact congrArg _ (serveClearDirectory_refused (firstFailure_fail (decide_eq_false running)))
    · exact ⟨Table.build .opened 16 fun _ => .clearing,
        congrArg _ (serveClearDirectory_accepted (clearDirectoryTests_none free mode settled empty)), fun p bound => Table.read_build _ _ _ _ bound⟩
    · exact congrArg _ (serveClearDirectory_refused (clearDirectoryTests_conflict free unmet))
  · refine ⟨{ s with
      terms := s.terms.dropWhere fun m => decide (pageOf m = p), pages := s.pages.write .opened p .opened, clearOp := .none }, ?_, rfl, fun m => ?_⟩
    · refine congrArg _ ((outOfReset_due _ _ out).trans ?_)
      simp only [running, calm, Bool.false_eq_true, if_false]
    · simp only [Table.read_dropWhere, decide_eq_true_eq]
      rfl
  · have step : exec .directoryClearCompletion s = .next (directoryClearStep s) := rfl
    rw [step, directoryClearStep, outOfReset_due _ _ out]
    simp only [running, calm, Bool.false_eq_true, if_false, show Config.pageCount = 16 from rfl]

end Sys2Proof.Machine
end

