-- ==== Sys2Proof/Proofs/CardRequests.lean ====
section
/-! The management card requests: the slot, the common tests, the six requests on one card, and MOVE_BALANCE (R17 to R23). -/

namespace Sys2Proof.Machine

variable {s t : State} {q : CardRequest}

/-! ### The request that is due -/

/-- What executes a card request, by its kind. -/
def CardOp.serve (op : CardOp) (q : CardRequest) (s : State) : State :=
  match op with
  | .read => serveReadCard q s
  | .suspend => changeCard q suspended .same s
  | .resume => changeCard q resumed .same s
  | .retire => changeCard q (retired (timeOf s.clock)) .fall s
  | .purge => servePurgeCard q s
  | .extend day => changeCard q (extended day) .same s
  | .move number => serveMoveBalance number q s

/-- A card request that is due is executed by the operation of its kind. -/
theorem exec_cardDue (due : CardDue s q) : exec q.op.command s = .next (q.op.serve q { s with posting := .card q }) := by
  cases op : q.op
  all_goals
    refine congrArg Host.Outcome.next ?_
    exact takeCard_due _ _ due (by rw [op])

theorem takeCard_busy {α : Type} (mine : CardOp → Option α) (serve : α → CardRequest → State → State) {a : α} (out : s.inReset = false)
    (idle : s.posting = .idle) (held : s.cardSlot = some q) (calm : clearing s = true) (own : mine q.op = some a) :
    takeCard mine serve s = cardAnswer q .busy [] s := by
  refine (outOfReset_due _ _ out).trans ?_
  simp only [idle, held, own, calm, if_true]
  rfl

theorem exec_cardBusy (out : s.inReset = false) (idle : s.posting = .idle) (held : s.cardSlot = some q) (busy : clearing s = true) :
    exec q.op.command s = .next (cardAnswer q .busy [] s) := by
  cases op : q.op
  all_goals
    refine congrArg Host.Outcome.next ?_
    exact takeCard_busy _ _ out idle held busy (by rw [op])

/-! ### The common tests -/

section
variable {number : Nat}

theorem requestedCard_format (bad : sixteenDigits number = false) : requestedCard s number = .error .format := by simp [requestedCard, bad]

theorem requestedCard_range (digits : sixteenDigits number = true) (bad : passesCheck number = false) :
    requestedCard s number = .error .range := by simp [requestedCard, digits, bad]

theorem requestedCard_notFound (digits : sixteenDigits number = true) (good : passesCheck number = true) (none : lookupCard s number = none) :
    requestedCard s number = .error .notFound := by simp [requestedCard, digits, good, none]

theorem requestedCard_found {k : Nat} {c : CardRecord} (digits : sixteenDigits number = true) (good : passesCheck number = true)
    (found : lookupCard s number = some (k, c)) : requestedCard s number = .ok (k, c) := by simp [requestedCard, digits, good, found]

end

theorem changeCard_error {change : CardRecord → Except ReplyReason CardRecord} {live : LiveChange} {reason : ReplyReason}
    (fails : requestedCard s q.card = .error reason) : changeCard q change live s = finishCard q reason [] s := by simp only [changeCard, fails]

/-- A request on one card is refused as the common tests say. -/
theorem serve_error {op : CardOp} {reason : ReplyReason} (single : ∀ d, op ≠ .move d) (fails : requestedCard s q.card = .error reason) :
    op.serve q s = finishCard q reason [] s := by
  cases op with
  | read => simp only [CardOp.serve, serveReadCard, fails]
  | suspend => exact changeCard_error fails
  | resume => exact changeCard_error fails
  | retire => exact changeCard_error fails
  | purge => simp only [CardOp.serve, servePurgeCard, fails]
  | extend day => exact changeCard_error fails
  | move d => exact absurd rfl (single d)

/-- Settles O20: the slot, the refusal of an erasure and the common tests. -/
theorem cardRequestsWaitInOneSlotAndAreRefusedInOrder : Obligations.CardRequestsWaitInOneSlotAndAreRefusedInOrder := by
  refine ⟨fun s t op n tag due => ?_, fun s q out idle held => ⟨fun busy => exec_cardBusy out idle held busy, fun calm single => ?_⟩⟩
  · have run : exec .cardSlotPlacement s = .next (serveCardSlotPlacement (op, n) tag t) := exec_due due
    obtain ⟨rest, rfl⟩ := due.rest
    rw [run]
    exact ⟨fun empty => congrArg _ (if_neg (by simp [empty])), fun full => congrArg _ (if_pos (by simpa [Option.isSome_iff_ne_none] using full))⟩
  · have refused {reason : ReplyReason} (fails : requestedCard s q.card = .error reason) :
        exec q.op.command s = .next (cardAnswer q reason [] s) :=
      (exec_cardDue ⟨out, calm, idle, held⟩).trans (congrArg _ (serve_error single fails))
    exact ⟨fun bad => refused (requestedCard_format bad), fun digits bad => refused (requestedCard_range digits bad),
      fun digits good none => refused (requestedCard_notFound digits good none)⟩

/-! ### The requests on a card found -/

section
variable {k : Nat} {c d : CardRecord} {change : CardRecord → Except ReplyReason CardRecord} {live : LiveChange}
  (found : requestedCard s q.card = .ok (k, c))
include found

theorem changeCard_refused {reason : ReplyReason} (refuses : change c = .error reason) :
    changeCard q change live { s with posting := .card q } = cardAnswer q reason [] s := by
  have same : requestedCard { s with posting := .card q } q.card = .ok (k, c) := found
  simp only [changeCard, same, refuses]
  rfl

/-- The written card, answered by the Posting Unit that took the request. -/
theorem changeCard_written (changes : change c = .ok d) : changeCard q change live { s with posting := .card q } =
    cardAnswer q .accepted (cardBlock s k (pruneHolds (timeOf s.clock) d))
      { s with
        cards := s.cards.write none k (some (pruneHolds (timeOf s.clock) d))
        programs := changeLiveAt live c.program s.programs } := by
  have same : requestedCard { s with posting := .card q } q.card = .ok (k, c) := found
  simp only [changeCard, same, changes]
  rfl

theorem serveReadCard_found : serveReadCard q { s with posting := .card q } = cardAnswer q .accepted (cardBlock s k c) s := by
  have same : requestedCard { s with posting := .card q } q.card = .ok (k, c) := found
  simp only [serveReadCard, same]
  rfl

theorem servePurgeCard_found : servePurgeCard q { s with posting := .card q } =
    if c.state = .retired then cardAnswer q .accepted [] { s with cards := s.cards.write none k none }
    else cardAnswer q .state [] s := by
  have same : requestedCard { s with posting := .card q } q.card = .ok (k, c) := found
  simp only [servePurgeCard, same]
  rfl

end

theorem suspended_active {c : CardRecord} (active : c.state = .active) : suspended c = .ok { c with state := .suspended } := if_pos active

theorem resumed_suspended {c : CardRecord} (held : c.state = .suspended) : resumed c = .ok { c with state := .active } := if_pos held

theorem retired_clean {now : Option Nat} {c : CardRecord} (alive : c.state ≠ .retired) (empty : c.balance = 0)
    (unheld : liveHolds now c.holds = []) : retired now c = .ok { c with state := .retired } :=
  (if_neg alive).trans (if_pos ⟨empty, by rw [unheld]; rfl⟩)

theorem earlierExpiry_false_iff (a b : Nat) : earlierExpiry a b = false ↔ a = 0 ∨ b ≠ 0 ∧ b ≤ a := by
  by_cases zero : a = 0 <;> simp [earlierExpiry, zero]

theorem extended_later {day : Nat} {c : CardRecord} (alive : c.state ≠ .retired) (small : day ≤ 16777215)
    (later : day = 0 ∨ c.expiryDay ≠ 0 ∧ c.expiryDay ≤ day) : extended day c = .ok { c with expiryDay := day } :=
  (if_neg alive).trans (if_pos ⟨small, (earlierExpiry_false_iff _ _).2 later⟩)

/-- Settles O21: each request by the state of the card. -/
theorem cardRequestsActOnTheCardFound : Obligations.CardRequestsActOnTheCardFound := by
  intro s q k c due digits good inTable held
  have looked : requestedCard s q.card = .ok (k, c) := requestedCard_found digits good inTable
  have run {op : CardOp} (own : q.op = op) : exec op.command s = .next (op.serve q { s with posting := .card q }) := own ▸ exec_cardDue due
  have writes {op : CardOp} {change : CardRecord → Except ReplyReason CardRecord} {d : CardRecord} (own : q.op = op)
      (serves : ∀ u, op.serve q u = changeCard q change .same u) (changes : change c = .ok d) :
      exec op.command s = .next (cardAnswer q .accepted (cardBlock s k (pruneHolds (timeOf s.clock) d))
        { s with cards := s.cards.write none k (some (pruneHolds (timeOf s.clock) d)) }) :=
    (run own).trans (congrArg _ ((serves _).trans (changeCard_written looked changes)))
  refine ⟨fun own => ?_, fun own => ⟨fun fits => ?_, fun other => ?_⟩, fun own => ⟨fun fits => ?_, fun other => ?_⟩,
    fun own => ⟨fun alive empty none => ?_, fun alive rest => ?_, fun gone => ?_⟩, fun own => ⟨fun gone => ?_, fun alive => ?_⟩,
    fun day own => ⟨fun gone => ?_, fun alive small later => ?_, fun alive outside => ?_⟩⟩
  · exact (run own).trans (congrArg _ (serveReadCard_found looked))
  · have written := writes own (fun _ => rfl) (suspended_active fits)
    exact written
  · exact (run own).trans (congrArg _ (changeCard_refused looked (if_neg other)))
  · have written := writes own (fun _ => rfl) (resumed_suspended fits)
    exact written
  · exact (run own).trans (congrArg _ (changeCard_refused looked (if_neg other)))
  · have unheld : liveHolds (timeOf s.clock) c.holds = [] := none
    refine (run own).trans (congrArg _ ((changeCard_written looked (retired_clean alive empty unheld)).trans ?_))
    simp only [pruneHolds, unheld]
    rfl
  · refine (run own).trans (congrArg _ (changeCard_refused looked ((if_neg alive).trans (if_neg fun clean => ?_))))
    exact rest.elim (fun balance => balance clean.1) fun holds => holds (List.isEmpty_iff.1 clean.2)
  · exact (run own).trans (congrArg _ (changeCard_refused looked (if_pos gone)))
  · exact (run own).trans (congrArg _ ((servePurgeCard_found looked).trans (if_pos gone)))
  · exact (run own).trans (congrArg _ ((servePurgeCard_found looked).trans (if_neg alive)))
  · exact (run own).trans (congrArg _ (changeCard_refused looked (if_pos gone)))
  · have written := writes own (fun _ => rfl) (extended_later alive small later)
    exact written
  · refine (run own).trans (congrArg _ (changeCard_refused looked ((if_neg alive).trans (if_neg fun fits => ?_))))
    have later := (earlierExpiry_false_iff _ _).1 fits.2
    omega

/-! ### MOVE_BALANCE -/

section
variable {number k j now : Nat} {c d : CardRecord}

/-- What MOVE_BALANCE finds once the clock is set and the two numbers differ (R23). -/
theorem serveMoveBalance_set (clock : timeOf s.clock = some now) (other : q.card ≠ number) : serveMoveBalance number q s =
    match requestedCard s q.card with
    | .error reason => finishCard q reason [] s
    | .ok (sourceSlot, source) =>
      if source.state = .suspended then
        match requestedCard s number with
        | .error reason => finishCard q reason [] s
        | .ok (slot, destination) =>
          match firstFailure (moveTests s source destination) with
          | some reason => finishCard q reason [] s
          | none => moveWrite q sourceSlot source slot destination s
      else finishCard q .state [] s :=
  (if_neg (by simp [clock])).trans (if_neg other)

section
variable (clock : timeOf s.clock = some now) (other : q.card ≠ number)
include clock other

theorem moveBalance_sourceMissing {reason : ReplyReason} (lost : requestedCard s q.card = .error reason) :
    serveMoveBalance number q { s with posting := .card q } = cardAnswer q reason [] s := by
  have missing : requestedCard { s with posting := .card q } q.card = .error reason := lost
  rw [serveMoveBalance_set (s := { s with posting := .card q }) clock other, missing]
  rfl

variable (found : requestedCard s q.card = .ok (k, c))
include found

theorem moveBalance_sourceUnfit (unfit : c.state ≠ .suspended) :
    serveMoveBalance number q { s with posting := .card q } = cardAnswer q .state [] s := by
  have source : requestedCard { s with posting := .card q } q.card = .ok (k, c) := found
  rw [serveMoveBalance_set (s := { s with posting := .card q }) clock other, source]
  exact if_neg unfit

variable (held : c.state = .suspended)
include held

theorem moveBalance_destinationMissing {reason : ReplyReason} (lost : requestedCard s number = .error reason) :
    serveMoveBalance number q { s with posting := .card q } = cardAnswer q reason [] s := by
  have source : requestedCard { s with posting := .card q } q.card = .ok (k, c) := found
  have missing : requestedCard { s with posting := .card q } number = .error reason := lost
  rw [serveMoveBalance_set (s := { s with posting := .card q }) clock other, source]
  simp only [held, if_true, missing]
  rfl

variable (target : requestedCard s number = .ok (j, d))
include target

theorem moveBalance_refused {reason : ReplyReason} (fails : firstFailure (moveTests s c d) = some reason) :
    serveMoveBalance number q { s with posting := .card q } = cardAnswer q reason [] s := by
  have source : requestedCard { s with posting := .card q } q.card = .ok (k, c) := found
  have destination : requestedCard { s with posting := .card q } number = .ok (j, d) := target
  have tests : firstFailure (moveTests { s with posting := .card q } c d) = some reason := fails
  rw [serveMoveBalance_set (s := { s with posting := .card q }) clock other, source]
  simp only [held, if_true, destination, tests]
  rfl

theorem moveBalance_moved (passes : firstFailure (moveTests s c d) = none) :
    serveMoveBalance number q { s with posting := .card q } = moveWrite q k c j d { s with posting := .card q } := by
  have source : requestedCard { s with posting := .card q } q.card = .ok (k, c) := found
  have destination : requestedCard { s with posting := .card q } number = .ok (j, d) := target
  have tests : firstFailure (moveTests { s with posting := .card q } c d) = none := passes
  rw [serveMoveBalance_set (s := { s with posting := .card q }) clock other, source]
  simp only [held, if_true, destination, tests]

end

section
variable (clock : timeOf s.clock = some now)
include clock

theorem moveTests_state (unfit : d.state ≠ .active ∨ cardExpired (some now) (today s) d = true) :
    firstFailure (moveTests s c d) = some .state := by
  refine firstFailure_fail ?_
  rw [clock]
  rcases unfit with other | expired
  · simp [other]
  · simp [expired]

variable (active : d.state = .active) (valid : cardExpired (some now) (today s) d = false)
include active valid

theorem moveTests_amounts : firstFailure (moveTests s c d) = firstFailure
    [ (decide (1 ≤ freeAmount (some now) c), .range),
      (decide (d.balance + freeAmount (some now) c ≤ (programAt s d.program).ceiling), .ceiling) ] := by
  rw [← clock]
  exact firstFailure_pass (by rw [clock]; simp [active, valid])

end

/-- A card of a MOVE_BALANCE once it is written (R23). -/
theorem moved_eq (clock : timeOf s.clock = some now) (balance : Nat) (c : CardRecord) :
    moved s balance c = { c with holds := liveHolds (some now) c.holds, balance := balance, lastDay := today s } := by
  rw [← clock]
  rfl

/-- The one write of an accepted MOVE_BALANCE and its reply (R23). -/
theorem moveWrite_eq (clock : timeOf s.clock = some now) : moveWrite q k c j d { s with posting := .card q } =
    cardAnswer q .accepted
      (moneyBytes (freeAmount (some now) c : Nat) ++ cardBlock s k (moved s (c.balance - freeAmount (some now) c) c) ++
        cardBlock s j (moved s (d.balance + freeAmount (some now) c) d) ++ refBytes s.writePos)
      { s with
        cards := (s.cards.write none k (some (moved s (c.balance - freeAmount (some now) c) c))).write none j
          (some (moved s (d.balance + freeAmount (some now) c) d))
        journal := appendAt s.writePos (moveEntry s c d (freeAmount (some now) c)) s.journal
        writePos := advance s.writePos } := by
  rw [← clock]
  rfl

end

/-- Two cards found under two numbers stand in two slots. -/
theorem slots_differ {a b k j : Nat} {c d : CardRecord} (first : requestedCard s a = .ok (k, c)) (second : requestedCard s b = .ok (j, d))
    (other : a ≠ b) : k ≠ j := by
  obtain ⟨-, -, lookedFirst⟩ := requestedCard_ok first
  obtain ⟨-, -, lookedSecond⟩ := requestedCard_ok second
  obtain ⟨-, heldFirst, numberFirst⟩ := lookupCard_some lookedFirst
  obtain ⟨-, heldSecond, numberSecond⟩ := lookupCard_some lookedSecond
  rintro rfl
  rw [heldFirst] at heldSecond
  cases heldSecond
  exact other (numberFirst.symm.trans numberSecond)

/-- Settles O22: the checks in their order, then the two records and the entry that one write leaves. -/
theorem moveBalanceMovesTheFreeAmount : Obligations.MoveBalanceMovesTheFreeAmount := by
  intro s q number due own
  have run : exec .moveBalance s = .next (serveMoveBalance number q { s with posting := .card q }) := by
    have served := exec_cardDue due
    rw [own] at served
    exact served
  refine ⟨fun unset => ?_, fun now clock => ⟨fun same => ?_, fun other reason lost => ?_, fun other k c found => ⟨fun unfit => ?_,
    fun held reason lost => ?_, fun held j d target => ⟨fun unfit => ?_,
      fun active valid => ⟨fun empty => ?_, fun enough full => ?_, fun enough room => ?_⟩⟩⟩⟩⟩
  · exact run.trans (congrArg _ (if_pos (by simp [unset, timeOf])))
  · exact run.trans (congrArg _ ((if_neg (by simp [clock])).trans (if_pos same)))
  · exact run.trans (congrArg _ (moveBalance_sourceMissing clock other lost))
  · exact run.trans (congrArg _ (moveBalance_sourceUnfit clock other found unfit))
  · exact run.trans (congrArg _ (moveBalance_destinationMissing clock other found held lost))
  · exact run.trans (congrArg _ (moveBalance_refused clock other found held target (moveTests_state clock unfit)))
  · exact run.trans (congrArg _ (moveBalance_refused clock other found held target
      ((moveTests_amounts clock active valid).trans (firstFailure_fail (decide_eq_false (by omega))))))
  · exact run.trans (congrArg _ (moveBalance_refused clock other found held target
      ((moveTests_amounts clock active valid).trans ((firstFailure_pass (decide_eq_true enough)).trans
        (firstFailure_fail (decide_eq_false (Nat.not_le.2 full)))))))
  · intro source destination
    have passes : firstFailure (moveTests s c d) = none := (moveTests_amounts clock active valid).trans
      ((firstFailure_pass (decide_eq_true enough)).trans (firstFailure_pass (decide_eq_true room)))
    have apart := slots_differ found target other
    have written := run.trans (congrArg _ ((moveBalance_moved clock other found held target passes).trans (moveWrite_eq clock)))
    rw [moved_eq clock, moved_eq clock] at written
    refine ⟨_, written, ?_, ?_, fun i first second => ?_, ?_, fun p away => ?_, rfl⟩
    · exact (Table.read_write_ne none (s.cards.write none k (some source)) (some destination) apart).trans
        (Table.read_write_same none s.cards k (some source))
    · exact Table.read_write_same none (s.cards.write none k (some source)) j (some destination)
    · exact (Table.read_write_ne none (s.cards.write none k (some source)) (some destination) second).trans
        (Table.read_write_ne none s.cards (some source) first)
    · exact (read_appendAt _ _ _ _).trans (if_pos rfl)
    · exact (read_appendAt _ _ _ _).trans (if_neg away)

end Sys2Proof.Machine
end

