-- ==== Sys2Proof/Proofs/TillHead.lean ====
section
/-! The till requests up to their own tests: who serves a request, the common head of the check order (R31 to R35) and what a decline
shows (R36, R38). -/

namespace Sys2Proof.Machine

variable {s t : State} {r : TillRequest}

/-! ### The request that is due -/

/-- The tests and effects of a kind's own, on the card found. -/
def RequestKind.own : RequestKind → TillRequest → Nat → CardRecord → State → State
  | .issue => fun r _ _ => serveIssue r
  | .topup => topupOwn
  | .spend => spendOwn
  | .reserve => reserveOwn
  | .claim => claimOwn
  | .free => freeOwn
  | .returnReq => returnOwn
  | .cancel => cancelOwn
  | .ask => askOwn
  | .tryReq => tryOwn

/-- What serves a till request, by its kind: an ISSUE looks for no card. -/
def RequestKind.serve (kind : RequestKind) : TillRequest → State → State :=
  if kind = .issue then serveIssue else serveOnCard kind.own

/-- A till request that is due is served by its kind. -/
theorem exec_tillDue (due : TillDue s r t) : exec r.kind.command s = .next (r.kind.serve r t) := by
  have taken := takeTill_due r.kind.serve due
  cases kind : r.kind
  all_goals
    rw [kind] at taken
    exact congrArg Host.Outcome.next taken

theorem serve_onCard {kind : RequestKind} (other : kind ≠ .issue) : kind.serve = serveOnCard kind.own := if_neg other

theorem TillDue.rest (due : TillDue s r t) : ∃ rest, t = { s with ingress := rest } := by
  obtain ⟨-, -, -, -, rest, -, rfl⟩ := due
  exact ⟨rest, rfl⟩

/-! ### What a decline shows -/

theorem decline_none (reason : DeclineReason) : decline r reason none s = placeResponse r (.declined reason)
    { z := false, s := r.kind.carriesAmount, x := decide (reason = .ceiling), d := decide (reason = .dayCap), l := false } 0
    { balance := 0, free := 0, expiry := 0 } none s := by
  simp [decline, declinedConditions, noView]

theorem declinedConditions_card (kind : RequestKind) (reason : DeclineReason) (balance : Nat) :
    declinedConditions kind reason (some balance) =
      { z := decide (balance = 0), s := kind.carriesAmount, x := decide (reason = .ceiling), d := decide (reason = .dayCap), l := false } := by
  simp [declinedConditions]

theorem decline_card (reason : DeclineReason) (c : CardRecord) : decline r reason (some c) s = placeResponse r (.declined reason)
    { z := decide (c.balance = 0), s := r.kind.carriesAmount, x := decide (reason = .ceiling), d := decide (reason = .dayCap), l := false } 0
    { balance := c.balance, free := freeAmount (timeOf s.clock) c, expiry := c.expiryDay } none s := by
  simp only [decline, Option.map_some, declinedConditions_card]
  rfl

/-! ### Steps 1 to 5 -/

theorem timeOf_isSome_iff (clock : Clock) : (timeOf clock).isSome = true ↔ clock ≠ .unset := by
  cases clock <;> simp [timeOf]

theorem modeAdmits_iff (kind : RequestKind) : modeAdmits s kind = true ↔
    clearing s = false ∧ (s.mode = .service ∨ (kind = .ask ∧ s.clock ≠ .unset)) := by
  unfold modeAdmits
  cases busy : clearing s with
  | true => simp
  | false =>
    cases mode : s.mode with
    | service => simp
    | maintenance => simp [timeOf_isSome_iff]

section
variable (inRange : r.kind.carriesAmount = true → 1 ≤ r.amount ∧ r.amount ≤ 9999999)

theorem entryTests_amount (outside : ¬(r.kind.carriesAmount = true → 1 ≤ r.amount ∧ r.amount ≤ 9999999)) :
    firstFailure (entryTests s r) = some .amount := by
  refine firstFailure_fail (Bool.eq_false_of_not_eq_true fun holds => outside fun carries => ?_)
  simp only [carries, Bool.not_true, Bool.false_or, Bool.and_eq_true, decide_eq_true_eq] at holds
  exact holds

include inRange

theorem amount_inRange : (!r.kind.carriesAmount || (decide (1 ≤ r.amount) && decide (r.amount ≤ Config.maxAmount))) = true := by
  cases carries : r.kind.carriesAmount with
  | false => rfl
  | true =>
    obtain ⟨low, high⟩ := inRange carries
    rw [decide_eq_true low, decide_eq_true (show r.amount ≤ Config.maxAmount from high)]
    rfl

theorem entryTests_checkDigit (bad : passesCheck r.card = false) : firstFailure (entryTests s r) = some .checkDigit :=
  (firstFailure_pass (amount_inRange inRange)).trans (firstFailure_fail bad)

variable (good : passesCheck r.card = true)
include good

theorem entryTests_noCard (none : matchProgram s.programs r.card = none) : firstFailure (entryTests s r) = some .noCard :=
  (firstFailure_pass (amount_inRange inRange)).trans ((firstFailure_pass good).trans (firstFailure_fail (by simp [none])))

variable (claimed : matchProgram s.programs r.card ≠ none)
include claimed

/-- Steps 4 and 5, once a program claims the number. -/
theorem entryTests_mode : firstFailure (entryTests s r) =
    firstFailure [ (modeAdmits s r.kind, .outOfService), ((timeOf s.clock).isSome, .noClock) ] :=
  (firstFailure_pass (amount_inRange inRange)).trans ((firstFailure_pass good).trans
    (firstFailure_pass (Option.isSome_iff_ne_none.2 claimed)))

end

/-- Steps 1 to 5 decline a request of every kind, showing no card. -/
theorem serve_entryFails {kind : RequestKind} {reason : DeclineReason} (fails : firstFailure (entryTests s r) = some reason) :
    kind.serve r s = decline r reason none s := by
  unfold RequestKind.serve
  split
  · simp only [serveIssue, fails]
  · simp only [serveOnCard, fails]

/-! ### Steps 6 to 10 -/

section
variable {own : TillRequest → Nat → CardRecord → State → State} (entered : firstFailure (entryTests s r) = none)
include entered

theorem serveOnCard_noCard (missing : liveCard s r.card = none) : serveOnCard own r s = decline r .noCard none s := by
  simp only [serveOnCard, entered, missing]

theorem serveOnCard_declined {k : Nat} {c : CardRecord} {reason : DeclineReason} (found : liveCard s r.card = some (k, c))
    (fails : firstFailure (cardTests s r c) = some reason) : serveOnCard own r s = decline r reason (some c) s := by
  simp only [serveOnCard, entered, found, fails]

end

/-- The kind's own tests follow on the card that passes the common head. -/
theorem serveOnCard_passes {own : TillRequest → Nat → CardRecord → State → State} {k : Nat} {c : CardRecord} (passes : PassesHead s r k c) :
    serveOnCard own r s = own r k c s := by
  obtain ⟨entered, found, tests⟩ := passes
  simp only [serveOnCard, entered, found, tests]

/-- The own tests of a request on a card that passes the common head, after the request has left the Ingress File. -/
theorem exec_passes {k : Nat} {c : CardRecord} (due : TillDue s r t) (other : r.kind ≠ .issue) (passes : PassesHead s r k c) :
    exec r.kind.command s = .next (r.kind.own r k c t) := by
  obtain ⟨rest, rfl⟩ := due.rest
  rw [exec_tillDue due, serve_onCard other]
  have kept : PassesHead { s with ingress := rest } r k c := passes
  rw [serveOnCard_passes kept]

theorem liveCard_missing (missing : lookupCard s r.card = none) : liveCard s r.card = none := by simp only [liveCard, missing]

section
variable {k : Nat} {c : CardRecord} (found : lookupCard s r.card = some (k, c))
include found

theorem liveCard_retired (gone : c.state = .retired) : liveCard s r.card = none := by
  simp only [liveCard, found, gone, if_true]

theorem liveCard_found (alive : c.state ≠ .retired) : liveCard s r.card = some (k, c) := by
  simp only [liveCard, found, if_neg alive]

end

theorem stateAdmits_iff {kind : RequestKind} {state : CardState} (other : kind ≠ .issue) (alive : state ≠ .retired) :
    stateAdmits kind state = true ↔ ¬(state = .suspended ∧ kind ∈ [.topup, .spend, .reserve, .returnReq, .cancel, .tryReq]) := by
  cases state with
  | active => simp [stateAdmits]
  | retired => exact absurd rfl alive
  | suspended => cases kind <;> simp [stateAdmits] at other ⊢

theorem testsExpiry_iff (kind : RequestKind) : testsExpiry kind = true ↔ kind ∈ [.topup, .spend, .reserve, .returnReq, .tryReq] := by
  cases kind <;> simp [testsExpiry]

theorem cardExpired_iff {c : CardRecord} (set : s.clock ≠ .unset) :
    cardExpired (timeOf s.clock) (today s) c = true ↔ c.expiryDay ≠ 0 ∧ c.expiryDay < today s := by
  simp [cardExpired, (timeOf_isSome_iff s.clock).2 set]

theorem termsAdmit_iff {kind : RequestKind} (other : kind ≠ .issue) (state : TermsState) :
    termsAdmit kind state = true ↔ ¬(state = .unenrolled ∨ (state ≠ .enrolled ∧ kind ≠ .ask ∧ kind ≠ .free)) := by
  cases state <;> cases kind <;> simp [termsAdmit] at other ⊢

theorem flagAdmits_iff {kind : RequestKind} (other : kind ≠ .issue) (terms : Terms) :
    flagAdmits kind terms = true ↔ ¬((kind = .topup ∧ terms.maySell = false) ∨ (kind = .returnReq ∧ terms.mayRefund = false)) := by
  cases kind <;> simp [flagAdmits] at other ⊢

/-- Settles O23: the tests of the common head in their order. -/
theorem theCheckOrderDeclinesInOrder : Obligations.TheCheckOrderDeclinesInOrder := by
  intro s r t due inRange admitted terms declines
  have run := exec_tillDue due
  obtain ⟨rest, rfl⟩ := due.rest
  have fails {reason : DeclineReason} (plain : reason ≠ .ceiling ∧ reason ≠ .dayCap) (test : firstFailure (entryTests s r) = some reason) :
      declines reason := by
    refine run.trans (congrArg _ ((serve_entryFails (s := { s with ingress := rest }) test).trans ?_))
    rw [decline_none, decide_eq_false plain.1, decide_eq_false plain.2]
  have admits : modeAdmits s r.kind = true ↔ admitted := modeAdmits_iff r.kind
  refine ⟨fun outside => fails (by decide) (entryTests_amount outside), fun ranged bad => fails (by decide) (entryTests_checkDigit ranged bad),
    fun ranged good none => fails (by decide) (entryTests_noCard ranged good none), fun ranged good claimed barred => ?_,
    fun ranged good claimed permitted unset => ?_, fun ranged good claimed permitted set other => ?_⟩
  · exact fails (by decide) ((entryTests_mode ranged good claimed).trans (firstFailure_fail (Bool.eq_false_of_not_eq_true (mt admits.1 barred))))
  · exact fails (by decide) ((entryTests_mode ranged good claimed).trans ((firstFailure_pass (admits.2 permitted)).trans
      (firstFailure_fail (by simp [unset, timeOf]))))
  · have entered : firstFailure (entryTests s r) = none := (entryTests_mode ranged good claimed).trans
      ((firstFailure_pass (admits.2 permitted)).trans (firstFailure_pass ((timeOf_isSome_iff _).2 set)))
    rw [serve_onCard other] at run
    have missing (none : liveCard s r.card = none) : declines .noCard := by
      refine run.trans (congrArg _ ((serveOnCard_noCard (s := { s with ingress := rest }) entered none).trans ?_))
      rw [decline_none]
      rfl
    refine ⟨fun none => missing (liveCard_missing none), fun k c found => ?_⟩
    intro stateBars expiryBars termsBar flagBars shows
    refine ⟨fun gone => missing (liveCard_retired found gone), fun alive => ?_⟩
    have live := liveCard_found found alive
    have shown {reason : DeclineReason} (plain : reason ≠ .ceiling ∧ reason ≠ .dayCap) (test : firstFailure (cardTests s r c) = some reason) :
        shows reason := by
      refine run.trans (congrArg _ ((serveOnCard_declined (s := { s with ingress := rest }) entered live test).trans ?_))
      rw [decline_card, decide_eq_false plain.1, decide_eq_false plain.2]
    have state : stateAdmits r.kind c.state = true ↔ ¬stateBars := stateAdmits_iff other alive
    have expiry : (!(testsExpiry r.kind && cardExpired (timeOf s.clock) (today s) c)) = true ↔ ¬expiryBars := by
      rw [Bool.not_eq_true', ← Bool.not_eq_true, not_iff_not, Bool.and_eq_true, testsExpiry_iff, cardExpired_iff set]
      exact and_comm
    have enrols : termsAdmit r.kind terms.state = true ↔ ¬termsBar := termsAdmit_iff other _
    have flag : flagAdmits r.kind terms = true ↔ ¬flagBars := flagAdmits_iff other _
    refine ⟨fun bars => ?_, fun fit bars => ?_, fun fit valid bars => ?_, fun fit valid enrolled flagged => ⟨entered, live, ?_⟩⟩
    · exact shown (by decide) (firstFailure_fail (Bool.eq_false_of_not_eq_true fun holds => state.1 holds bars))
    · exact shown (by decide) ((firstFailure_pass (state.2 fit)).trans
        (firstFailure_fail (Bool.eq_false_of_not_eq_true fun holds => expiry.1 holds bars)))
    · refine shown (by decide) ((firstFailure_pass (state.2 fit)).trans ((firstFailure_pass (expiry.2 valid)).trans ?_))
      by_cases enrolled : termsBar
      · exact firstFailure_fail (Bool.eq_false_of_not_eq_true fun holds => enrols.1 holds enrolled)
      · exact (firstFailure_pass (enrols.2 enrolled)).trans
          (firstFailure_fail (Bool.eq_false_of_not_eq_true fun holds => flag.1 holds (bars.resolve_left enrolled)))
    · exact (firstFailure_pass (state.2 fit)).trans ((firstFailure_pass (expiry.2 valid)).trans
        ((firstFailure_pass (enrols.2 enrolled)).trans (firstFailure_pass (flag.2 flagged))))

end Sys2Proof.Machine
end

