-- ==== Sys2Proof/Proofs/TillOwn.lean ====
section
/-! The own tests of each kind, one equation a case (R39 to R48, R61 to R69, R79 to R91), and their declines in order. -/

namespace Sys2Proof.Machine

variable {s t : State} {r : TillRequest} {k g : Nat} {c : CardRecord} {x : DeclineReason}

/-! ### ISSUE -/

/-- A request with an amount in range meets steps 1 to 5 in SERVICE (R31). -/
theorem entered_inService {i : Nat} (low : 1 ≤ r.amount) (high : r.amount ≤ 9999999) (good : passesCheck r.card = true)
    (claimed : matchProgram s.programs r.card = some i) (calm : clearing s = false) (service : s.mode = .service) (set : s.clock ≠ .unset) :
    firstFailure (entryTests s r) = none :=
  (entryTests_mode (fun _ => ⟨low, high⟩) good (by rw [claimed]; exact Option.some_ne_none i)).trans
    ((firstFailure_pass ((modeAdmits_iff r.kind).2 ⟨calm, .inl service⟩)).trans (firstFailure_pass ((timeOf_isSome_iff _).2 set)))

section
variable {i : Nat} (entered : firstFailure (entryTests s r) = none) (claimed : matchProgram s.programs r.card = some i)
include entered claimed

theorem serveIssue_declined (fails : firstFailure (issueTests s r (programAt s i)) = some x) : serveIssue r s = decline r x none s := by
  simp only [serveIssue, entered, claimed, fails]

theorem serveIssue_full (tests : firstFailure (issueTests s r (programAt s i)) = none) (full : firstEmpty s r.card = none) :
    serveIssue r s = decline r .tableFull none s := by
  simp only [serveIssue, entered, claimed, tests, full]

theorem serveIssue_awaits (tests : firstFailure (issueTests s r (programAt s i)) = none) (empty : firstEmpty s r.card = some k) :
    serveIssue r s = awaitTable (issueHand s r i (programAt s i) k) s := by
  simp only [serveIssue, entered, claimed, tests, empty]

end

section
variable {p : Program}

theorem issueTests_merchant (bars : ¬((termsOf s r.merchant).state = .enrolled ∧ (termsOf s r.merchant).maySell = true)) :
    firstFailure (issueTests s r p) = some .merchant := by
  by_cases enrolled : (termsOf s r.merchant).state = .enrolled
  · exact (firstFailure_pass (by rw [enrolled]; rfl)).trans
      (firstFailure_fail (Bool.eq_false_of_not_eq_true fun sells => bars ⟨enrolled, sells⟩))
  · refine firstFailure_fail ?_
    cases state : (termsOf s r.merchant).state with
    | enrolled => exact absurd state enrolled
    | unenrolled => rfl
    | suspended => rfl
    | withdrawn => rfl

variable (sells : (termsOf s r.merchant).state = .enrolled ∧ (termsOf s r.merchant).maySell = true)
include sells

/-- Steps 11a onward, once the merchant may sell. -/
theorem issueTests_sells : firstFailure (issueTests s r p) = firstFailure
    [ (decide (p.state = .opened), .program),
      (decide (p.issueMinimum ≤ r.amount), .amount),
      (decide (r.amount ≤ p.ceiling), .ceiling),
      ((lookupCard s r.card).isNone, .cardState) ] :=
  (firstFailure_pass (by rw [sells.1]; rfl)).trans (firstFailure_pass sells.2)

end

theorem firstEmpty_none (full : ∀ k ∈ probeWindow r.card, cardAt s k ≠ none) : firstEmpty s r.card = none :=
  List.find?_eq_none.2 fun k member => by simpa using full k member

/-! ### The limits of a debit -/

theorem PassesHead.clock (passes : PassesHead s r k c) : (timeOf s.clock).isSome = true :=
  (firstFailure_none _).1 passes.1 ((timeOf s.clock).isSome, .noClock) (by simp [entryTests])

/-- Day-spend as it is read while the clock is set (R14). -/
theorem daySpendRead_set (set : (timeOf s.clock).isSome = true) :
    daySpendRead (timeOf s.clock) (today s) c = if c.spendDay = today s then c.daySpend else 0 := by
  simp [daySpendRead, Option.isSome_iff_ne_none.1 set]

/-- The cap as a limit, once a request passed the common head (R14, R43). -/
theorem capLimit_set (set : (timeOf s.clock).isSome = true) (p : Program) : capLimit (capRemaining s p c) =
    if p.dailyCap = 0 then [] else [(.dayCap, p.dailyCap - (if c.spendDay = today s then c.daySpend else 0))] := by
  unfold capRemaining
  rw [daySpendRead_set set]
  by_cases uncapped : p.dailyCap = 0
  · rw [if_pos uncapped, if_pos uncapped]
    rfl
  · rw [if_neg uncapped, if_neg uncapped]
    rfl

theorem spendLimits_set (set : (timeOf s.clock).isSome = true) (p : Program) : spendLimits s p c =
    (.funds, freeAmount (timeOf s.clock) c) ::
      if p.dailyCap = 0 then [] else [(.dayCap, p.dailyCap - (if c.spendDay = today s then c.daySpend else 0))] := by
  rw [spendLimits, capLimit_set set]

/-! ### TOPUP, SPEND, TRY and ASK -/

theorem topupOwn_closed (closed : (programAt s c.program).topupPermitted = false) : topupOwn r k c s = decline r .program (some c) s := by
  simp [topupOwn, closed]

section
variable (permitted : (programAt s c.program).topupPermitted = true)
include permitted

theorem topupOwn_declined (fails : decideGrant r.amount r.mayCut [(.ceiling, (programAt s c.program).ceiling - c.balance)] = .error x) :
    topupOwn r k c s = decline r x (some c) s := by simp only [topupOwn, permitted, if_true, fails]

theorem topupOwn_granted (grants : decideGrant r.amount r.mayCut [(.ceiling, (programAt s c.program).ceiling - c.balance)] = .ok g) :
    topupOwn r k c s = awaitTable (handFor s r (.post .sold true (termsOf s r.merchant).debitLimit) .exposure g k c
      (toppedUp s (programAt s c.program) g c) .topup none none true (servedOutcome r.amount g)
      (servedConditions (programAt s c.program).lowThreshold c.balance (c.balance + g) r.amount g
        (cutBy ((programAt s c.program).ceiling - c.balance) r.amount ((programAt s c.program).ceiling - c.balance)) false)) s := by
  simp only [topupOwn, permitted, if_true, grants]

end

theorem spendOwn_declined (fails : decideGrant r.amount r.mayCut (spendLimits s (programAt s c.program) c) = .error x) :
    spendOwn r k c s = decline r x (some c) s := by simp only [spendOwn, fails]

theorem spendOwn_granted (grants : decideGrant r.amount r.mayCut (spendLimits s (programAt s c.program) c) = .ok g) :
    spendOwn r k c s = awaitTable (handFor s r (.post .redeemed false 0) .exposure g k c (afterDebit s g c) .spend (some g) none false
      (servedOutcome r.amount g) (spendConditions s r (programAt s c.program) c g)) s := by simp only [spendOwn, grants]

theorem tryOwn_declined (fails : decideGrant r.amount r.mayCut (spendLimits s (programAt s c.program) c) = .error x) :
    tryOwn r k c s = decline r x (some c) s := by simp only [tryOwn, fails]

theorem tryOwn_granted (grants : decideGrant r.amount r.mayCut (spendLimits s (programAt s c.program) c) = .ok g) :
    tryOwn r k c s = placeResponse r (servedOutcome r.amount g) (spendConditions s r (programAt s c.program) c g) g
      (viewOf (timeOf s.clock) (afterDebit s g c)) none s := by simp only [tryOwn, grants]

/-! ### RESERVE, CLAIM and FREE -/

theorem reserveOwn_full (full : (programAt s c.program).holdLimit ≤ (liveHolds (timeOf s.clock) c.holds).length) :
    reserveOwn r k c s = decline r .holdLimit (some c) s := if_neg (Nat.not_lt.2 full)

section
variable (room : (liveHolds (timeOf s.clock) c.holds).length < (programAt s c.program).holdLimit)
include room

theorem reserveOwn_declined (fails : decideGrant r.amount r.mayCut [(.funds, freeAmount (timeOf s.clock) c)] = .error x) :
    reserveOwn r k c s = decline r x (some c) s := by simp only [reserveOwn, room, if_true, fails]

theorem reserveOwn_granted (grants : decideGrant r.amount r.mayCut [(.funds, freeAmount (timeOf s.clock) c)] = .ok g) :
    reserveOwn r k c s = placeResponse r (servedOutcome r.amount g)
      (servedConditions (programAt s c.program).lowThreshold c.balance c.balance r.amount g false false) g
      (viewOf (timeOf s.clock) (withHold s r (programAt s c.program) g c)) (some s.writePos)
      (holdWrite k (withHold s r (programAt s c.program) g c)
        (appendAt s.writePos (cardEntry .reserve r g (today s) s.cycle none none) s.journal) s) := by
  simp only [reserveOwn, room, if_true, grants]

end

theorem claimOwn_unresolved (fails : resolveHold s r c = .error x) : claimOwn r k c s = decline r x (some c) s := by
  simp only [claimOwn, fails]

section
variable {h : Hold} (names : resolveHold s r c = .ok h)
include names

theorem claimOwn_declined (fails : decideGrant r.amount r.mayCut (claimLimits s r (programAt s c.program) c h) = .error x) :
    claimOwn r k c s = decline r x (some c) s := by simp only [claimOwn, names, fails]

theorem claimOwn_granted (grants : decideGrant r.amount r.mayCut (claimLimits s r (programAt s c.program) c h) = .ok g) :
    claimOwn r k c s = awaitTable (handFor s r (.post .redeemed false 0) .exposure g k c
      (afterDebit s g (withoutHold r.reference c)) .claim (some g) (some r.reference) false (servedOutcome r.amount g)
      (servedConditions (programAt s c.program).lowThreshold c.balance (c.balance - g) r.amount g false
        (cutByCap (capRemaining s (programAt s c.program) c) r.amount (min (claimMaximum s r c h) (freeWithout s c h))))) s := by
  simp only [claimOwn, names, grants]

end

theorem claimLimits_set {h : Hold} (set : (timeOf s.clock).isSome = true) (p : Program) : claimLimits s r p c h =
    (.overHold, claimMaximum s r c h) :: (.funds, freeAmount (timeOf s.clock) c + h.amount) ::
      if p.dailyCap = 0 then [] else [(.dayCap, p.dailyCap - (if c.spendDay = today s then c.daySpend else 0))] := by
  rw [claimLimits, capLimit_set set, freeWithout]

section
variable {h : Hold} (found : c.holds.find? (fun h => decide (h.reference = r.reference)) = some h)
include found

theorem resolveHold_other (other : h.merchant ≠ r.merchant) : resolveHold s r c = .error .noRef := by
  simp only [resolveHold, found, if_neg other]

theorem resolveHold_expired (own : h.merchant = r.merchant) (expired : holdExpired (timeOf s.clock) h = true) :
    resolveHold s r c = .error .expired := by simp only [resolveHold, found, own, expired, if_true]

theorem resolveHold_present (own : h.merchant = r.merchant) (present : holdExpired (timeOf s.clock) h = false) :
    resolveHold s r c = .ok h := by simp [resolveHold, found, own, present]

end

theorem resolveRef_none {ref : JournalRef} (empty : entryAt s ref = none) : resolveRef s ref = .error .noRef := by
  simp only [resolveRef, empty]

theorem resolveRef_aged {ref : JournalRef} {e : JournalEntry} (found : entryAt s ref = some e) (other : e.lap ≠ ref.lap) :
    resolveRef s ref = .error .aged := by simp only [resolveRef, found, if_neg other]

theorem resolveRef_found {ref : JournalRef} {e : JournalEntry} (found : entryAt s ref = some e) (lap : e.lap = ref.lap) :
    resolveRef s ref = .ok e := by simp only [resolveRef, found, if_pos lap]

/-! Without a hold of the reference the journal decides (R65). -/

section
variable (absent : ∀ h ∈ c.holds, h.reference ≠ r.reference)
include absent

theorem find_absent : (c.holds.find? fun h => decide (h.reference = r.reference)) = none :=
  List.find?_eq_none.2 fun h member => by simpa using absent h member

theorem resolveHold_unresolved (fails : resolveRef s r.reference = .error x) : resolveHold s r c = .error x := by
  simp only [resolveHold, find_absent absent, fails]

variable {e : JournalEntry} (found : resolveRef s r.reference = .ok e)
include found

theorem resolveHold_unfinished (running : e.kind = .reserve ∧ e.card = some r.card ∧ e.merchant = some r.merchant ∧ e.link = none) :
    resolveHold s r c = .error .expired := by
  simp only [resolveHold, find_absent absent, found, if_pos running]

theorem resolveHold_finished (closed : ¬(e.kind = .reserve ∧ e.card = some r.card ∧ e.merchant = some r.merchant ∧ e.link = none)) :
    resolveHold s r c = .error .noRef := by
  simp only [resolveHold, find_absent absent, found, if_neg closed]

end

theorem freeOwn_missing (missing : presentHold s r c = none) : freeOwn r k c s = decline r .noRef (some c) s := by
  simp only [freeOwn, missing]

theorem freeOwn_found {h : Hold} (found : presentHold s r c = some h) : freeOwn r k c s =
    placeResponse r .approved {} h.amount (viewOf (timeOf s.clock) (touched s (withoutHold r.reference c))) (some s.writePos)
      (holdWrite k (touched s (withoutHold r.reference c))
        (appendAt s.writePos (cardEntry .free r h.amount (today s) s.cycle none (some r.reference))
          (editEntry r.reference (linkReserve s.writePos) s.journal)) s) := by
  simp only [freeOwn, found]

/-! ### RETURN -/

theorem returnOwn_unresolved (fails : returnable s r c = .error x) : returnOwn r k c s = decline r x (some c) s := by
  simp only [returnOwn, fails]

section
variable {e : JournalEntry} (names : returnable s r c = .ok e)
include names

theorem returnOwn_late (late : withinWindow s (termsOf s r.merchant).returnWindow e = false) :
    returnOwn r k c s = decline r .returnWindow (some c) s := by
  simp [returnOwn, names, late]

variable (inTime : withinWindow s (termsOf s r.merchant).returnWindow e = true)
include inTime

theorem returnOwn_declined (fails : decideGrant r.amount r.mayCut
      [(.returnExcess, remainingOf e), (.ceiling, (programAt s c.program).ceiling - c.balance)] = .error x) :
    returnOwn r k c s = decline r x (some c) s := by
  simp only [returnOwn, names, inTime, if_true, fails]

theorem returnOwn_granted (grants : decideGrant r.amount r.mayCut
      [(.returnExcess, remainingOf e), (.ceiling, (programAt s c.program).ceiling - c.balance)] = .ok g) :
    returnOwn r k c s = awaitTable (handFor s r (.post .refunded true (termsOf s r.merchant).debitLimit) .exposure g k c
      { touched s c with balance := c.balance + g } .returnReq none (some r.reference) true (servedOutcome r.amount g)
      (servedConditions (programAt s c.program).lowThreshold c.balance (c.balance + g) r.amount g
        (cutBy ((programAt s c.program).ceiling - c.balance) r.amount (remainingOf e)) false)) s := by
  simp only [returnOwn, names, inTime, if_true, grants]

end

section
variable {e : JournalEntry} (found : resolveRef s r.reference = .ok e)
include found

theorem returnable_unfit (unfit : ¬((e.kind = .spend ∨ e.kind = .claim) ∧ e.card = some r.card ∧ e.merchant = some r.merchant ∧
    e.cancelled = false ∧ c.issueDay ≤ e.day)) : returnable s r c = .error .noRef := by
  simp only [returnable, found, if_neg unfit]

theorem returnable_fit (fits : (e.kind = .spend ∨ e.kind = .claim) ∧ e.card = some r.card ∧ e.merchant = some r.merchant ∧
    e.cancelled = false ∧ c.issueDay ≤ e.day) : returnable s r c = .ok e := by
  simp only [returnable, found, if_pos fits]

end

theorem returnable_unresolved (fails : resolveRef s r.reference = .error x) : returnable s r c = .error x := by
  simp only [returnable, fails]

theorem withinWindow_iff {window : Nat} {e : JournalEntry} :
    withinWindow s window e = true ↔ 1 ≤ window ∧ today s ≤ e.day + window := by
  simp only [withinWindow, Bool.and_eq_true, decide_eq_true_eq]
  omega

/-! ### CANCEL -/

theorem cancelOwn_mismatch (fails : cancelMatch s r = .error x) : cancelOwn r k c s = decline r x (some c) s := by
  simp only [cancelOwn, fails]

section
variable {l : LastRecord} {e : JournalEntry} (matched : cancelMatch s r = .ok (l, e))
include matched

theorem cancelOwn_blocked (blocked : cancelCondition s c e = false) : cancelOwn r k c s = decline r .cancelBlocked (some c) s := by
  simp [cancelOwn, matched, blocked]

theorem cancelOwn_awaits (allowed : cancelCondition s c e = true) : cancelOwn r k c s =
    awaitTable (if e.kind = .issue then cancelIssueHand s r k c l e else cancelHand s r k c l e) s := by
  simp only [cancelOwn, matched, allowed, if_true]

end

theorem cancelMatch_sequence (other : ∀ l, (laneAt s r.merchant r.lane).last = some l → l.sequence ≠ r.cancelSequence) :
    cancelMatch s r = .error .cancelMismatch := by
  unfold cancelMatch
  cases last : (laneAt s r.merchant r.lane).last with
  | none => rfl
  | some l => exact if_neg (other l last)

section
variable {l : LastRecord} (last : (laneAt s r.merchant r.lane).last = some l) (named : l.sequence = r.cancelSequence)
include last named

theorem cancelMatch_aged (aged : ∀ e, entryAt s l.reference = some e → e.lap ≠ l.reference.lap) : cancelMatch s r = .error .aged := by
  have lost : ∃ reason, resolveRef s l.reference = .error reason := by
    cases found : entryAt s l.reference with
    | none => exact ⟨_, resolveRef_none found⟩
    | some e => exact ⟨_, resolveRef_aged found (aged e found)⟩
  obtain ⟨reason, lost⟩ := lost
  simp only [cancelMatch, last, named, if_true, lost]

variable {e : JournalEntry} (found : entryAt s l.reference = some e) (lap : e.lap = l.reference.lap)
include found lap

theorem cancelMatch_card (other : e.card ≠ some r.card) : cancelMatch s r = .error .cancelMismatch := by
  simp only [cancelMatch, last, named, if_true, resolveRef_found found lap, if_neg other]

theorem cancelMatch_window (card : e.card = some r.card) (other : l.day ≠ today s) : cancelMatch s r = .error .cancelWindow := by
  simp only [cancelMatch, last, named, if_true, resolveRef_found found lap, card, if_neg other]

theorem cancelMatch_ok (card : e.card = some r.card) (same : l.day = today s) : cancelMatch s r = .ok (l, e) := by
  simp only [cancelMatch, last, named, if_true, resolveRef_found found lap, card, same]

end

theorem remainingOf_eq (e : JournalEntry) : e.remaining.getD 0 = remainingOf e := rfl

/-- The condition under which a posting can be undone (R87). -/
theorem cancelCondition_iff (e : JournalEntry) : cancelCondition s c e = true ↔
    (e.kind = .issue ∧ c.balance = e.amount.toNat ∧ liveHolds (timeOf s.clock) c.holds = []) ∨
      ((e.kind = .topup ∨ e.kind = .returnReq) ∧ e.amount.toNat ≤ freeAmount (timeOf s.clock) c) ∨
      ((e.kind = .spend ∨ e.kind = .claim) ∧ e.remaining.getD 0 = e.amount.toNat ∧
        c.balance + e.amount.toNat ≤ (programAt s c.program).ceiling) := by
  rw [remainingOf_eq]
  unfold cancelCondition
  cases kind : e.kind <;> simp [List.isEmpty_iff]

end Sys2Proof.Machine
end

