-- ==== Sys2Proof/Proofs/TillDeclines.lean ====
section
/-! Step 11 of the check order: each kind declines at its own tests, and no till request writes a store it must not (R36, R39 to R87). -/

namespace Sys2Proof.Machine

variable {s t : State} {r : TillRequest} {k : Nat} {c : CardRecord}

/-! ### The declines of each kind -/

/-- What a declined request answers, the card shown as it was read (R36, R38). -/
def declinesWith (r : TillRequest) (s t : State) (c : CardRecord) (reason : DeclineReason) : Prop :=
  exec r.kind.command s = .next (placeResponse r (.declined reason)
    { z := decide (c.balance = 0), s := r.kind.carriesAmount, x := decide (reason = .ceiling), d := decide (reason = .dayCap), l := false } 0
    { balance := c.balance, free := freeAmount (timeOf s.clock) c, expiry := c.expiryDay } none t)

section
variable (due : TillDue s r t) (passes : PassesHead s r k c)
include due passes

/-- A kind whose own tests fail declines, showing the card. -/
theorem declines_of_own {reason : DeclineReason} (other : r.kind ≠ .issue) (own : r.kind.own r k c t = decline r reason (some c) t) :
    declinesWith r s t c reason := by
  refine (exec_passes due other passes).trans (congrArg _ (own.trans ?_))
  obtain ⟨rest, rfl⟩ := due.rest
  exact decline_card reason c

theorem topup_declines (kind : r.kind = .topup) :
    ((programAt s c.program).topupPermitted = false → declinesWith r s t c .program) ∧
    ((programAt s c.program).topupPermitted = true →
      ∀ x, decideGrant r.amount r.mayCut [(.ceiling, (programAt s c.program).ceiling - c.balance)] = .error x → declinesWith r s t c x) := by
  have other : r.kind ≠ .issue := by rw [kind]; decide
  have declined {x : DeclineReason} (own : topupOwn r k c t = decline r x (some c) t) : declinesWith r s t c x :=
    declines_of_own due passes other (by rw [kind]; exact own)
  obtain ⟨rest, rfl⟩ := due.rest
  exact ⟨fun closed => declined (topupOwn_closed closed), fun permitted x fails => declined (topupOwn_declined permitted fails)⟩

theorem debit_declines (kind : r.kind = .spend ∨ r.kind = .tryReq) {x : DeclineReason} (fails : decideGrant r.amount r.mayCut
      ((.funds, freeAmount (timeOf s.clock) c) :: if (programAt s c.program).dailyCap = 0 then [] else
        [(.dayCap, (programAt s c.program).dailyCap - (if c.spendDay = today s then c.daySpend else 0))]) = .error x) :
    declinesWith r s t c x := by
  rw [← spendLimits_set passes.clock] at fails
  have other : r.kind ≠ .issue := by rcases kind with kind | kind <;> rw [kind] <;> decide
  refine declines_of_own due passes other ?_
  obtain ⟨rest, rfl⟩ := due.rest
  rcases kind with kind | kind
  · rw [kind]
    exact spendOwn_declined (k := k) fails
  · rw [kind]
    exact tryOwn_declined (k := k) fails

theorem reserve_declines (kind : r.kind = .reserve) :
    ((programAt s c.program).holdLimit ≤ (liveHolds (timeOf s.clock) c.holds).length → declinesWith r s t c .holdLimit) ∧
    ((liveHolds (timeOf s.clock) c.holds).length < (programAt s c.program).holdLimit →
      ∀ x, decideGrant r.amount r.mayCut [(.funds, freeAmount (timeOf s.clock) c)] = .error x → declinesWith r s t c x) := by
  have other : r.kind ≠ .issue := by rw [kind]; decide
  have declined {x : DeclineReason} (own : reserveOwn r k c t = decline r x (some c) t) : declinesWith r s t c x :=
    declines_of_own due passes other (by rw [kind]; exact own)
  obtain ⟨rest, rfl⟩ := due.rest
  exact ⟨fun full => declined (reserveOwn_full full), fun room x fails => declined (reserveOwn_declined room fails)⟩

/-- A CLAIM whose hold cannot be claimed, and one whose limits leave nothing (R65, R67). -/
theorem claim_declines (kind : r.kind = .claim) :
    (∀ x, resolveHold s r c = .error x → declinesWith r s t c x) ∧
    (∀ h x, resolveHold s r c = .ok h → decideGrant r.amount r.mayCut (claimLimits s r (programAt s c.program) c h) = .error x →
      declinesWith r s t c x) := by
  have other : r.kind ≠ .issue := by rw [kind]; decide
  have declined {x : DeclineReason} (own : claimOwn r k c t = decline r x (some c) t) : declinesWith r s t c x :=
    declines_of_own due passes other (by rw [kind]; exact own)
  obtain ⟨rest, rfl⟩ := due.rest
  exact ⟨fun x fails => declined (claimOwn_unresolved fails), fun h x names fails => declined (claimOwn_declined names fails)⟩

theorem free_declines (kind : r.kind = .free)
    (gone : ∀ h ∈ c.holds, h.reference = r.reference → h.merchant = r.merchant → holdExpired (timeOf s.clock) h = true) :
    declinesWith r s t c .noRef := by
  have missing : presentHold s r c = none := List.find?_eq_none.2 fun h member holds => by
    simp only [Bool.and_eq_true, decide_eq_true_eq, Bool.not_eq_true'] at holds
    obtain ⟨⟨named, own⟩, present⟩ := holds
    rw [gone h member named own] at present
    cases present
  refine declines_of_own due passes (by rw [kind]; decide) ?_
  obtain ⟨rest, rfl⟩ := due.rest
  rw [kind]
  exact freeOwn_missing missing

/-- A RETURN whose original cannot be returned, is too old, or leaves nothing to grant (R80 to R82). -/
theorem return_declines (kind : r.kind = .returnReq) :
    (∀ x, returnable s r c = .error x → declinesWith r s t c x) ∧
    (∀ e, returnable s r c = .ok e →
      (withinWindow s (termsOf s r.merchant).returnWindow e = false → declinesWith r s t c .returnWindow) ∧
      (withinWindow s (termsOf s r.merchant).returnWindow e = true → ∀ x, decideGrant r.amount r.mayCut
        [(.returnExcess, remainingOf e), (.ceiling, (programAt s c.program).ceiling - c.balance)] = .error x → declinesWith r s t c x)) := by
  have other : r.kind ≠ .issue := by rw [kind]; decide
  have declined {x : DeclineReason} (own : returnOwn r k c t = decline r x (some c) t) : declinesWith r s t c x :=
    declines_of_own due passes other (by rw [kind]; exact own)
  obtain ⟨rest, rfl⟩ := due.rest
  exact ⟨fun x fails => declined (returnOwn_unresolved fails), fun e names => ⟨fun late => declined (returnOwn_late names late),
    fun inTime x fails => declined (returnOwn_declined names inTime fails)⟩⟩

/-- A CANCEL that matches no last record, and one whose posting cannot be undone (R86, R87). -/
theorem cancel_declines (kind : r.kind = .cancel) :
    (∀ x, cancelMatch s r = .error x → declinesWith r s t c x) ∧
    (∀ l e, cancelMatch s r = .ok (l, e) → cancelCondition s c e = false → declinesWith r s t c .cancelBlocked) := by
  have other : r.kind ≠ .issue := by rw [kind]; decide
  have declined {x : DeclineReason} (own : cancelOwn r k c t = decline r x (some c) t) : declinesWith r s t c x :=
    declines_of_own due passes other (by rw [kind]; exact own)
  obtain ⟨rest, rfl⟩ := due.rest
  exact ⟨fun x fails => declined (cancelOwn_mismatch fails), fun l e matched blocked => declined (cancelOwn_blocked matched blocked)⟩

end

/-- Settles O24: an ISSUE by its table of tests, every other kind by its own. -/
theorem eachKindDeclinesAtItsOwnTests : Obligations.EachKindDeclinesAtItsOwnTests := by
  constructor
  · intro s r t i due kind low high good claimed calm service set p sells declines
    have run : exec r.kind.command s = .next (r.kind.serve r t) := exec_tillDue due
    rw [kind] at run
    obtain ⟨rest, rfl⟩ := due.rest
    have entered := entered_inService low high good claimed calm service set
    have declined {reason : DeclineReason} (capped : reason ≠ .dayCap)
        (served : serveIssue r { s with ingress := rest } = decline r reason none { s with ingress := rest }) : declines reason := by
      refine run.trans (congrArg _ (served.trans ?_))
      rw [decline_none, decide_eq_false capped, kind]
      rfl
    have fails {reason : DeclineReason} (capped : reason ≠ .dayCap) (test : firstFailure (issueTests s r p) = some reason) : declines reason :=
      declined capped (serveIssue_declined entered claimed test)
    refine ⟨fun bars => fails (by decide) (issueTests_merchant bars), fun sold other => ?_, fun sold opened =>
      ⟨fun below => ?_, fun enough above => ?_, fun enough within => ⟨fun used => ?_, fun unused full => ?_⟩⟩⟩
    · exact fails (by decide) ((issueTests_sells sold).trans (firstFailure_fail (decide_eq_false other)))
    all_goals
      have accepts : decide (p.state = .opened) = true := decide_eq_true opened
    · exact fails (by decide) ((issueTests_sells sold).trans ((firstFailure_pass accepts).trans
        (firstFailure_fail (decide_eq_false (Nat.not_le.2 below)))))
    · exact fails (by decide) ((issueTests_sells sold).trans ((firstFailure_pass accepts).trans
        ((firstFailure_pass (decide_eq_true enough)).trans (firstFailure_fail (decide_eq_false (Nat.not_le.2 above))))))
    · exact fails (by decide) ((issueTests_sells sold).trans ((firstFailure_pass accepts).trans
        ((firstFailure_pass (decide_eq_true enough)).trans ((firstFailure_pass (decide_eq_true within)).trans
          (firstFailure_fail (Bool.eq_false_of_not_eq_true (mt Option.isNone_iff_eq_none.1 used)))))))
    · have tests : firstFailure (issueTests s r p) = none := (issueTests_sells sold).trans ((firstFailure_pass accepts).trans
        ((firstFailure_pass (decide_eq_true enough)).trans ((firstFailure_pass (decide_eq_true within)).trans
          (firstFailure_pass (by rw [unused]; rfl)))))
      exact declined (by decide) (serveIssue_full entered claimed tests (firstEmpty_none full))
  · intro s r t k c due passes p now free cap declines
    refine ⟨topup_declines due passes, fun kind x => debit_declines due passes kind, reserve_declines due passes, fun kind => ?_,
      free_declines due passes, fun kind => ?_, fun kind => ?_⟩
    · obtain ⟨unresolved, limited⟩ := claim_declines due passes kind
      dsimp only
      refine ⟨fun h found => ⟨fun other => ?_, fun own expired => ?_, fun own present x fails => ?_⟩,
        fun absent => ⟨fun empty => ?_, fun e found => ⟨fun other => ?_, fun lap running => ?_, fun lap done => ?_⟩⟩⟩
      · exact unresolved _ (resolveHold_other found other)
      · exact unresolved _ (resolveHold_expired found own expired)
      · exact limited h x (resolveHold_present found own present) (by rw [claimLimits_set passes.clock]; exact fails)
      · exact unresolved _ (resolveHold_unresolved absent (resolveRef_none empty))
      · exact unresolved _ (resolveHold_unresolved absent (resolveRef_aged found other))
      · exact unresolved _ (resolveHold_unfinished absent (resolveRef_found found lap) running)
      · exact unresolved _ (resolveHold_finished absent (resolveRef_found found lap) done)
    · obtain ⟨unresolved, resolved⟩ := return_declines due passes kind
      dsimp only
      refine ⟨fun empty => ?_, fun e found => ⟨fun other => ?_, fun lap => ⟨fun unfit => ?_, fun fit late => ?_, fun fit set inTime x fails => ?_⟩⟩⟩
      · exact unresolved _ (returnable_unresolved (resolveRef_none empty))
      · exact unresolved _ (returnable_unresolved (resolveRef_aged found other))
      · exact unresolved _ (returnable_unfit (resolveRef_found found lap) unfit)
      · refine (resolved e (returnable_fit (resolveRef_found found lap) fit)).1 (Bool.eq_false_of_not_eq_true fun inside => ?_)
        obtain ⟨set, inTime⟩ := withinWindow_iff.1 inside
        exact late.elim (fun zero => absurd set (by omega)) fun beyond => absurd inTime (Nat.not_le.2 beyond)
      · exact (resolved e (returnable_fit (resolveRef_found found lap) fit)).2 (withinWindow_iff.2 ⟨set, inTime⟩) x fails
    · obtain ⟨unmatched, matched⟩ := cancel_declines due passes kind
      refine ⟨fun other => ?_, fun l last named => ⟨fun aged => ?_, fun e found lap => ?_⟩⟩
      · exact unmatched _ (cancelMatch_sequence other)
      · exact unmatched _ (cancelMatch_aged last named aged)
      · intro a undoable
        refine ⟨fun other => ?_, fun card other => ?_, fun card same blocked => ?_⟩
        · exact unmatched _ (cancelMatch_card last named found lap other)
        · exact unmatched _ (cancelMatch_window last named found lap card other)
        · exact matched l e (cancelMatch_ok last named found lap card same) (Bool.eq_false_of_not_eq_true (mt (cancelCondition_iff e).1 blocked))

end Sys2Proof.Machine
end

