-- ==== Sys2Proof/Proofs/TillAnswers.lean ====
section
/-! What a till request changes when it is taken, and the kinds that answer at once: ASK, TRY, RESERVE and FREE (R36, R46 to R48, R60 to
R64, R69). -/

namespace Sys2Proof.Machine

variable {s t : State} {r : TillRequest} {k g : Nat} {c : CardRecord}

/-! ### What a till request changes -/

/-- No field but the request in hand, the shop queue, the counters and what RESERVE and FREE write differs. -/
def takesWithin (s t : State) : Prop :=
  t = { s with
    posting := t.posting, shopOut := t.shopOut, counters := t.counters, cards := t.cards, journal := t.journal, writePos := t.writePos }

/-- The cards, the journal and the write position stand. -/
def keepsCards (s t : State) : Prop := t.cards = s.cards ∧ t.journal = s.journal ∧ t.writePos = s.writePos

/-- A kind other than RESERVE and FREE decides without a write of its own. -/
theorem own_keeps {kind : RequestKind} (issue : kind ≠ .issue) (reserve : kind ≠ .reserve) (free : kind ≠ .free) :
    takesWithin s (kind.own r k c s) ∧ keepsCards s (kind.own r k c s) := by
  cases kind with
  | issue => exact absurd rfl issue
  | reserve => exact absurd rfl reserve
  | free => exact absurd rfl free
  | ask => exact ⟨rfl, rfl, rfl, rfl⟩
  | topup =>
    simp only [RequestKind.own, topupOwn]
    split
    · split <;> exact ⟨rfl, rfl, rfl, rfl⟩
    · exact ⟨rfl, rfl, rfl, rfl⟩
  | spend =>
    simp only [RequestKind.own, spendOwn]
    split <;> exact ⟨rfl, rfl, rfl, rfl⟩
  | tryReq =>
    simp only [RequestKind.own, tryOwn]
    split <;> exact ⟨rfl, rfl, rfl, rfl⟩
  | claim =>
    simp only [RequestKind.own, claimOwn]
    split
    · exact ⟨rfl, rfl, rfl, rfl⟩
    · split <;> exact ⟨rfl, rfl, rfl, rfl⟩
  | returnReq =>
    simp only [RequestKind.own, returnOwn]
    split
    · exact ⟨rfl, rfl, rfl, rfl⟩
    · split
      · split <;> exact ⟨rfl, rfl, rfl, rfl⟩
      · exact ⟨rfl, rfl, rfl, rfl⟩
  | cancel =>
    simp only [RequestKind.own, cancelOwn]
    split
    · exact ⟨rfl, rfl, rfl, rfl⟩
    · split <;> exact ⟨rfl, rfl, rfl, rfl⟩

theorem own_within {kind : RequestKind} (issue : kind ≠ .issue) : takesWithin s (kind.own r k c s) := by
  by_cases reserve : kind = .reserve
  · subst reserve
    simp only [RequestKind.own, reserveOwn]
    split
    · split <;> rfl
    · rfl
  · by_cases free : kind = .free
    · subst free
      simp only [RequestKind.own, freeOwn]
      split <;> rfl
    · exact (own_keeps issue reserve free).1

theorem serveIssue_keeps : takesWithin s (serveIssue r s) ∧ keepsCards s (serveIssue r s) := by
  unfold serveIssue
  split
  · exact ⟨rfl, rfl, rfl, rfl⟩
  · split
    · exact ⟨rfl, rfl, rfl, rfl⟩
    · split
      · exact ⟨rfl, rfl, rfl, rfl⟩
      · split <;> exact ⟨rfl, rfl, rfl, rfl⟩

theorem serve_within (kind : RequestKind) : takesWithin s (kind.serve r s) := by
  by_cases issue : kind = .issue
  · subst issue
    exact serveIssue_keeps.1
  · rw [serve_onCard issue]
    unfold serveOnCard
    split
    · rfl
    · split
      · rfl
      · split
        · rfl
        · exact own_within issue

theorem serve_keeps {kind : RequestKind} (reserve : kind ≠ .reserve) (free : kind ≠ .free) : keepsCards s (kind.serve r s) := by
  by_cases issue : kind = .issue
  · subst issue
    exact serveIssue_keeps.2
  · rw [serve_onCard issue]
    unfold serveOnCard
    split
    · exact ⟨rfl, rfl, rfl⟩
    · split
      · exact ⟨rfl, rfl, rfl⟩
      · split
        · exact ⟨rfl, rfl, rfl⟩
        · exact (own_keeps issue reserve free).2

/-- A till command stands where no request of its kind is due, and serves it otherwise. -/
theorem exec_till_cases (kind : RequestKind) (h : exec kind.command s = .next t) :
    t = s ∨ ∃ r u, TillDue s r u ∧ t = kind.serve r u := by
  have run : exec kind.command s = .next (takeTill kind kind.serve s) := by cases kind <;> rfl
  rw [run] at h
  cases h
  rcases takeTill_cases kind kind.serve s with idle | ⟨r, u, -, due, served⟩
  · exact .inl idle
  · exact .inr ⟨r, u, due, served⟩

/-- Settles O26: by what serves the request. -/
theorem takingATillRequestWritesNoStore : Obligations.TakingATillRequestWritesNoStore := by
  intro kind s t h
  rcases exec_till_cases kind h with rfl | ⟨r, u, due, rfl⟩
  · exact ⟨rfl, fun _ _ => ⟨rfl, rfl, rfl⟩⟩
  · have within : takesWithin u (kind.serve r u) := serve_within kind
    have ingress : (kind.serve r u).ingress = u.ingress := by rw [within]
    obtain ⟨rest, rfl⟩ := due.rest
    refine ⟨?_, fun reserve free => serve_keeps (s := { s with ingress := rest }) reserve free⟩
    rw [ingress]
    exact within

/-! ### What a served request shows -/

/-- A hold that is kept is kept again. -/
theorem liveHolds_idem (now : Option Nat) (holds : List Hold) : liveHolds now (liveHolds now holds) = liveHolds now holds := by
  simp [liveHolds, List.filter_filter]

/-- The cap remaining cut the grant (R38, R44). -/
theorem cutByCap_set (set : (timeOf s.clock).isSome = true) (p : Program) (amount other : Nat) :
    cutByCap (capRemaining s p c) amount other =
      decide (p.dailyCap ≠ 0 ∧ p.dailyCap - (if c.spendDay = today s then c.daySpend else 0) < amount ∧
        p.dailyCap - (if c.spendDay = today s then c.daySpend else 0) ≤ other) := by
  unfold capRemaining
  rw [daySpendRead_set set]
  by_cases uncapped : p.dailyCap = 0
  · simp [uncapped, cutByCap]
  · simp [uncapped, cutByCap, cutBy]

/-- The free amount after a debit, holds being as they were (R9, R45). -/
theorem freeAmount_afterDebit : freeAmount (timeOf s.clock) (afterDebit s g c) = freeAmount (timeOf s.clock) c - g := by
  show c.balance - g - heldSum (liveHolds _ (liveHolds _ c.holds)) = c.balance - heldSum (liveHolds _ c.holds) - g
  rw [liveHolds_idem]
  omega

theorem crossesLow_same (threshold balance : Nat) : crossesLow threshold balance balance = false := by
  simp [crossesLow]

/-- Settles O29: the answers of ASK and TRY. -/
theorem askAndTryAnswerWithoutAWrite : Obligations.AskAndTryAnswerWithoutAWrite := by
  intro s r t k c due passes low free p left
  have set := passes.clock
  have run (other : r.kind ≠ .issue) := exec_passes due other passes
  obtain ⟨rest, rfl⟩ := due.rest
  refine ⟨fun kind => ?_, fun g kind grants => ?_⟩
  · rw [kind] at run
    exact run (by decide)
  · have limited : decideGrant r.amount r.mayCut (spendLimits s p c) = .ok g := by
      rw [spendLimits_set set]
      exact grants
    rw [kind] at run
    refine (run (by decide)).trans (congrArg _ ((tryOwn_granted (k := k) (s := { s with ingress := rest }) limited).trans ?_))
    have conditions : spendConditions s r p c g = {
        z := decide (c.balance - g = 0), s := decide (g < r.amount), x := false,
        d := decide (p.dailyCap ≠ 0 ∧ left < r.amount ∧ left ≤ free), l := decide (low ≤ c.balance) && decide (c.balance - g < low) } := by
      unfold spendConditions servedConditions
      rw [cutByCap_set set]
      rfl
    have view : viewOf (timeOf s.clock) (afterDebit s g c) = { balance := c.balance - g, free := free - g, expiry := c.expiryDay } := by
      unfold viewOf
      rw [freeAmount_afterDebit]
      rfl
    show placeResponse r _ (spendConditions s r p c g) g (viewOf (timeOf s.clock) (afterDebit s g c)) none _ = _
    rw [conditions, view]
    rfl

/-! ### RESERVE and FREE -/

/-- The card that carries a new hold (R64). -/
theorem withHold_eq {now : Nat} (clock : timeOf s.clock = some now) (p : Program) : withHold s r p g c = { c with
    lastDay := today s
    holds := liveHolds (timeOf s.clock) c.holds ++ [{
      reference := s.writePos, merchant := r.merchant, lane := r.lane, amount := g,
      expiry := min (now + p.holdHours * 3600) (2 ^ 40 - 1) }] } := by
  have expiry : holdExpiry s p = min (now + p.holdHours * 3600) (2 ^ 40 - 1) := by
    unfold holdExpiry
    rw [clock]
    rfl
  unfold withHold
  rw [expiry]
  rfl

/-- The positions a FREE changes: its entry, and the link of its RESERVE (R69). -/
theorem read_freeJournal (e : JournalEntry) (ref w : JournalRef) (j : Table (Option JournalEntry)) {p : Nat} (away : p ≠ positionOf w) :
    (appendAt w e (editEntry ref (linkReserve w) j)).read none p =
      if p = positionOf ref then
        (j.read none p).map fun e => if e.lap = ref.lap ∧ e.kind = .reserve then { e with link := some w } else e
      else j.read none p := by
  rw [read_appendAt, if_neg away, read_editEntry]
  have links : (fun e : JournalEntry => if e.lap = ref.lap then linkReserve w e else e) =
      fun e => if e.lap = ref.lap ∧ e.kind = .reserve then { e with link := some w } else e := by
    funext e
    by_cases lap : e.lap = ref.lap <;> simp [lap, linkReserve]
  rw [links]

/-- Settles O30: the hold list, the entry and the response of each. -/
theorem reserveAndFreeWriteTheHoldList : Obligations.ReserveAndFreeWriteTheHoldList := by
  intro s r t k c due passes now entry shows
  have run (other : r.kind ≠ .issue) := exec_passes due other passes
  obtain ⟨rest, rfl⟩ := due.rest
  constructor
  · intro g T kind clock room grants d
    rw [kind] at run
    have served : exec .reserve s = .next (placeResponse r (servedOutcome r.amount g)
        (servedConditions (programAt s c.program).lowThreshold c.balance c.balance r.amount g false false) g
        (viewOf (timeOf s.clock) (withHold s r (programAt s c.program) g c)) (some s.writePos)
        (holdWrite k (withHold s r (programAt s c.program) g c)
          (appendAt s.writePos (cardEntry .reserve r g (today s) s.cycle none none) s.journal) { s with ingress := rest })) :=
      (run (by decide)).trans (congrArg _ (reserveOwn_granted (s := { s with ingress := rest }) room grants))
    have low : servedConditions (programAt s c.program).lowThreshold c.balance c.balance r.amount g false false =
        { z := decide (c.balance = 0), s := decide (g < r.amount), x := false, d := false, l := false } := by
      unfold servedConditions
      rw [crossesLow_same]
    rw [withHold_eq clock, low] at served
    refine ⟨_, served, rfl, ?_, fun p away => ?_, Table.read_write_same none s.cards k (some d),
      fun j other => Table.read_write_ne none s.cards (some d) other⟩
    · exact (read_appendAt _ _ _ _).trans (if_pos rfl)
    · exact (read_appendAt _ _ _ _).trans (if_neg away)
  · intro h kind found d
    rw [kind] at run
    have served : exec .free s = .next (placeResponse r .approved {} h.amount
        (viewOf (timeOf s.clock) (touched s (withoutHold r.reference c))) (some s.writePos)
        (holdWrite k (touched s (withoutHold r.reference c))
          (appendAt s.writePos (cardEntry .free r h.amount (today s) s.cycle none (some r.reference))
            (editEntry r.reference (linkReserve s.writePos) s.journal)) { s with ingress := rest })) :=
      (run (by decide)).trans (congrArg _ (freeOwn_found (s := { s with ingress := rest }) found))
    refine ⟨_, served, rfl, ?_, Table.read_write_same none s.cards k (some d), fun j other => Table.read_write_ne none s.cards (some d) other,
      fun p away apart => ?_, fun apart => ?_⟩
    · exact (read_appendAt _ _ _ _).trans (if_pos rfl)
    · exact (read_freeJournal _ _ _ _ away).trans (if_neg apart)
    · exact (read_freeJournal _ _ _ _ apart).trans (if_pos rfl)

end Sys2Proof.Machine
end

