-- ==== Sys2Proof/Proofs/TillHands.lean ====
section
/-! The kinds that leave a request in hand for the Position Table: ISSUE and TOPUP, SPEND and CLAIM, RETURN and CANCEL (R39 to R45, R66 to
R68, R79 to R91). -/

namespace Sys2Proof.Machine

variable {s t : State} {r : TillRequest} {k g : Nat} {c d : CardRecord}

/-! ### The conditions prepared -/

/-- The request in hand of every kind but ISSUE prepares both answers of the table (R38, R56). -/
theorem handFor_prepares {movement : Movement} {refusal : DeclineReason} {amount : Nat} {entryKind : JournalKind} {remaining : Option Nat}
    {link : Option JournalRef} {rises : Bool} {outcome : TillOutcome} {conditions served : Conditions}
    (plain : refusal ≠ .ceiling ∧ refusal ≠ .dayCap) (same : conditions = served) :
    preparesAnswers (handFor s r movement refusal amount k c d entryKind remaining link rises outcome conditions) (timeOf s.clock) c d served := by
  refine ⟨same, rfl, ?_, rfl⟩
  show declinedConditions r.kind refusal (some c.balance) = _
  rw [declinedConditions_card, decide_eq_false plain.1, decide_eq_false plain.2]
  rfl

/-- Money that comes to a card crosses no threshold downwards. -/
theorem crossesLow_rise (threshold balance amount : Nat) : crossesLow threshold balance (balance + amount) = false := by
  simp only [crossesLow, Bool.and_eq_false_iff, decide_eq_false_iff_not]
  omega

/-- The conditions of a posting that adds money to a card (R38). -/
theorem servedConditions_rise (threshold balance amount : Nat) (cut : Bool) (positive : 1 ≤ g) :
    servedConditions threshold balance (balance + g) amount g cut false =
      { z := false, s := decide (g < amount), x := cut, d := false, l := false } := by
  unfold servedConditions
  rw [crossesLow_rise, decide_eq_false (by omega)]

/-- The conditions of a posting that takes money from a card (R38). -/
theorem servedConditions_fall (threshold before after amount : Nat) (capped : Bool) :
    servedConditions threshold before after amount g false capped =
      { z := decide (after = 0), s := decide (g < amount), x := false, d := capped, l := decide (threshold ≤ before ∧ after < threshold) } := by
  unfold servedConditions crossesLow
  rw [Bool.decide_and]

theorem cutBy_self (room amount : Nat) : cutBy room amount room = decide (room < amount) := by simp [cutBy]

theorem cutBy_eq (room amount other : Nat) : cutBy room amount other = decide (room < amount ∧ room ≤ other) := by
  unfold cutBy
  rw [Bool.decide_and]

theorem PassesHead.amount (passes : PassesHead s r k c) (carries : r.kind.carriesAmount = true) : 1 ≤ r.amount := by
  have test := (firstFailure_none _).1 passes.1
    (!r.kind.carriesAmount || (decide (1 ≤ r.amount) && decide (r.amount ≤ Config.maxAmount)), .amount) (by simp [entryTests])
  rw [carries, Bool.not_true, Bool.false_or, Bool.and_eq_true] at test
  exact of_decide_eq_true test.1

/-- A grant is never 0. -/
theorem decideGrant_pos {amount : Nat} {cut : Bool} {limits : List (DeclineReason × Nat)} (positive : 1 ≤ amount)
    (grants : decideGrant amount cut limits = .ok g) : 1 ≤ g := by
  cases cut with
  | false => exact ((decideGrant_whole_ok _ _ _).1 grants).1 ▸ positive
  | true => exact ((decideGrant_partial_ok _ _ _).1 grants).1

/-! ### ISSUE and TOPUP -/

theorem firstEmpty_first {before after : List Nat} (window : probeWindow r.card = before ++ k :: after)
    (used : ∀ j ∈ before, cardAt s j ≠ none) (empty : cardAt s k = none) : firstEmpty s r.card = some k := by
  unfold firstEmpty
  rw [window]
  exact List.find?_eq_some_iff_append.2 ⟨by simpa using empty, before, after, rfl, fun j member => by simpa using used j member⟩

theorem issueTests_none {p : Program} (sells : (termsOf s r.merchant).state = .enrolled ∧ (termsOf s r.merchant).maySell = true)
    (opened : p.state = .opened) (enough : p.issueMinimum ≤ r.amount) (within : r.amount ≤ p.ceiling) (unused : lookupCard s r.card = none) :
    firstFailure (issueTests s r p) = none :=
  (issueTests_sells sells).trans ((firstFailure_pass (decide_eq_true opened)).trans ((firstFailure_pass (decide_eq_true enough)).trans
    ((firstFailure_pass (decide_eq_true within)).trans (firstFailure_pass (by rw [unused]; rfl)))))

theorem renewedExpiry_eq (p : Program) : renewedExpiry s p c =
    if p.renewOnTopup = true ∧ p.expiryDays ≠ 0 ∧ c.expiryDay ≠ 0 ∧ c.expiryDay < today s + p.expiryDays
    then today s + p.expiryDays else c.expiryDay := by
  unfold renewedExpiry
  refine if_congr ?_ rfl rfl
  refine and_congr_right fun _ => and_congr_right fun days => ?_
  simp only [earlierExpiry, Bool.and_eq_true, Bool.or_eq_true, decide_eq_true_eq]
  omega

/-- Settles O27: the requests in hand of an ISSUE and of a TOPUP. -/
theorem salesAwaitTheTable : Obligations.SalesAwaitTheTable := by
  constructor
  · intro s r t i k before after due kind low high good claimed calm service set enrolled sells opened enough within unused window used empty expiry
    have run : exec r.kind.command s = .next (r.kind.serve r t) := exec_tillDue due
    rw [kind] at run
    obtain ⟨rest, rfl⟩ := due.rest
    have entered := entered_inService low high good claimed calm service set
    have tests := issueTests_none ⟨enrolled, sells⟩ opened enough within unused
    refine ⟨issueHand s r i (programAt s i) k, run.trans (congrArg _ (serveIssue_awaits (s := { s with ingress := rest }) entered claimed tests
      (firstEmpty_first window used empty))), rfl, rfl, rfl, rfl, rfl, rfl, rfl, rfl, rfl, rfl, rfl, rfl, rfl, rfl, ?_, rfl, ?_, rfl⟩
    · show servedConditions _ 0 r.amount r.amount r.amount false false = _
      have rise := servedConditions_rise (programAt s i).lowThreshold 0 r.amount false low
      rw [Nat.zero_add, decide_eq_false (Nat.lt_irrefl _)] at rise
      exact rise
    · show declinedConditions r.kind .exposure none = _
      rw [kind]
      rfl
  · intro s r t k g c due kind passes permitted grants
    have run := exec_passes due (by rw [kind]; decide) passes
    rw [kind] at run
    obtain ⟨rest, rfl⟩ := due.rest
    have positive := decideGrant_pos (passes.amount (by rw [kind]; rfl)) grants
    refine ⟨_, _, run.trans (congrArg _ (topupOwn_granted (k := k) (s := { s with ingress := rest }) permitted grants)),
      rfl, rfl, rfl, rfl, rfl, rfl, rfl, rfl, rfl, rfl, rfl, rfl, rfl, ?_,
      handFor_prepares (by decide) ?_⟩
    · rw [← renewedExpiry_eq]
      rfl
    · rw [servedConditions_rise _ _ _ _ positive, cutBy_self]
      rfl

/-! ### SPEND and CLAIM -/

/-- Settles O28: the requests in hand of a SPEND and of a CLAIM. -/
theorem debitsAwaitTheTable : Obligations.DebitsAwaitTheTable := by
  intro s r t k g c due passes p now free daySpend cap debited served
  have set := passes.clock
  have run (other : r.kind ≠ .issue) := exec_passes due other passes
  obtain ⟨rest, rfl⟩ := due.rest
  have conditions (other : Nat) : servedConditions p.lowThreshold c.balance (c.balance - g) r.amount g false
      (cutByCap (capRemaining s p c) r.amount other) = served other := by
    rw [servedConditions_fall, cutByCap_set set]
  constructor
  · intro kind grants
    rw [kind] at run
    have limited : decideGrant r.amount r.mayCut (spendLimits s p c) = .ok g := by
      rw [spendLimits_set set]
      exact grants
    refine ⟨_, (run (by decide)).trans (congrArg _ (spendOwn_granted (k := k) (s := { s with ingress := rest }) limited)),
      rfl, rfl, rfl, rfl, rfl, rfl, rfl, rfl, rfl, rfl, rfl, rfl, rfl, handFor_prepares (by decide) (conditions free)⟩
  · intro hold kind found own present most others grants
    rw [kind] at run
    have names : resolveHold s r c = .ok hold := resolveHold_present found own present
    have limited : decideGrant r.amount r.mayCut (claimLimits s r p c hold) = .ok g := by
      rw [claimLimits_set set]
      exact grants
    refine ⟨_, (run (by decide)).trans (congrArg _ (claimOwn_granted (k := k) (s := { s with ingress := rest }) names limited)),
      rfl, rfl, rfl, rfl, rfl, rfl, rfl, rfl, rfl, rfl, rfl, rfl, rfl,
      handFor_prepares (by decide) (conditions (min most (free + hold.amount)))⟩

/-! ### RETURN and CANCEL -/

/-- The CANCEL of a posting other than an ISSUE prepares both answers of the table (R91). -/
theorem cancelHand_prepares {l : LastRecord} {e : JournalEntry} (after : cancelledCard s e c = d) :
    preparesAnswers (cancelHand s r k c l e) (timeOf s.clock) c d {
      z := decide (d.balance = 0), s := false, x := false, d := false
      l := decide ((programAt s c.program).lowThreshold ≤ c.balance ∧ d.balance < (programAt s c.program).lowThreshold) } := by
  subst after
  refine ⟨?_, rfl, ?_, rfl⟩
  · show servedConditions _ c.balance (cancelledCard s e c).balance e.amount.toNat e.amount.toNat false false = _
    rw [servedConditions_fall, decide_eq_false (Nat.lt_irrefl _)]
  · show declinedConditions r.kind .cancelWindow (some c.balance) = _
    rw [declinedConditions_card]
    rfl

/-- Settles O31: the requests in hand of a RETURN and of a CANCEL, by the kind it undoes. -/
theorem returnsAndCancelsAwaitTheTable : Obligations.ReturnsAndCancelsAwaitTheTable := by
  constructor
  · intro s r t k g c e due kind passes found lap posted card merchant whole issued window inTime room grants d
    have run := exec_passes due (by rw [kind]; decide) passes
    rw [kind] at run
    obtain ⟨rest, rfl⟩ := due.rest
    have positive := decideGrant_pos (passes.amount (by rw [kind]; rfl)) grants
    have names : returnable s r c = .ok e := returnable_fit (resolveRef_found found lap) ⟨posted, card, merchant, whole, issued⟩
    have within := withinWindow_iff.2 ⟨window, inTime⟩
    refine ⟨_, run.trans (congrArg _ (returnOwn_granted (k := k) (s := { s with ingress := rest }) names within grants)),
      rfl, rfl, rfl, rfl, rfl, rfl, rfl, rfl, rfl, rfl, rfl, rfl, rfl, handFor_prepares (by decide) ?_⟩
    rw [servedConditions_rise _ _ _ _ positive, cutBy_eq]
    rfl
  · intro s r t k c l e due kind passes last named found lap card same p a undone crossing awaits
    have run := exec_passes due (by rw [kind]; decide) passes
    rw [kind] at run
    obtain ⟨rest, rfl⟩ := due.rest
    have matched : cancelMatch s r = .ok (l, e) := cancelMatch_ok last named found lap card same
    have awaiting (allowed : cancelCondition s c e = true) :=
      run.trans (congrArg _ (cancelOwn_awaits (k := k) (s := { s with ingress := rest }) matched allowed))
    refine ⟨fun issue whole unheld => ?_, fun gave covered => ?_, fun took unspent room => ?_⟩
    · have hand := awaiting ((cancelCondition_iff e).2 (.inl ⟨issue, whole, unheld⟩))
      rw [if_pos issue] at hand
      refine ⟨_, ⟨hand, rfl, rfl, rfl, rfl, rfl, rfl, rfl, rfl, rfl⟩, ?_, rfl, rfl, rfl, rfl, ?_, rfl, ?_, rfl⟩
      · show Movement.reversal (cancelField e.kind) e.cycle = _
        rw [issue]
        rfl
      · show servedConditions _ c.balance 0 a a false false = _
        rw [servedConditions_fall, decide_eq_false (Nat.lt_irrefl _)]
        rfl
      · show declinedConditions r.kind .cancelWindow (some c.balance) = _
        rw [declinedConditions_card, kind]
        rfl
    · have other : e.kind ≠ .issue := by rcases gave with h | h <;> rw [h] <;> decide
      have hand := awaiting ((cancelCondition_iff e).2 (.inr (.inl ⟨gave, covered⟩)))
      rw [if_neg other] at hand
      have after : cancelledCard s e c = { undone with balance := c.balance - a } := by
        rcases gave with h | h <;> simp only [cancelledCard, h] <;> rfl
      refine ⟨_, ⟨hand, rfl, rfl, rfl, rfl, rfl, rfl, rfl, rfl, rfl⟩, ?_, rfl, ?_, ?_, congrArg some after, cancelHand_prepares after⟩
      · show Movement.reversal (cancelField e.kind) e.cycle = _
        rcases gave with h | h <;> rw [h] <;> rfl
      · show (decide (e.kind = .spend) || decide (e.kind = .claim)) = false
        rcases gave with h | h <;> rw [h] <;> rfl
      · show (if e.kind = .returnReq then e.link else none) = _
        rcases gave with h | h <;> rw [h] <;> rfl
    · have other : e.kind ≠ .issue := by rcases took with h | h <;> rw [h] <;> decide
      have hand := awaiting ((cancelCondition_iff e).2 (.inr (.inr ⟨took, unspent, room⟩)))
      rw [if_neg other] at hand
      have after : cancelledCard s e c = { undone with balance := c.balance + a, daySpend := c.daySpend - a } := by
        rcases took with h | h <;> simp only [cancelledCard, h] <;> rfl
      refine ⟨_, ⟨hand, rfl, rfl, rfl, rfl, rfl, rfl, rfl, rfl, rfl⟩, ?_, rfl, ?_, ?_, congrArg some after, cancelHand_prepares after⟩
      · show Movement.reversal (cancelField e.kind) e.cycle = _
        rcases took with h | h <;> rw [h] <;> rfl
      · show (decide (e.kind = .spend) || decide (e.kind = .claim)) = true
        rcases took with h | h <;> rw [h] <;> rfl
      · show (if e.kind = .returnReq then e.link else none) = _
        rcases took with h | h <;> rw [h] <;> rfl

end Sys2Proof.Machine
end

