-- ==== Sys2Proof/Proofs/PositionTable.lean ====
section
/-! The Position Table: the answers to a post and to a reversal, a SPEND from end to end, the close of a cycle and ADJUST_CARRY (R50, R89,
R115 to R123). -/

namespace Sys2Proof.Machine

variable {s t : State} {h : Hand} {field : BankField}

/-! ### Posts and reversals -/

theorem acceptsPost_iff {gated : Bool} {limit amount : Nat} {p : Position} :
    acceptsPost gated limit amount p = true ↔ gated = false ∨ exposure p + amount ≤ limit := by
  simp [acceptsPost]

section
variable (out : s.inReset = false) (held : s.posting = .till h)
include out held

section
variable {gated : Bool} {limit : Nat} (moves : h.movement = .post field gated limit)
include moves

theorem conditionalPost_accepted (fits : gated = false ∨ exposure (positionAt s h.request.merchant) + h.amount ≤ limit) :
    exec .conditionalPost s = .next (acceptMovement h ((positionAt s h.request.merchant).post field h.amount) s) := by
  refine congrArg _ ((outOfReset_due _ _ out).trans ?_)
  simp only [held, moves, if_pos (acceptsPost_iff.2 fits)]

theorem conditionalPost_refused (closed : gated = true) (above : (limit : Int) < exposure (positionAt s h.request.merchant) + h.amount) :
    exec .conditionalPost s = .next (refuseMovement h .exposure s) := by
  have refuses : ¬acceptsPost gated limit h.amount (positionAt s h.request.merchant) = true := fun accepts => by
    rcases acceptsPost_iff.1 accepts with free | within
    · rw [closed] at free
      cases free
    · exact absurd within (not_le.2 above)
  refine congrArg _ ((outOfReset_due _ _ out).trans ?_)
  simp only [held, moves, if_neg refuses]

end

section
variable {cycle : Nat} (moves : h.movement = .reversal field cycle)
include moves

theorem conditionalReversal_accepted (current : cycle = s.cycle) :
    exec .conditionalReversal s = .next (acceptMovement h ((positionAt s h.request.merchant).reverse field h.amount) s) := by
  refine congrArg _ ((outOfReset_due _ _ out).trans ?_)
  simp only [held, moves, if_pos current]

theorem conditionalReversal_refused (other : cycle ≠ s.cycle) : exec .conditionalReversal s = .next (refuseMovement h .cancelWindow s) := by
  refine congrArg _ ((outOfReset_due _ _ out).trans ?_)
  simp only [held, moves, if_neg other]

end

end

theorem lastAfter_post {gated : Bool} {limit : Nat} (moves : h.movement = .post field gated limit) (w : JournalRef) (cycle : Nat) :
    lastAfter h w cycle = some { reference := w, sequence := h.request.sequence, day := h.today, cycle := cycle } := by
  simp only [lastAfter, moves]

theorem lastAfter_reversal {closed : Nat} (moves : h.movement = .reversal field closed) (w : JournalRef) (cycle : Nat) :
    lastAfter h w cycle = none := by
  simp only [lastAfter, moves]

/-- A reversal sets no SATURATED mark (R119). -/
theorem saturationNotices_reverse (m cycle amount : Nat) (p : Position) :
    saturationNotices m cycle p (p.reverse field amount) = [] := by
  refine if_neg fun marked => ?_
  have same : (p.reverse field amount).saturated = p.saturated := rfl
  rw [same, marked.1] at marked
  cases marked.2

/-! ### The entries that stand -/

/-- The change of one entry as a post reads it (R74). -/
theorem read_editLinked (ref : JournalRef) (f : JournalEntry → JournalEntry) (j : Table (Option JournalEntry)) (p : Nat) :
    (editLinked (some ref) f j).read none p =
      if p = positionOf ref then (j.read none p).map fun e => if e.lap = ref.lap then f e else e else j.read none p :=
  read_editEntry ref f j p

theorem journalEdits_read (h : Hand) (w : JournalRef) (j : Table (Option JournalEntry)) (p : Nat) :
    let edited := fun (ref : JournalRef) (f : JournalEntry → JournalEntry) (old : Option JournalEntry) =>
      if p = positionOf ref then old.map fun e => if e.lap = ref.lap then f e else e else old
    let now := (journalEdits h w j).read none p
    (∀ ref, h.entryKind = .claim → h.link = some ref →
      now = edited ref (fun e => if e.kind = .reserve then { e with link := some w } else e) (j.read none p)) ∧
    (∀ ref, h.entryKind = .returnReq → h.link = some ref →
      now = edited ref (fun e => { e with remaining := e.remaining.map (· - h.amount) }) (j.read none p)) ∧
    (∀ ref, h.entryKind = .cancel → h.link = some ref →
      let marked := edited ref (fun e => { e with cancelled := true }) (j.read none p)
      (h.restore = none → now = marked) ∧
      ∀ original, h.restore = some original →
        now = edited original (fun e => { e with remaining := e.remaining.map (· + h.amount) }) marked) ∧
    (h.entryKind = .issue ∨ h.entryKind = .topup ∨ h.entryKind = .spend → now = j.read none p) := by
  intro edited now
  refine ⟨fun ref kind link => ?_, fun ref kind link => ?_, fun ref kind link => ⟨fun none => ?_, fun original restore => ?_⟩, fun kind => ?_⟩
  · simp only [now, journalEdits, kind, link]
    exact read_editLinked ref _ j p
  · simp only [now, journalEdits, kind, link]
    exact read_editLinked ref _ j p
  · simp only [now, journalEdits, kind, link, none]
    exact read_editLinked ref _ j p
  · simp only [now, journalEdits, kind, link, restore]
    exact (read_editLinked original _ _ p).trans (by rw [read_editLinked ref _ j p])
  · rcases kind with kind | kind | kind <;> simp only [now, journalEdits, kind]

/-! ### What a bank takes and gives -/

theorem saturates_iff (b : Bank) (a : Nat) :
    (b.saturates .sold a = true ↔ 2 ^ 48 - 1 < b.sold + a ∨ 2 ^ 32 - 1 < b.nSold + 1) ∧
    (b.saturates .refunded a = true ↔ 2 ^ 48 - 1 < b.refunded + a ∨ 2 ^ 32 - 1 < b.nRefunded + 1) ∧
    (b.saturates .redeemed a = true ↔ 2 ^ 48 - 1 < b.redeemed + a ∨ 2 ^ 32 - 1 < b.nRedeemed + 1) := by
  simp only [Bank.saturates, Bool.or_eq_true, decide_eq_true_eq]
  exact ⟨Iff.rfl, Iff.rfl, Iff.rfl⟩

/-- Settles O32: the joint write spelled out, the entries it edits and the bank's arithmetic. -/
theorem theTableAnswersWithOneJointWrite : Obligations.TheTableAnswersWithOneJointWrite := by
  refine ⟨fun s h field gated limit out held moves => ⟨fun fits => ?_, fun closed above => ?_⟩,
    fun s h field cycle out held moves => ⟨fun current => ?_, fun other => ?_⟩, journalEdits_read, fun b a => ?_⟩
  · rw [conditionalPost_accepted out held moves fits]
    simp only [acceptMovement, jointWrite, laneAfter, lastAfter_post moves]
    rfl
  · exact conditionalPost_refused out held moves closed above
  · rw [conditionalReversal_accepted out held moves current]
    simp only [acceptMovement, jointWrite, laneAfter, lastAfter_reversal moves, saturationNotices_reverse]
    rfl
  · exact conditionalReversal_refused out held moves other
  · obtain ⟨sold, refunded, redeemed⟩ := saturates_iff b a
    exact ⟨rfl, rfl, rfl, sold, refunded, redeemed, rfl, rfl, rfl⟩

/-! ### The liability equality -/

theorem positionAt_acceptMovement (h : Hand) (p : Position) (s : State) (m : Nat) :
    positionAt (acceptMovement h p s) m = if m = h.request.merchant then p else positionAt s m := by
  unfold positionAt
  rw [show (acceptMovement h p s).positions = s.positions.write Position.zero h.request.merchant p by
    simp [acceptMovement, jointWrite]]
  exact Table.read_write _ _ _ _ _

/-- Settles O34: both sides move by the amount, in the direction of the field. -/
theorem acceptedPostKeepsTheLiabilityEquality : Obligations.AcceptedPostKeepsTheLiabilityEquality := by
  intro s t h field gated limit out held moves fits whole direction covered stepped
  rw [conditionalPost_accepted out held moves fits] at stepped
  cases stepped
  constructor
  · have after : (acceptMovement h ((positionAt s h.request.merchant).post field h.amount) s).liability = liabilityAfter h s.liability := by
      simp [acceptMovement, jointWrite]
    rw [after, positionAt_acceptMovement, if_pos rfl, liabilityAfter_eq covered]
    have bank := outstanding_add (b := (positionAt s h.request.merchant).current) whole
    show _ - ((positionAt s h.request.merchant).current.add field h.amount).outstanding = _
    rw [bank, direction]
    simp only [decide_eq_true_eq, ne_eq, ite_not]
    omega
  · intro m other
    rw [positionAt_acceptMovement, if_neg other]

/-! ### A SPEND from its taking to the answer -/

/-- An accepted movement that changes no live-card count: what is written, and what is queued (R50). -/
theorem acceptMovement_eq {p : Position} (same : h.liveChange = .same) : acceptMovement h p s = { s with
    posting := .idle
    cards := s.cards.write none h.slot h.cardAfter
    liability := liabilityAfter h s.liability
    positions := s.positions.write Position.zero h.request.merchant p
    journal := appendAt s.writePos (cardEntry h.entryKind h.request h.amount h.today s.cycle h.entryRemaining h.link)
      (journalEdits h s.writePos s.journal)
    writePos := advance s.writePos
    lanes := s.lanes.write Lane.unassigned (laneNumber h.request.merchant h.request.lane) (laneAfter h s)
    shopOut := (acceptMovement h p s).shopOut, counters := (acceptMovement h p s).counters
    noticeNumber := (acceptMovement h p s).noticeNumber, officeOut := (acceptMovement h p s).officeOut } := by
  obtain ⟨n, q, c, noticed⟩ := handNotices_frame
    (saturationNotices h.request.merchant s.cycle (positionAt s h.request.merchant) p) (jointWrite h p s)
  unfold acceptMovement
  rw [noticed]
  simp only [jointWrite, same]
  rfl

/-- The response takes the place reserved for it on an UP port (R169). -/
theorem acceptMovement_shopOut (p : Position) :
    (s.shopLink = .up → ∃ f : OutFrame, (acceptMovement h p s).shopOut = s.shopOut ++ [f] ∧ f.origin = .response) ∧
    (s.shopLink = .down → (acceptMovement h p s).shopOut = s.shopOut) := by
  obtain ⟨n, q, c, noticed⟩ := handNotices_frame
    (saturationNotices h.request.merchant s.cycle (positionAt s h.request.merchant) p) (jointWrite h p s)
  unfold acceptMovement
  rw [noticed]
  exact ⟨fun up => ⟨_, if_pos up, rfl⟩, fun down => if_neg (by rw [show (jointWrite h p s).shopLink = s.shopLink from rfl, down]; decide)⟩

theorem laneAt_acceptMovement {p : Position} {gated : Bool} {limit : Nat} (same : h.liveChange = .same)
    (moves : h.movement = .post field gated limit) : (laneAt (acceptMovement h p s) h.request.merchant h.request.lane).last =
      some { reference := s.writePos, sequence := h.request.sequence, day := h.today, cycle := s.cycle } := by
  rw [acceptMovement_eq same, ← lastAfter_post moves]
  exact congrArg Lane.last (Table.read_write_same Lane.unassigned s.lanes _ (laneAfter h s))

theorem cardAt_acceptMovement (h : Hand) (p : Position) (s : State) (j : Nat) :
    cardAt (acceptMovement h p s) j = if j = h.slot then h.cardAfter else cardAt s j := by
  unfold cardAt
  rw [show (acceptMovement h p s).cards = s.cards.write none h.slot h.cardAfter by simp [acceptMovement, jointWrite]]
  exact Table.read_write _ _ _ _ _

theorem entryAt_acceptMovement (h : Hand) (p : Position) (s : State) : entryAt (acceptMovement h p s) s.writePos =
    some { cardEntry h.entryKind h.request h.amount h.today s.cycle h.entryRemaining h.link with lap := s.writePos.lap } := by
  unfold entryAt
  rw [show (acceptMovement h p s).journal = appendAt s.writePos
    (cardEntry h.entryKind h.request h.amount h.today s.cycle h.entryRemaining h.link) (journalEdits h s.writePos s.journal) by
    simp [acceptMovement, jointWrite]]
  exact (read_appendAt _ _ _ _).trans (if_pos rfl)

/-- Settles O33: the request a SPEND leaves in hand, then the joint write of its post. -/
theorem spendMovesTheMoneyTogether : Obligations.SpendMovesTheMoneyTogether := by
  intro s r t k g c due kind passes grants
  obtain ⟨h, run, request, today, moves, amount, slot, live, entryKind, remaining, -, -, rises, -, after, -⟩ :=
    (debitsAwaitTheTable s r t k g c due passes).1 kind grants
  have out : s.inReset = false := due.1
  have idle : s.posting = .idle := due.2.1
  have covered : g ≤ c.balance := by
    have free := (decideGrant_le grants).2 _ List.mem_cons_self
    have : freeAmount (timeOf s.clock) c ≤ c.balance := Nat.sub_le _ _
    exact free.trans this
  obtain ⟨rest, rfl⟩ := due.rest
  subst request amount slot
  generalize held : ({ s with ingress := rest, posting := .till h } : State) = u at run
  have accepted := conditionalPost_accepted (s := u) (held ▸ out) (held ▸ rfl) moves (.inl rfl)
  have position (m : Nat) := positionAt_acceptMovement h ((positionAt u h.request.merchant).post .redeemed h.amount) u m
  have card (j : Nat) := cardAt_acceptMovement h ((positionAt u h.request.merchant).post .redeemed h.amount) u j
  have entry := entryAt_acceptMovement h ((positionAt u h.request.merchant).post .redeemed h.amount) u
  have lane := laneAt_acceptMovement (s := u) (p := (positionAt u h.request.merchant).post .redeemed h.amount) live moves
  have whole := acceptMovement_eq (s := u) (p := (positionAt u h.request.merchant).post .redeemed h.amount) live
  have shop := acceptMovement_shopOut (h := h) (s := u) ((positionAt u h.request.merchant).post .redeemed h.amount)
  have own := (position h.request.merchant).trans (if_pos rfl)
  subst held
  refine ⟨_, _, run, accepted, rfl, ⟨_, (card h.slot).trans ((if_pos rfl).trans after), Nat.sub_add_cancel covered, rfl⟩,
    fun j other => (card j).trans (if_neg other), ?_, ?_, ?_, fun m other => (position m).trans (if_neg other), ⟨_, entry, ?_⟩, ?_, ?_, shop⟩
  · rw [own]
    rfl
  · rw [own]
    rfl
  · rw [own]
    rfl
  · exact ⟨entryKind, rfl, remaining, rfl, rfl, today, rfl⟩
  · rw [lane, today]
  · rw [whole]
    simp only [liabilityAfter, rises, Bool.false_eq_true, if_false, idle]

/-! ### The close of a cycle -/

theorem exposure_computed {p : Position} (computed : p.computed = true) : exposure p = p.current.outstanding - p.carry := if_pos computed

/-- The exposure of a merchant whose closing bank was COMPUTED stays (R116, R121). -/
theorem exposure_close {p : Position} (computed : p.computed = true) : exposure p.close = exposure p := by
  rw [exposure_computed computed]
  simp [exposure, Position.close, Bank.outstanding, Bank.zero]

/-- Settles O35: the refusal, and every position by the close. -/
theorem closeCycleSwapsTheBanks : Obligations.CloseCycleSwapsTheBanks := by
  intro s t tag due
  have run : exec .closeCycle s = .next (serveCloseCycle tag t) := exec_due due
  obtain ⟨rest, rfl⟩ := due.rest
  refine ⟨fun running ending => ?_, fun idle => ⟨closeWrite { s with mgmtIn := rest }, ?_, ?_, fun m bound => ?_⟩⟩
  · exact run.trans (congrArg _ (if_neg (not_or.2 ⟨running, ending⟩)))
  · exact run.trans (congrArg _ (if_pos idle))
  · simp only [closeWrite]
    rfl
  · have closed : positionAt (closeWrite { s with mgmtIn := rest }) m = (positionAt s m).close := positionAt_closeWrite bound
    rw [closed]
    exact ⟨rfl, exposure_close⟩

/-! ### ADJUST_CARRY -/

section
variable {m : Nat} {a : Int}

theorem clampCarry_bounds (v : Int) : clampCarry v = max (-(2 ^ 62)) (min v (2 ^ 62 - 1)) := clampCarry_eq v

theorem outsideCarry_eq (v : Int) : outsideCarry v = decide (v < -(2 ^ 62) ∨ 2 ^ 62 - 1 < v) := by
  rw [Bool.decide_or]
  rfl

theorem outsideCarry_false_iff (v : Int) : outsideCarry v = false ↔ -(2 ^ 62) ≤ v ∧ v ≤ 2 ^ 62 - 1 := by
  rw [outsideCarry_eq, decide_eq_false_iff_not]
  omega

theorem serveAdjustCarry_refused {reason : ReplyReason} {tag : Nat} (fails : firstFailure (adjustTests m a s) = some reason) :
    serveAdjustCarry m a tag s = sendReply 0x41 tag reason [] s := by simp only [serveAdjustCarry, fails]

theorem serveAdjustCarry_accepted {tag : Nat} (tests : firstFailure (adjustTests m a s) = none) : serveAdjustCarry m a tag s =
    sendReply 0x41 tag .accepted
      (moneyBytes (adjusted a (positionAt s m)).carry ++ flagByte (adjusted a (positionAt s m)).carryClamp ++ refBytes s.writePos)
      (handNotices (if (adjusted a (positionAt s m)).carryClamp then [.carryClamp m] else []) (adjustWrite m a s)) := by
  simp only [serveAdjustCarry, tests]

theorem adjustTests_range (bad : 512 ≤ m ∨ ¬(-(2 ^ 62) ≤ a ∧ a ≤ 2 ^ 62 - 1 ∧ a ≠ 0)) : firstFailure (adjustTests m a s) = some .range := by
  by_cases bound : m < 512
  · refine (firstFailure_pass (decide_eq_true bound)).trans (firstFailure_fail (Bool.eq_false_of_not_eq_true fun holds => ?_))
    simp only [Bool.and_eq_true, decide_eq_true_eq, Bool.not_eq_true'] at holds
    obtain ⟨low, high⟩ := (outsideCarry_false_iff a).1 holds.2
    exact (bad.resolve_left (by omega)) ⟨low, high, holds.1⟩
  · exact firstFailure_fail (decide_eq_false bound)

variable (bound : m < 512) (ranged : -(2 ^ 62) ≤ a ∧ a ≤ 2 ^ 62 - 1 ∧ a ≠ 0)
include bound ranged

/-- The clock decides once merchant and amount are in range (R123). -/
theorem adjustTests_clock : firstFailure (adjustTests m a s) = firstFailure [ ((timeOf s.clock).isSome, .state) ] := by
  obtain ⟨low, high, nonzero⟩ := ranged
  exact (firstFailure_pass (decide_eq_true bound)).trans (firstFailure_pass (by
    rw [decide_eq_true nonzero, (outsideCarry_false_iff a).2 ⟨low, high⟩]
    rfl))

end

/-- The position an ADJUST_CARRY leaves (R122, R123). -/
theorem adjusted_eq (a : Int) (p : Position) : adjusted a p = { p with
    carry := max (-(2 ^ 62)) (min (p.carry + a) (2 ^ 62 - 1))
    carryClamp := decide (p.carry + a < -(2 ^ 62) ∨ 2 ^ 62 - 1 < p.carry + a) } := by
  simp only [adjusted, addCarry, clampCarry_bounds, outsideCarry_eq, Bool.false_or]

/-- The state once an accepted ADJUST_CARRY is answered. -/
def adjustAnswered (m : Nat) (a : Int) (tag : Nat) (s : State) : State :=
  sendReply 0x41 tag .accepted
    (moneyBytes (adjusted a (positionAt s m)).carry ++ flagByte (adjusted a (positionAt s m)).carryClamp ++ refBytes s.writePos)
    (handNotices (if (adjusted a (positionAt s m)).carryClamp then [.carryClamp m] else []) (adjustWrite m a s))

theorem adjustAnswered_positions (m : Nat) (a : Int) (tag : Nat) (s : State) : (adjustAnswered m a tag s).positions =
    s.positions.write Position.zero m (adjusted a (positionAt s m)) := by simp [adjustAnswered, adjustWrite]

theorem adjustAnswered_journal (m : Nat) (a : Int) (tag : Nat) (s : State) : (adjustAnswered m a tag s).journal =
    appendAt s.writePos (adjustEntry m a s) s.journal := by simp [adjustAnswered, adjustWrite]

theorem positionAt_adjustAnswered (m n : Nat) (a : Int) (tag : Nat) (s : State) : positionAt (adjustAnswered m a tag s) n =
    if n = m then adjusted a (positionAt s m) else positionAt s n := by
  unfold positionAt
  rw [adjustAnswered_positions]
  exact Table.read_write _ _ _ _ _

/-- Settles O36: the tests, then the position, the entry and the reply. -/
theorem adjustCarryAddsUnderTheClamp : Obligations.AdjustCarryAddsUnderTheClamp := by
  intro s t m tag a due inRange sum
  have run : exec .adjustCarry s = .next (serveAdjustCarry m a tag t) := exec_due due
  obtain ⟨rest, rfl⟩ := due.rest
  refine ⟨fun bad => ?_, fun bound ranged unset => ?_, fun bound ranged set => ?_⟩
  · exact run.trans (congrArg _ (serveAdjustCarry_refused (adjustTests_range bad)))
  · exact run.trans (congrArg _ (serveAdjustCarry_refused ((adjustTests_clock bound ranged).trans (firstFailure_fail (by simp [unset, timeOf])))))
  · generalize taken : ({ s with mgmtIn := rest } : State) = u at run
    have accepted := serveAdjustCarry_accepted (s := u) (tag := tag) ((adjustTests_clock bound ranged).trans
      (firstFailure_pass (by rw [← taken]; exact (timeOf_isSome_iff _).2 set)))
    have position (n : Nat) := positionAt_adjustAnswered m n a tag u
    have own := (position m).trans (if_pos rfl)
    have journal := adjustAnswered_journal m a tag u
    refine ⟨adjustAnswered m a tag u, run.trans (congrArg _ accepted), own.trans ?_, fun n other => (position n).trans ((if_neg other).trans ?_),
      ?_, fun p away => ?_, ?_⟩
    · rw [adjusted_eq, ← taken]
      rfl
    · rw [← taken]
      rfl
    · unfold entryAt
      rw [journal, ← taken]
      exact (read_appendAt _ _ _ _).trans (if_pos rfl)
    · rw [journal, ← taken]
      exact (read_appendAt _ _ _ _).trans (if_neg away)
    · rw [own, journal, adjustAnswered_positions, ← taken]
      rfl

end Sys2Proof.Machine
end

