-- ==== Sys2Proof/Proofs/Settlement.lean ====
section
/-! The settlement calculation: the record of a merchant and the walk of the Calculator (R128 to R140). -/

namespace Sys2Proof.Machine

variable {s t : State}

/-! ### The disposition -/

section
variable {terms : Terms} {net : Int}

theorem dispositionOf_barred (state : terms.state = .unenrolled ∨ terms.state = .suspended) : dispositionOf terms net = .held := by
  rcases state with state | state <;> simp only [dispositionOf, state]

theorem dispositionOf_debt (state : terms.state = .enrolled ∨ terms.state = .withdrawn) (below : net < 0) :
    dispositionOf terms net = .debt := by
  rcases state with state | state <;> simp only [dispositionOf, state, if_pos below]

theorem dispositionOf_pay (state : terms.state = .enrolled ∨ terms.state = .withdrawn) (owed : 1 ≤ net)
    (enough : terms.state = .enrolled → (terms.minPayout : Int) ≤ net) : dispositionOf terms net = .pay := by
  have positive : ¬net < 0 := by omega
  rcases state with state | state
  · simp only [dispositionOf, state, if_neg positive, if_pos (And.intro owed (enough state))]
  · simp only [dispositionOf, state, if_neg positive, if_pos owed]

theorem dispositionOf_carry (state : terms.state = .enrolled ∨ terms.state = .withdrawn)
    (small : net = 0 ∨ 1 ≤ net ∧ terms.state = .enrolled ∧ net < terms.minPayout) : dispositionOf terms net = .carry := by
  have positive : ¬net < 0 := by omega
  rcases state with state | state
  · have below : ¬(1 ≤ net ∧ (terms.minPayout : Int) ≤ net) := by omega
    simp only [dispositionOf, state, if_neg positive, if_neg below]
  · have zero : ¬1 ≤ net := fun owed => by
      rcases small with none | ⟨-, enrolled, -⟩
      · omega
      · rw [state] at enrolled
        cases enrolled
    simp only [dispositionOf, state, if_neg positive, if_neg zero]

/-- Only a net of 1 or more is paid (R134). -/
theorem net_of_pay (pay : dispositionOf terms net = .pay) : 1 ≤ net := by
  by_contra low
  have barred (state : terms.state = .enrolled ∨ terms.state = .withdrawn) : dispositionOf terms net ≠ .pay := by
    by_cases below : net < 0
    · rw [dispositionOf_debt state below]
      decide
    · rw [dispositionOf_carry state (.inl (by omega))]
      decide
  cases state : terms.state with
  | enrolled => exact barred (.inl state) pay
  | withdrawn => exact barred (.inr state) pay
  | suspended => rw [dispositionOf_barred (.inr state)] at pay; cases pay
  | unenrolled => rw [dispositionOf_barred (.inl state)] at pay; cases pay

end

section
variable {index merchant cycle : Nat} {p : Position} {terms : Terms}

theorem settlementRecord_saturated (mark : p.closingSaturated = true) :
    (settlementRecord index merchant cycle p terms).disposition = .held := if_pos mark

theorem settlementRecord_disposition (clear : p.closingSaturated = false) :
    (settlementRecord index merchant cycle p terms).disposition = dispositionOf terms (settlementRecord index merchant cycle p terms).net :=
  if_neg (by simp [clear])

/-- What a record that is paid says. -/
theorem settlementRecord_pay (clear : p.closingSaturated = false) (pay : (settlementRecord index merchant cycle p terms).disposition = .pay) :
    ((settlementRecord index merchant cycle p terms).payout : Int) = (settlementRecord index merchant cycle p terms).net ∧
      (settlementRecord index merchant cycle p terms).carryOut = 0 ∧
      (settlementRecord index merchant cycle p terms).release = some .pending := by
  have positive : 1 ≤ (settlementRecord index merchant cycle p terms).net := by
    rw [settlementRecord_disposition clear] at pay
    exact net_of_pay pay
  have payout : (settlementRecord index merchant cycle p terms).payout = (settlementRecord index merchant cycle p terms).net.toNat := if_pos pay
  exact ⟨by omega, if_pos (.inr pay), if_pos pay⟩

/-- What a record that is not paid says, its closing bank not being SATURATED. -/
theorem settlementRecord_kept (clear : p.closingSaturated = false) (kept : (settlementRecord index merchant cycle p terms).disposition ≠ .pay) :
    (settlementRecord index merchant cycle p terms).payout = 0 ∧
      (settlementRecord index merchant cycle p terms).carryOut = (settlementRecord index merchant cycle p terms).net ∧
      (settlementRecord index merchant cycle p terms).release = none :=
  ⟨if_neg kept, if_neg (not_or.2 ⟨by simp [clear], kept⟩), if_neg kept⟩

end

/-- Settles O39: the fields of the record, and its disposition by the terms and the net. -/
theorem dispositionFollowsTheNetAndTheTerms : Obligations.DispositionFollowsTheNetAndTheTerms := by
  intro index merchant cycle p t r exact
  refine ⟨clampCarry_bounds exact, outsideCarry_eq exact, rfl, rfl, rfl, rfl, rfl, rfl, rfl, rfl, rfl, rfl, rfl, fun unenrolled => ?_,
    fun mark => ?_, fun clear => ?_⟩
  · subst unenrolled
    obtain ⟨fee, commission, charges⟩ := commissionRoundsDownAndChargesCount.2.1 p.closing
    exact ⟨fee, congrArg Nat.cast commission, congrArg Nat.cast charges⟩
  · have held : r.disposition = .held := settlementRecord_saturated mark
    have unpaid : r.disposition ≠ .pay := by rw [held]; decide
    exact ⟨held, if_neg unpaid, if_pos (.inl mark), if_neg unpaid⟩
  · have disposition : r.disposition = dispositionOf t r.net := settlementRecord_disposition clear
    refine ⟨fun barred => ?_, fun payable => ?_, settlementRecord_pay clear, settlementRecord_kept clear⟩
    · exact disposition.trans (dispositionOf_barred barred)
    · rw [disposition]
      exact ⟨dispositionOf_debt payable, dispositionOf_pay payable, fun zero => dispositionOf_carry payable (.inl zero),
        fun owed enrolled small => dispositionOf_carry payable (.inr ⟨owed, enrolled, small⟩)⟩

/-! ### The walk of the Calculator -/

theorem walkRuns_iff : walkRuns s = true ↔ s.batch.state = .computing ∧ clearing s = false := by
  simp [walkRuns]

section
variable (out : s.inReset = false) (calm : clearing s = false) (computing : s.batch.state = .computing)
include out calm computing

theorem exec_calculatorStep (below : s.batch.cursor < 512) : exec .calculatorStep s = .next (walkStep s) :=
  congrArg _ ((outOfReset_due _ _ out).trans (if_pos ⟨walkRuns_iff.2 ⟨computing, calm⟩, below⟩))

theorem exec_computationCompletion (ended : s.batch.cursor = 512) : exec .computationCompletion s =
    .next (handNotice (.batchComputed s.batch.cycle) (completionWrite s)) :=
  congrArg _ ((outOfReset_due _ _ out).trans (if_pos ⟨walkRuns_iff.2 ⟨computing, calm⟩, (completionDue_iff s).2 ⟨computing, ended.ge⟩⟩))

end

theorem idle_iff (p : Position) : p.idle = true ↔ p.closing = Bank.zero ∧ p.carryIn = 0 ∧ p.closingSaturated = false := by
  simp [Position.idle, and_assoc]

theorem walkStep_idle (idle : (positionAt s s.batch.cursor).idle = true) : walkStep s = { s with
    positions := s.positions.write Position.zero s.batch.cursor { positionAt s s.batch.cursor with computed := true }
    batch := { s.batch with cursor := s.batch.cursor + 1 } } := if_pos idle

/-- Settles O40: the step by whether the merchant is idle, and the completion by the cursor. -/
theorem theWalkTakesEachMerchantAndCompletes : Obligations.TheWalkTakesEachMerchantAndCompletes := by
  constructor
  · intro s out calm computing below m p
    rw [exec_calculatorStep out calm computing below]
    refine ⟨fun zero carry clear => congrArg _ (walkStep_idle ((idle_iff p).2 ⟨zero, carry, clear⟩)), fun busy => ?_⟩
    intro r sum beyond mark q totals
    have working : ¬p.idle = true := fun idle => by
      obtain ⟨zero, carry, clear⟩ := (idle_iff p).1 idle
      rcases busy with h | h | h
      · exact h zero
      · exact h carry
      · rw [clear] at h
        cases h
    have clamp : outsideCarry sum = decide beyond := outsideCarry_eq sum
    have written : writtenBack r p = q := by
      simp only [writtenBack, addCarry, clampCarry_bounds]
      show ({ p with
        carry := _, carryClamp := p.carryClamp || outsideCarry sum || (r.clamped && !r.saturated), computed := true } : Position) = q
      rw [clamp]
    have marked : markClamped r p = { r with clamped := r.clamped || decide beyond } := by
      unfold markClamped
      rw [← clamp]
    refine congrArg _ ((if_neg working).trans ?_)
    show handNotices (clampNotices m p (writtenBack r p)) { s with
      positions := s.positions.write Position.zero m (writtenBack r p)
      batch := { s.batch with
        cursor := m + 1, records := s.batch.records ++ [markClamped r p], totals := s.batch.totals.add r } } = _
    rw [written, marked]
    rfl
  · intro s out calm computing
    refine ⟨exec_computationCompletion out calm computing, fun below => congrArg _ ((outOfReset_due _ _ out).trans (if_neg fun due => ?_))⟩
    exact absurd ((completionDue_iff s).1 due.2).2 (Nat.not_le.2 below)

end Sys2Proof.Machine
end

