-- ==== Sys2Proof/Proofs/ReleaseOrder.lean ====
section
/-! The release order and the walk along it, STRICT and FILL (R147, R151 to R155). -/

namespace Sys2Proof.Machine

variable {s : State}

/-! ### The release order -/

theorem insertKey_perm (k : Nat × Nat) : ∀ l, (insertKey k l).Perm (k :: l) := by
  intro l
  induction l with
  | nil => exact .refl _
  | cons e rest ih =>
    unfold insertKey
    split
    · exact .refl _
    · exact (ih.cons e).trans (.swap k e rest)

theorem insertKeys_perm (ks : List (Nat × Nat)) : ∀ l, (ks.foldl (fun l k => insertKey k l) l).Perm (ks ++ l) := by
  induction ks with
  | nil => exact fun l => .refl l
  | cons k ks ih => exact fun l => (ih _).trans (((insertKey_perm k l).append_left ks).trans List.perm_middle)

/-- The keys stand in ascending order. -/
def keysAscend (l : List (Nat × Nat)) : Prop := l.Pairwise fun a b => a.1 ≤ b.1

theorem insertKey_ascends (k : Nat × Nat) : ∀ l, keysAscend l → keysAscend (insertKey k l) := by
  intro l
  induction l with
  | nil => exact fun _ => List.pairwise_singleton _ _
  | cons e rest ih =>
    intro sorted
    obtain ⟨first, later⟩ := List.pairwise_cons.1 sorted
    unfold insertKey
    split
    · next below =>
      refine List.pairwise_cons.2 ⟨fun f member => ?_, sorted⟩
      rcases List.mem_cons.1 member with rfl | member
      · exact below.le
      · exact below.le.trans (first f member)
    · next above =>
      refine List.pairwise_cons.2 ⟨fun f member => ?_, ih later⟩
      rcases List.mem_cons.1 ((insertKey_perm k rest).subset member) with rfl | member
      · exact Nat.not_lt.1 above
      · exact first f member

theorem insertKeys_ascend (ks : List (Nat × Nat)) : ∀ l, keysAscend l → keysAscend (ks.foldl (fun l k => insertKey k l) l) := by
  induction ks with
  | nil => exact fun _ sorted => sorted
  | cons k ks ih => exact fun l sorted => ih _ (insertKey_ascends k l sorted)

/-- The PAY records with their keys, in the order of the batch. -/
def payKeys (records : List BatchRecord) : List (Nat × Nat) :=
  (records.zipIdx.filter fun e => e.1.isPay).map fun e => (orderKey e.1, e.2)

theorem mem_payKeys (records : List BatchRecord) (key i : Nat) :
    (key, i) ∈ payKeys records ↔ ∃ r, records[i]? = some r ∧ r.disposition = .pay ∧ orderKey r = key := by
  simp only [payKeys, List.mem_map, List.mem_filter, Prod.mk.injEq, Prod.exists, BatchRecord.isPay, decide_eq_true_eq,
    List.mem_zipIdx_iff_getElem?]
  constructor
  · rintro ⟨r, j, ⟨found, pay⟩, named, rfl⟩
    exact ⟨r, found, pay, named⟩
  · rintro ⟨r, found, pay, named⟩
    exact ⟨r, i, ⟨found, pay⟩, named, rfl⟩

theorem releaseOrder_perm (records : List BatchRecord) : (releaseOrder records).Perm ((payKeys records).map Prod.snd) := by
  have perm := insertKeys_perm (payKeys records) []
  rw [List.append_nil] at perm
  exact perm.map Prod.snd

theorem mem_releaseOrder (records : List BatchRecord) (i : Nat) :
    i ∈ releaseOrder records ↔ ∃ r, records[i]? = some r ∧ r.disposition = .pay := by
  rw [(releaseOrder_perm records).mem_iff]
  simp only [List.mem_map, Prod.exists, exists_eq_right, mem_payKeys]
  exact ⟨fun ⟨_, r, found, pay, _⟩ => ⟨r, found, pay⟩, fun ⟨r, found, pay⟩ => ⟨_, r, found, pay, rfl⟩⟩

theorem releaseOrder_nodup (records : List BatchRecord) : (releaseOrder records).Nodup := by
  refine (releaseOrder_perm records).nodup_iff.2 ?_
  have places : (payKeys records).map Prod.snd = (records.zipIdx.filter fun e => e.1.isPay).map Prod.snd := by simp [payKeys]
  rw [places]
  exact (List.filter_sublist.map Prod.snd).nodup (by rw [List.zipIdx_map_snd]; exact List.nodup_range')

/-- The order of the keys is that of tier and then merchant (R147). -/
theorem orderKey_le {a b : BatchRecord} (first : a.merchant < 512) (second : b.merchant < 512) (le : orderKey a ≤ orderKey b) :
    a.tier < b.tier ∨ (a.tier = b.tier ∧ a.merchant ≤ b.merchant) := by
  have count : Config.merchantCount = 512 := rfl
  unfold orderKey at le
  rw [count] at le
  omega

/-- Settles O41: the keys inserted are a permutation in ascending order. -/
theorem releaseOrderIsByTierThenMerchant : Obligations.ReleaseOrderIsByTierThenMerchant := by
  refine fun records bound => ⟨releaseOrder_nodup records, mem_releaseOrder records, List.pairwise_map.2 ?_⟩
  have ascends := insertKeys_ascend (payKeys records) [] .nil
  refine ascends.imp_of_mem fun {e f} first second le a b foundFirst foundSecond => ?_
  have perm := insertKeys_perm (payKeys records) []
  rw [List.append_nil] at perm
  obtain ⟨ra, heldFirst, -, keyFirst⟩ := (mem_payKeys records e.1 e.2).1 (perm.subset first)
  obtain ⟨rb, heldSecond, -, keySecond⟩ := (mem_payKeys records f.1 f.2).1 (perm.subset second)
  cases Option.some.inj (heldFirst.symm.trans foundFirst)
  cases Option.some.inj (heldSecond.symm.trans foundSecond)
  rw [← keyFirst, ← keySecond] at le
  exact orderKey_le (bound a (List.mem_of_getElem? foundFirst)) (bound b (List.mem_of_getElem? foundSecond)) le

end Sys2Proof.Machine
end

