-- ==== Sys2Proof/Proofs/Walks.lean ====
section
/-! What a FILL and a STRICT walk leave (R151 to R155). -/

namespace Sys2Proof.Machine

variable {s : State}

/-! ### What a walk leaves alone -/

theorem setRelease_getElem? (i j : Nat) (x : ReleaseState) (records : List BatchRecord) :
    (setRelease i x records)[j]? = if j = i then (records[j]?).map (fun r => { r with release := some x }) else records[j]? :=
  modifyAt_getElem? _ _ _ _

theorem setRelease_other {i j : Nat} (other : j ≠ i) (x : ReleaseState) (records : List BatchRecord) :
    (setRelease i x records)[j]? = records[j]? := (setRelease_getElem? i j x records).trans (if_neg other)

theorem setRelease_same {i : Nat} {r : BatchRecord} {records : List BatchRecord} (found : records[i]? = some r) (x : ReleaseState) :
    (setRelease i x records)[i]? = some { r with release := some x } := by
  rw [setRelease_getElem?, if_pos rfl, found]
  rfl

/-- A record outside the places the walk visits stands. -/
theorem walkGo_records_outside {j : Nat} : ∀ (order : List Nat) (w : WalkState), j ∉ order → (walkGo s order w).records[j]? = w.records[j]? := by
  intro order
  induction order with
  | nil => exact fun _ _ => rfl
  | cons i rest ih =>
    intro w outside
    obtain ⟨other, later⟩ := not_or.1 (mt List.mem_cons.2 outside)
    unfold walkGo
    split
    · exact ih w later
    · split
      · split
        · rfl
        · split
          · split
            · rfl
            · exact ih w later
          · split
            · exact (ih _ later).trans (setRelease_other other _ _)
            · split
              · exact setRelease_other other _ _
              · exact (ih _ later).trans (setRelease_other other _ _)
      · split
        · rfl
        · exact ih w later

/-- A walk only spends. -/
theorem walkGo_remaining_le (order : List Nat) (w : WalkState) : (walkGo s order w).remaining ≤ w.remaining :=
  walkGo_induction s (fun v => v.remaining ≤ w.remaining) (fun _ _ _ le _ _ _ => le)
    (fun _ _ _ _ le _ _ _ _ _ => (Nat.sub_le _ _).trans le) order w le_rfl

/-! ### FILL -/

/-- A record that still awaits sending does not fit what remains, and is WAITING. -/
def leftWaiting (s : State) (w : WalkState) (r : BatchRecord) : Prop :=
  r.awaitsSending = true → (termsOf s r.merchant).state ≠ .unenrolled → w.remaining < r.payout ∧ r.release = some .waiting

/-- After a FILL walk with a slot to spare no record it visited is left to send (R153, R154). -/
theorem walkGo_fill (fill : s.batch.mode = .fill) : ∀ (order : List Nat) (w : WalkState), order.Nodup →
    freeSlot (walkGo s order w).window ≠ none →
    ∀ i ∈ order, ∀ r, (walkGo s order w).records[i]? = some r → leftWaiting s (walkGo s order w) r := by
  intro order
  induction order with
  | nil => exact fun _ _ _ _ member => absurd member List.not_mem_nil
  | cons i rest ih =>
    intro w once
    obtain ⟨fresh, later⟩ := List.nodup_cons.1 once
    have visited {v : WalkState} (free : freeSlot (walkGo s rest v).window ≠ none)
        (here : ∀ r, v.records[i]? = some r → leftWaiting s (walkGo s rest v) r) :
        ∀ j ∈ i :: rest, ∀ r, (walkGo s rest v).records[j]? = some r → leftWaiting s (walkGo s rest v) r := by
      intro j member r found
      rcases List.mem_cons.1 member with rfl | inRest
      · rw [walkGo_records_outside rest v fresh] at found
        exact here r found
      · exact ih v later free j inRest r found
    unfold walkGo
    split
    · next missing => exact fun free => visited free fun r found => by rw [missing] at found; cases found
    · next r found =>
      split
      · split
        · next full => exact fun free => absurd full free
        · next slot _ =>
          split
          · next unreadable =>
            split
            · next strict => rw [fill] at strict; cases strict
            · exact fun free => visited free fun r' found' => by
                cases Option.some.inj (found.symm.trans found')
                exact fun _ readable => absurd unreadable readable
          · split
            · refine fun free => visited free fun r' found' => ?_
              rw [show (sendRecord s i r slot w).records = setRelease i .sent w.records from rfl, setRelease_same found] at found'
              cases found'
              exact fun waits => by simp [BatchRecord.awaitsSending] at waits
            · next short =>
              split
              · next strict => rw [fill] at strict; cases strict
              · refine fun free => visited free fun r' found' => ?_
                rw [setRelease_same found] at found'
                cases found'
                exact fun _ _ => ⟨(walkGo_remaining_le rest _).trans_lt (Nat.not_le.1 short), rfl⟩
      · next still =>
        split
        · next strict => rw [fill] at strict; cases strict.2
        · exact fun free => visited free fun r' found' => by
            cases Option.some.inj (found.symm.trans found')
            exact fun waits => absurd waits still

/-- Settles O42: a record that awaits sending is a PAY record, so the walk visited it. -/
theorem fillWalkLeavesNothingThatFits : Obligations.FillWalkLeavesNothingThatFits := by
  intro s fill free r member waits readable
  obtain ⟨i, found⟩ := List.mem_iff_getElem?.1 member
  have pay : r.disposition = .pay := by
    have isPay : r.isPay = true := (Bool.and_eq_true_iff.1 waits).1
    exact of_decide_eq_true isPay
  have inOrder : i ∈ releaseOrder s.batch.records := by
    by_contra outside
    have same := found
    rw [show (walkRecords s).batch.records = (walkGo s (releaseOrder s.batch.records)
      { records := s.batch.records, remaining := s.batch.remaining, window := s.window, awaiting := s.awaiting }).records from rfl,
      walkGo_records_outside _ _ outside] at same
    exact outside ((mem_releaseOrder _ _).2 ⟨r, same, pay⟩)
  exact walkGo_fill fill _ _ (releaseOrder_nodup _) free i inOrder r found waits readable

/-! ### STRICT -/

/-- A record that a STRICT walk passes. -/
def passedBy (r : BatchRecord) : Prop := r.awaitsSending = false ∧ r.release ≠ some .unconfirmed

/-- A STRICT walk that sends the record at `j` passed every record before it (R152). -/
theorem walkGo_strict (strict : s.batch.mode = .strict) {j : Nat} {after : List Nat} {a a' : BatchRecord} (unsent : a.release ≠ some .sent)
    (sent : a'.release = some .sent) : ∀ (before : List Nat) (w : WalkState), (before ++ j :: after).Nodup → w.records[j]? = some a →
    (walkGo s (before ++ j :: after) w).records[j]? = some a' →
    ∀ i ∈ before, ∀ b, (walkGo s (before ++ j :: after) w).records[i]? = some b → passedBy b := by
  intro before
  induction before with
  | nil => exact fun _ _ _ _ _ member => absurd member List.not_mem_nil
  | cons i rest ih =>
    intro w once initial
    rw [List.cons_append] at once ⊢
    obtain ⟨fresh, later⟩ := List.nodup_cons.1 once
    have apart : j ≠ i := fun same => fresh (same ▸ List.mem_append_right _ List.mem_cons_self)
    have stops {v : WalkState} (same : v.records[j]? = some a) (final : v.records[j]? = some a') : False := by
      cases Option.some.inj (same.symm.trans final)
      exact absurd sent unsent
    have visited {v : WalkState} (kept : v.records[j]? = some a) (here : ∀ b, v.records[i]? = some b → passedBy b)
        (final : (walkGo s (rest ++ j :: after) v).records[j]? = some a') :
        ∀ k ∈ i :: rest, ∀ b, (walkGo s (rest ++ j :: after) v).records[k]? = some b → passedBy b := by
      intro k member b found
      rcases List.mem_cons.1 member with rfl | inRest
      · rw [walkGo_records_outside _ v fresh] at found
        exact here b found
      · exact ih v later kept final k inRest b found
    unfold walkGo
    split
    · next missing => exact visited initial fun b found => by rw [missing] at found; cases found
    · next r found =>
      split
      · split
        · exact fun final => (stops initial final).elim
        · next slot _ =>
          split
          · split
            · exact fun final => (stops initial final).elim
            · next fill => rw [strict] at fill; cases fill
          · split
            · refine visited ((setRelease_other apart _ _).trans initial) fun b held => ?_
              rw [show (sendRecord s i r slot w).records = setRelease i .sent w.records from rfl, setRelease_same found] at held
              cases held
              exact ⟨by simp [BatchRecord.awaitsSending], by simp⟩
            · split
              · exact fun final => (stops (v := { w with records := setRelease i .waiting w.records })
                  ((setRelease_other apart _ _).trans initial) final).elim
              · next fill => rw [strict] at fill; cases fill
      · next still =>
        split
        · exact fun final => (stops initial final).elim
        · next confirmed =>
          refine visited initial fun b held => ?_
          cases Option.some.inj (found.symm.trans held)
          exact ⟨Bool.eq_false_of_not_eq_true still, fun unconfirmed => confirmed ⟨unconfirmed, strict⟩⟩

/-- Settles O43: the walk that sends a record passed every one before it. -/
theorem strictWalkKeepsTheOrder : Obligations.StrictWalkKeepsTheOrder := by
  intro s before after j i a b a' strict order member initial unsent final sent found
  have once := releaseOrder_nodup s.batch.records
  unfold walkRecords at final found
  rw [order] at final found once
  exact walkGo_strict strict unsent sent before _ once initial final i member b found

end Sys2Proof.Machine
end

