-- ==== Sys2Proof/Proofs/Payouts.lean ====
section
/-! The release requests, the replies of the gateway and the timers (R149, R150, R158 to R163). -/

namespace Sys2Proof.Machine

variable {s t : State} {tag : Nat}

/-! ### After a change of release state -/

theorem allFinal_iff (records : List BatchRecord) : allFinal records = true ↔
    ∀ r ∈ records, r.disposition = .pay → r.release = some .paid ∨ r.release = some .returned ∨ r.release = some .abandoned := by
  simp only [allFinal, List.all_eq_true, BatchRecord.isPay, BatchRecord.isFinal, Bool.or_eq_true, Bool.not_eq_true', decide_eq_true_eq,
    decide_eq_false_iff_not, or_assoc, imp_iff_not_or]

theorem releaseWalk_runs (releasing : s.batch.state = .releasing) (calm : clearing s = false) :
    releaseWalk s = placeInstructions (walkRecords s) := if_pos ⟨releasing, calm⟩

theorem afterChange_settled (final : allFinal s.batch.records = true) :
    afterChange s = handNotice (.batchSettled s.batch.cycle) { s with batch := { s.batch with state := .settled } } := if_pos final

theorem afterChange_walks (left : allFinal s.batch.records = false) (releasing : s.batch.state = .releasing) (calm : clearing s = false) :
    afterChange s = placeInstructions (walkRecords s) := (if_neg (by simp [left])).trans (releaseWalk_runs releasing calm)

/-! ### RELEASE_BATCH and ADD_BUDGET -/

section
variable {mode g : Nat}

theorem releaseTests_range (bad : 2 ≤ mode ∨ 2 ^ 48 ≤ g) : firstFailure (releaseTests s mode g) = some .range := by
  refine firstFailure_fail (Bool.and_eq_false_iff.2 ?_)
  rcases bad with large | large
  · obtain ⟨n, rfl⟩ := Nat.exists_eq_add_of_le' large
    exact .inr rfl
  · have top : Config.maxAccumulator = 2 ^ 48 - 1 := rfl
    exact .inl (decide_eq_false (by omega))

variable (known : mode < 2) (small : g < 2 ^ 48)
include known small

theorem releaseTests_ranged : (decide (g ≤ Config.maxAccumulator) && (ReleaseMode.ofCode mode).isSome) = true := by
  have top : Config.maxAccumulator = 2 ^ 48 - 1 := rfl
  have readable : (ReleaseMode.ofCode mode).isSome = true := by
    interval_cases mode
    · rfl
    · rfl
  exact Bool.and_eq_true_iff.2 ⟨decide_eq_true (by omega), readable⟩

theorem releaseTests_state (uncomputed : s.batch.state ≠ .computed) : firstFailure (releaseTests s mode g) = some .state :=
  (firstFailure_pass (releaseTests_ranged known small)).trans (firstFailure_fail (decide_eq_false uncomputed))

theorem releaseTests_none (computed : s.batch.state = .computed) : firstFailure (releaseTests s mode g) = none :=
  (firstFailure_pass (releaseTests_ranged known small)).trans (firstFailure_pass (decide_eq_true computed))

omit small in
theorem ofCode_getD : (ReleaseMode.ofCode mode).getD .strict = if mode = 0 then .strict else .fill := by
  interval_cases mode
  · rfl
  · rfl

end

theorem serveReleaseBatch_refused {a : Nat × Nat} {reason : ReplyReason} (fails : firstFailure (releaseTests s a.1 a.2) = some reason) :
    serveReleaseBatch a tag s = sendReply 0x50 tag reason [] s := by simp only [serveReleaseBatch, fails]

theorem serveReleaseBatch_accepted {a : Nat × Nat} {u : State} (tests : firstFailure (releaseTests s a.1 a.2) = none)
    (after : afterChange (grantWrite a.1 a.2 s) = u) :
    serveReleaseBatch a tag s = sendReply 0x50 tag .accepted (releaseBlock u.batch) u := by simp only [serveReleaseBatch, tests, after]

section
variable {g : Nat}

theorem budgetTests_range (large : 2 ^ 48 ≤ g) : firstFailure (budgetTests s g) = some .range := by
  have top : Config.maxAccumulator = 2 ^ 48 - 1 := rfl
  exact firstFailure_fail (decide_eq_false (by omega))

variable (small : g < 2 ^ 48)
include small

theorem budgetTests_ranged : decide (g ≤ Config.maxAccumulator) = true := by
  have top : Config.maxAccumulator = 2 ^ 48 - 1 := rfl
  exact decide_eq_true (by omega)

theorem budgetTests_state (other : s.batch.state ≠ .releasing) : firstFailure (budgetTests s g) = some .state :=
  (firstFailure_pass (budgetTests_ranged small)).trans (firstFailure_fail (decide_eq_false other))

variable (releasing : s.batch.state = .releasing)
include releasing

theorem budgetTests_sum (large : 2 ^ 48 ≤ s.batch.granted + g) : firstFailure (budgetTests s g) = some .range := by
  have top : Config.maxAccumulator = 2 ^ 48 - 1 := rfl
  exact (firstFailure_pass (budgetTests_ranged small)).trans
    ((firstFailure_pass (decide_eq_true releasing)).trans (firstFailure_fail (decide_eq_false (by omega))))

theorem budgetTests_none (fits : s.batch.granted + g < 2 ^ 48) : firstFailure (budgetTests s g) = none := by
  have top : Config.maxAccumulator = 2 ^ 48 - 1 := rfl
  exact (firstFailure_pass (budgetTests_ranged small)).trans
    ((firstFailure_pass (decide_eq_true releasing)).trans (firstFailure_pass (decide_eq_true (by omega))))

end

theorem serveAddBudget_refused {g : Nat} {reason : ReplyReason} (fails : firstFailure (budgetTests s g) = some reason) :
    serveAddBudget g tag s = sendReply 0x51 tag reason [] s := by simp only [serveAddBudget, fails]

theorem serveAddBudget_accepted {g : Nat} {u : State} (tests : firstFailure (budgetTests s g) = none)
    (after : releaseWalk (budgetWrite g s) = u) :
    serveAddBudget g tag s = sendReply 0x51 tag .accepted (releaseBlock u.batch) u := by simp only [serveAddBudget, tests, after]

/-- Settles O44: each request by its tests in order, and the settling or the walk that follows the grant. -/
theorem budgetRequestsGrantAndWalk : Obligations.BudgetRequestsGrantAndWalk := by
  constructor
  · intro s t mode g tag due
    have run : exec .releaseBatch s = .next (serveReleaseBatch (mode, g) tag t) := exec_due due
    have calm := due.2.1
    obtain ⟨rest, rfl⟩ := due.rest
    rw [run]
    refine ⟨fun bad => congrArg _ (serveReleaseBatch_refused (releaseTests_range bad)),
      fun known small other => congrArg _ (serveReleaseBatch_refused (releaseTests_state known small other)), fun known small computed => ?_⟩
    intro begun
    have granted : grantWrite mode g { s with mgmtIn := rest } = begun := by
      unfold grantWrite
      rw [ofCode_getD known]
    have tests := releaseTests_none (s := { s with mgmtIn := rest }) known small computed
    refine ⟨fun payless => congrArg _ (serveReleaseBatch_accepted tests ?_), fun ⟨r, member, pay, pending⟩ =>
      congrArg _ (serveReleaseBatch_accepted tests ?_)⟩
    · rw [granted]
      exact afterChange_settled ((allFinal_iff _).2 fun r member pay => absurd pay (payless r member))
    · have left : allFinal s.batch.records = false := by
        refine Bool.eq_false_of_not_eq_true fun final => ?_
        have ended := (allFinal_iff _).1 final r member pay
        simp [pending] at ended
      rw [granted]
      exact afterChange_walks left rfl calm
  · intro s t g tag due
    have run : exec .addBudget s = .next (serveAddBudget g tag t) := exec_due due
    have calm := due.2.1
    obtain ⟨rest, rfl⟩ := due.rest
    rw [run]
    exact ⟨fun large => congrArg _ (serveAddBudget_refused (budgetTests_range large)),
      fun small other => congrArg _ (serveAddBudget_refused (budgetTests_state small other)), fun small releasing =>
        ⟨fun large => congrArg _ (serveAddBudget_refused (budgetTests_sum small releasing large)),
          fun fits => congrArg _ (serveAddBudget_accepted (budgetTests_none small releasing fits) (releaseWalk_runs releasing calm))⟩⟩

/-! ### The replies of the gateway -/

section
variable {f : Frame} {rest : List Frame} (out : s.inReset = false) (front : s.gatewayIn = f :: rest)
include out front

theorem takeGateway_front (serve : Frame → State → State) : takeGateway serve s = serve f { s with gatewayIn := rest } := by
  refine (outOfReset_due _ _ out).trans ?_
  simp only [front]

omit out in
theorem replyDue_match {g : GatewayReply} {i : Nat} {r : BatchRecord} (matched : matchReply s f = some (g, i, r)) (kind : Bool) :
    replyDue kind s = (g.confirms == kind) := by simp only [replyDue, front, matched]

omit out in
theorem replyDue_stray (unmatched : matchReply s f = none) (kind : Bool) : replyDue kind s = false := by
  simp only [replyDue, front, unmatched]

theorem exec_confirm {g : GatewayReply} {i : Nat} {r : BatchRecord} (matched : matchReply s f = some (g, i, r)) (confirms : g.confirms = true) :
    exec .confirm s = .next (afterChange (countLate r (recordPaid i (releaseSlot r { s with gatewayIn := rest })))) := by
  have due : replyDue true s = true := by rw [replyDue_match front matched, confirms]; rfl
  have still : matchReply { s with gatewayIn := rest } f = some (g, i, r) := matched
  refine congrArg _ ((if_pos due).trans ((takeGateway_front out front _).trans ?_))
  simp only [takeConfirm, still]

theorem exec_reject {g : GatewayReply} {i : Nat} {r : BatchRecord} (matched : matchReply s f = some (g, i, r)) (rejects : g.confirms = false) :
    exec .reject s = .next (afterChange (recordReturned i r (releaseSlot r { s with gatewayIn := rest }))) := by
  have due : replyDue false s = true := by rw [replyDue_match front matched, rejects]; rfl
  have still : matchReply { s with gatewayIn := rest } f = some (g, i, r) := matched
  refine congrArg _ ((if_pos due).trans ((takeGateway_front out front _).trans ?_))
  simp only [takeReject, still]

theorem exec_stray (unmatched : matchReply s f = none) :
    exec .stray s = .next { s with gatewayIn := rest, counters := { s.counters with strays := bump s.counters.strays } } := by
  refine congrArg _ ((if_neg ?_).trans (takeGateway_front out front _))
  rw [replyDue_stray front unmatched, replyDue_stray front unmatched]
  decide

end

/-- Settles O45: the slot, the record and the late count, then the settling or the walk. -/
theorem confirmMakesTheRecordPaid : Obligations.ConfirmMakesTheRecordPaid := by
  intro s f rest g i r out front matched confirms paid freed late u
  obtain ⟨-, releasing, calm, -, -, -⟩ := matchReply_some matched
  have served : countLate r (recordPaid i (releaseSlot r { s with gatewayIn := rest })) = u := by
    unfold countLate releaseSlot
    by_cases sent : r.release = some .sent
    · simp only [u, freed, late, sent, if_true, reduceCtorEq, Option.some.injEq, if_false]
      rfl
    · by_cases doubtful : r.release = some .unconfirmed
      · simp only [u, freed, late, doubtful, if_true, reduceCtorEq, Option.some.injEq, if_false]
        rfl
      · simp only [u, freed, late, sent, doubtful, if_false]
        rfl
  have calmAfter : clearing u = false := by
    rw [← served]
    obtain ⟨_, _, frame⟩ := releaseSlot_frame r { s with gatewayIn := rest }
    rw [frame]
    unfold countLate
    split
    · exact calm
    · exact calm
  rw [exec_confirm out front matched confirms, served]
  exact ⟨fun final => congrArg _ (afterChange_settled (s := u) final),
    fun left => congrArg _ (afterChange_walks (s := u) left releasing calmAfter), rfl⟩

theorem recordReturned_batch (i : Nat) (r : BatchRecord) (s : State) : (recordReturned i r s).batch =
    { s.batch with records := setRelease i .returned s.batch.records, remaining := s.batch.remaining + r.payout } :=
  carryAddition_batch _ _ _

theorem recordReturned_clearing (i : Nat) (r : BatchRecord) (s : State) : clearing (recordReturned i r s) = clearing s := by
  unfold clearing recordReturned
  rw [carryAddition_clearRun]

theorem releaseSlot_clearing (r : BatchRecord) (s : State) : clearing (releaseSlot r s) = clearing s := by
  obtain ⟨_, _, frame⟩ := releaseSlot_frame r s
  rw [frame]
  rfl

/-- The expiry of the timer of a SENT record (R158). -/
theorem timerExpiry_due {k m length i : Nat} {r : BatchRecord} (out : s.inReset = false) (calm : clearing s = false)
    (timing : s.window.read .free k = .timing m length) (found : findPay s.batch.records m = some i) (held : s.batch.records[i]? = some r)
    (sent : r.release = some .sent) : exec (.timerExpiry k) s = .next (releaseWalk (handNotice (.payoutTimeout m s.batch.cycle)
      { s with
        batch := { s.batch with records := setRelease i .unconfirmed s.batch.records }
        window := s.window.write .free k .free })) := by
  have isSent : (s.batch.records[i]?.bind BatchRecord.release) = some .sent := by rw [held]; exact sent
  refine congrArg _ ((outOfReset_due _ _ out).trans ?_)
  simp only [timing, calm, found, isSent, if_true, Bool.false_eq_true, if_false]

theorem timerExpiry_none {k : Nat} (untimed : ∀ m length, s.window.read .free k ≠ .timing m length) :
    exec (.timerExpiry k) s = .next s := by
  have stands : timerExpiryStep k s = s := by
    unfold timerExpiryStep outOfReset
    split
    · rfl
    · dsimp only
      split
      · next m length timing => exact absurd timing (untimed m length)
      · rfl
      · rfl
  exact congrArg Host.Outcome.next stands

/-- Settles O46: the REJECT by whether all is then final, the stray, and the timer by the state of its slot. -/
theorem rejectsStraysAndTimeoutsAreTaken : Obligations.RejectsStraysAndTimeoutsAreTaken := by
  constructor
  · intro s f rest out front
    refine ⟨fun g i r matched rejects => ?_, exec_stray out front⟩
    obtain ⟨-, releasing, calm, -, -, -⟩ := matchReply_some matched
    intro freed returned u
    have batch : (releaseSlot r { s with gatewayIn := rest }).batch = s.batch := releaseSlot_batch _ _
    have served : recordReturned i r (releaseSlot r { s with gatewayIn := rest }) = u := by
      unfold recordReturned
      rw [batch]
      rfl
    have kept : u.batch = { s.batch with records := returned, remaining := s.batch.remaining + r.payout } := by
      rw [← served, recordReturned_batch, batch]
    have calmAfter : clearing u = false := by
      rw [← served, recordReturned_clearing, releaseSlot_clearing]
      exact calm
    rw [exec_reject out front matched rejects, served]
    refine ⟨fun final => congrArg _ ((afterChange_settled (by rw [kept]; exact final)).trans ?_),
      fun left => congrArg _ (afterChange_walks (by rw [kept]; exact left) (by rw [kept]; exact releasing) calmAfter)⟩
    rw [kept]
  · intro s k out calm
    refine ⟨fun m length i r timing releasing found held sent => ?_, timerExpiry_none⟩
    rw [timerExpiry_due out calm timing found held sent]
    exact congrArg _ (releaseWalk_runs releasing calm)

/-! ### RESOLVE -/

section
variable {m o : Nat}

theorem resolvable_range (bad : 512 ≤ m ∨ 2 ≤ o) : resolvable s m o = .error .range :=
  if_neg fun ranged => by
    have count : Config.merchantCount = 512 := rfl
    omega

variable (merchant : m < 512) (outcome : o < 2)
include merchant outcome

theorem resolvable_state (other : s.batch.state ≠ .releasing) : resolvable s m o = .error .state :=
  (if_pos ⟨merchant, Nat.le_of_lt_succ outcome⟩).trans (if_neg other)

variable (releasing : s.batch.state = .releasing)
include releasing

theorem resolvable_notFound (missing : findPay s.batch.records m = none) : resolvable s m o = .error .notFound := by
  unfold resolvable
  rw [if_pos ⟨merchant, Nat.le_of_lt_succ outcome⟩, if_pos releasing]
  simp only [missing]

theorem resolvable_found {i : Nat} {r : BatchRecord} (found : findPay s.batch.records m = some i) (held : s.batch.records[i]? = some r) :
    resolvable s m o = if r.release = some .unconfirmed then .ok (i, r) else .error .state := by
  unfold resolvable
  rw [if_pos ⟨merchant, Nat.le_of_lt_succ outcome⟩, if_pos releasing]
  simp only [found, held]

end

theorem serveResolve_refused {a : Nat × Nat} {reason : ReplyReason} (fails : resolvable s a.1 a.2 = .error reason) :
    serveResolve a tag s = sendReply 0x52 tag reason [] s := by simp only [serveResolve, fails]

theorem serveResolve_accepted {a : Nat × Nat} {i : Nat} {r : BatchRecord} {u : State} (tests : resolvable s a.1 a.2 = .ok (i, r))
    (after : afterChange (if a.2 = 0 then recordPaid i s else recordReturned i r s) = u) :
    serveResolve a tag s = sendReply 0x52 tag .accepted (resolveBlock (if a.2 = 0 then .paid else .returned) u.batch) u := by
  simp only [serveResolve, tests, after]

/-- Settles O47: the tests in order, then the record, the settling or the walk, and the reply. -/
theorem resolveSettlesAnUnconfirmedRecord : Obligations.ResolveSettlesAnUnconfirmedRecord := by
  intro s t m o tag due
  have run : exec .resolve s = .next (serveResolve (m, o) tag t) := exec_due due
  have calm := due.2.1
  obtain ⟨rest, rfl⟩ := due.rest
  rw [run]
  refine ⟨fun bad => congrArg _ (serveResolve_refused (resolvable_range bad)), fun merchant outcome =>
    ⟨fun other => congrArg _ (serveResolve_refused (resolvable_state merchant outcome other)), fun releasing =>
      ⟨fun missing => congrArg _ (serveResolve_refused (resolvable_notFound merchant outcome releasing missing)),
        fun i r found held => ?_⟩⟩⟩
  have tests := resolvable_found (s := { s with mgmtIn := rest }) merchant outcome releasing found held
  refine ⟨fun settled => congrArg _ (serveResolve_refused (tests.trans (if_neg settled))), fun doubtful => ?_⟩
  intro resolved u
  have served : (if o = 0 then recordPaid i { s with mgmtIn := rest } else recordReturned i r { s with mgmtIn := rest }) = resolved := rfl
  have kept : resolved.batch.state = .releasing ∧ resolved.batch.cycle = s.batch.cycle ∧ clearing resolved = false := by
    rw [← served]
    split
    · exact ⟨releasing, rfl, calm⟩
    · rw [recordReturned_batch, recordReturned_clearing]
      exact ⟨releasing, rfl, calm⟩
  obtain ⟨stillReleasing, sameCycle, stillCalm⟩ := kept
  have after : afterChange resolved = u := by
    cases final : allFinal resolved.batch.records with
    | true => simp only [afterChange_settled final, sameCycle, u, final, if_true]
    | false => simp only [afterChange_walks final stillReleasing stillCalm, u, final, Bool.false_eq_true, if_false]
  have codes : (if o = 0 then ReleaseState.paid else .returned).code = if o = 0 then 3 else 4 := by split <;> rfl
  refine congrArg _ ((serveResolve_accepted (tests.trans (if_pos doubtful)) ((congrArg afterChange served).trans after)).trans ?_)
  unfold resolveBlock
  rw [codes]

end Sys2Proof.Machine
end

