-- ==== Sys2Proof/Proofs/Abandon.lean ====
section
/-! ABANDON: the records, the carries and the settling (R164, R122). -/

namespace Sys2Proof.Machine

variable {s t : State} {tag : Nat}

/-! ### Carry additions -/

theorem addCarry_bounds (amount : Int) (p : Position) : addCarry amount p = { p with
    carry := max (-(2 ^ 62)) (min (p.carry + amount) (2 ^ 62 - 1))
    carryClamp := p.carryClamp || decide (p.carry + amount < -(2 ^ 62) ∨ 2 ^ 62 - 1 < p.carry + amount) } := by
  unfold addCarry
  rw [clampCarry_bounds, outsideCarry_eq]

theorem positionAt_carryAddition (m n : Nat) (amount : Int) (s : State) :
    positionAt (carryAddition m amount s) n = if n = m then addCarry amount (positionAt s m) else positionAt s n := by
  obtain ⟨_, _, _, frame⟩ := carryAddition_frame m amount s
  rw [frame]
  exact Table.read_write _ _ _ _ _

/-- The payouts of records added to the carries of their merchants, in order (R164). -/
def carryPayouts (gone : List BatchRecord) (s : State) : State := gone.foldl (fun v r => carryAddition r.merchant r.payout v) s

theorem carryPayouts_frame (gone : List BatchRecord) (s : State) : ∃ ps n q c, carryPayouts gone s =
    { s with positions := ps, noticeNumber := n, officeOut := q, counters := c } := by
  induction gone generalizing s with
  | nil => exact ⟨s.positions, s.noticeNumber, s.officeOut, s.counters, rfl⟩
  | cons r rest ih =>
    obtain ⟨n, q, c, one⟩ := carryAddition_frame r.merchant r.payout s
    obtain ⟨ps, n', q', c', others⟩ := ih (carryAddition r.merchant r.payout s)
    refine ⟨ps, n', q', c', others.trans ?_⟩
    rw [one]

theorem positionAt_carryPayouts_other {m : Nat} (gone : List BatchRecord) (s : State) (outside : ∀ r ∈ gone, r.merchant ≠ m) :
    positionAt (carryPayouts gone s) m = positionAt s m := by
  induction gone generalizing s with
  | nil => rfl
  | cons r rest ih =>
    refine (ih (carryAddition r.merchant r.payout s) fun q member => outside q (List.mem_cons_of_mem _ member)).trans ?_
    rw [positionAt_carryAddition, if_neg (outside r List.mem_cons_self).symm]

/-- A carry addition changes the carry and its mark, and no other field of a position. -/
theorem positionAt_carryPayouts (gone : List BatchRecord) (s : State) (m : Nat) :
    ∃ carry mark, positionAt (carryPayouts gone s) m = { positionAt s m with carry := carry, carryClamp := mark } := by
  induction gone generalizing s with
  | nil => exact ⟨(positionAt s m).carry, (positionAt s m).carryClamp, rfl⟩
  | cons r rest ih =>
    obtain ⟨carry, mark, others⟩ := ih (carryAddition r.merchant r.payout s)
    refine ⟨carry, mark, others.trans ?_⟩
    rw [positionAt_carryAddition]
    split
    · next same =>
      subst same
      rfl
    · rfl

/-- A merchant with one record among them has that record's payout added. -/
theorem positionAt_carryPayouts_once {before after : List BatchRecord} {r : BatchRecord} (s : State)
    (alone : ∀ q ∈ before ++ after, q.merchant ≠ r.merchant) :
    positionAt (carryPayouts (before ++ r :: after) s) r.merchant = addCarry r.payout (positionAt s r.merchant) := by
  have first := positionAt_carryPayouts_other before s fun q member => alone q (List.mem_append_left _ member)
  have last := positionAt_carryPayouts_other after (carryAddition r.merchant r.payout (carryPayouts before s))
    fun q member => alone q (List.mem_append_right _ member)
  calc positionAt (carryPayouts (before ++ r :: after) s) r.merchant
      = positionAt (carryPayouts after (carryAddition r.merchant r.payout (carryPayouts before s))) r.merchant := by
        unfold carryPayouts
        rw [List.foldl_append, List.foldl_cons]
    _ = addCarry r.payout (positionAt (carryPayouts before s) r.merchant) := by rw [last, positionAt_carryAddition, if_pos rfl]
    _ = addCarry r.payout (positionAt s r.merchant) := by rw [first]

/-! ### The records that await sending -/

theorem awaitsSending_eq (r : BatchRecord) :
    r.awaitsSending = decide (r.disposition = .pay ∧ (r.release = some .pending ∨ r.release = some .waiting)) := by
  simp only [BatchRecord.awaitsSending, BatchRecord.isPay, Bool.decide_and, Bool.decide_or]

theorem filter_awaitsSending (records : List BatchRecord) : records.filter BatchRecord.awaitsSending =
    records.filter fun r => decide (r.disposition = .pay ∧ (r.release = some .pending ∨ r.release = some .waiting)) :=
  List.filter_congr fun r _ => awaitsSending_eq r

/-- Exactly the records that await sending are ABANDONED. -/
theorem map_abandonRecord (records : List BatchRecord) : records.map abandonRecord =
    records.map fun r => if r ∈ records.filter BatchRecord.awaitsSending then { r with release := some .abandoned } else r :=
  List.map_congr_left fun r member => by
    unfold abandonRecord
    simp only [List.mem_filter, member, true_and]

/-! ### ABANDON -/

theorem settleIfFinal_settled (final : allFinal s.batch.records = true) :
    settleIfFinal s = handNotice (.batchSettled s.batch.cycle) { s with batch := { s.batch with state := .settled } } := if_pos final

theorem settleIfFinal_stands (left : ¬allFinal s.batch.records = true) : settleIfFinal s = s := if_neg left

/-- What the settling leaves alone. -/
theorem settleIfFinal_frame (s : State) : ∃ b n q c, settleIfFinal s =
    { s with batch := b, noticeNumber := n, officeOut := q, counters := c } := by
  unfold settleIfFinal
  split
  · exact ⟨_, _, _, _, rfl⟩
  · exact ⟨s.batch, s.noticeNumber, s.officeOut, s.counters, rfl⟩

theorem abandonWrite_eq (s : State) : abandonWrite s = carryPayouts (s.batch.records.filter BatchRecord.awaitsSending)
    { s with batch := { s.batch with records := s.batch.records.map abandonRecord } } := rfl

theorem abandonWrite_batch (s : State) : (abandonWrite s).batch = { s.batch with records := s.batch.records.map abandonRecord } := by
  obtain ⟨_, _, _, _, frame⟩ := carryPayouts_frame (s.batch.records.filter BatchRecord.awaitsSending)
    { s with batch := { s.batch with records := s.batch.records.map abandonRecord } }
  rw [abandonWrite_eq, frame]

theorem serveAbandon_refused (other : s.batch.state ≠ .releasing) : serveAbandon tag s = sendReply 0x53 tag .state [] s := if_neg other

theorem serveAbandon_accepted (releasing : s.batch.state = .releasing) : serveAbandon tag s =
    sendReply 0x53 tag .accepted (abandonBlock s.batch.records (settleIfFinal (abandonWrite s)).batch) (settleIfFinal (abandonWrite s)) :=
  if_pos releasing

/-- The positions after ABANDON are those that the carry additions leave. -/
theorem positionAt_serveAbandon (releasing : s.batch.state = .releasing) (m : Nat) :
    positionAt (serveAbandon tag s) m = positionAt (abandonWrite s) m := by
  obtain ⟨_, _, _, _, settled⟩ := settleIfFinal_frame (abandonWrite s)
  rw [serveAbandon_accepted releasing, settled]
  rfl

/-- ABANDON writes the batch, the positions and the notices (R164). -/
theorem serveAbandon_frame (releasing : s.batch.state = .releasing) : ∃ b ps n q c, serveAbandon tag s =
    { s with batch := b, positions := ps, noticeNumber := n, officeOut := q, counters := c } := by
  obtain ⟨b, n, q, c, settled⟩ := settleIfFinal_frame (abandonWrite s)
  obtain ⟨ps, n', q', c', carried⟩ := carryPayouts_frame (s.batch.records.filter BatchRecord.awaitsSending)
    { s with batch := { s.batch with records := s.batch.records.map abandonRecord } }
  rw [serveAbandon_accepted releasing, settled, abandonWrite_eq, carried]
  exact ⟨_, _, _, _, _, rfl⟩

/-- Settles O48: the carry addition, and ABANDON by whether every PAY record is then final. -/
theorem abandonEndsTheSending : Obligations.AbandonEndsTheSending := by
  constructor
  · intro m amount v p sum mark
    show handNotices (clampNotices m p (addCarry amount p)) _ = _
    rw [addCarry_bounds]
    rfl
  intro s t tag due
  have run : exec .abandon s = .next (serveAbandon tag t) := exec_due due
  obtain ⟨rest, rfl⟩ := due.rest
  rw [run]
  refine ⟨fun other => congrArg _ (serveAbandon_refused other), fun releasing => ?_⟩
  dsimp only
  rw [← filter_awaitsSending, ← map_abandonRecord, ← allFinal_iff]
  have batch := abandonWrite_batch { s with mgmtIn := rest }
  have records : (abandonWrite { s with mgmtIn := rest }).batch.records = s.batch.records.map abandonRecord := congrArg Batch.records batch
  have start := serveAbandon_accepted (tag := tag) (s := { s with mgmtIn := rest }) releasing
  refine ⟨settleIfFinal (abandonWrite { s with mgmtIn := rest }), serveAbandon tag { s with mgmtIn := rest }, rfl,
    fun final => ?_, fun left => ?_, start, fun final => ?_, fun left => ?_, ?_, fun m => ?_, fun m outside => ?_, ?_⟩
  · have cycle : (abandonWrite { s with mgmtIn := rest }).batch.cycle = s.batch.cycle := by rw [batch]
    rw [settleIfFinal_settled (by rw [records]; exact final), cycle]
    rfl
  · exact settleIfFinal_stands (by rw [records]; exact left)
  · rw [start, settleIfFinal_settled (by rw [records]; exact final), batch]
    rfl
  · rw [start, settleIfFinal_stands (by rw [records]; exact left)]
    exact batch
  · obtain ⟨_, _, _, _, _, frame⟩ := serveAbandon_frame (tag := tag) (s := { s with mgmtIn := rest }) releasing
    rw [frame]
  · obtain ⟨carry, mark, position⟩ := positionAt_carryPayouts (s.batch.records.filter BatchRecord.awaitsSending)
      { s with mgmtIn := rest, batch := { s.batch with records := s.batch.records.map abandonRecord } } m
    exact ⟨carry, mark, (positionAt_serveAbandon (s := { s with mgmtIn := rest }) releasing m).trans position⟩
  · exact (positionAt_serveAbandon (s := { s with mgmtIn := rest }) releasing m).trans (positionAt_carryPayouts_other _ _ outside)
  · intro before r after split alone
    rw [positionAt_serveAbandon (s := { s with mgmtIn := rest }) releasing, abandonWrite_eq, split,
      positionAt_carryPayouts_once _ alone, addCarry_bounds]
    rfl

end Sys2Proof.Machine
end

