-- ==== Sys2Proof/Proofs/FirstState.lean ====
section
/-! The conditions of the invariants at the state right after reset. -/

namespace Sys2Proof.Machine

/-- No batch computes, and every closing bank of the empty Position Table is COMPUTED. -/
theorem reset_marksFollowCursor : marksFollowCursor State.reset = true :=
  (marksFollowCursor_iff _).2 fun _ _ => ⟨fun _ computing => (nomatch computing), fun _ => rfl⟩

/-- Every program entry is EMPTY and every lane unassigned. -/
theorem reset_tablesUnambiguous : tablesUnambiguous State.reset :=
  ⟨fun _ _ _ _ _ _ claimed => absurd claimed Bool.false_ne_true, fun _ _ _ assigned => absurd rfl assigned⟩

/-- No program has a live card, and none is counted. -/
theorem reset_liveCountsMatch : liveCountsMatch State.reset = true :=
  (liveCountsMatch_iff _).2 ⟨⟨rfl, fun _ _ => rfl⟩, fun _ held => nomatch held⟩

/-- No request is in hand. -/
theorem reset_reversalCovered : reversalCovered State.reset := fun _ _ held => nomatch held

/-- Settles O49: each condition at a state of empty stores and zero counters, with no request in hand. -/
theorem resetIsSound : Obligations.ResetIsSound :=
  ⟨rfl, rfl, rfl, rfl, rfl, rfl, reset_marksFollowCursor, rfl, rfl, rfl, reset_tablesUnambiguous, trivial, reset_liveCountsMatch, rfl,
    rfl, reset_reversalCovered, rfl, rfl⟩

end Sys2Proof.Machine
end

