-- ==== Sys2Proof/Proofs/StartUp.lean ====
section
/-! The start-up that takes up the work left over (R180), with the order of its items left free (log 7). -/

namespace Sys2Proof.Machine

variable {s u : State}

/-! ### The items in order -/

/-- The items reach the office queue in order. -/
def offerItems (items : List StartItem) (u : State) : State := items.foldl (fun u i => offerItem i u) u

def StartItem.isNotice : StartItem → Bool
  | .notice _ => true
  | .instruction => false

theorem offerItem_frame (item : StartItem) (u : State) : ∃ n q c w a, offerItem item u =
    { u with noticeNumber := n, officeOut := q, counters := c, window := w, awaiting := a } := by
  cases item with
  | notice n => exact ⟨_, _, _, u.window, u.awaiting, rfl⟩
  | instruction =>
    unfold offerItem
    dsimp only
    split
    · exact ⟨u.noticeNumber, u.officeOut, u.counters, u.window, u.awaiting, rfl⟩
    · exact ⟨u.noticeNumber, _, _, _, _, rfl⟩

/-- What the items leave alone. -/
theorem offerItems_frame (items : List StartItem) (u : State) : ∃ n q c w a, offerItems items u =
    { u with noticeNumber := n, officeOut := q, counters := c, window := w, awaiting := a } := by
  induction items generalizing u with
  | nil => exact ⟨u.noticeNumber, u.officeOut, u.counters, u.window, u.awaiting, rfl⟩
  | cons item rest ih =>
    obtain ⟨_, _, _, _, _, first⟩ := offerItem_frame item u
    obtain ⟨n, q, c, w, a, others⟩ := ih (offerItem item u)
    refine ⟨n, q, c, w, a, others.trans ?_⟩
    rw [first]

theorem offerItem_noticeNumber (item : StartItem) (u : State) :
    (offerItem item u).noticeNumber = if item.isNotice then nextNotice u else u.noticeNumber := by
  cases item with
  | notice n => rfl
  | instruction =>
    unfold offerItem
    dsimp only
    split
    · rfl
    · rfl

/-- Each notice takes a number (R194). -/
theorem offerItems_noticeNumber (items : List StartItem) (u : State) (bound : u.noticeNumber + items.countP StartItem.isNotice < 65536) :
    (offerItems items u).noticeNumber = u.noticeNumber + items.countP StartItem.isNotice := by
  induction items generalizing u with
  | nil => rfl
  | cons item rest ih =>
    have first := offerItem_noticeNumber item u
    rw [List.countP_cons] at bound ⊢
    cases kind : item.isNotice with
    | true =>
      simp only [kind, if_true, nextNotice] at first bound ⊢
      have next := ih (offerItem item u) (by omega)
      exact next.trans (by omega)
    | false =>
      simp only [kind, Bool.false_eq_true, if_false, Nat.add_zero] at first bound ⊢
      exact (ih (offerItem item u) (by omega)).trans (by omega)

/-! ### The slots -/

/-- The slot stands, or its instruction left it and its timer runs (R157). -/
def movedOn (timeout : Nat) (before after : WindowSlot) : Prop :=
  after = before ∨ ∃ m f, before = .awaiting m f ∧ after = .timing m timeout

theorem movedOn.trans {timeout : Nat} {a b c : WindowSlot} (first : movedOn timeout a b) (second : movedOn timeout b c) : movedOn timeout a c := by
  rcases first with rfl | ⟨m, f, awaits, rfl⟩
  · exact second
  · rcases second with rfl | ⟨_, _, awaits', -⟩
    · exact .inr ⟨m, f, awaits, rfl⟩
    · cases awaits'

theorem drainGo_movedOn (link : Link) (timeout k : Nat) : ∀ (ks : List Nat) (w : Table WindowSlot) (q : List OutFrame) (n : Nat),
    movedOn timeout (w.read .free k) ((drainGo link timeout ks w q n).2.1.read .free k) := by
  intro ks
  induction ks with
  | nil => exact fun _ _ _ => .inl rfl
  | cons j ks ih =>
    intro w q n
    unfold drainGo
    split
    · next m f awaits =>
      have written : movedOn timeout (w.read .free k) ((w.write .free j (.timing m timeout)).read .free k) := by
        rw [Table.read_write]
        split
        · next here => exact .inr ⟨m, f, here ▸ awaits, rfl⟩
        · exact .inl rfl
      split
      · exact written.trans (ih _ _ _)
      · split
        · exact written.trans (ih _ _ _)
        · exact .inl rfl
    · exact ih _ _ _
    · exact ih _ _ _

theorem offerItem_movedOn (item : StartItem) (u : State) (k : Nat) :
    movedOn u.settings.confirmationTimeout (u.window.read .free k) ((offerItem item u).window.read .free k) := by
  cases item with
  | notice n => exact .inl rfl
  | instruction =>
    unfold offerItem
    dsimp only
    split
    · exact .inl rfl
    · exact drainGo_movedOn _ _ _ _ _ _ _

theorem offerItems_movedOn (items : List StartItem) (u : State) (k : Nat) :
    movedOn u.settings.confirmationTimeout (u.window.read .free k) ((offerItems items u).window.read .free k) := by
  induction items generalizing u with
  | nil => exact .inl rfl
  | cons item rest ih =>
    have first := offerItem_movedOn item u k
    have others := ih (offerItem item u)
    have timeout : (offerItem item u).settings = u.settings := by
      obtain ⟨_, _, _, _, _, frame⟩ := offerItem_frame item u
      rw [frame]
    rw [timeout] at others
    exact first.trans others

/-- With no instruction waiting no slot changes. -/
theorem offerItems_idle (items : List StartItem) (u : State) (none : u.awaiting = []) :
    (offerItems items u).window = u.window ∧ (offerItems items u).awaiting = [] := by
  induction items generalizing u with
  | nil => exact ⟨rfl, none⟩
  | cons item rest ih =>
    cases item with
    | notice n => exact ih (handNotice n u) none
    | instruction =>
      have stands : offerItem .instruction u = u := by simp only [offerItem, none]
      rw [offerItems, List.foldl_cons, stands]
      exact ih u none

/-! ### Instructions that all leave -/

/-- As many instructions are offered as wait, each in a slot of its own. -/
structure OffersEach (items : List StartItem) (u : State) : Prop where
  once : u.awaiting.Nodup
  waiting : ∀ k ∈ u.awaiting, ∃ m f, u.window.read .free k = .awaiting m f
  count : items.length = items.countP StartItem.isNotice + u.awaiting.length

theorem OffersEach.notice {n : Notice} {items : List StartItem} (each : OffersEach (.notice n :: items) u) :
    OffersEach items (handNotice n u) :=
  ⟨each.once, each.waiting, by
    have count := each.count
    rw [List.countP_cons_of_pos rfl, List.length_cons] at count
    exact Nat.succ_injective (count.trans (Nat.succ_add _ _))⟩

/-- The oldest instruction leaves. -/
theorem OffersEach.instruction {items : List StartItem} (each : OffersEach (.instruction :: items) u) :
    ∃ k ks m f, u.awaiting = k :: ks ∧ u.window.read .free k = .awaiting m f ∧ k ∉ ks ∧ ∀ v : State, v.awaiting = ks →
      v.window = u.window.write .free k (.timing m u.settings.confirmationTimeout) → OffersEach items v := by
  obtain ⟨once, waiting, count⟩ := each
  rw [List.countP_cons_of_neg (by decide), List.length_cons] at count
  cases held : u.awaiting with
  | nil =>
    rw [held] at count
    have bound := List.countP_le_length (p := StartItem.isNotice) (l := items)
    simp only [List.length_nil] at count
    omega
  | cons k ks =>
    rw [held] at once waiting count
    obtain ⟨fresh, later⟩ := List.nodup_cons.1 once
    obtain ⟨m, f, awaits⟩ := waiting k List.mem_cons_self
    refine ⟨k, ks, m, f, rfl, awaits, fresh, fun v tail window => ⟨tail ▸ later, fun j member => ?_, ?_⟩⟩
    · rw [tail] at member
      have apart : j ≠ k := fun same => fresh (same ▸ member)
      rw [window, Table.read_write_ne _ _ _ apart]
      exact waiting j (List.mem_cons_of_mem _ member)
    · rw [List.length_cons] at count
      rw [tail]
      omega

section
variable {k m : Nat} {ks : List Nat} {f : Frame} (held : u.awaiting = k :: ks) (awaits : u.window.read .free k = .awaiting m f)
include held awaits

theorem offerItem_up (up : u.officeLink = .up) (room : u.officeOut.length < 32) : offerItem .instruction u = { u with
    awaiting := ks
    window := u.window.write .free k (.timing m u.settings.confirmationTimeout)
    officeOut := u.officeOut ++ [{ frame := f, origin := .instruction }] } := by
  simp only [offerItem, held, placeSome, drainGo, awaits, up, reduceCtorEq, if_false, Config.officeCapacity, room, if_true,
    List.nil_append, bumpBy]

theorem offerItem_down (down : u.officeLink = .down) : offerItem .instruction u = { u with
    awaiting := ks
    window := u.window.write .free k (.timing m u.settings.confirmationTimeout)
    counters := { u.counters with officeLinkDrops := bump u.counters.officeLinkDrops } } := by
  simp only [offerItem, held, placeSome, drainGo, awaits, down, if_true, List.nil_append, bumpBy]

end

/-- The slot once its instruction has left. -/
def started (timeout : Nat) : WindowSlot → WindowSlot
  | .awaiting m _ => .timing m timeout
  | .free => .free
  | .timing m length => .timing m length

/-- The frame of an instruction that waits in a slot. -/
def waitingFrame (w : Table WindowSlot) (k : Nat) : Option OutFrame :=
  match w.read .free k with
  | .awaiting _ f => some { frame := f, origin := .instruction }
  | .free => none
  | .timing _ _ => none

/-- Every instruction of `u` has left its slot in `v`. -/
structure AllLeft (u v : State) : Prop where
  awaiting : v.awaiting = []
  slots : ∀ k, v.window.read .free k =
    if k ∈ u.awaiting then started u.settings.confirmationTimeout (u.window.read .free k) else u.window.read .free k

theorem AllLeft.nothing (none : u.awaiting = []) : AllLeft u u := ⟨none, fun _ => by simp [none]⟩

/-- The oldest instruction leaves, and then the others. -/
theorem AllLeft.cons {w v : State} {k m : Nat} {ks : List Nat} {f : Frame} (held : u.awaiting = k :: ks)
    (awaits : u.window.read .free k = .awaiting m f) (fresh : k ∉ ks) (tail : w.awaiting = ks)
    (window : w.window = u.window.write .free k (.timing m u.settings.confirmationTimeout)) (settings : w.settings = u.settings)
    (others : AllLeft w v) : AllLeft u v := by
  refine ⟨others.awaiting, fun j => ?_⟩
  rw [others.slots, tail, held, window, settings, Table.read_write]
  by_cases here : j = k
  · subst here
    simp [fresh, awaits, started]
  · simp [here]

/-- The queue of an UP port takes every item, and the instructions stand in their order (R157, R194). -/
theorem offerItems_up (items : List StartItem) (u : State) (each : OffersEach items u) (up : u.officeLink = .up)
    (room : u.officeOut.length + items.length ≤ 32) : AllLeft u (offerItems items u) ∧ (offerItems items u).counters = u.counters ∧
      (offerItems items u).officeOut.length = u.officeOut.length + items.length ∧
      (offerItems items u).officeOut.filter (fun e => decide (e.origin = .instruction)) =
        u.officeOut.filter (fun e => decide (e.origin = .instruction)) ++ u.awaiting.filterMap (waitingFrame u.window) := by
  induction items generalizing u with
  | nil =>
    have none : u.awaiting = [] := List.length_eq_zero_iff.1 (by simpa using each.count.symm)
    exact ⟨.nothing none, rfl, rfl, by simp [none, offerItems]⟩
  | cons item rest ih =>
    rw [List.length_cons] at room ⊢
    cases item with
    | notice n =>
      have place : u.officeOut.length < 32 := by omega
      have placed : offerItem (.notice n) u = { u with
          noticeNumber := nextNotice u
          officeOut := u.officeOut ++
            [{ frame := partFrame u.settings kindNotice u.settings.controllerStation (n.body (nextNotice u)), origin := .notice }] } :=
        offerOffice_placed (s := { u with noticeNumber := nextNotice u }) up place
      obtain ⟨left, counters, length, queue⟩ := ih (offerItem (.notice n) u) each.notice up (by rw [placed]; simp; omega)
      refine ⟨⟨left.awaiting, left.slots⟩, counters.trans (by rw [placed]), length.trans ?_, queue.trans ?_⟩
      · rw [placed]
        simp
        omega
      · rw [placed]
        simp
    | instruction =>
      obtain ⟨k, ks, m, f, held, awaits, fresh, later⟩ := each.instruction
      have placed := offerItem_up held awaits up (by omega)
      obtain ⟨left, counters, length, queue⟩ := ih (offerItem .instruction u) (later _ (by rw [placed]) (by rw [placed])) (by rw [placed]; exact up)
        (by rw [placed]; simp; omega)
      refine ⟨left.cons held awaits fresh (by rw [placed]) (by rw [placed]) (by rw [placed]), counters.trans (by rw [placed]), length.trans ?_,
        queue.trans ?_⟩
      · rw [placed]
        simp
        omega
      · have frames : ks.filterMap (waitingFrame (u.window.write .free k (.timing m u.settings.confirmationTimeout))) =
            ks.filterMap (waitingFrame u.window) :=
          List.filterMap_congr fun j member => by
            have apart : j ≠ k := fun same => fresh (same ▸ member)
            unfold waitingFrame
            rw [Table.read_write_ne _ _ _ apart]
        have own : waitingFrame u.window k = some { frame := f, origin := .instruction } := by
          unfold waitingFrame
          rw [awaits]
        rw [placed, held, List.filterMap_cons_some own, frames]
        simp

/-- On a DOWN port every item is dropped and counted (R169). -/
theorem offerItems_down (items : List StartItem) (u : State) (each : OffersEach items u) (down : u.officeLink = .down) :
    AllLeft u (offerItems items u) ∧ (offerItems items u).officeOut = u.officeOut ∧
      (offerItems items u).counters = { u.counters with officeLinkDrops := bumpBy items.length u.counters.officeLinkDrops } := by
  induction items generalizing u with
  | nil =>
    have none : u.awaiting = [] := List.length_eq_zero_iff.1 (by simpa using each.count.symm)
    exact ⟨.nothing none, rfl, rfl⟩
  | cons item rest ih =>
    cases item with
    | notice n =>
      have dropped : offerItem (.notice n) u = { u with
          noticeNumber := nextNotice u
          counters := { u.counters with officeLinkDrops := bump u.counters.officeLinkDrops } } :=
        offerOffice_down (s := { u with noticeNumber := nextNotice u }) down
      obtain ⟨left, queue, counters⟩ := ih (offerItem (.notice n) u) each.notice down
      refine ⟨⟨left.awaiting, left.slots⟩, queue.trans (by rw [dropped]), counters.trans ?_⟩
      rw [dropped]
      rfl
    | instruction =>
      obtain ⟨k, ks, m, f, held, awaits, fresh, later⟩ := each.instruction
      have dropped := offerItem_down held awaits down
      obtain ⟨left, queue, counters⟩ := ih (offerItem .instruction u) (later _ (by rw [dropped]) (by rw [dropped])) (by rw [dropped]; exact down)
      refine ⟨left.cons held awaits fresh (by rw [dropped]) (by rw [dropped]) (by rw [dropped]), queue.trans (by rw [dropped]),
        counters.trans ?_⟩
      rw [dropped]
      rfl

end Sys2Proof.Machine
end

