-- ==== Sys2Proof/Proofs/LeftOver.lean ====
section
/-! The work left over: what each block takes up at a start-up, and what it offers (R103, R142, R166, R180). -/

namespace Sys2Proof.Machine

variable {s : State}

/-! ### What the blocks take up -/

/-- The state once the blocks took up the work left over, before anything of theirs reaches the office queue. -/
def takenUp (s : State) : State := recoverBatch { s with inReset := false, pages := tearPages s.pages }

/-- What they offer, in the order of the free choice (log 7). -/
def startUpItems (s : State) : List StartItem :=
  startOrder (Config.startOrder s.freeCount) ((tornNotices (tearPages s.pages)).length + (recoveryItems s (takenUp s)).length) 0
    (tornNotices (tearPages s.pages)) (recoveryItems s (takenUp s))

theorem exec_startUp_taken (held : s.inReset = true) (configured : s.configured = true) (unmarked : s.storeClearMark = false) :
    exec .startUp s = .next (offerItems (startUpItems s) { takenUp s with freeCount := s.freeCount + 1 }) := by
  rw [exec_startUp held, if_neg (by simp [configured]), if_neg (by simp [unmarked])]
  rfl

theorem read_tearPages (pages : Table PageState) (p : Nat) : (tearPages pages).read .opened p =
    if pages.read .opened p = .clearing then .torn else pages.read .opened p :=
  Table.read_map PageState.opened (fun x => if x = .clearing then .torn else x) rfl pages p

theorem completionDue_false (releasing : s.batch.state = .releasing) : ¬completionDue s = true := fun due => by
  have computing := ((completionDue_iff s).1 due).1
  rw [releasing] at computing
  cases computing

theorem takenUp_completed (due : completionDue s = true) : takenUp s = { s with
    inReset := false, pages := tearPages s.pages
    batch := { s.batch with state := .computed, trailer := some s.batch.totals } } := if_pos due

theorem takenUp_walked (releasing : s.batch.state = .releasing) : takenUp s = walkRecords { s with
    inReset := false, pages := tearPages s.pages
    batch := { s.batch with records := doubtSent s.batch.records } } :=
  (if_neg (completionDue_false releasing)).trans (if_pos releasing)

theorem takenUp_stands (early : ¬completionDue s = true) (other : s.batch.state ≠ .releasing) : takenUp s = { s with
    inReset := false, pages := tearPages s.pages } := (if_neg early).trans (if_neg other)

/-- What the blocks write. -/
theorem takenUp_frame (s : State) : ∃ b w a, takenUp s = { s with
    inReset := false, pages := tearPages s.pages, batch := b, window := w, awaiting := a } := by
  by_cases due : completionDue s = true
  · exact ⟨_, s.window, s.awaiting, takenUp_completed due⟩
  · by_cases releasing : s.batch.state = .releasing
    · exact ⟨_, _, _, takenUp_walked releasing⟩
    · exact ⟨s.batch, s.window, s.awaiting, takenUp_stands due releasing⟩

/-- A record that does not await sending stands in a walk. -/
theorem walkRecords_kept {i : Nat} {r : BatchRecord} (found : s.batch.records[i]? = some r) (still : r.awaitsSending = false) :
    (walkRecords s).batch.records[i]? = some r := by
  have other {w : WalkState} {n : Nat} {q : BatchRecord} (kept : w.records[i]? = some r) (visited : w.records[n]? = some q)
      (awaits : q.awaitsSending = true) : i ≠ n := by
    rintro rfl
    cases Option.some.inj (kept.symm.trans visited)
    rw [still] at awaits
    cases awaits
  exact walkGo_induction s (fun w => w.records[i]? = some r)
    (fun w n q kept visited awaits _ => (setRelease_other (other kept visited awaits) _ _).trans kept)
    (fun w n q slot kept visited awaits _ _ _ => (setRelease_other (other kept visited awaits) _ _).trans kept) _ _ found

/-! ### What they offer -/

theorem tornNotices_isNotice (pages : Table PageState) : (tornNotices pages).countP StartItem.isNotice = (tornNotices pages).length :=
  List.countP_eq_length.2 fun item member => by
    obtain ⟨p, -, rfl⟩ := List.mem_map.1 member
    rfl

theorem tornNotices_length (pages : Table PageState) :
    (tornNotices pages).length = ((List.range 16).filter fun p => decide (pages.read .opened p = .torn)).length := List.length_map _

theorem tornNotices_length_le (pages : Table PageState) : (tornNotices pages).length ≤ 16 := by
  rw [tornNotices_length]
  exact (List.length_filter_le _ _).trans_eq List.length_range

theorem startUpItems_perm (s : State) :
    (startUpItems s).Perm (tornNotices (tearPages s.pages) ++ recoveryItems s (takenUp s)) := startOrder_perm _ _ _ _ _

theorem recoveryItems_due (due : completionDue s = true) (t : State) : recoveryItems s t = [.notice (.batchComputed s.batch.cycle)] := if_pos due

theorem recoveryItems_walked (early : ¬completionDue s = true) (t : State) :
    recoveryItems s t = List.replicate t.awaiting.length .instruction :=
  (if_neg early).trans List.map_const'

/-- One notice for a TORN page, and one for a completion. -/
theorem startUpItems_notices (s : State) : (startUpItems s).countP StartItem.isNotice =
    ((List.range 16).filter fun p => decide ((tearPages s.pages).read .opened p = .torn)).length +
      if completionDue s = true then 1 else 0 := by
  rw [(startUpItems_perm s).countP_eq, List.countP_append, tornNotices_isNotice, tornNotices_length]
  congr 1
  split
  · next due =>
    rw [recoveryItems_due due]
    rfl
  · next early =>
    rw [recoveryItems_walked early, List.countP_replicate]
    rfl

/-- In a release each block offers its own: a notice for a TORN page, and every instruction that waits. -/
theorem startUpItems_length (early : ¬completionDue s = true) :
    (startUpItems s).length = (startUpItems s).countP StartItem.isNotice + (takenUp s).awaiting.length := by
  rw [startUpItems_notices, if_neg early, (startUpItems_perm s).length_eq, List.length_append, tornNotices_length, recoveryItems_walked early,
    List.length_replicate, Nat.add_zero]

/-! ### The start-up -/

/-- The state that the start-up leaves. -/
def startedUp (s : State) : State := offerItems (startUpItems s) { takenUp s with freeCount := s.freeCount + 1 }

theorem startedUp_frame (s : State) : ∃ n q c w a, startedUp s = { takenUp s with
    noticeNumber := n, officeOut := q, counters := c, window := w, awaiting := a, freeCount := s.freeCount + 1 } := by
  obtain ⟨n, q, c, w, a, frame⟩ := offerItems_frame (startUpItems s) { takenUp s with freeCount := s.freeCount + 1 }
  exact ⟨n, q, c, w, a, frame⟩

theorem startedUp_batch (s : State) : (startedUp s).batch = (takenUp s).batch := by
  obtain ⟨_, _, _, _, _, frame⟩ := startedUp_frame s
  rw [frame]

theorem startedUp_pages (s : State) : (startedUp s).pages = tearPages s.pages := by
  obtain ⟨_, _, _, _, _, frame⟩ := startedUp_frame s
  obtain ⟨_, _, _, taken⟩ := takenUp_frame s
  rw [frame, taken]

theorem takenUp_settings (s : State) : (takenUp s).settings = s.settings := by
  obtain ⟨_, _, _, taken⟩ := takenUp_frame s
  rw [taken]

/-- Nothing has reached the office port yet. -/
theorem takenUp_port (s : State) :
    (takenUp s).officeLink = s.officeLink ∧ (takenUp s).officeOut = s.officeOut ∧ (takenUp s).counters = s.counters := by
  obtain ⟨_, _, _, taken⟩ := takenUp_frame s
  rw [taken]
  exact ⟨rfl, rfl, rfl⟩

theorem startedUp_movedOn (s : State) (k : Nat) :
    movedOn s.settings.confirmationTimeout ((takenUp s).window.read .free k) ((startedUp s).window.read .free k) := by
  rw [← takenUp_settings s]
  exact offerItems_movedOn _ _ k

theorem startedUp_noticeNumber (fresh : s.noticeNumber = 0) : (startedUp s).noticeNumber =
    ((List.range 16).filter fun p => decide ((tearPages s.pages).read .opened p = .torn)).length + if completionDue s = true then 1 else 0 := by
  have start : ({ takenUp s with freeCount := s.freeCount + 1 } : State).noticeNumber = 0 := by
    obtain ⟨_, _, _, taken⟩ := takenUp_frame s
    rw [taken]
    exact fresh
  have few : (startUpItems s).countP StartItem.isNotice ≤ 17 := by
    rw [startUpItems_notices, ← tornNotices_length]
    have pages := tornNotices_length_le (tearPages s.pages)
    split
    · omega
    · omega
  rw [startedUp, offerItems_noticeNumber _ _ (by omega), start, Nat.zero_add, startUpItems_notices]

section
variable (releasing : s.batch.state = .releasing) (noneWaits : s.awaiting = []) (emptyWindow : s.window = [])
include releasing noneWaits emptyWindow

theorem takenUp_window : (takenUp s).awaiting.Nodup ∧ (∀ k ∈ (takenUp s).awaiting, k < 16) ∧
    (∀ k, k ∈ (takenUp s).awaiting ↔ (takenUp s).window.read .free k ≠ .free) ∧
    ∀ k, (takenUp s).window.read .free k ≠ .free → ∃ m f, (takenUp s).window.read .free k = .awaiting m f := by
  rw [takenUp_walked releasing]
  exact walkRecords_window emptyWindow noneWaits

/-- From an empty window each slot that the walk filled is offered. -/
theorem startUpItems_each : OffersEach (startUpItems s) { takenUp s with freeCount := s.freeCount + 1 } := by
  have early := completionDue_false releasing
  obtain ⟨once, -, occupied, awaits⟩ := takenUp_window releasing noneWaits emptyWindow
  exact ⟨once, fun k member => awaits k ((occupied k).1 member), startUpItems_length early⟩

theorem startUpItems_length_le : (startUpItems s).length ≤ 32 := by
  have early := completionDue_false releasing
  obtain ⟨once, below, -, -⟩ := takenUp_window releasing noneWaits emptyWindow
  have slots : (takenUp s).awaiting.length ≤ 16 := by
    have within : (takenUp s).awaiting ⊆ List.range 16 := fun k member => List.mem_range.2 (below k member)
    simpa using (once.subperm within).length_le
  have pages := tornNotices_length_le (tearPages s.pages)
  rw [startUpItems_length early, startUpItems_notices, if_neg early, ← tornNotices_length]
  omega

/-- A slot that does not wait is free, so that every slot is as after the sending of its instruction. -/
theorem startedUp_slots (left : AllLeft { takenUp s with freeCount := s.freeCount + 1 } (startedUp s)) (k : Nat) :
    (startedUp s).window.read .free k = started s.settings.confirmationTimeout ((takenUp s).window.read .free k) := by
  obtain ⟨-, -, occupied, -⟩ := takenUp_window releasing noneWaits emptyWindow
  have read := left.slots k
  dsimp only at read
  rw [takenUp_settings] at read
  refine read.trans ?_
  split
  · rfl
  · next outside =>
    have empty : (takenUp s).window.read .free k = .free := of_not_not (mt (occupied k).2 outside)
    rw [empty]
    rfl

/-- On an UP port every item stands in the office queue. -/
theorem startedUp_up (emptyQueue : s.officeOut = []) (up : s.officeLink = .up) :
    AllLeft { takenUp s with freeCount := s.freeCount + 1 } (startedUp s) ∧ (startedUp s).counters = s.counters ∧
      (startedUp s).officeOut.length = (startUpItems s).length ∧
      (startedUp s).officeOut.filter (fun e => decide (e.origin = .instruction)) =
        (takenUp s).awaiting.filterMap (waitingFrame (takenUp s).window) := by
  obtain ⟨link, queue, counters⟩ := takenUp_port s
  have none : (takenUp s).officeOut = [] := queue.trans emptyQueue
  have room : ({ takenUp s with freeCount := s.freeCount + 1 } : State).officeOut.length + (startUpItems s).length ≤ 32 := by
    rw [none, List.length_nil, Nat.zero_add]
    exact startUpItems_length_le releasing noneWaits emptyWindow
  obtain ⟨left, kept, length, instructions⟩ := offerItems_up _ _ (startUpItems_each releasing noneWaits emptyWindow) (link.trans up) room
  refine ⟨left, kept.trans counters, length.trans ?_, instructions.trans ?_⟩
  · rw [none, List.length_nil, Nat.zero_add]
  · rw [none]
    rfl

/-- On a DOWN port every item is dropped and counted. -/
theorem startedUp_down (emptyQueue : s.officeOut = []) (down : s.officeLink = .down) :
    AllLeft { takenUp s with freeCount := s.freeCount + 1 } (startedUp s) ∧ (startedUp s).officeOut = [] ∧
      (startedUp s).counters = { s.counters with officeLinkDrops := bumpBy (startUpItems s).length s.counters.officeLinkDrops } := by
  obtain ⟨link, queue, counters⟩ := takenUp_port s
  obtain ⟨left, kept, counted⟩ := offerItems_down _ _ (startUpItems_each releasing noneWaits emptyWindow) (link.trans down)
  refine ⟨left, kept.trans (queue.trans emptyQueue), counted.trans ?_⟩
  rw [counters]

/-- Every instruction of the walk has left its slot, whatever the link. -/
theorem startedUp_left (emptyQueue : s.officeOut = []) : AllLeft { takenUp s with freeCount := s.freeCount + 1 } (startedUp s) := by
  cases link : s.officeLink with
  | up => exact (startedUp_up releasing noneWaits emptyWindow emptyQueue link).1
  | down => exact (startedUp_down releasing noneWaits emptyWindow emptyQueue link).1

omit noneWaits emptyWindow in
/-- The items are the notices that took a number and the instructions of the walk. -/
theorem startUpItems_numbered (fresh : s.noticeNumber = 0) :
    (startUpItems s).length = (startedUp s).noticeNumber + (takenUp s).awaiting.length := by
  rw [startUpItems_length (completionDue_false releasing), startUpItems_notices, startedUp_noticeNumber fresh]

end

/-- Outside a release no instruction waits, and none is offered. -/
theorem startedUp_idle (other : s.batch.state ≠ .releasing) (noneWaits : s.awaiting = []) :
    (startedUp s).window = s.window ∧ (startedUp s).awaiting = [] := by
  have taken : (takenUp s).window = s.window ∧ (takenUp s).awaiting = [] := by
    by_cases due : completionDue s = true
    · rw [takenUp_completed due]
      exact ⟨rfl, noneWaits⟩
    · rw [takenUp_stands due other]
      exact ⟨rfl, noneWaits⟩
  obtain ⟨window, awaiting⟩ := offerItems_idle (startUpItems s) { takenUp s with freeCount := s.freeCount + 1 } taken.2
  exact ⟨window.trans taken.1, awaiting⟩

/-- Settles O5: what the blocks take up by the state of the batch, and the fate of what they offer by the link. -/
theorem startUpTakesUpTheWorkLeftOver : Obligations.StartUpTakesUpTheWorkLeftOver := by
  intro s held configured unmarked fresh
  have batch := startedUp_batch s
  have pages := startedUp_pages s
  have walked (releasing : s.batch.state = .releasing) : walkRecords { s with
      inReset := false, pages := (startedUp s).pages
      batch := { s.batch with
        records := s.batch.records.map fun r =>
          if r.release = some ReleaseState.sent then { r with release := some .unconfirmed } else r } } = takenUp s := by
    rw [pages, takenUp_walked releasing]
    rfl
  refine ⟨startedUp s, exec_startUp_taken held configured unmarked, ?_, fun p => ?_, fun computing ended => ?_, fun computing early => ?_,
    fun releasing => ?_, fun releasing emptyQueue noneWaits emptyWindow => ?_, fun other another => ?_, fun other noneWaits => ?_, ?_, ?_⟩
  · obtain ⟨_, _, _, _, _, frame⟩ := startedUp_frame s
    obtain ⟨_, _, _, taken⟩ := takenUp_frame s
    rw [frame, taken]
  · show (startedUp s).pages.read .opened p = _
    rw [pages]
    exact read_tearPages _ _
  · rw [batch, takenUp_completed ((completionDue_iff s).2 ⟨computing, ended.ge⟩)]
  · rw [batch, takenUp_stands (fun due => absurd ((completionDue_iff s).1 due).2 (Nat.not_le.2 early)) (by rw [computing]; decide)]
  · dsimp only
    rw [walked releasing]
    refine ⟨batch, ?_, ?_, fun k => ?_, fun i r found sent => ?_⟩
    · rw [batch, takenUp_walked releasing]
      rfl
    · rw [batch, takenUp_walked releasing]
      rfl
    · exact startedUp_movedOn s k
    · rw [batch, takenUp_walked releasing]
      refine walkRecords_kept ?_ (by simp [BatchRecord.awaitsSending])
      show (s.batch.records.map _)[i]? = _
      rw [List.getElem?_map, found]
      exact congrArg some (if_pos sent)
  · dsimp only
    rw [walked releasing]
    have left := startedUp_left releasing noneWaits emptyWindow emptyQueue
    have numbered := startUpItems_numbered releasing fresh
    refine ⟨left.awaiting, startedUp_slots releasing noneWaits emptyWindow left, fun up => ?_, fun down => ?_⟩
    · obtain ⟨-, counters, length, instructions⟩ := startedUp_up releasing noneWaits emptyWindow emptyQueue up
      exact ⟨counters, length.trans numbered, instructions⟩
    · obtain ⟨-, queue, counters⟩ := startedUp_down releasing noneWaits emptyWindow emptyQueue down
      rw [numbered] at counters
      exact ⟨queue, counters⟩
  · rw [batch, takenUp_stands (fun due => other ((completionDue_iff s).1 due).1) another]
  · exact startedUp_idle other noneWaits
  · simp only [pageAt, pages, startedUp_noticeNumber fresh, completionDue_iff]
    rfl
  · obtain ⟨_, _, _, _, _, frame⟩ := startedUp_frame s
    obtain ⟨_, _, _, taken⟩ := takenUp_frame s
    rw [frame, taken]

end Sys2Proof.Machine
end
